-- ==== Sys2Proof/Word.lean ====
section
/-! DEFINITION. The widths of the RLB codec: bytes of the two memories, nibbles of a chunk result, 32-bit register words (R8, R9). -/

namespace Sys2Proof

/-- One byte of `BM`, `CM` or the code stream (R36). -/
abbrev Byte := BitVec 8

/-- A 4-bit chunk result, one bit per 8-byte group, MSB first (R10). -/
abbrev Nibble := BitVec 4

/-- One 32-bit register or command word (R13, R45). -/
abbrev Word := BitVec 32

end Sys2Proof
end

