-- ==== Sys2Proof/Syntax.lean ====
section
/-! DEFINITION. The twelve commands, one constructor per row of spec/opcode_table.json (R48). -/

namespace Sys2Proof

/-- A command of the block. `len` is the field `LEN`, the number of bytes the unit covers (R46); `nib` and `mask` are the
field `ARG`, the mask the parent level would have read from the stream (R47). -/
inductive Instr where
  | nop
  | init
  | srst
  | norm
  | enc1 (len : Nat)
  | enc2 (len : Nat)
  | enc3 (len : Nat)
  | encode
  | dec1 (len : Nat) (nib : Nibble)
  | dec2 (len : Nat) (mask : Byte)
  | dec3 (len : Nat) (mask : Byte)
  | decode
  deriving DecidableEq, Repr

end Sys2Proof
end

