-- ==== Sys2Proof/WellFormed.lean ====
section
/-! DEFINITION. Which commands have a command word: `LEN` is a 13-bit field (R45, R46). -/

namespace Sys2Proof

/-- `LEN` fits its field: 0 to 8191 are representable (R45). A length above the unit's size is well formed: it is the fault
`BAD_LEN`, "not an illegal command" (R46). -/
def lenFits (len : Nat) : Bool := decide (len < 8192)

/-- A command that some word of R48 encodes. -/
def Instr.wellFormed : Instr → Bool
  | .nop => true
  | .init => true
  | .srst => true
  | .norm => true
  | .enc1 len => lenFits len
  | .enc2 len => lenFits len
  | .enc3 len => lenFits len
  | .encode => true
  | .dec1 len _ => lenFits len
  | .dec2 len _ => lenFits len
  | .dec3 len _ => lenFits len
  | .decode => true

end Sys2Proof
end

