-- ==== Sys2Proof/Decode.lean ====
section
/-! DEFINITION. The command word: the decoder, total on every word, and the encoder (30_encoding.md part A, R45 to R49). -/

namespace Sys2Proof

/-- Field `OPC`, bits 31:24 (R45). -/
def opcField (w : Word) : BitVec 8 := w.extractLsb' 24 8

/-- Field `ARG`, bits 23:16 (R45). -/
def argField (w : Word) : BitVec 8 := w.extractLsb' 16 8

/-- Bits 23:20, which must be 0 in `DEC1` (R47). -/
def argHighField (w : Word) : BitVec 4 := w.extractLsb' 20 4

/-- Bits 19:16, the chunk nibble of `DEC1` (R47). -/
def nibField (w : Word) : Nibble := w.extractLsb' 16 4

/-- Field `Z`, bits 15:13, which must be 0 in every command (R45). -/
def zField (w : Word) : BitVec 3 := w.extractLsb' 13 3

/-- Field `LEN`, bits 12:0, used as it stands (R46). -/
def lenField (w : Word) : Nat := (w.extractLsb' 0 13).toNat

/-- A command without operands: `ARG`, `Z` and `LEN` must all be 0 (R49). -/
def decodeBare (w : Word) (i : Instr) : Option Instr :=
  if argField w = 0#8 ∧ zField w = 0#3 ∧ lenField w = 0 then some i else none

/-- An encode unit command: `ARG` and `Z` must be 0 (R49). -/
def decodeLen (w : Word) (mk : Nat → Instr) : Option Instr :=
  if argField w = 0#8 ∧ zField w = 0#3 then some (mk (lenField w)) else none

/-- `DEC1`: bits 23:20 and `Z` must be 0 (R47, R49). -/
def decodeLenNib (w : Word) (mk : Nat → Nibble → Instr) : Option Instr :=
  if argHighField w = 0#4 ∧ zField w = 0#3 then some (mk (lenField w) (nibField w)) else none

/-- `DEC2`, `DEC3`: `Z` must be 0 (R47, R49). -/
def decodeLenMask (w : Word) (mk : Nat → Byte → Instr) : Option Instr :=
  if zField w = 0#3 then some (mk (lenField w) (argField w)) else none

/-- The opcode map of R48. `none` is an illegal word (R49): it raises `ILLEGAL_CMD` (R104). -/
def decode (w : Word) : Option Instr :=
  if opcField w = 0x00#8 then decodeBare w .nop
  else if opcField w = 0x01#8 then decodeBare w .init
  else if opcField w = 0x02#8 then decodeBare w .srst
  else if opcField w = 0x08#8 then decodeBare w .norm
  else if opcField w = 0x10#8 then decodeLen w .enc1
  else if opcField w = 0x11#8 then decodeLen w .enc2
  else if opcField w = 0x12#8 then decodeLen w .enc3
  else if opcField w = 0x13#8 then decodeBare w .encode
  else if opcField w = 0x20#8 then decodeLenNib w .dec1
  else if opcField w = 0x21#8 then decodeLenMask w .dec2
  else if opcField w = 0x22#8 then decodeLenMask w .dec3
  else if opcField w = 0x23#8 then decodeBare w .decode
  else none

/-- "The word of a command is `(OPC << 24) | (ARG << 16) | LEN`" (R48). -/
def commandWord (opc arg : BitVec 8) (len : Nat) : Word :=
  (opc.setWidth 32 <<< 24) ||| (arg.setWidth 32 <<< 16) ||| (BitVec.ofNat 13 len).setWidth 32

/-- The word of a command (R48). -/
def encode : Instr → Word
  | .nop => commandWord 0x00#8 0#8 0
  | .init => commandWord 0x01#8 0#8 0
  | .srst => commandWord 0x02#8 0#8 0
  | .norm => commandWord 0x08#8 0#8 0
  | .enc1 len => commandWord 0x10#8 0#8 len
  | .enc2 len => commandWord 0x11#8 0#8 len
  | .enc3 len => commandWord 0x12#8 0#8 len
  | .encode => commandWord 0x13#8 0#8 0
  | .dec1 len nib => commandWord 0x20#8 (nib.setWidth 8) len
  | .dec2 len mask => commandWord 0x21#8 mask len
  | .dec3 len mask => commandWord 0x22#8 mask len
  | .decode => commandWord 0x23#8 0#8 0

/-- The word whose low `nbits` bits are those of `w` and whose other bits are 0. -/
def tableWord (nbits w : Nat) : Word := BitVec.ofNat 32 (w % 2 ^ nbits)

/-- What the decoder reads from a word numbered as spec/opcode_table.json numbers it: the command word is one 32-bit value
with bit 0 its least significant bit (R8, R45), so no byte order enters. -/
def decodeTableWord (nbits w : Nat) : Option Instr := decode (tableWord nbits w)

end Sys2Proof
end

