-- ==== Sys2Proof/Config.lean ====
section
/-! DEFINITION. What one implementation fixes (R5) and the free values: values the spec leaves open, which no proof can see. -/

namespace Sys2Proof.Config

/-- Greatest `BM_SIZE` an implementation may have (R5); the least is 1. -/
def bmSizeMax : Nat := 2 ^ 28

/-- Greatest `CM_SIZE` an implementation may have (R5); the least is 1. -/
def cmSizeMax : Nat := 2 ^ 30

/-- `BM_SIZE` of the spec's test configuration (R5). DESIGN CHOICE for `State.reset` only (log 1): `State` holds the
parameter, so a statement about every state holds for every size. Unsafe where a claim starts at `State.reset`. -/
def testBmSize : Word := 8192#32

/-- `CM_SIZE` of the spec's test configuration (R5): `WCSIZE(8192)`. DESIGN CHOICE as `testBmSize` (log 1), unsafe as it. -/
def testCmSize : Word := 8708#32

/-- DESIGN CHOICE, a free value (log 8; R126, U6): what a host read of anything but `STATUS` returns while `BUSY = 1`, a fresh one for each
value of `State.fresh`. Safe. -/
opaque busyRead : Nat → Word

/-- DESIGN CHOICE, a free value (log 3; R32, R123, U1, U8): the byte that `BM` holds at an offset after the hardware reset numbered by
`State.fresh`. Safe. -/
opaque bmAfterReset : Nat → Nat → Byte

/-- DESIGN CHOICE, a free value (log 3; R32, R123, U1, U8): as `bmAfterReset`, for `CM`. Safe. -/
opaque cmAfterReset : Nat → Nat → Byte

end Sys2Proof.Config
end

