-- ==== Sys2Proof/Machine/State.lean ====
section
/-! DEFINITION. The state of one RLB instance as plain data (10_state.md R13), the host's moves (20_memory.md R34), and the
values that live inside a command only (R31). -/

namespace Sys2Proof.Machine

/-- A byte memory: (offset, byte) cells, offsets strictly rising, none equal to `unlistedByte`. -/
abbrev Memory := List Host.Cell

/-- What an unlisted offset of `BM` or `CM` reads as. DESIGN CHOICE (log 2): the spec leaves the memories unspecified after
reset (R32, U1). Unsafe for claims that start at `State.reset`; a claim about every state covers every content. -/
def unlistedByte : Byte := 0x00#8

/-- The fault causes of R103, codes 0 to 11; codes 12 to 255 are never produced. -/
inductive Cause where
  | none
  | illegalCmd
  | badLen
  | badBitlen
  | outTooSmall
  | outOverflow
  | bmRange
  | badClen
  | corruptTruncated
  | corruptZeroMask
  | corruptMaskRange
  | corruptTrailing
  deriving DecidableEq, Repr

/-- `raise F(a)` of the pseudocode (R11): the cause and the `BM` offset that fault entry records. -/
structure Raise where
  cause : Cause
  addr : Nat
  deriving DecidableEq, Repr

/-- The fourteen registers of R13. -/
inductive Reg where
  | cmd
  | status
  | cause
  | faddr
  | bitlen
  | clen
  | bcur
  | ctail
  | matchByte
  | result
  | l1mask
  | wcsz
  | bmsize
  | cmsize
  deriving DecidableEq, Repr

/-- The width of a host access to the register window (R37). -/
inductive Width where
  | byte
  | half
  | word
  deriving DecidableEq, Repr

/-- The host's moves (R34). A register access names its width and its offset in the 256-byte register window (R33), so that
reserved, sub-word and misaligned accesses (R28, R37) are moves too. -/
inductive HostMove where
  | writeBM (a : Nat) (v : Byte)
  | readBM (a : Nat)
  | writeCM (a : Nat) (v : Byte)
  | readCM (a : Nat)
  | writeReg (width : Width) (off : BitVec 8) (w : Word)
  | readReg (width : Width) (off : BitVec 8)
  | reset
  deriving DecidableEq, Repr

/-- What happens next at the boundary of the block: a move of the host, or the block's turn, in which the command in execution
runs to completion as one indivisible step (R7). DESIGN CHOICE (log 4): the order is plain data. Safe. -/
inductive Event where
  | host (m : HostMove)
  | block
  deriving DecidableEq, Repr

/-- Why a step stops. No command ever stops: the block's own faults are next states (R118). -/
inductive Fault where
  /-- Raised by the host moves `writeBM`, `readBM`, `writeCM`, `readCM` at an offset at or beyond the memory's size: "is
  outside the window and is not a move of this block" (R34, U14). Safe (log 9). -/
  | outsideWindow
  deriving DecidableEq, Repr

/-- Why a step is refused. -/
inductive Refusal where
  /-- Raised by the arms of `exec` for commands without a meaning; there are none. Safe. -/
  | notModelled (mnemonic : String)
  deriving DecidableEq, Repr

/-- One RLB instance (R13) and the host's side of its interface. -/
structure State where
  /-- `BMSIZE`: the parameter `BM_SIZE`, hardwired (R5, R27). -/
  bmSize : Word
  /-- `CMSIZE`: the parameter `CM_SIZE`, hardwired (R5, R27). -/
  cmSize : Word
  /-- The bitmap memory `BM` (R29). -/
  bm : Memory
  /-- The code memory `CM` (R30). -/
  cm : Memory
  /-- The command in execution: the word whose write of `CMD` was accepted, until it completes or faults. It is the one home of
  `STATUS.BUSY`, which is 1 exactly when a command is in execution (R20, R21; log 6). It cannot be read back (R21). -/
  command : Option Word
  /-- `STATUS.DONE` (R20). -/
  done : Bool
  /-- `STATUS.FAULT`, sticky (R20). -/
  fault : Bool
  /-- `CAUSE` (R22). -/
  cause : Cause
  /-- `FADDR` (R23). -/
  faddr : Word
  /-- `BITLEN` (R14). -/
  bitlen : Word
  /-- `CLEN` (R15). -/
  clen : Word
  /-- `BCUR` (R16). -/
  bcur : Word
  /-- `CTAIL` (R17). -/
  ctail : Word
  /-- `MATCHBIT`, the one bit of storage of `MATCH` (R18). -/
  matchBit : Bool
  /-- `RESULT[7:0]`; bits 31:8 always read 0 (R24). -/
  result : Byte
  /-- `L1MASK` (R25). -/
  l1mask : Word
  /-- The model's own (log 4): the events still to come, first one first. -/
  agenda : List Event
  /-- The model's own (log 12): what the host's last read returned. -/
  hostData : Word
  /-- The model's own (log 12): the counter that free values are applied to. -/
  fresh : Nat
  deriving DecidableEq, Repr

/-- The machine right after hardware reset (R32, R123). DESIGN CHOICE: the two sizes (log 1), the memories (log 2) and the
model's own fields (log 4, log 12). Unsafe for the first two. -/
def State.reset : State where
  bmSize := Config.testBmSize
  cmSize := Config.testCmSize
  bm := []
  cm := []
  command := none
  done := false
  fault := false
  cause := .none
  faddr := 0#32
  bitlen := 0#32
  clen := 0#32
  bcur := 0#32
  ctail := 0#32
  matchBit := false
  result := 0#8
  l1mask := 0#32
  agenda := []
  hostData := 0#32
  fresh := 0

/-! ### Values inside a command (R31)

Cursors inside a command are unbounded naturals (R9, R40; log 11): a reserve at a host-written `CTAIL` near 2^32 must not wrap
past a check. -/

/-- One 8-byte group after Level 1's pass: its mask, its literals, the run state after it (R66). -/
structure GroupCode where
  mask : Byte
  lits : List Byte
  matchBit : Bool
  deriving DecidableEq, Repr

/-- One chunk after Level 1's pass: result, presence vector, staged bytes, run state (R66). -/
structure ChunkCode where
  nib : Nibble
  vec : Word
  stage : List Byte
  matchBit : Bool
  deriving DecidableEq, Repr

/-- What an encode unit reads and never writes. -/
structure EncEnv where
  bm : Memory
  bmSize : Nat
  cmSize : Nat
  deriving DecidableEq, Repr

/-- What an encode unit changes: the shadow of its writes (R31). -/
structure EncWork where
  cm : Memory
  bcur : Nat
  ctail : Nat
  matchBit : Bool
  l1mask : Word
  deriving DecidableEq, Repr

/-- What a decode unit reads and never writes. -/
structure DecEnv where
  cm : Memory
  clen : Nat
  bmSize : Nat
  deriving DecidableEq, Repr

/-- What a decode unit changes: the shadow of its writes (R31). -/
structure DecWork where
  bm : Memory
  bcur : Nat
  ctail : Nat
  matchBit : Bool
  deriving DecidableEq, Repr

/-- Bytes reconstructed from the stream, with the run state and the read cursor after them (R89). -/
structure DecRun where
  bytes : List Byte
  matchBit : Bool
  ctail : Nat
  deriving DecidableEq, Repr

end Sys2Proof.Machine
end

