-- ==== Sys2Proof/Machine/Flags.lean ====
section
/-! DEFINITION. `STATUS` and its three flags (R20), the cause codes of `CAUSE` (R103). There are no condition codes. -/

namespace Sys2Proof.Machine

/-- `STATUS.BUSY`: a command is in execution (R20). -/
def State.busy (s : State) : Bool := s.command.isSome

/-- `STATUS`: bit 0 `BUSY`, bit 1 `DONE`, bit 2 `FAULT`, bits 31:3 read 0 (R20). -/
def State.statusWord (s : State) : Word :=
  (if s.busy then 1#32 else 0#32) ||| (if s.done then 2#32 else 0#32) ||| (if s.fault then 4#32 else 0#32)

/-- The code of a cause (R103). -/
def causeCode : Cause → Byte
  | .none => 0#8
  | .illegalCmd => 1#8
  | .badLen => 2#8
  | .badBitlen => 3#8
  | .outTooSmall => 4#8
  | .outOverflow => 5#8
  | .bmRange => 6#8
  | .badClen => 7#8
  | .corruptTruncated => 8#8
  | .corruptZeroMask => 9#8
  | .corruptMaskRange => 10#8
  | .corruptTrailing => 11#8

/-- Acceptance of a command word: `DONE <- 0`, `BUSY <- 1` (R21). -/
def State.accept (s : State) (w : Word) : State := { s with command := some w, done := false }

/-- The flags at completion: `BUSY <- 0`, `DONE <- 1` (R20, R21). -/
def State.completed (s : State) : State := { s with command := none, done := true }

/-- The flags at fault entry: `BUSY <- 0`, `DONE <- 0`, `FAULT <- 1` (R118). -/
def State.faulted (s : State) : State := { s with command := none, done := false, fault := true }

end Sys2Proof.Machine
end

