-- ==== Sys2Proof/Machine/Operands.lean ====
section
/-! DEFINITION. The helper functions of R12, the masks of R10 and the operand forms of the commands (R46, R47). -/

namespace Sys2Proof.Machine

/-- The run state as a byte, `0x00` or `0xFF`, from its one bit of storage (R18). -/
def matchByte (m : Bool) : Byte := if m then 0xFF#8 else 0x00#8

/-- `Next(b)` as the bit of storage: set exactly when bit 0 of the literal is set (R12). -/
def nextBit (b : Byte) : Bool := b.getLsbD 0

/-- `GroupCount(n)`: 8-byte groups of a chunk of `n` bytes (R12). -/
def groupCount (n : Nat) : Nat := (n + 7) / 8

/-- `GroupSize(n, g)`: bytes of group `g` of a chunk of `n` bytes (R12). -/
def groupSize (n g : Nat) : Nat := min 8 (n - 8 * g)

/-- `TopBits(W, c)`: the `c` highest bits of a `W`-bit mask (R12). -/
def topBits (w c : Nat) : BitVec w := BitVec.allOnes w <<< (w - c)

/-- `FullNibble(n)`: every group of a chunk of `n` bytes marked (R12). -/
def fullNibble (n : Nat) : Nibble := topBits 4 (groupCount n)

/-- `RoundCount(n)`: 64-byte rounds of a block of `n` bytes (R12). -/
def roundCount (n : Nat) : Nat := (n + 63) / 64

/-- `BlockCount(n)`: 512-byte blocks of a region of `n` bytes (R12). -/
def blockCount (n : Nat) : Nat := (n + 511) / 512

/-- `RegionCount(N)`: 4096-byte regions of a buffer of `N` bytes (R12). -/
def regionCount (n : Nat) : Nat := (n + 4095) / 4096

/-- `NBYTES(bitlen)`: bytes that hold `bitlen` bits (R12, R14). -/
def nbytes (bitlen : Nat) : Nat := (bitlen + 7) / 8

/-- `WCSIZE(N)`: the worst-case code size (R12, R85). -/
def wcsize (n : Nat) : Nat := n + (n + 15) / 16 + 4

/-- The nibble bit of group `g`, MSB first (R10). -/
def groupBit (g : Nat) : Nibble := 0x8#4 >>> g

/-- The mask bit of child or byte `k` of an 8-bit mask, MSB first (R10). -/
def childBit (k : Nat) : Byte := 0x80#8 >>> k

/-- Group `g` is marked in the chunk nibble. -/
def hasGroup (nib : Nibble) (g : Nat) : Bool := nib &&& groupBit g != 0#4

/-- Child `k` is marked in the 8-bit mask. -/
def hasChild (mask : Byte) (k : Nat) : Bool := mask &&& childBit k != 0#8

/-- The mask has a bit for a child that a unit of `count` children does not have (R91, R92, R114). -/
def maskBeyond (mask : Byte) (count : Nat) : Bool := mask &&& ~~~ topBits 8 count != 0#8

/-- The nibble has a bit for a group that a chunk of `n` bytes does not have (R89, R114). -/
def nibBeyond (nib : Nibble) (n : Nat) : Bool := nib &&& ~~~ fullNibble n != 0#4

/-- The group mask has a bit for a byte that a group of `s` bytes does not have: `gm & (0xFF >> s)` (R89, R114). -/
def groupMaskBeyond (gm : Byte) (s : Nat) : Bool := gm &&& (0xFF#8 >>> s) != 0#8

/-- The pair byte: first chunk's nibble in bits 7:4, second chunk's in bits 3:0 (R55, R76). -/
def pairByte (a b : Nibble) : Byte := (a.setWidth 8 <<< 4) ||| b.setWidth 8

/-- `pair >> 4` (R91). -/
def pairHigh (p : Byte) : Nibble := p.extractLsb' 4 4

/-- `pair & 0xF` (R91). -/
def pairLow (p : Byte) : Nibble := p.extractLsb' 0 4

/-- Bytes of the first chunk of a round of which `rem` bytes are left in the block: `min(32, rem)` (R76, R91). -/
def firstChunk (rem : Nat) : Nat := min 32 rem

/-- Bytes of the second chunk of the round: `min(32, max(0, rem - 32))` (R76, R91). -/
def secondChunk (rem : Nat) : Nat := min 32 (rem - 32)

/-- The register at an offset of the register window; offsets that are no multiple of 4 and offsets from 0x38 up name none
(R13, R33, R37). -/
def regAt (off : BitVec 8) : Option Reg :=
  if off = 0x00#8 then some .cmd
  else if off = 0x04#8 then some .status
  else if off = 0x08#8 then some .cause
  else if off = 0x0C#8 then some .faddr
  else if off = 0x10#8 then some .bitlen
  else if off = 0x14#8 then some .clen
  else if off = 0x18#8 then some .bcur
  else if off = 0x1C#8 then some .ctail
  else if off = 0x20#8 then some .matchByte
  else if off = 0x24#8 then some .result
  else if off = 0x28#8 then some .l1mask
  else if off = 0x2C#8 then some .wcsz
  else if off = 0x30#8 then some .bmsize
  else if off = 0x34#8 then some .cmsize
  else none

/-- The offset of a register (R13). -/
def regOffset : Reg → BitVec 8
  | .cmd => 0x00#8
  | .status => 0x04#8
  | .cause => 0x08#8
  | .faddr => 0x0C#8
  | .bitlen => 0x10#8
  | .clen => 0x14#8
  | .bcur => 0x18#8
  | .ctail => 0x1C#8
  | .matchByte => 0x20#8
  | .result => 0x24#8
  | .l1mask => 0x28#8
  | .wcsz => 0x2C#8
  | .bmsize => 0x30#8
  | .cmsize => 0x34#8

/-- The register a host access reaches: only a whole word at a register's offset reaches one (R28, R37). -/
def regReached : Width → BitVec 8 → Option Reg
  | .word, off => regAt off
  | .half, _ => none
  | .byte, _ => none

end Sys2Proof.Machine
end

