-- ==== Sys2Proof/Machine/Ops.lean ====
section
/-! DEFINITION. The named operations: the two byte memories (R29, R30, R36), fault entry (R118), completion (R24), the way out
of the fault state (R119, R101, R123), and the shadow of a command's writes (R11, R31). -/

namespace Sys2Proof.Machine

/-! ### Byte memories -/

/-- The canonical form: offsets strictly rising, no cell equal to what an unlisted offset reads as. -/
abbrev Memory.wf (m : Memory) : Prop := m.Pairwise (fun c d => c.1 < d.1) ∧ ∀ c ∈ m, c.2 ≠ unlistedByte

/-- Every listed offset lies in a memory of `size` bytes (R29, R30). -/
abbrev Memory.within (m : Memory) (size : Nat) : Prop := ∀ c ∈ m, c.1 < size

/-- Reads one byte (R36). -/
def Memory.read : Memory → Nat → Byte
  | [], _ => unlistedByte
  | (b, v) :: m, a => if a = b then v else Memory.read m a

/-- A cell, unless an unlisted offset reads as its byte anyway. -/
def Memory.cell (a : Nat) (v : Byte) (m : Memory) : Memory := if v = unlistedByte then m else (a, v) :: m

/-- Writes one byte (R36), keeping the canonical form. -/
def Memory.write : Memory → Nat → Byte → Memory
  | [], a, v => Memory.cell a v []
  | (b, u) :: m, a, v =>
    if a < b then Memory.cell a v ((b, u) :: m)
    else if a = b then Memory.cell a v m
    else (b, u) :: Memory.write m a v

/-- Reads `n` bytes from `a` upward, one byte at a time (R36, R39). -/
def Memory.readBytes (m : Memory) : Nat → Nat → List Byte
  | _, 0 => []
  | a, n + 1 => m.read a :: Memory.readBytes m (a + 1) n

/-- Writes bytes from `a` upward, one byte at a time (R36, R39). -/
def Memory.writeBytes : Memory → Nat → List Byte → Memory
  | m, _, [] => m
  | m, a, v :: vs => Memory.writeBytes (m.write a v) (a + 1) vs

/-- The memory of `count` bytes from offset `a` upward whose byte at each offset is `f` of it. -/
def Memory.ofBytes (f : Nat → Byte) : Nat → Nat → Memory
  | _, 0 => []
  | a, count + 1 => Memory.cell a (f a) (Memory.ofBytes f (a + 1) count)

/-! ### Fault entry, completion, reset -/

/-- Fault entry (R118): the command's writes are undone (`s` is the state from before the command), `CAUSE` and `FADDR` are
written, `BUSY` and `DONE` are cleared and `FAULT` is set. -/
def faultEntry (r : Raise) (s : State) : State :=
  { s.faulted with cause := r.cause, faddr := BitVec.ofNat 32 r.addr }

/-- Completion: `RESULT` is written (R24), `BUSY <- 0`, `DONE <- 1` (R21). -/
def complete (res : Byte) (s : State) : State := { s.completed with result := res }

/-- Every register takes its reset value; the memories, the two size registers and the host's side stay (R32, R101). -/
def resetRegs (s : State) : State :=
  { s with
    command := none, done := false, fault := false, cause := .none, faddr := 0#32, bitlen := 0#32, clen := 0#32,
    bcur := 0#32, ctail := 0#32, matchBit := false, result := 0#8, l1mask := 0#32 }

/-- Hardware reset (R123): the registers as `resetRegs`, every byte of `BM` and `CM` a free value (log 3). A command in execution
is abandoned without completing and without fault. -/
def hardwareReset (s : State) : State :=
  { resetRegs s with
    bm := Memory.ofBytes (Config.bmAfterReset s.fresh) 0 s.bmSize.toNat
    cm := Memory.ofBytes (Config.cmAfterReset s.fresh) 0 s.cmSize.toNat
    fresh := s.fresh + 1 }

/-- A command other than `SRST` issued while `FAULT = 1` changes nothing (R102, R119); otherwise its effect is `t`. -/
def unlessFaulted (s t : State) : Host.Outcome State Fault Refusal := .next (if s.fault then s else t)

/-! ### The shadow of a command's writes -/

/-- What an encode unit reads. -/
def State.encEnv (s : State) : EncEnv := { bm := s.bm, bmSize := s.bmSize.toNat, cmSize := s.cmSize.toNat }

/-- The working copy an encode unit starts from. -/
def State.encWork (s : State) : EncWork :=
  { cm := s.cm, bcur := s.bcur.toNat, ctail := s.ctail.toNat, matchBit := s.matchBit, l1mask := s.l1mask }

/-- Commits an encode unit's writes. -/
def State.commitEnc (s : State) (w : EncWork) : State :=
  { s with
    cm := w.cm, bcur := BitVec.ofNat 32 w.bcur, ctail := BitVec.ofNat 32 w.ctail, matchBit := w.matchBit, l1mask := w.l1mask }

/-- What a decode unit reads. -/
def State.decEnv (s : State) : DecEnv := { cm := s.cm, clen := s.clen.toNat, bmSize := s.bmSize.toNat }

/-- The working copy a decode unit starts from. -/
def State.decWork (s : State) : DecWork :=
  { bm := s.bm, bcur := s.bcur.toNat, ctail := s.ctail.toNat, matchBit := s.matchBit }

/-- Commits a decode unit's writes. -/
def State.commitDec (s : State) (w : DecWork) : State :=
  { s with bm := w.bm, bcur := BitVec.ofNat 32 w.bcur, ctail := BitVec.ofNat 32 w.ctail, matchBit := w.matchBit }

/-- The end of an encode unit command: fault entry, or its writes and its result mask. -/
def endEnc (s : State) : Except Raise (Byte × EncWork) → State
  | .error r => faultEntry r s
  | .ok (res, w) => complete res (s.commitEnc w)

/-- The end of a decode command: fault entry, or its writes and `RESULT <- 0`. -/
def endDec (s : State) : Except Raise DecWork → State
  | .error r => faultEntry r s
  | .ok w => complete 0#8 (s.commitDec w)

end Sys2Proof.Machine
end

