-- ==== Sys2Proof/Machine/Control.lean ====
section
/-! DEFINITION. The control commands NOP, INIT, SRST (45_control_commands.md). -/

namespace Sys2Proof.Machine

/-- `NOP` (R99): `RESULT <- 0`, nothing else. -/
def execNop (s : State) : Host.Outcome State Fault Refusal := unlessFaulted s (complete 0#8 s)

/-- The fresh context of `INIT` (R100): `MATCH`, both cursors and `L1MASK` cleared. -/
def State.freshContext (s : State) : State := { s with matchBit := false, bcur := 0#32, ctail := 0#32, l1mask := 0#32 }

/-- `INIT` (R100). -/
def execInit (s : State) : Host.Outcome State Fault Refusal := unlessFaulted s (complete 0#8 s.freshContext)

/-- `SRST` (R101, R124): soft reset, also while `FAULT = 1`; `DONE` is not set. -/
def execSrst (s : State) : Host.Outcome State Fault Refusal := .next (resetRegs s)

end Sys2Proof.Machine
end

