-- ==== Sys2Proof/Machine/Decoder.lean ====
section
/-! DEFINITION. The decoder: DEC1, DEC2, DEC3, DECODE (44_decoder.md). -/

namespace Sys2Proof.Machine

/-- `CmRead(t, c)` (R88): no read of the stream reaches `CLEN`. -/
def cmRead (env : DecEnv) (t c : Nat) : Except Raise Byte :=
  if t ≥ env.clen then .error ⟨.corruptTruncated, c⟩ else .ok (env.cm.read t)

/-- The loop over the `left` bytes of one marked group from byte `j` on (R89): a marked byte is read from the stream and moves
the run state, any other is the run state. -/
def decodeGroup (env : DecEnv) (c : Nat) (gm : Byte) : (left j : Nat) → Bool → Nat → Except Raise DecRun
  | 0, _, m, t => .ok { bytes := [], matchBit := m, ctail := t }
  | left + 1, j, m, t =>
    if hasChild gm j then do
      let b ← cmRead env t c
      let r ← decodeGroup env c gm left (j + 1) (nextBit b) (t + 1)
      .ok { r with bytes := b :: r.bytes }
    else do
      let r ← decodeGroup env c gm left (j + 1) m t
      .ok { r with bytes := matchByte m :: r.bytes }

/-- A marked group of `s` bytes: its mask is read and checked, then its bytes (R89). -/
def markedGroup (env : DecEnv) (c s : Nat) (m : Bool) (t : Nat) : Except Raise DecRun := do
  let gm ← cmRead env t c
  if gm = 0x00#8 then .error ⟨.corruptZeroMask, c⟩
  else if groupMaskBeyond gm s then .error ⟨.corruptMaskRange, c⟩
  else decodeGroup env c gm s 0 m (t + 1)

/-- `s` bytes absent from the stream: each is the run state (R56, R89). -/
def absentBytes (s : Nat) (m : Bool) (t : Nat) : DecRun := { bytes := List.replicate s (matchByte m), matchBit := m, ctail := t }

/-- The masked form of a chunk of `n` bytes, the `left` groups from group `g` on (R89). -/
def decodeGroups (env : DecEnv) (c n : Nat) (nib : Nibble) : (left g : Nat) → Bool → Nat → Except Raise DecRun
  | 0, _, m, t => .ok { bytes := [], matchBit := m, ctail := t }
  | left + 1, g, m, t => do
    let r ← if hasGroup nib g then markedGroup env c (groupSize n g) m t
      else .ok (absentBytes (groupSize n g) m t)
    let rs ← decodeGroups env c n nib left (g + 1) r.matchBit r.ctail
    .ok { rs with bytes := r.bytes ++ rs.bytes }

/-- The run state after raw bytes: `m = Next(b)` for each (R89). -/
def runAfter (m : Bool) (bs : List Byte) : Bool := bs.foldl (fun _ b => nextBit b) m

/-- A fallback chunk whose marker stands at `t` (R57, R89). -/
def fallbackChunk (env : DecEnv) (c n : Nat) (m : Bool) (t : Nat) : Except Raise DecRun :=
  if t + 1 + n > env.clen then .error ⟨.corruptTruncated, c⟩
  else
    let bs := env.cm.readBytes (t + 1) n
    .ok { bytes := bs, matchBit := runAfter m bs, ctail := t + 1 + n }

/-- A chunk of `n >= 1` bytes with a non-zero nibble: the marker is looked for only where every present group is marked (R58,
R89). -/
def markedChunk (env : DecEnv) (c n : Nat) (nib : Nibble) (m : Bool) (t : Nat) : Except Raise DecRun :=
  if nib = fullNibble n then do
    let b ← cmRead env t c
    if b = 0x00#8 then fallbackChunk env c n m t else decodeGroups env c n nib (groupCount n) 0 m t
  else decodeGroups env c n nib (groupCount n) 0 m t

/-- `Dec1(n, nib)` (R89): one chunk. For `n = 0` it only checks that no group is marked. -/
def dec1 (env : DecEnv) (n : Nat) (nib : Nibble) (w : DecWork) : Except Raise DecWork :=
  if nibBeyond nib n then .error ⟨.corruptMaskRange, w.bcur⟩
  else if n = 0 then .ok w
  else if w.bcur + n > env.bmSize then .error ⟨.bmRange, w.bcur⟩
  else do
    let r ← if nib = 0#4 then .ok (absentBytes n w.matchBit w.ctail)
      else markedChunk env w.bcur n nib w.matchBit w.ctail
    .ok { bm := w.bm.writeBytes w.bcur r.bytes, bcur := w.bcur + n, ctail := r.ctail, matchBit := r.matchBit }

/-- The inverse of the masked block routine over the `left` children from child `k` on (R91, R92): a marked child's mask byte is
read from the stream and must not be zero, an unmarked child's mask is zero. -/
def unmaskedBlock (env : DecEnv) (unit : Nat) (child : Nat → Byte → DecWork → Except Raise DecWork) (mask : Byte) :
    (left k rem : Nat) → DecWork → Except Raise DecWork
  | 0, _, _, w => .ok w
  | left + 1, k, rem, w =>
    if hasChild mask k then do
      let v ← cmRead env w.ctail w.bcur
      if v = 0x00#8 then .error ⟨.corruptZeroMask, w.bcur⟩
      else do
        let w' ← child (min unit rem) v { w with ctail := w.ctail + 1 }
        unmaskedBlock env unit child mask left (k + 1) (rem - unit) w'
    else do
      let w' ← child (min unit rem) 0x00#8 w
      unmaskedBlock env unit child mask left (k + 1) (rem - unit) w'

/-- One round of Level 2: its one or two chunks with the nibbles of the pair byte (R91). -/
def decRound (env : DecEnv) (rem : Nat) (pair : Byte) (w : DecWork) : Except Raise DecWork := do
  let w1 ← dec1 env (firstChunk rem) (pairHigh pair) w
  dec1 env (secondChunk rem) (pairLow pair) w1

/-- `Dec2(n, mask)` (R91): one block. -/
def dec2 (env : DecEnv) (n : Nat) (mask : Byte) (w : DecWork) : Except Raise DecWork :=
  if maskBeyond mask (roundCount n) then .error ⟨.corruptMaskRange, w.bcur⟩
  else unmaskedBlock env 64 (decRound env) mask (roundCount n) 0 n w

/-- `Dec3(n, mask)` (R92): one region. -/
def dec3 (env : DecEnv) (n : Nat) (mask : Byte) (w : DecWork) : Except Raise DecWork :=
  if maskBeyond mask (blockCount n) then .error ⟨.corruptMaskRange, w.bcur⟩
  else unmaskedBlock env 512 (dec2 env) mask (blockCount n) 0 n w

/-- The two checks every decode unit command makes first (R90, R93, R94), in the order of R117; then its unit. -/
def decUnit (size len : Nat) (unit : DecEnv → DecWork → Except Raise DecWork) (s : State) : State :=
  if len > size then faultEntry ⟨.badLen, s.bcur.toNat⟩ s
  else if s.clen.toNat > s.cmSize.toNat then faultEntry ⟨.badClen, s.bcur.toNat⟩ s
  else endDec s (unit s.decEnv s.decWork)

/-- `DEC1` without the fault guard (R90). -/
def dec1Command (len : Nat) (nib : Nibble) (s : State) : State := decUnit 32 len (fun env w => dec1 env len nib w) s

/-- `DEC2` without the fault guard (R93). -/
def dec2Command (len : Nat) (mask : Byte) (s : State) : State := decUnit 512 len (fun env w => dec2 env len mask w) s

/-- `DEC3` without the fault guard (R94). -/
def dec3Command (len : Nat) (mask : Byte) (s : State) : State := decUnit 4096 len (fun env w => dec3 env len mask w) s

/-- `DEC1 #n, #nib` (R90). -/
def execDec1 (len : Nat) (nib : Nibble) (s : State) : Host.Outcome State Fault Refusal :=
  unlessFaulted s (dec1Command len nib s)

/-- `DEC2 #n, #mask` (R93). -/
def execDec2 (len : Nat) (mask : Byte) (s : State) : Host.Outcome State Fault Refusal :=
  unlessFaulted s (dec2Command len mask s)

/-- `DEC3 #n, #mask` (R94). -/
def execDec3 (len : Nat) (mask : Byte) (s : State) : Host.Outcome State Fault Refusal :=
  unlessFaulted s (dec3Command len mask s)

/-- The region loop of `DECODE` (R95): each region's `M3` byte, which may be zero, then the region. -/
def decRegions (env : DecEnv) : (left rem : Nat) → DecWork → Except Raise DecWork
  | 0, _, w => .ok w
  | left + 1, rem, w => do
    let m3 ← cmRead env w.ctail w.bcur
    let w' ← dec3 env (min 4096 rem) m3 { w with ctail := w.ctail + 1 }
    decRegions env left (rem - 4096) w'

/-- `DECODE` after its checks (R95): an empty stream is all zero; else the regions, and nothing may be left over. -/
def decodeStream (env : DecEnv) (n : Nat) (bm : Memory) : Except Raise DecWork :=
  if env.clen = 0 then
    .ok { bm := bm.writeBytes 0 (List.replicate n 0x00#8), bcur := n, ctail := 0, matchBit := false }
  else do
    let w ← decRegions env (regionCount n) n { bm := bm, bcur := 0, ctail := 0, matchBit := false }
    if w.ctail = env.clen then .ok w else .error ⟨.corruptTrailing, w.bcur⟩

/-- `DECODE` without the fault guard (R95). -/
def decodeCommand (s : State) : State :=
  if s.bitlen.toNat > 8 * s.bmSize.toNat then faultEntry ⟨.badBitlen, 0⟩ s
  else if s.clen.toNat > s.cmSize.toNat then faultEntry ⟨.badClen, 0⟩ s
  else endDec s (decodeStream s.decEnv (nbytes s.bitlen.toNat) s.bm)

/-- `DECODE` (R95). -/
def execDecode (s : State) : Host.Outcome State Fault Refusal := unlessFaulted s (decodeCommand s)

end Sys2Proof.Machine
end

