-- ==== Sys2Proof/Machine/Level1.lean ====
section
/-! DEFINITION. Level 1, the byte-run literal encoder: ENC1 (41_level1_encoder.md). -/

namespace Sys2Proof.Machine

/-- The loop over the bytes of one group from byte `j` on, with run state `m` (R66): a byte that differs from the run state is a
literal, sets its mask bit and moves the run state to `Next` of it. -/
def encodeGroup (m : Bool) (j : Nat) : List Byte → GroupCode
  | [] => { mask := 0#8, lits := [], matchBit := m }
  | b :: bs =>
    if b = matchByte m then encodeGroup m (j + 1) bs
    else
      let gc := encodeGroup (nextBit b) (j + 1) bs
      { gc with mask := childBit j ||| gc.mask, lits := b :: gc.lits }

/-- The bytes of a chunk in `count` groups of 8, the last one possibly shorter (R66, R70). -/
def groupsOf : Nat → List Byte → List (List Byte)
  | 0, _ => []
  | count + 1, bs => bs.take 8 :: groupsOf count (bs.drop 8)

/-- What a group adds to the staging buffer: its mask, then its literals; nothing when it has none (R66). -/
def GroupCode.bytes (gc : GroupCode) : List Byte := if gc.mask = 0#8 then [] else gc.mask :: gc.lits

/-- What group `g` adds to the chunk result (R66). -/
def GroupCode.nibBit (gc : GroupCode) (g : Nat) : Nibble := if gc.mask = 0#8 then 0#4 else groupBit g

/-- The masked pass over the groups of a chunk from group `g` on (R66). -/
def encodeGroups (m : Bool) (g : Nat) : List (List Byte) → ChunkCode
  | [] => { nib := 0#4, vec := 0#32, stage := [], matchBit := m }
  | bs :: rest =>
    let gc := encodeGroup m 0 bs
    let cc := encodeGroups gc.matchBit (g + 1) rest
    { nib := gc.nibBit g ||| cc.nib
      vec := (gc.mask.setWidth 32 <<< (24 - 8 * g)) ||| cc.vec
      stage := gc.bytes ++ cc.stage
      matchBit := cc.matchBit }

/-- The masked pass over a whole chunk (R66). -/
def maskedPass (m : Bool) (bs : List Byte) : ChunkCode := encodeGroups m 0 (groupsOf (groupCount bs.length) bs)

/-- The anti-expansion check (R67): a masked form longer than the chunk is discarded for the marker and the raw bytes, and the
result is forced to "all groups non-empty". -/
def chunkCode (m : Bool) (bs : List Byte) : ChunkCode :=
  let cc := maskedPass m bs
  if cc.nib ≠ 0#4 ∧ cc.stage.length > bs.length then
    { cc with nib := fullNibble bs.length, stage := 0x00#8 :: bs }
  else cc

/-- `Enc1(n)` (R66): one chunk; nothing at all for `n = 0`. The bounds test is the pseudocode's own, on the whole staged chunk
(log 10). -/
def enc1 (env : EncEnv) (n : Nat) (w : EncWork) : Except Raise (Nibble × EncWork) :=
  if n = 0 then .ok (0#4, w)
  else if w.bcur + n > env.bmSize then .error ⟨.bmRange, w.bcur⟩
  else
    let cc := chunkCode w.matchBit (env.bm.readBytes w.bcur n)
    if w.ctail + cc.stage.length > env.cmSize then .error ⟨.outOverflow, w.bcur⟩
    else
      .ok (cc.nib,
        { cm := w.cm.writeBytes w.ctail cc.stage
          bcur := w.bcur + n
          ctail := w.ctail + cc.stage.length
          matchBit := cc.matchBit
          l1mask := cc.vec })

/-- The chunk result as `RESULT` holds it: bits 3:0, bits 7:4 are 0 (R24). -/
def nibResult (x : Nibble × EncWork) : Byte × EncWork := (x.1.setWidth 8, x.2)

/-- `ENC1` without the fault guard (R72). -/
def enc1Command (len : Nat) (s : State) : State :=
  if len > 32 then faultEntry ⟨.badLen, s.bcur.toNat⟩ s
  else if len = 0 then complete 0#8 { s with l1mask := 0#32 }
  else endEnc s ((enc1 s.encEnv len s.encWork).map nibResult)

/-- `ENC1 #n` (R72). -/
def execEnc1 (len : Nat) (s : State) : Host.Outcome State Fault Refusal := unlessFaulted s (enc1Command len s)

end Sys2Proof.Machine
end

