-- ==== Sys2Proof/Machine/Aggregators.lean ====
section
/-! DEFINITION. Levels 2 and 3, the block aggregators: ENC2, ENC3 (42_level2_level3_aggregators.md). -/

namespace Sys2Proof.Machine

/-- The masked block routine of R74 over the `left` children from child `k` on, `rem` bytes being left in the unit and each
child covering `unit` of them: reserve a byte, run the child, then discard the reservation when the child returns 0, else fill it
and set the child's bit. -/
def maskedBlock (env : EncEnv) (unit : Nat) (child : Nat → EncWork → Except Raise (Byte × EncWork)) :
    (left k rem : Nat) → Byte → EncWork → Except Raise (Byte × EncWork)
  | 0, _, _, res, w => .ok (res, w)
  | left + 1, k, rem, res, w => do
    let (v, w') ← child (min unit rem) { w with ctail := w.ctail + 1 }
    if v = 0#8 then maskedBlock env unit child left (k + 1) (rem - unit) res { w' with ctail := w.ctail }
    else if w.ctail ≥ env.cmSize then .error ⟨.outOverflow, w.bcur⟩
    else maskedBlock env unit child left (k + 1) (rem - unit) (res ||| childBit k) { w' with cm := w'.cm.write w.ctail v }

/-- One round of Level 2: one or two chunks, their results packed in the pair byte (R76). -/
def encRound (env : EncEnv) (rem : Nat) (w : EncWork) : Except Raise (Byte × EncWork) := do
  let (a, w1) ← enc1 env (firstChunk rem) w
  let (b, w2) ← enc1 env (secondChunk rem) w1
  .ok (pairByte a b, w2)

/-- `Enc2(n)` (R76): one block, 64-byte rounds. -/
def enc2 (env : EncEnv) (n : Nat) (w : EncWork) : Except Raise (Byte × EncWork) :=
  maskedBlock env 64 (encRound env) (roundCount n) 0 n 0#8 w

/-- `Enc3(n)` (R78): one region, 512-byte blocks. -/
def enc3 (env : EncEnv) (n : Nat) (w : EncWork) : Except Raise (Byte × EncWork) :=
  maskedBlock env 512 (enc2 env) (blockCount n) 0 n 0#8 w

/-- `ENC2` without the fault guard (R77). -/
def enc2Command (len : Nat) (s : State) : State :=
  if len > 512 then faultEntry ⟨.badLen, s.bcur.toNat⟩ s else endEnc s (enc2 s.encEnv len s.encWork)

/-- `ENC3` without the fault guard (R79). -/
def enc3Command (len : Nat) (s : State) : State :=
  if len > 4096 then faultEntry ⟨.badLen, s.bcur.toNat⟩ s else endEnc s (enc3 s.encEnv len s.encWork)

/-- `ENC2 #n` (R77). -/
def execEnc2 (len : Nat) (s : State) : Host.Outcome State Fault Refusal := unlessFaulted s (enc2Command len s)

/-- `ENC3 #n` (R79). -/
def execEnc3 (len : Nat) (s : State) : Host.Outcome State Fault Refusal := unlessFaulted s (enc3Command len s)

end Sys2Proof.Machine
end

