-- ==== Sys2Proof/Machine/Normalizer.lean ====
section
/-! DEFINITION. Level 0, the bit-length normalizer: NORM (40_level0_normalizer.md). -/

namespace Sys2Proof.Machine

/-- `NormByte(b, sig)` (R62): the `8 - sig` low-order bits take the value of the last significant bit. -/
def normByte (b : Byte) (sig : Nat) : Byte :=
  let padmask := 0xFF#8 >>> sig
  if (b >>> (8 - sig)) &&& 1#8 = 1#8 then b ||| padmask else b &&& ~~~ padmask

/-- The number of significant bits of the boundary byte: `BITLEN & 7` (R14). -/
def sigBits (bitlen : Nat) : Nat := bitlen % 8

/-- The offset of the boundary byte: `BITLEN >> 3` (R14). -/
def boundaryOffset (bitlen : Nat) : Nat := bitlen / 8

/-- Level 0 on `BM`: the boundary byte is normalised in place; nothing when the last byte is full (R63, R81). -/
def normalized (bm : Memory) (bitlen : Nat) : Memory :=
  if sigBits bitlen = 0 then bm
  else bm.write (boundaryOffset bitlen) (normByte (bm.read (boundaryOffset bitlen)) (sigBits bitlen))

/-- `NORM` without the fault guard (R63). -/
def normCommand (s : State) : State :=
  if s.bitlen.toNat > 8 * s.bmSize.toNat then faultEntry ⟨.badBitlen, 0⟩ s
  else complete 0#8 { s with bm := normalized s.bm s.bitlen.toNat }

/-- `NORM` (R63). -/
def execNorm (s : State) : Host.Outcome State Fault Refusal := unlessFaulted s (normCommand s)

end Sys2Proof.Machine
end

