-- ==== Sys2Proof/Machine/TopLevel.lean ====
section
/-! DEFINITION. The top level: ENCODE (43_top_level_encode.md). -/

namespace Sys2Proof.Machine

/-- The region loop of `ENCODE` (R81): each region's `M3` byte is reserved, the region encoded, and the byte written whether it
is zero or not (R82); `any` is the OR of the results. -/
def encRegions (env : EncEnv) : (left rem : Nat) → Byte → EncWork → Except Raise (Byte × EncWork)
  | 0, _, any, w => .ok (any, w)
  | left + 1, rem, any, w => do
    let (r3, w') ← enc3 env (min 4096 rem) { w with ctail := w.ctail + 1 }
    if w.ctail ≥ env.cmSize then .error ⟨.outOverflow, w.bcur⟩
    else encRegions env left (rem - 4096) (any ||| r3) { w' with cm := w'.cm.write w.ctail r3 }

/-- The fresh encoder of `ENCODE` (R81): run state, both cursors and `L1MASK` cleared. -/
def State.freshEncoder (s : State) : EncWork := { cm := s.cm, bcur := 0, ctail := 0, matchBit := false, l1mask := 0#32 }

/-- The whole-stream collapse (R83): no output in any region empties the stream. -/
def collapse (x : Byte × EncWork) : Byte × EncWork := if x.1 = 0#8 then (x.1, { x.2 with ctail := 0 }) else x

/-- `CLEN <- CTAIL` (R81). -/
def State.takeLength (s : State) : State := { s with clen := s.ctail }

/-- The end of `ENCODE`: fault entry, or its writes, `CLEN` and `RESULT` (R81). `bm` is the normalised bitmap. -/
def endEncode (s : State) (bm : Memory) : Except Raise (Byte × EncWork) → State
  | .error r => faultEntry r s
  | .ok (any, w) => complete any (({ s with bm := bm }).commitEnc w).takeLength

/-- `ENCODE` without the fault guard (R81). -/
def encodeCommand (s : State) : State :=
  let n := nbytes s.bitlen.toNat
  if s.bitlen.toNat > 8 * s.bmSize.toNat then faultEntry ⟨.badBitlen, 0⟩ s
  else if wcsize n > s.cmSize.toNat then faultEntry ⟨.outTooSmall, 0⟩ s
  else
    let bm := normalized s.bm s.bitlen.toNat
    endEncode s bm ((encRegions { s.encEnv with bm := bm } (regionCount n) n 0#8 s.freshEncoder).map collapse)

/-- `ENCODE` (R81). -/
def execEncode (s : State) : Host.Outcome State Fault Refusal := unlessFaulted s (encodeCommand s)

end Sys2Proof.Machine
end

