-- ==== Sys2Proof/Machine/Dispatch.lean ====
section
/-! DEFINITION. One arm per command (R48): the block executes an accepted command to completion (R7). -/

namespace Sys2Proof.Machine

def exec (i : Instr) (s : State) : Host.Outcome State Fault Refusal :=
  match i with
  | .nop => Sys2Proof.Machine.execNop s
  | .init => Sys2Proof.Machine.execInit s
  | .srst => Sys2Proof.Machine.execSrst s
  | .norm => Sys2Proof.Machine.execNorm s
  | .enc1 len => Sys2Proof.Machine.execEnc1 len s
  | .enc2 len => Sys2Proof.Machine.execEnc2 len s
  | .enc3 len => Sys2Proof.Machine.execEnc3 len s
  | .encode => Sys2Proof.Machine.execEncode s
  | .dec1 len nib => Sys2Proof.Machine.execDec1 len nib s
  | .dec2 len mask => Sys2Proof.Machine.execDec2 len mask s
  | .dec3 len mask => Sys2Proof.Machine.execDec3 len mask s
  | .decode => Sys2Proof.Machine.execDecode s

end Sys2Proof.Machine
end

