-- ==== Sys2Proof/Machine/Issue.lean ====
section
/-! DEFINITION. The host's moves (R34) and the block's turn (R7): issuing a command, the register window, the memory windows, what
the hardware does with a move that breaks the host protocol (R126). -/

namespace Sys2Proof.Machine

/-- What a read of a register returns (R13, R18, R20 to R27). -/
def readReg (r : Reg) (s : State) : Word :=
  match r with
  | .cmd => 0#32
  | .status => s.statusWord
  | .cause => (causeCode s.cause).setWidth 32
  | .faddr => s.faddr
  | .bitlen => s.bitlen
  | .clen => s.clen
  | .bcur => s.bcur
  | .ctail => s.ctail
  | .matchByte => (matchByte s.matchBit).setWidth 32
  | .result => s.result.setWidth 32
  | .l1mask => s.l1mask
  | .wcsz => BitVec.ofNat 32 (wcsize (nbytes s.bitlen.toNat))
  | .bmsize => s.bmSize
  | .cmsize => s.cmSize

/-- A write of a command word to `CMD` while the block is not busy (R21): while `FAULT = 1` only `SRST` is executed, and it is
executed with the write itself, since `BUSY` and `FAULT` are never both 1 (R20; log 7). -/
def issue (w : Word) (s : State) : Host.Outcome State Fault Refusal :=
  if s.fault then (if decode w = some .srst then execSrst s else .next s) else .next (s.accept w)

/-- A write of a data register by the host (R28): only while `FAULT = 0`; `MATCH` stores bit 0 (R18); read-only registers ignore
it. -/
def writeData (r : Reg) (w : Word) (s : State) : State :=
  if s.fault then s
  else match r with
    | .bitlen => { s with bitlen := w }
    | .clen => { s with clen := w }
    | .bcur => { s with bcur := w }
    | .ctail => { s with ctail := w }
    | .matchByte => { s with matchBit := w.getLsbD 0 }
    | .cmd => s
    | .status => s
    | .cause => s
    | .faddr => s
    | .result => s
    | .l1mask => s
    | .wcsz => s
    | .bmsize => s
    | .cmsize => s

/-- The host reads `v`. -/
def State.returned (s : State) (v : Word) : State := { s with hostData := v }

/-- A read that breaks the host protocol returns an unspecified value (R126, U6): a free value (log 8). -/
def State.returnedFree (s : State) : State := { s with hostData := Config.busyRead s.fresh, fresh := s.fresh + 1 }

/-- `HostWriteReg` (R34): ignored while `BUSY = 1` (R126), and where it reaches no register (R28, R37). -/
def hostWriteReg (width : Width) (off : BitVec 8) (w : Word) (s : State) : Host.Outcome State Fault Refusal :=
  if s.busy then .next s
  else match regReached width off with
    | none => .next s
    | some .cmd => issue w s
    | some r => .next (writeData r w s)

/-- `HostReadReg` (R34): while `BUSY = 1` only `STATUS` may be read (R28, R126); where it reaches no register it returns 0 (R28,
R37). -/
def hostReadReg (width : Width) (off : BitVec 8) (s : State) : State :=
  if s.busy then
    (if regReached width off = some .status then s.returned s.statusWord else s.returnedFree)
  else match regReached width off with
    | none => s.returned 0#32
    | some r => s.returned (readReg r s)

/-- One move of the host (R34). A memory offset at or beyond the memory's size is no move of this block (R34, U14): fault
`outsideWindow`. While `BUSY = 1` writes are ignored and reads return free values (R126). Memory accesses work while `FAULT = 1`
(R119). `HostReset` can happen at any time (R123). -/
def hostMove (m : HostMove) (s : State) : Host.Outcome State Fault Refusal :=
  match m with
  | .writeBM a v =>
    if s.bmSize.toNat ≤ a then .fault .outsideWindow
    else .next (if s.busy then s else { s with bm := s.bm.write a v })
  | .readBM a =>
    if s.bmSize.toNat ≤ a then .fault .outsideWindow
    else .next (if s.busy then s.returnedFree else s.returned ((s.bm.read a).setWidth 32))
  | .writeCM a v =>
    if s.cmSize.toNat ≤ a then .fault .outsideWindow
    else .next (if s.busy then s else { s with cm := s.cm.write a v })
  | .readCM a =>
    if s.cmSize.toNat ≤ a then .fault .outsideWindow
    else .next (if s.busy then s.returnedFree else s.returned ((s.cm.read a).setWidth 32))
  | .writeReg width off w => hostWriteReg width off w s
  | .readReg width off => .next (hostReadReg width off s)
  | .reset => .next (hardwareReset s)

/-- An accepted word that encodes no command raises `ILLEGAL_CMD` with `FADDR = 0` (R49, R104). -/
def illegalCommand (s : State) : Host.Outcome State Fault Refusal := unlessFaulted s (faultEntry ⟨.illegalCmd, 0⟩ s)

/-- The command word `w` is decoded and executed to completion (R21). -/
def runWord (w : Word) (s : State) : Host.Outcome State Fault Refusal :=
  match decode w with
  | none => illegalCommand s
  | some i => exec i s

/-- The block's turn: the command in execution runs to completion as one step; an idle block stays as it is (R7, R122). -/
def blockTurn (s : State) : Host.Outcome State Fault Refusal :=
  match s.command with
  | none => .next s
  | some w => runWord w s

/-- What the next event does. -/
def event (e : Event) (s : State) : Host.Outcome State Fault Refusal :=
  match e with
  | .host m => hostMove m s
  | .block => blockTurn s

/-- The next event of the agenda; with none left it is the block's turn (R122, R130; log 4). -/
def nextEvent (s : State) : Host.Outcome State Fault Refusal :=
  match s.agenda with
  | [] => blockTurn s
  | e :: rest => event e { s with agenda := rest }

/-- `w` is in execution and it is the block's turn: where the block takes its next command from (log 5). -/
def State.withCommand (s : State) (w : Word) : State := { s.accept w with agenda := .block :: s.agenda }

end Sys2Proof.Machine
end

