-- ==== Sys2Proof/Machine/Step.lean ====
section
/-! DEFINITION. One step: the next event at the boundary of the block. -/

namespace Sys2Proof.Machine

/-- One step of the machine: a move of the host, or the block executing the command in execution (R7, R41). -/
def step (s : State) : Host.Outcome State Fault Refusal := nextEvent s

/-- The state in which the very next step executes the word `w`: the host's write of it to `CMD` has been accepted and it is the
block's turn (log 5). -/
def State.withFetchWord (s : State) (nbits w : Nat) : State := s.withCommand (tableWord nbits w)

end Sys2Proof.Machine
end

