-- ==== Sys2Proof/Machine/Stream.lean ====
section
/-! DEFINITION. The code stream as a function of the bitmap bytes alone (30_encoding.md part B, R52 to R57): no memory, no cursor,
no fault. The encoder is stated to write it and the decoder to read it back. -/

namespace Sys2Proof.Machine

/-- The encoding of a unit: the mask its parent holds for it, its own bytes in the stream, the run state after it. -/
structure UnitCode where
  mask : Byte
  bytes : List Byte
  matchBit : Bool
  deriving DecidableEq, Repr

/-- The round encoding (R55): the pair byte is the mask, the two chunk encodings (R56, R57) follow. -/
def roundCode (m : Bool) (bs : List Byte) : UnitCode :=
  let a := chunkCode m (bs.take 32)
  let b := chunkCode a.matchBit (bs.drop 32)
  { mask := pairByte a.nib b.nib, bytes := a.stage ++ b.stage, matchBit := b.matchBit }

/-- What a child adds to its parent's bytes: nothing when it produced no output, else its mask and its bytes (R53, R54). -/
def UnitCode.inParent (c : UnitCode) : List Byte := if c.mask = 0#8 then [] else c.mask :: c.bytes

/-- What child `k` adds to its parent's mask (R10). -/
def UnitCode.maskBit (c : UnitCode) (k : Nat) : Byte := if c.mask = 0#8 then 0#8 else childBit k

/-- The children of a unit from child `k` on, each covering `size` bytes, the last one what is left (R53, R54). -/
def childrenCode (size : Nat) (child : Bool → List Byte → UnitCode) : (left k : Nat) → Bool → List Byte → UnitCode
  | 0, _, m, _ => { mask := 0#8, bytes := [], matchBit := m }
  | left + 1, k, m, bs =>
    let c := child m (bs.take size)
    let rest := childrenCode size child left (k + 1) c.matchBit (bs.drop size)
    { mask := c.maskBit k ||| rest.mask, bytes := c.inParent ++ rest.bytes, matchBit := rest.matchBit }

/-- The block encoding (R54): mask `M2`, 64-byte rounds. -/
def blockCode (m : Bool) (bs : List Byte) : UnitCode := childrenCode 64 roundCode (roundCount bs.length) 0 m bs

/-- The region encoding (R53): mask `M3`, 512-byte blocks. -/
def regionCode (m : Bool) (bs : List Byte) : UnitCode := childrenCode 512 blockCode (blockCount bs.length) 0 m bs

/-- The regions of a buffer (R52): each one's `M3` byte, zero or not, and its bytes; the mask is the OR of the `M3` bytes. -/
def regionsCode : (left : Nat) → Bool → List Byte → UnitCode
  | 0, m, _ => { mask := 0#8, bytes := [], matchBit := m }
  | left + 1, m, bs =>
    let c := regionCode m (bs.take 4096)
    let rest := regionsCode left c.matchBit (bs.drop 4096)
    { mask := c.mask ||| rest.mask, bytes := c.mask :: (c.bytes ++ rest.bytes), matchBit := rest.matchBit }

/-- A whole buffer before the collapse. -/
def bufferCode (bs : List Byte) : UnitCode := regionsCode (regionCount bs.length) false bs

/-- The stream of a buffer: empty when no region has any output (R52, R83). -/
def bufferStream (bs : List Byte) : List Byte := if (bufferCode bs).mask = 0#8 then [] else (bufferCode bs).bytes

/-- Byte `i` is a literal: it differs from the run state at the moment it is reached, which is `m` at the first byte and `Next` of
the byte before it at any other (R56, R69). -/
def literalAt (m : Bool) (bs : List Byte) (i : Nat) : Bool :=
  match i with
  | 0 => bs.getD 0 0#8 != matchByte m
  | k + 1 => bs.getD (k + 1) 0#8 != matchByte (nextBit (bs.getD k 0#8))

/-- Some byte of `bs` at an offset in `lo .. hi - 1` is a literal. -/
def literalIn (m : Bool) (bs : List Byte) (lo hi : Nat) : Bool :=
  (List.range bs.length).any fun i => lo ≤ i && i < hi && literalAt m bs i

/-- The number of literals among the bytes of `bs`. -/
def literalCount (m : Bool) (bs : List Byte) : Nat := ((List.range bs.length).filter (literalAt m bs)).length

/-- The mask byte of group `g` of a chunk: bit `7 - j` is set when byte `j` of the group is a literal (R56). -/
def groupMaskOf (m : Bool) (bs : List Byte) (g : Nat) : Byte :=
  ((List.range 8).filter fun j => literalIn m bs (8 * g + j) (8 * g + j + 1)).foldl (fun acc j => acc ||| childBit j) 0#8

/-- The literal bytes of group `g` of a chunk, in order (R56). -/
def groupLiteralsOf (m : Bool) (bs : List Byte) (g : Nat) : List Byte :=
  ((List.range bs.length).filter fun i => 8 * g ≤ i && i < 8 * g + 8 && literalAt m bs i).map fun i => bs.getD i 0#8

/-- The masked form of a chunk (R56): for each group that holds a literal, its mask byte and its literals. -/
def maskedForm (m : Bool) (bs : List Byte) : List Byte :=
  (List.range (groupCount bs.length)).flatMap fun g =>
    if literalIn m bs (8 * g) (8 * g + 8) then groupMaskOf m bs g :: groupLiteralsOf m bs g else []

/-- The number of bytes before the last chunk of a unit of `n` bytes: chunks are 32 bytes, the last one what is left (R6). -/
def lastChunkStart (n : Nat) : Nat := 32 * ((n - 1) / 32)

/-- `L1MASK` after encode units over `bs`: the byte-presence vector of the last chunk, or the old value when there is no byte (R25,
R77). -/
def lastVector (old : Word) (m : Bool) (bs : List Byte) : Word :=
  let k := lastChunkStart bs.length
  if bs = [] then old else (maskedPass (runAfter m (bs.take k)) (bs.drop k)).vec

/-- The number of 8-byte groups of a chunk that hold a literal (R67). -/
def markedGroupCount (m : Bool) (bs : List Byte) : Nat :=
  ((List.range (groupCount bs.length)).filter fun g => literalIn m bs (8 * g) (8 * g + 8)).length

/-! ### A masked chunk that marks more bytes than the encoder would (R60, R96) -/

/-- The group mask of the marked bytes, from byte `k` of the group on (R10, R56). -/
def markMask : (k : Nat) → List Bool → Byte
  | _, [] => 0#8
  | k, mark :: marks => (if mark then childBit k else 0#8) ||| markMask (k + 1) marks

/-- The marked bytes, in order. -/
def markedBytes : List Bool → List Byte → List Byte
  | mark :: marks, b :: bs => if mark then b :: markedBytes marks bs else markedBytes marks bs
  | [], _ => []
  | _ :: _, [] => []

/-- The masked form of a chunk in which any bytes at all may be marked, its `left` groups from group `g` on: the nibble and the
bytes. The marked bytes stand in the stream, whether or not they differ from the run state (R96). -/
def looseChunk : (left g : Nat) → List Bool → List Byte → Nibble × List Byte
  | 0, _, _, _ => (0#4, [])
  | left + 1, g, marks, bs =>
    let rest := looseChunk left (g + 1) (marks.drop 8) (bs.drop 8)
    let gm := markMask 0 (marks.take 8)
    if gm = 0#8 then rest else (groupBit g ||| rest.1, gm :: (markedBytes (marks.take 8) (bs.take 8) ++ rest.2))

end Sys2Proof.Machine
end

