-- ==== Sys2Proof/Laws/Masks.lean ====
section
/-! SUPPORT. Bits of the MSB-first masks (R10): each lemma is one finite question about a nibble or a byte. -/

namespace Sys2Proof.Machine

theorem hasChild_eq_getLsbD (mask : Byte) (k : Nat) (h : k < 8) : hasChild mask k = mask.getLsbD (7 - k) := by
  have : ∀ (mask : Byte) (k : Fin 8), hasChild mask k = mask.getLsbD (7 - k) := by decide +kernel
  exact this mask ⟨k, h⟩

theorem hasGroup_eq_getLsbD (nib : Nibble) (g : Nat) (h : g < 4) : hasGroup nib g = nib.getLsbD (3 - g) := by
  have : ∀ (nib : Nibble) (g : Fin 4), hasGroup nib g = nib.getLsbD (3 - g) := by decide
  exact this nib ⟨g, h⟩

theorem hasChild_childBit (k i : Nat) (h : k < 8) (hi : i < 8) : hasChild (childBit k) i = decide (k = i) := by
  have : ∀ (k i : Fin 8), hasChild (childBit k) i = decide (k.val = i.val) := by decide
  exact this ⟨k, h⟩ ⟨i, hi⟩

theorem hasGroup_groupBit (k i : Nat) (h : k < 4) (hi : i < 4) : hasGroup (groupBit k) i = decide (k = i) := by
  have : ∀ (k i : Fin 4), hasGroup (groupBit k) i = decide (k.val = i.val) := by decide
  exact this ⟨k, h⟩ ⟨i, hi⟩

theorem hasChild_or (a b : Byte) (k : Nat) (h : k < 8) : hasChild (a ||| b) k = (hasChild a k || hasChild b k) := by
  simp only [hasChild_eq_getLsbD _ k h, BitVec.getLsbD_or]

theorem hasGroup_or (a b : Nibble) (g : Nat) (h : g < 4) : hasGroup (a ||| b) g = (hasGroup a g || hasGroup b g) := by
  simp only [hasGroup_eq_getLsbD _ g h, BitVec.getLsbD_or]

@[simp] theorem hasChild_zero (k : Nat) : hasChild 0#8 k = false := by simp [hasChild]

@[simp] theorem hasGroup_zero (g : Nat) : hasGroup 0#4 g = false := by simp [hasGroup]

theorem childBit_ne_zero (k : Nat) (h : k < 8) : childBit k ≠ 0#8 := by
  have : ∀ k : Fin 8, childBit k ≠ 0#8 := by decide
  exact this ⟨k, h⟩

theorem groupBit_ne_zero (g : Nat) (h : g < 4) : groupBit g ≠ 0#4 := by
  have : ∀ g : Fin 4, groupBit g ≠ 0#4 := by decide
  exact this ⟨g, h⟩

/-- A byte mask none of whose eight bits is set is zero. -/
theorem mask_eq_zero_of_hasChild (a : Byte) (h : ∀ k, k < 8 → hasChild a k = false) : a = 0#8 := by
  have : ∀ a : Byte, (∀ k : Fin 8, hasChild a k = false) → a = 0#8 := by decide +kernel
  exact this a (fun k => h k k.isLt)

/-- `gm & (0xFF >> s)` finds exactly the mask bits of bytes from `s` on. -/
theorem groupMaskBeyond_eq_false (gm : Byte) (s : Nat) (h : ∀ k, s ≤ k → k < 8 → hasChild gm k = false) (hs : s ≤ 8) :
    groupMaskBeyond gm s = false := by
  have : ∀ (gm : Byte) (s : Fin 9), (∀ k : Fin 8, s.val ≤ k.val → hasChild gm k = false) → groupMaskBeyond gm s = false := by
    decide +kernel
  exact this gm ⟨s, by omega⟩ (fun k hk => h k hk k.isLt)

/-- A mask with no bit for a child from `count` on passes the range check (R91, R92). -/
theorem maskBeyond_eq_false (mask : Byte) (count : Nat) (h : ∀ k, count ≤ k → k < 8 → hasChild mask k = false)
    (hc : count ≤ 8) : maskBeyond mask count = false := by
  have : ∀ (mask : Byte) (c : Fin 9), (∀ k : Fin 8, c.val ≤ k.val → hasChild mask k = false) → maskBeyond mask c = false := by
    decide +kernel
  exact this mask ⟨count, by omega⟩ (fun k hk => h k hk k.isLt)

/-- A nibble with no bit for a group from `GroupCount(n)` on passes the range check (R89). -/
theorem nibBeyond_eq_false (nib : Nibble) (n : Nat) (h : ∀ g, groupCount n ≤ g → g < 4 → hasGroup nib g = false)
    (hn : n ≤ 32) : nibBeyond nib n = false := by
  have : ∀ (nib : Nibble) (n : Fin 33), (∀ g : Fin 4, groupCount n ≤ g.val → hasGroup nib g = false) → nibBeyond nib n = false := by
    decide +kernel
  exact this nib ⟨n, by omega⟩ (fun g hg => h g hg g.isLt)

theorem fullNibble_hasGroup (n g : Nat) (hn : n ≤ 32) (hg : g < 4) :
    hasGroup (fullNibble n) g = decide (g < groupCount n) := by
  have : ∀ (n : Fin 33) (g : Fin 4), hasGroup (fullNibble n) g = decide (g.val < groupCount n) := by decide
  exact this ⟨n, by omega⟩ ⟨g, hg⟩

theorem fullNibble_ne_zero (n : Nat) (h1 : 1 ≤ n) (hn : n ≤ 32) : fullNibble n ≠ 0#4 := by
  intro h
  have hg := fullNibble_hasGroup n 0 hn (by omega)
  rw [h, hasGroup_zero] at hg
  have : 0 < groupCount n := by unfold groupCount; omega
  simp [this] at hg

@[simp] theorem pairHigh_pairByte (a b : Nibble) : pairHigh (pairByte a b) = a := by
  revert a b; decide

@[simp] theorem pairLow_pairByte (a b : Nibble) : pairLow (pairByte a b) = b := by
  revert a b; decide

@[simp] theorem pairHigh_zero : pairHigh 0#8 = 0#4 := by decide

@[simp] theorem pairLow_zero : pairLow 0#8 = 0#4 := by decide

/-- The pair byte is zero exactly when both chunk results are. -/
theorem pairByte_eq_zero (a b : Nibble) : pairByte a b = 0#8 ↔ a = 0#4 ∧ b = 0#4 := by
  revert a b; decide

theorem byte_or_eq_zero (a b : Byte) : a ||| b = 0#8 ↔ a = 0#8 ∧ b = 0#8 := BitVec.or_eq_zero_iff

theorem nibble_or_eq_zero (a b : Nibble) : a ||| b = 0#4 ↔ a = 0#4 ∧ b = 0#4 := by
  revert a b; decide

end Sys2Proof.Machine
end

