-- ==== Sys2Proof/Laws/Memory.lean ====
section
/-! SUPPORT. What the byte memories do: read after write, the canonical form, the bytes a write leaves alone. -/

namespace Sys2Proof.Machine

theorem Memory.read_nil (a : Nat) : Memory.read [] a = unlistedByte := rfl

theorem Memory.read_cons (c : Host.Cell) (m : Memory) (a : Nat) :
    Memory.read (c :: m) a = if a = c.1 then c.2 else Memory.read m a := rfl

/-- An offset below every listed one reads as unlisted. -/
theorem Memory.read_below (m : Memory) (a : Nat) (h : ∀ c ∈ m, a < c.1) : m.read a = unlistedByte := by
  induction m with
  | nil => rfl
  | cons c m ih =>
    have hc := h c (by simp)
    rw [Memory.read_cons, if_neg (by omega), ih (fun d hd => h d (by simp [hd]))]

theorem Memory.read_cell (m : Memory) (a x : Nat) (v : Byte) (h : ∀ c ∈ m, a < c.1) :
    (Memory.cell a v m).read x = if x = a then v else m.read x := by
  unfold Memory.cell
  split
  · next hv =>
    split
    · next hx => rw [hx, Memory.read_below m a h, hv]
    · rfl
  · rw [Memory.read_cons]

/-- A write of one byte: the offset written reads as the byte, every other as before. -/
theorem Memory.read_write (m : Memory) (a x : Nat) (v : Byte) (h : m.wf) :
    (m.write a v).read x = if x = a then v else m.read x := by
  induction m with
  | nil => simp only [Memory.write]; exact Memory.read_cell [] a x v (by simp)
  | cons c m ih =>
    obtain ⟨b, u⟩ := c
    have hp := List.pairwise_cons.mp h.1
    have hm : Memory.wf m := ⟨hp.2, fun c hc => h.2 c (by simp [hc])⟩
    simp only [Memory.write]
    split
    · next hab =>
      refine Memory.read_cell _ a x v (fun c hc => ?_)
      rcases List.mem_cons.mp hc with rfl | hc
      · exact hab
      · exact Nat.lt_trans hab (hp.1 c hc)
    · split
      · next hab =>
        subst hab
        rw [Memory.read_cell m a x v hp.1, Memory.read_cons]
        split <;> simp_all
      · next h1 h2 =>
        rw [Memory.read_cons, Memory.read_cons, ih hm]
        split
        · next hx => rw [if_neg (by simp at hx; omega)]
        · rfl

theorem Memory.mem_cell {c : Host.Cell} {m : Memory} {a : Nat} {v : Byte} (h : c ∈ Memory.cell a v m) :
    c ∈ m ∨ c = (a, v) := by
  unfold Memory.cell at h
  split at h
  · exact .inl h
  · rcases List.mem_cons.mp h with rfl | h
    · exact .inr rfl
    · exact .inl h

/-- A cell of a written memory is an old one or stands at the offset written. -/
theorem Memory.mem_write {c : Host.Cell} {m : Memory} {a : Nat} {v : Byte} (h : c ∈ m.write a v) :
    c ∈ m ∨ c.1 = a := by
  induction m with
  | nil => rcases Memory.mem_cell h with h | rfl <;> simp_all
  | cons d m ih =>
    simp only [Memory.write] at h
    split at h
    · rcases Memory.mem_cell h with h | rfl
      · exact .inl h
      · exact .inr rfl
    · split at h
      · rcases Memory.mem_cell h with h | rfl
        · exact .inl (by simp [h])
        · exact .inr rfl
      · rcases List.mem_cons.mp h with rfl | h
        · exact .inl (by simp)
        · rcases ih h with h | h
          · exact .inl (by simp [h])
          · exact .inr h

theorem Memory.cell_wf (m : Memory) (a : Nat) (v : Byte) (h : m.wf) (hlt : ∀ c ∈ m, a < c.1) :
    (Memory.cell a v m).wf := by
  unfold Memory.cell
  split
  · exact h
  · next hv =>
    refine ⟨List.pairwise_cons.mpr ⟨hlt, h.1⟩, fun c hc => ?_⟩
    rcases List.mem_cons.mp hc with rfl | hc
    · exact hv
    · exact h.2 c hc

/-- A write keeps the canonical form. -/
theorem Memory.write_wf (m : Memory) (a : Nat) (v : Byte) (h : m.wf) : (m.write a v).wf := by
  induction m with
  | nil => exact Memory.cell_wf [] a v h (by simp)
  | cons d m ih =>
    have hp := List.pairwise_cons.mp h.1
    have hm : Memory.wf m := ⟨hp.2, fun c hc => h.2 c (by simp [hc])⟩
    simp only [Memory.write]
    split
    · next hab =>
      refine Memory.cell_wf _ a v h (fun c hc => ?_)
      rcases List.mem_cons.mp hc with rfl | hc
      · exact hab
      · exact Nat.lt_trans hab (hp.1 c hc)
    · split
      · next hab => exact Memory.cell_wf m a v hm (hab ▸ hp.1)
      · next h1 h2 =>
        refine ⟨List.pairwise_cons.mpr ⟨fun c hc => ?_, (ih hm).1⟩, fun c hc => ?_⟩
        · rcases Memory.mem_write hc with hc | hc
          · exact hp.1 c hc
          · simp only; omega
        · rcases List.mem_cons.mp hc with rfl | hc
          · exact h.2 _ (by simp)
          · exact (ih hm).2 c hc

/-- A write below the size keeps every listed offset below it. -/
theorem Memory.write_within (m : Memory) (a size : Nat) (v : Byte) (h : m.within size) (ha : a < size) :
    (m.write a v).within size := by
  intro c hc
  rcases Memory.mem_write hc with hc | hc
  · exact h c hc
  · omega

theorem Memory.writeBytes_wf (m : Memory) (a : Nat) (vs : List Byte) (h : m.wf) : (m.writeBytes a vs).wf := by
  induction vs generalizing m a with
  | nil => exact h
  | cons v vs ih => exact ih _ _ (Memory.write_wf m a v h)

theorem Memory.writeBytes_within (m : Memory) (a size : Nat) (vs : List Byte) (h : m.within size)
    (ha : vs = [] ∨ a + vs.length ≤ size) : (m.writeBytes a vs).within size := by
  induction vs generalizing m a with
  | nil => exact h
  | cons v vs ih =>
    simp at ha
    exact ih _ _ (Memory.write_within m a size v h (by omega)) (.inr (by omega))

/-- A write of a list of bytes: byte `i` of the list at offset `a + i`, every other offset as before. -/
theorem Memory.read_writeBytes (m : Memory) (a x : Nat) (vs : List Byte) (h : m.wf) :
    (m.writeBytes a vs).read x = if a ≤ x ∧ x < a + vs.length then vs.getD (x - a) 0#8 else m.read x := by
  induction vs generalizing m a with
  | nil => simp [Memory.writeBytes]
  | cons v vs ih =>
    simp only [Memory.writeBytes]
    rw [ih _ _ (Memory.write_wf m a v h), Memory.read_write m a x v h]
    by_cases hx : x = a
    · subst hx; simp
    · by_cases hr : a + 1 ≤ x ∧ x < a + 1 + vs.length
      · rw [if_pos hr, if_pos (by simp; omega)]
        obtain ⟨k, hk⟩ : ∃ k, x - a = k + 1 := ⟨x - a - 1, by omega⟩
        rw [hk, show x - (a + 1) = k by omega]; rfl
      · rw [if_neg hr, if_neg hx, if_neg (by simp; omega)]

@[simp] theorem Memory.readBytes_length (m : Memory) (a n : Nat) : (m.readBytes a n).length = n := by
  induction n generalizing a with
  | zero => rfl
  | succ n ih => simp [Memory.readBytes, ih]

theorem Memory.readBytes_getD (m : Memory) (a n i : Nat) (h : i < n) : (m.readBytes a n).getD i 0#8 = m.read (a + i) := by
  induction n generalizing a i with
  | zero => omega
  | succ n ih =>
    cases i with
    | zero => rfl
    | succ i =>
      rw [show a + (i + 1) = (a + 1) + i by omega, ← ih (a + 1) i (by omega)]; rfl

/-- A run of bytes read in two parts. -/
theorem Memory.readBytes_append (m : Memory) (a n k : Nat) :
    m.readBytes a (n + k) = m.readBytes a n ++ m.readBytes (a + n) k := by
  induction n generalizing a with
  | zero => simp [Memory.readBytes]
  | succ n ih =>
    rw [show n + 1 + k = (n + k) + 1 by omega]
    simp [Memory.readBytes, ih, show a + 1 + n = a + (n + 1) by omega]

theorem Memory.readBytes_take (m : Memory) (a n k : Nat) : (m.readBytes a n).take k = m.readBytes a (min k n) := by
  obtain h | h := Nat.le_total k n
  · obtain ⟨d, rfl⟩ := Nat.exists_eq_add_of_le h
    rw [Memory.readBytes_append, Nat.min_eq_left h, List.take_append_of_le_length (by simp)]
    exact List.take_of_length_le (by simp)
  · rw [Nat.min_eq_right h, List.take_of_length_le (by simpa using h)]

theorem Memory.readBytes_drop (m : Memory) (a n k : Nat) : (m.readBytes a n).drop k = m.readBytes (a + k) (n - k) := by
  obtain h | h := Nat.le_total k n
  · obtain ⟨d, rfl⟩ := Nat.exists_eq_add_of_le h
    rw [Memory.readBytes_append, List.drop_append_of_le_length (by simp), List.drop_of_length_le (by simp)]
    simp
  · rw [Nat.sub_eq_zero_of_le h, List.drop_of_length_le (by simpa using h)]; rfl

/-- Reading depends only on the bytes read. -/
theorem Memory.readBytes_congr (m m' : Memory) (a n : Nat) (h : ∀ x, a ≤ x → x < a + n → m.read x = m'.read x) :
    m.readBytes a n = m'.readBytes a n := by
  induction n generalizing a with
  | zero => rfl
  | succ n ih =>
    simp only [Memory.readBytes]
    rw [h a (by omega) (by omega), ih (a + 1) (fun x h1 h2 => h x (by omega) (by omega))]

theorem Memory.readBytes_eq_of_getD (m : Memory) (a : Nat) (bs : List Byte)
    (h : ∀ i, i < bs.length → m.read (a + i) = bs.getD i 0#8) : m.readBytes a bs.length = bs := by
  induction bs generalizing a with
  | nil => rfl
  | cons b bs ih =>
    simp only [List.length_cons, Memory.readBytes]
    rw [show m.read a = b by simpa using h 0 (by simp), ih (a + 1) (fun i hi => ?_)]
    have := h (i + 1) (by simpa using hi)
    rw [show a + 1 + i = a + (i + 1) by omega, this]; rfl

/-- What is written is read back. -/
theorem Memory.readBytes_writeBytes (m : Memory) (a : Nat) (vs : List Byte) (h : m.wf) :
    (m.writeBytes a vs).readBytes a vs.length = vs := by
  refine Memory.readBytes_eq_of_getD _ a vs (fun i hi => ?_)
  rw [Memory.read_writeBytes m a (a + i) vs h, if_pos (by omega), show a + i - a = i by omega]

theorem Memory.ofBytes_ge (f : Nat → Byte) (a count : Nat) : ∀ c ∈ Memory.ofBytes f a count, a ≤ c.1 ∧ c.1 < a + count := by
  induction count generalizing a with
  | zero => simp [Memory.ofBytes]
  | succ n ih =>
    intro c hc
    rcases Memory.mem_cell hc with hc | rfl
    · have := ih (a + 1) c hc; omega
    · simp

theorem Memory.ofBytes_wf (f : Nat → Byte) (a count : Nat) : (Memory.ofBytes f a count).wf := by
  induction count generalizing a with
  | zero => exact ⟨List.Pairwise.nil, by simp [Memory.ofBytes]⟩
  | succ n ih =>
    exact Memory.cell_wf _ a _ (ih (a + 1)) (fun c hc => by have := Memory.ofBytes_ge f (a + 1) n c hc; omega)

theorem Memory.ofBytes_within (f : Nat → Byte) (size : Nat) : (Memory.ofBytes f 0 size).within size :=
  fun c hc => by have := Memory.ofBytes_ge f 0 size c hc; omega

/-- Every byte of a memory built from `f` is `f` of its offset. -/
theorem Memory.read_ofBytes (f : Nat → Byte) (a count x : Nat) :
    (Memory.ofBytes f a count).read x = if a ≤ x ∧ x < a + count then f x else unlistedByte := by
  induction count generalizing a with
  | zero => rw [if_neg (by omega)]; rfl
  | succ n ih =>
    simp only [Memory.ofBytes]
    rw [Memory.read_cell _ a x _ (fun c hc => by have := Memory.ofBytes_ge f (a + 1) n c hc; omega), ih]
    by_cases hx : x = a
    · subst hx; simp
    · rw [if_neg hx]
      by_cases hr : a + 1 ≤ x ∧ x < a + 1 + n
      · rw [if_pos hr, if_pos (by omega)]
      · rw [if_neg hr, if_neg (by omega)]

/-- Two canonical memories that read alike are equal. -/
theorem Memory.ext_of_read (m m' : Memory) (h : m.wf) (h' : m'.wf) (hr : ∀ x, m.read x = m'.read x) : m = m' := by
  induction m generalizing m' with
  | nil =>
    cases m' with
    | nil => rfl
    | cons d m' =>
      have := hr d.1
      rw [Memory.read_nil, Memory.read_cons, if_pos rfl] at this
      exact absurd this.symm (h'.2 d (by simp))
  | cons c m ih =>
    have hp := List.pairwise_cons.mp h.1
    have hm : Memory.wf m := ⟨hp.2, fun e he => h.2 e (by simp [he])⟩
    cases m' with
    | nil =>
      have := hr c.1
      rw [Memory.read_nil, Memory.read_cons, if_pos rfl] at this
      exact absurd this (h.2 c (by simp))
    | cons d m' =>
      have hp' := List.pairwise_cons.mp h'.1
      have hm' : Memory.wf m' := ⟨hp'.2, fun e he => h'.2 e (by simp [he])⟩
      have hcd : c.1 = d.1 := by
        rcases Nat.lt_trichotomy c.1 d.1 with hlt | heq | hlt
        · have := hr c.1
          rw [Memory.read_cons, if_pos rfl, Memory.read_cons, if_neg (by omega),
            Memory.read_below m' c.1 (fun e he => Nat.lt_trans hlt (hp'.1 e he))] at this
          exact absurd this (h.2 c (by simp))
        · exact heq
        · have := hr d.1
          rw [Memory.read_cons, if_neg (by omega), Memory.read_cons, if_pos rfl,
            Memory.read_below m d.1 (fun e he => Nat.lt_trans hlt (hp.1 e he))] at this
          exact absurd this.symm (h'.2 d (by simp))
      have hval : c.2 = d.2 := by
        have := hr c.1
        rwa [Memory.read_cons, if_pos rfl, Memory.read_cons, if_pos hcd] at this
      have hrest : m = m' := by
        refine ih m' hm hm' (fun x => ?_)
        have hx := hr x
        rw [Memory.read_cons, Memory.read_cons, ← hcd] at hx
        split at hx
        · next he =>
          subst he
          rw [Memory.read_below m _ hp.1, Memory.read_below m' _ (hcd ▸ hp'.1)]
        · exact hx
      rw [hrest]
      exact congrArg (· :: m') (Prod.ext hcd hval)

end Sys2Proof.Machine
end

