-- ==== Sys2Proof/Laws/Level1.lean ====
section
/-! SUPPORT. What Level 1's pass over a chunk computes: run state, masks, staged bytes, sizes (R66 to R73). -/

namespace Sys2Proof.Machine

/-- The run state byte is its own `Next`: a skipped byte moves nothing (R69). -/
theorem nextBit_matchByte (m : Bool) : nextBit (matchByte m) = m := by cases m <;> rfl

@[simp] theorem runAfter_nil (m : Bool) : runAfter m [] = m := rfl

@[simp] theorem runAfter_cons (m : Bool) (b : Byte) (bs : List Byte) : runAfter m (b :: bs) = runAfter (nextBit b) bs := rfl

theorem runAfter_append (m : Bool) (as bs : List Byte) : runAfter m (as ++ bs) = runAfter (runAfter m as) bs := by
  simp [runAfter, List.foldl_append]

@[simp] theorem literalAt_zero (m : Bool) (b : Byte) (bs : List Byte) : literalAt m (b :: bs) 0 = (b != matchByte m) := rfl

@[simp] theorem literalAt_succ (m : Bool) (b : Byte) (bs : List Byte) (i : Nat) :
    literalAt m (b :: bs) (i + 1) = literalAt (nextBit b) bs i := by
  cases i <;> rfl

/-! ### One group -/

theorem encodeGroup_skip (m : Bool) (j : Nat) (bs : List Byte) :
    encodeGroup m j (matchByte m :: bs) = encodeGroup m (j + 1) bs := by
  simp [encodeGroup]

theorem encodeGroup_literal (m : Bool) (j : Nat) (b : Byte) (bs : List Byte) (h : b ≠ matchByte m) :
    encodeGroup m j (b :: bs) =
      { mask := childBit j ||| (encodeGroup (nextBit b) (j + 1) bs).mask
        lits := b :: (encodeGroup (nextBit b) (j + 1) bs).lits
        matchBit := (encodeGroup (nextBit b) (j + 1) bs).matchBit } := by
  simp [encodeGroup, h]

/-- The run state after a group is `Next` of its last byte (R69). -/
theorem encodeGroup_matchBit (m : Bool) (j : Nat) (bs : List Byte) : (encodeGroup m j bs).matchBit = runAfter m bs := by
  induction bs generalizing m j with
  | nil => rfl
  | cons b bs ih =>
    by_cases h : b = matchByte m
    · subst h; rw [encodeGroup_skip, ih, runAfter_cons, nextBit_matchByte]
    · rw [encodeGroup_literal m j b bs h, runAfter_cons]; exact ih _ _

/-- A mask bit is set exactly for a literal of the group (R66). -/
theorem encodeGroup_hasChild (m : Bool) (j : Nat) (bs : List Byte) (k : Nat) (hk : k < 8) :
    hasChild (encodeGroup m j bs).mask k = (decide (j ≤ k ∧ k < j + bs.length) && literalAt m bs (k - j)) := by
  induction bs generalizing m j with
  | nil => simp [encodeGroup]
  | cons b bs ih =>
    have hrest (m' : Bool) (hm : literalAt m (b :: bs) = fun i => if i = 0 then b != matchByte m else literalAt m' bs (i - 1)) :
        k ≠ j → (decide (j + 1 ≤ k ∧ k < j + 1 + bs.length) && literalAt m' bs (k - (j + 1))) =
          (decide (j ≤ k ∧ k < j + (b :: bs).length) && literalAt m (b :: bs) (k - j)) := by
      intro hkj
      by_cases hle : j ≤ k
      · rw [hm]
        simp only [List.length_cons, show ¬ (k - j = 0) by omega, if_false, show k - j - 1 = k - (j + 1) by omega]
        congr 1
        simp only [decide_eq_decide]; omega
      · simp [show ¬ (j ≤ k) from hle, show ¬ (j + 1 ≤ k) by omega]
    have hm : ∀ m', m' = nextBit b →
        literalAt m (b :: bs) = fun i => if i = 0 then b != matchByte m else literalAt m' bs (i - 1) := by
      intro m' he
      subst he
      funext i
      cases i with
      | zero => rfl
      | succ i => simp
    by_cases h : b = matchByte m
    · subst h
      rw [encodeGroup_skip, ih]
      by_cases hkj : k = j
      · subst hkj; simp
      · exact hrest m (hm m (nextBit_matchByte m).symm) hkj
    · rw [encodeGroup_literal m j b bs h]
      simp only
      by_cases hj : j < 8
      · rw [hasChild_or _ _ k hk, hasChild_childBit j k hj hk, ih]
        by_cases hkj : k = j
        · subst hkj; simp [h]
        · rw [hrest (nextBit b) (hm _ rfl) hkj]; simp [show ¬ j = k from fun h => hkj h.symm]
      · rw [show childBit j = 0#8 by
          have : 8 ≤ j := by omega
          simp only [childBit]
          exact BitVec.ushiftRight_eq_zero (by omega)]
        rw [BitVec.zero_or, ih]
        exact hrest (nextBit b) (hm _ rfl) (by omega)

/-- No mask bit for bytes a group does not have (R70). -/
theorem encodeGroup_hasChild_beyond (m : Bool) (bs : List Byte) (k : Nat) (hk : k < 8) (h : bs.length ≤ k) :
    hasChild (encodeGroup m 0 bs).mask k = false := by
  rw [encodeGroup_hasChild m 0 bs k hk]; simp; omega

theorem encodeGroup_lits_length (m : Bool) (j : Nat) (bs : List Byte) : (encodeGroup m j bs).lits.length ≤ bs.length := by
  induction bs generalizing m j with
  | nil => exact Nat.le_refl 0
  | cons b bs ih =>
    by_cases h : b = matchByte m
    · subst h; rw [encodeGroup_skip]; have := ih m (j + 1); simp; omega
    · rw [encodeGroup_literal m j b bs h]; have := ih (nextBit b) (j + 1); simp; omega

/-- The group mask is zero exactly when the group has no literal. -/
theorem encodeGroup_mask_eq_zero (m : Bool) (j : Nat) (bs : List Byte) (h : j + bs.length ≤ 8) :
    (encodeGroup m j bs).mask = 0#8 ↔ (encodeGroup m j bs).lits = [] := by
  induction bs generalizing m j with
  | nil => simp [encodeGroup]
  | cons b bs ih =>
    have h' : j + 1 + bs.length ≤ 8 := by simp at h; omega
    by_cases hb : b = matchByte m
    · subst hb; rw [encodeGroup_skip]; exact ih m (j + 1) h'
    · rw [encodeGroup_literal m j b bs hb]
      simp [childBit_ne_zero j (by omega)]

/-- A group without literals is a run (R71). -/
theorem encodeGroup_run (m : Bool) (j : Nat) (bs : List Byte) (h : (encodeGroup m j bs).lits = []) :
    bs = List.replicate bs.length (matchByte m) ∧ runAfter m bs = m := by
  induction bs generalizing m j with
  | nil => exact ⟨rfl, rfl⟩
  | cons b bs ih =>
    by_cases hb : b = matchByte m
    · subst hb
      rw [encodeGroup_skip] at h
      have := ih m (j + 1) h
      refine ⟨?_, by rw [runAfter_cons, nextBit_matchByte]; exact this.2⟩
      rw [List.length_cons, List.replicate_succ, ← this.1]
    · rw [encodeGroup_literal m j b bs hb] at h; simp at h

theorem GroupCode.bytes_length_le (m : Bool) (bs : List Byte) : (encodeGroup m 0 bs).bytes.length ≤ bs.length + 1 := by
  have := encodeGroup_lits_length m 0 bs
  unfold GroupCode.bytes
  split
  · simp
  · simp; omega

/-! ### The masked pass -/

theorem encodeGroups_cons (m : Bool) (g count : Nat) (bs : List Byte) :
    encodeGroups m g (groupsOf (count + 1) bs) =
      { nib := (encodeGroup m 0 (bs.take 8)).nibBit g |||
          (encodeGroups (runAfter m (bs.take 8)) (g + 1) (groupsOf count (bs.drop 8))).nib
        vec := ((encodeGroup m 0 (bs.take 8)).mask.setWidth 32 <<< (24 - 8 * g)) |||
          (encodeGroups (runAfter m (bs.take 8)) (g + 1) (groupsOf count (bs.drop 8))).vec
        stage := (encodeGroup m 0 (bs.take 8)).bytes ++
          (encodeGroups (runAfter m (bs.take 8)) (g + 1) (groupsOf count (bs.drop 8))).stage
        matchBit := (encodeGroups (runAfter m (bs.take 8)) (g + 1) (groupsOf count (bs.drop 8))).matchBit } := by
  rw [← encodeGroup_matchBit m 0 (bs.take 8)]; rfl

/-- The run state after the masked pass (R69). -/
theorem encodeGroups_matchBit (m : Bool) (g count : Nat) (bs : List Byte) (h : bs.length ≤ 8 * count) :
    (encodeGroups m g (groupsOf count bs)).matchBit = runAfter m bs := by
  induction count generalizing m g bs with
  | zero => simp at h; subst h; rfl
  | succ count ih =>
    rw [encodeGroups_cons]
    simp only
    rw [ih _ _ _ (by simp; omega), ← runAfter_append, List.take_append_drop]

/-- Groups before `g` are not marked. -/
theorem encodeGroups_hasGroup_below (m : Bool) (g count : Nat) (bs : List Byte) (k : Nat) (hk : k < g) (hg : g + count ≤ 4) :
    hasGroup (encodeGroups m g (groupsOf count bs)).nib k = false := by
  induction count generalizing m g bs with
  | zero => simp [groupsOf, encodeGroups]
  | succ count ih =>
    rw [encodeGroups_cons]
    simp only
    rw [hasGroup_or _ _ k (by omega), ih _ _ _ (by omega) (by omega)]
    unfold GroupCode.nibBit
    split
    · simp
    · rw [hasGroup_groupBit g k (by omega) (by omega)]; simp; omega

theorem encodeGroups_hasGroup_beyond (m : Bool) (g count : Nat) (bs : List Byte) (k : Nat) (hk : g + count ≤ k) (h4 : k < 4) :
    hasGroup (encodeGroups m g (groupsOf count bs)).nib k = false := by
  induction count generalizing m g bs with
  | zero => simp [groupsOf, encodeGroups]
  | succ count ih =>
    rw [encodeGroups_cons]
    simp only
    rw [hasGroup_or _ _ k h4, ih _ _ _ (by omega)]
    unfold GroupCode.nibBit
    split
    · simp
    · rw [hasGroup_groupBit g k (by omega) h4]; simp; omega

/-- The masked pass has no output exactly when its nibble is zero. -/
theorem encodeGroups_stage_nil (m : Bool) (g count : Nat) (bs : List Byte) (hg : g + count ≤ 4) :
    (encodeGroups m g (groupsOf count bs)).nib = 0#4 ↔ (encodeGroups m g (groupsOf count bs)).stage = [] := by
  induction count generalizing m g bs with
  | zero => simp [groupsOf, encodeGroups]
  | succ count ih =>
    rw [encodeGroups_cons]
    simp only [nibble_or_eq_zero, List.append_eq_nil_iff, ih _ _ _ (show g + 1 + count ≤ 4 by omega)]
    refine and_congr_left (fun _ => ?_)
    unfold GroupCode.nibBit GroupCode.bytes
    split <;> simp [groupBit_ne_zero g (by omega)]

/-- A pass without output saw only the run (R71). -/
theorem encodeGroups_run (m : Bool) (g count : Nat) (bs : List Byte) (h : bs.length ≤ 8 * count)
    (hs : (encodeGroups m g (groupsOf count bs)).stage = []) :
    bs = List.replicate bs.length (matchByte m) ∧ runAfter m bs = m := by
  induction count generalizing m g bs with
  | zero => simp at h; subst h; exact ⟨rfl, rfl⟩
  | succ count ih =>
    rw [encodeGroups_cons] at hs
    simp only [List.append_eq_nil_iff] at hs
    have h0 : (encodeGroup m 0 (bs.take 8)).lits = [] := by
      rw [← encodeGroup_mask_eq_zero m 0 _ (by simp)]
      have := hs.1
      unfold GroupCode.bytes at this
      split at this
      · assumption
      · simp at this
    have h1 := encodeGroup_run m 0 _ h0
    rw [h1.2] at hs
    have h2 := ih m (g + 1) (bs.drop 8) (by simp; omega) hs.2
    constructor
    · conv => lhs; rw [← List.take_append_drop 8 bs]
      rw [h1.1, h2.1, List.replicate_append_replicate]
      simp only [List.length_take, List.length_drop]
      congr 1; omega
    · rw [← List.take_append_drop 8 bs, runAfter_append, h1.2, h2.2]

/-! ### One chunk -/

theorem groupCount_covers (n : Nat) : n ≤ 8 * groupCount n := by unfold groupCount; omega

theorem groupCount_le (n : Nat) (h : n ≤ 32) : groupCount n ≤ 4 := by unfold groupCount; omega

/-- The two forms of a chunk (R56, R57, R67). -/
theorem chunkCode_cases (m : Bool) (bs : List Byte) :
    (chunkCode m bs = maskedPass m bs ∧
      ((maskedPass m bs).nib = 0#4 ∨ (maskedPass m bs).stage.length ≤ bs.length)) ∨
    ((maskedPass m bs).nib ≠ 0#4 ∧ bs.length < (maskedPass m bs).stage.length ∧
      chunkCode m bs = { maskedPass m bs with nib := fullNibble bs.length, stage := 0x00#8 :: bs }) := by
  unfold chunkCode
  by_cases h : (maskedPass m bs).nib ≠ 0#4 ∧ (maskedPass m bs).stage.length > bs.length
  · exact .inr ⟨h.1, h.2, by simp only; rw [if_pos h]⟩
  · refine .inl ⟨by simp only; rw [if_neg h], ?_⟩
    by_cases hn : (maskedPass m bs).nib = 0#4
    · exact .inl hn
    · exact .inr (Nat.le_of_not_lt fun hl => h ⟨hn, hl⟩)

@[simp] theorem maskedPass_nil (m : Bool) : maskedPass m [] = { nib := 0#4, vec := 0#32, stage := [], matchBit := m } := rfl

@[simp] theorem chunkCode_nil (m : Bool) : chunkCode m [] = { nib := 0#4, vec := 0#32, stage := [], matchBit := m } := rfl

/-- The run state after a chunk of either form is `Next` of its last byte (R67, R69). -/
theorem chunkCode_matchBit (m : Bool) (bs : List Byte) : (chunkCode m bs).matchBit = runAfter m bs := by
  have h : (maskedPass m bs).matchBit = runAfter m bs := encodeGroups_matchBit m 0 _ bs (groupCount_covers _)
  rcases chunkCode_cases m bs with ⟨he, _⟩ | ⟨_, _, he⟩ <;> rw [he] <;> exact h

theorem maskedPass_stage_nil (m : Bool) (bs : List Byte) (h : bs.length ≤ 32) :
    (maskedPass m bs).nib = 0#4 ↔ (maskedPass m bs).stage = [] :=
  encodeGroups_stage_nil m 0 _ bs (by have := groupCount_le _ h; omega)

/-- A chunk produces output exactly when its nibble is not zero (R68). -/
theorem chunkCode_stage_nil (m : Bool) (bs : List Byte) (h : bs.length ≤ 32) :
    (chunkCode m bs).nib = 0#4 ↔ (chunkCode m bs).stage = [] := by
  rcases chunkCode_cases m bs with ⟨he, _⟩ | ⟨hn, hl, he⟩
  · rw [he]; exact maskedPass_stage_nil m bs h
  · rw [he]
    have h1 : 1 ≤ bs.length := by
      cases bs with
      | nil => simp at hn
      | cons => simp
    simp [fullNibble_ne_zero _ h1 h]

/-- A chunk never commits more than `n + 1` bytes (R73). -/
theorem chunkCode_length_le (m : Bool) (bs : List Byte) (h : bs.length ≤ 32) :
    (chunkCode m bs).stage.length ≤ bs.length + 1 := by
  rcases chunkCode_cases m bs with ⟨he, h0 | hl⟩ | ⟨_, _, he⟩
  · rw [he, (maskedPass_stage_nil m bs h).mp h0]; simp
  · rw [he]; omega
  · rw [he]; simp

/-- A free chunk is a run of the run state (R71). -/
theorem chunkCode_run (m : Bool) (bs : List Byte) (h : bs.length ≤ 32) (hn : (chunkCode m bs).nib = 0#4) :
    bs = List.replicate bs.length (matchByte m) ∧ runAfter m bs = m := by
  have hs := (chunkCode_stage_nil m bs h).mp hn
  rcases chunkCode_cases m bs with ⟨he, _⟩ | ⟨_, _, he⟩
  · rw [he] at hs; exact encodeGroups_run m 0 _ bs (groupCount_covers _) hs
  · rw [he] at hs; simp at hs

end Sys2Proof.Machine
end

