-- ==== Sys2Proof/Laws/Encoder.lean ====
section
/-! SUPPORT. The encoder writes the code stream (R52 to R57, R66, R76, R78, R81) and never overflows a code memory that has room for
the worst case (R61, R85). -/

namespace Sys2Proof.Machine

/-! ### Memories written in pieces -/

theorem Memory.writeBytes_append (m : Memory) (a : Nat) (xs ys : List Byte) :
    m.writeBytes a (xs ++ ys) = (m.writeBytes a xs).writeBytes (a + xs.length) ys := by
  induction xs generalizing m a with
  | nil => simp [Memory.writeBytes]
  | cons x xs ih => simp [Memory.writeBytes, ih, show a + 1 + xs.length = a + (xs.length + 1) by omega]

/-- A reserved byte filled in after the bytes behind it (R74). -/
theorem Memory.write_reserved (m : Memory) (a : Nat) (v : Byte) (vs : List Byte) (h : m.wf) :
    (m.writeBytes (a + 1) vs).write a v = m.writeBytes a (v :: vs) := by
  have h1 := Memory.writeBytes_wf m (a + 1) vs h
  have h2 := Memory.write_wf m a v h
  refine Memory.ext_of_read _ _ (Memory.write_wf _ _ _ h1) (Memory.writeBytes_wf _ _ _ h) (fun x => ?_)
  simp only [Memory.writeBytes]
  rw [Memory.read_write _ _ _ _ h1, Memory.read_writeBytes _ _ _ _ h2, Memory.read_writeBytes _ _ _ _ h, Memory.read_write _ _ _ _ h]
  by_cases hx : x = a
  · subst hx; rw [if_pos rfl, if_neg (by omega), if_pos rfl]
  · simp [hx]

/-! ### Geometry -/

/-- `left` children of `unit` bytes cover exactly `rem` bytes, every one at least one byte (R12). -/
def Covers (unit : Nat) : Nat → Nat → Prop
  | 0, rem => rem = 0
  | left + 1, rem => 1 ≤ rem ∧ Covers unit left (rem - unit)

theorem covers_rounds (n : Nat) : Covers 64 (roundCount n) n := by
  have h : ∀ left n, roundCount n = left → Covers 64 left n := by
    intro left
    induction left with
    | zero => intro n h; unfold roundCount at h; simp only [Covers]; omega
    | succ left ih => intro n h; unfold roundCount at h; exact ⟨by omega, ih _ (by unfold roundCount; omega)⟩
  exact h _ _ rfl

theorem covers_blocks (n : Nat) : Covers 512 (blockCount n) n := by
  have h : ∀ left n, blockCount n = left → Covers 512 left n := by
    intro left
    induction left with
    | zero => intro n h; unfold blockCount at h; simp only [Covers]; omega
    | succ left ih => intro n h; unfold blockCount at h; exact ⟨by omega, ih _ (by unfold blockCount; omega)⟩
  exact h _ _ rfl

theorem covers_regions (n : Nat) : Covers 4096 (regionCount n) n := by
  have h : ∀ left n, regionCount n = left → Covers 4096 left n := by
    intro left
    induction left with
    | zero => intro n h; unfold regionCount at h; simp only [Covers]; omega
    | succ left ih => intro n h; unfold regionCount at h; exact ⟨by omega, ih _ (by unfold regionCount; omega)⟩
  exact h _ _ rfl

/-! ### Worst-case sizes (R61) -/

/-- Most bytes a round of `n` bytes can add to the stream: one more than its bytes for each chunk. -/
def roundCap (n : Nat) : Nat := n + (n + 31) / 32

/-- Most bytes a block of `n` bytes can add: a pair byte for each round besides. -/
def blockCap (n : Nat) : Nat := n + (n + 31) / 32 + (n + 63) / 64

/-- Most bytes a region of `n` bytes can add: an `M2` byte for each block besides. -/
def regionCap (n : Nat) : Nat := n + (n + 31) / 32 + (n + 63) / 64 + (n + 511) / 512

/-- Most bytes a buffer of `n` bytes can take: an `M3` byte for each region besides. -/
def bufferCap (n : Nat) : Nat := n + (n + 31) / 32 + (n + 63) / 64 + (n + 511) / 512 + (n + 4095) / 4096

/-- The worst case is below `WCSIZE` (R61, R85). -/
theorem bufferCap_lt_wcsize (n : Nat) : bufferCap n < wcsize n := by unfold bufferCap wcsize; omega

/-- The room that `left` children and the bytes reserved for them need. -/
def childrenCap (unit : Nat) (cap : Nat → Nat) : Nat → Nat → Nat
  | 0, _ => 0
  | left + 1, rem => 1 + cap (min unit rem) + childrenCap unit cap left (rem - unit)

theorem childrenCap_rounds (n : Nat) : childrenCap 64 roundCap (roundCount n) n = blockCap n := by
  have h : ∀ left n, roundCount n = left → childrenCap 64 roundCap left n = blockCap n := by
    intro left
    induction left with
    | zero => intro n h; unfold roundCount at h; simp only [childrenCap, blockCap]; omega
    | succ left ih =>
      intro n h
      unfold roundCount at h
      simp only [childrenCap]
      rw [ih (n - 64) (by unfold roundCount; omega)]
      unfold roundCap blockCap
      omega
  exact h _ _ rfl

theorem childrenCap_blocks (n : Nat) : childrenCap 512 blockCap (blockCount n) n = regionCap n := by
  have h : ∀ left n, blockCount n = left → childrenCap 512 blockCap left n = regionCap n := by
    intro left
    induction left with
    | zero => intro n h; unfold blockCount at h; simp only [childrenCap, regionCap]; omega
    | succ left ih =>
      intro n h
      unfold blockCount at h
      simp only [childrenCap]
      rw [ih (n - 512) (by unfold blockCount; omega)]
      unfold blockCap regionCap
      omega
  exact h _ _ rfl

theorem childrenCap_regions (n : Nat) : childrenCap 4096 regionCap (regionCount n) n = bufferCap n := by
  have h : ∀ left n, regionCount n = left → childrenCap 4096 regionCap left n = bufferCap n := by
    intro left
    induction left with
    | zero => intro n h; unfold regionCount at h; simp only [childrenCap, bufferCap]; omega
    | succ left ih =>
      intro n h
      unfold regionCount at h
      simp only [childrenCap]
      rw [ih (n - 4096) (by unfold regionCount; omega)]
      unfold regionCap bufferCap
      omega
  exact h _ _ rfl

/-! ### One chunk -/

/-- The writes of an encode unit whose code is `c` (the presence vector apart). -/
def EncWork.emit (w : EncWork) (n : Nat) (bytes : List Byte) (m : Bool) (vec : Word) : EncWork :=
  { cm := w.cm.writeBytes w.ctail bytes, bcur := w.bcur + n, ctail := w.ctail + bytes.length, matchBit := m, l1mask := vec }

/-- Everything `Enc1` can do for `n ≥ 1` inside the bitmap: it writes the chunk encoding or overflows (R66). -/
theorem enc1_eq (env : EncEnv) (n : Nat) (w : EncWork) (h1 : 1 ≤ n) (hb : w.bcur + n ≤ env.bmSize) :
    enc1 env n w =
      let cc := chunkCode w.matchBit (env.bm.readBytes w.bcur n)
      if w.ctail + cc.stage.length > env.cmSize then .error ⟨.outOverflow, w.bcur⟩
      else .ok (cc.nib, w.emit n cc.stage cc.matchBit cc.vec) := by
  unfold enc1
  rw [if_neg (by omega), if_neg (by omega)]
  rfl

@[simp] theorem enc1_zero (env : EncEnv) (w : EncWork) : enc1 env 0 w = .ok (0#4, w) := rfl

/-! ### Units above the chunk -/

/-- `child` is an encode unit whose code is `code` and which needs at most `cap n` bytes of room. -/
def Encodes (env : EncEnv) (unit : Nat) (cap : Nat → Nat) (child : Nat → EncWork → Except Raise (Byte × EncWork))
    (code : Bool → List Byte → UnitCode) : Prop :=
  ∀ n w, 1 ≤ n → n ≤ unit → w.cm.wf → w.bcur + n ≤ env.bmSize → w.ctail + cap n ≤ env.cmSize →
    let c := code w.matchBit (env.bm.readBytes w.bcur n)
    (∃ vec, child n w = .ok (c.mask, w.emit n c.bytes c.matchBit vec)) ∧ c.bytes.length ≤ cap n ∧ (c.mask = 0#8 → c.bytes = [])

theorem encRound_encodes (env : EncEnv) : Encodes env 64 roundCap (encRound env) roundCode := by
  intro n w h1 hn hwf hb hc
  have hl1 : (env.bm.readBytes w.bcur n).take 32 = env.bm.readBytes w.bcur (firstChunk n) := Memory.readBytes_take _ _ _ _
  have hl2 : (env.bm.readBytes w.bcur n).drop 32 = env.bm.readBytes (w.bcur + 32) (n - 32) := Memory.readBytes_drop _ _ _ _
  have hsc : secondChunk n = n - 32 := by unfold secondChunk; omega
  have hfc : firstChunk n = min 32 n := rfl
  simp only [roundCode, hl1, hl2]
  generalize hA : chunkCode w.matchBit (env.bm.readBytes w.bcur (firstChunk n)) = a
  have ha1 : a.stage.length ≤ firstChunk n + 1 := by
    have := chunkCode_length_le w.matchBit (env.bm.readBytes w.bcur (firstChunk n)) (by simp [hfc])
    simpa [hA] using this
  have ha0 : a.nib = 0#4 ↔ a.stage = [] := by
    have := chunkCode_stage_nil w.matchBit (env.bm.readBytes w.bcur (firstChunk n)) (by simp [hfc])
    simpa [hA] using this
  have he1 : enc1 env (firstChunk n) w = .ok (a.nib, w.emit (firstChunk n) a.stage a.matchBit a.vec) := by
    rw [enc1_eq env _ w (by omega) (by omega)]
    simp only [hA]
    rw [if_neg (by unfold roundCap at hc; omega)]
  unfold encRound
  rw [he1]
  simp only [bind, Except.bind]
  by_cases h32 : n ≤ 32
  · have hz : n - 32 = 0 := by omega
    rw [hsc, hz]
    simp only [Memory.readBytes, chunkCode_nil, enc1_zero, List.append_nil]
    have hf : firstChunk n = n := by omega
    refine ⟨⟨a.vec, by rw [hf]⟩, by unfold roundCap; omega, fun h => ha0.mp ((pairByte_eq_zero _ _).mp h).1⟩
  · have hf : firstChunk n = 32 := by omega
    rw [hf] at ha1 ⊢
    generalize hB : chunkCode a.matchBit (env.bm.readBytes (w.bcur + 32) (n - 32)) = b
    have hb1 : b.stage.length ≤ n - 32 + 1 := by
      have := chunkCode_length_le a.matchBit (env.bm.readBytes (w.bcur + 32) (n - 32)) (by simp; omega)
      simpa [hB] using this
    have hb0 : b.nib = 0#4 ↔ b.stage = [] := by
      have := chunkCode_stage_nil a.matchBit (env.bm.readBytes (w.bcur + 32) (n - 32)) (by simp; omega)
      simpa [hB] using this
    rw [hsc, enc1_eq env (n - 32) _ (by omega) (by simp [EncWork.emit]; omega)]
    simp only [EncWork.emit, hB]
    rw [if_neg (by unfold roundCap at hc; omega)]
    refine ⟨⟨b.vec, ?_⟩, by simp; unfold roundCap; omega, fun h => ?_⟩
    · rw [Memory.writeBytes_append]
      simp only [List.length_append]
      rw [show w.bcur + 32 + (n - 32) = w.bcur + n by omega, Nat.add_assoc]
    · have := (pairByte_eq_zero _ _).mp h
      rw [ha0.mp this.1, hb0.mp this.2]; rfl

/-- A unit whose children produced no output has no bytes (R75). -/
theorem childrenCode_bytes_nil (size : Nat) (child : Bool → List Byte → UnitCode) (left k : Nat) (m : Bool) (bs : List Byte)
    (hk : k + left ≤ 8) (h : (childrenCode size child left k m bs).mask = 0#8) :
    (childrenCode size child left k m bs).bytes = [] := by
  induction left generalizing k m bs with
  | zero => rfl
  | succ left ih =>
    simp only [childrenCode, byte_or_eq_zero] at h ⊢
    have h0 : (child m (bs.take size)).mask = 0#8 := by
      have := h.1
      unfold UnitCode.maskBit at this
      split at this
      · assumption
      · exact absurd this (childBit_ne_zero k (by omega))
    rw [ih _ _ _ (by omega) h.2]
    simp [UnitCode.inParent, h0]

/-- The masked block routine writes its children's code (R74). -/
theorem maskedBlock_encodes (env : EncEnv) (unit : Nat) (cap : Nat → Nat) (child : Nat → EncWork → Except Raise (Byte × EncWork))
    (code : Bool → List Byte → UnitCode) (hu : 1 ≤ unit) (hch : Encodes env unit cap child code) :
    ∀ left k rem res w, Covers unit left rem → k + left ≤ 8 → w.cm.wf → w.bcur + rem ≤ env.bmSize →
      w.ctail + childrenCap unit cap left rem ≤ env.cmSize →
      let c := childrenCode unit code left k w.matchBit (env.bm.readBytes w.bcur rem)
      (∃ vec, maskedBlock env unit child left k rem res w = .ok (res ||| c.mask, w.emit rem c.bytes c.matchBit vec)) ∧
        c.bytes.length ≤ childrenCap unit cap left rem := by
  intro left
  induction left with
  | zero =>
    intro k rem res w hcov _ _ _ _
    simp only [Covers] at hcov
    subst hcov
    refine ⟨⟨w.l1mask, ?_⟩, by simp [childrenCode, childrenCap]⟩
    simp [maskedBlock, childrenCode, EncWork.emit, Memory.writeBytes]
  | succ left ih =>
    intro k rem res w hcov hk hwf hb hc
    obtain ⟨h1, hcov⟩ := hcov
    simp only [childrenCap] at hc
    have ht : (env.bm.readBytes w.bcur rem).take unit = env.bm.readBytes w.bcur (min unit rem) := Memory.readBytes_take _ _ _ _
    have hd : (env.bm.readBytes w.bcur rem).drop unit = env.bm.readBytes (w.bcur + unit) (rem - unit) := Memory.readBytes_drop _ _ _ _
    obtain ⟨⟨vec, he⟩, hlen, hzero⟩ := hch (min unit rem) { w with ctail := w.ctail + 1 } (by omega) (by omega) hwf
      (by simp only; omega) (by simp only; omega)
    simp only [childrenCode, ht, hd]
    simp only at he hlen hzero
    generalize code w.matchBit (env.bm.readBytes w.bcur (min unit rem)) = c at he hlen hzero ⊢
    simp only [maskedBlock, he, bind, Except.bind]
    have hread : env.bm.readBytes (w.bcur + unit) (rem - unit) = env.bm.readBytes (w.bcur + min unit rem) (rem - unit) := by
      by_cases hr : rem ≤ unit
      · rw [Nat.sub_eq_zero_of_le hr]; rfl
      · rw [Nat.min_eq_left (by omega)]
    rw [hread]
    have hbc : w.bcur + min unit rem + (rem - unit) = w.bcur + rem := by omega
    by_cases hm : c.mask = 0#8
    · rw [if_pos hm]
      have hn := hzero hm
      obtain ⟨⟨vec', he'⟩, hlen'⟩ := ih (k + 1) (rem - unit) res
        { (w.emit (min unit rem) [] c.matchBit vec) with ctail := w.ctail } hcov (by omega) (by simpa [EncWork.emit, Memory.writeBytes] using hwf)
        (by simp only [EncWork.emit]; omega) (by simp only; omega)
      simp only [EncWork.emit, Memory.writeBytes] at he' hlen' ⊢
      refine ⟨⟨vec', ?_⟩, ?_⟩
      · simp only [hn, Memory.writeBytes, UnitCode.maskBit, UnitCode.inParent, hm, if_true, BitVec.zero_or, List.nil_append]
        rw [he', hbc]
      · simp only [UnitCode.inParent, hm, if_true, List.nil_append, childrenCap]; omega
    · rw [if_neg hm, if_neg (by omega)]
      obtain ⟨⟨vec', he'⟩, hlen'⟩ := ih (k + 1) (rem - unit) (res ||| childBit k)
        (w.emit (min unit rem) (c.mask :: c.bytes) c.matchBit vec) hcov (by omega)
        (by simp only [EncWork.emit]; exact Memory.writeBytes_wf _ _ _ hwf)
        (by simp only [EncWork.emit]; omega) (by simp only [EncWork.emit, List.length_cons]; omega)
      simp only [EncWork.emit, List.length_cons] at he' hlen' ⊢
      refine ⟨⟨vec', ?_⟩, ?_⟩
      · rw [Memory.write_reserved _ _ _ _ hwf]
        simp only [UnitCode.maskBit, UnitCode.inParent, hm, if_false, List.cons_append]
        rw [show w.ctail + 1 + c.bytes.length = w.ctail + (c.bytes.length + 1) by omega, he', hbc]
        rw [← List.cons_append, Memory.writeBytes_append, BitVec.or_assoc]
        simp only [List.length_cons, List.length_append]
        rw [show w.ctail + (c.bytes.length + 1) + (childrenCode unit code left (k + 1) c.matchBit (env.bm.readBytes
          (w.bcur + min unit rem) (rem - unit))).bytes.length = w.ctail + (c.bytes.length + 1 + (childrenCode unit code left (k + 1)
          c.matchBit (env.bm.readBytes (w.bcur + min unit rem) (rem - unit))).bytes.length) by omega]
      · simp only [UnitCode.inParent, hm, if_false, List.length_append, List.length_cons, childrenCap]; omega

theorem roundCount_le (n : Nat) (h : n ≤ 512) : roundCount n ≤ 8 := by unfold roundCount; omega

theorem blockCount_le (n : Nat) (h : n ≤ 4096) : blockCount n ≤ 8 := by unfold blockCount; omega

/-- `Enc2` writes the block encoding, for every length it may have (R76, R54). -/
theorem enc2_encodes' (env : EncEnv) (n : Nat) (w : EncWork) (hn : n ≤ 512) (hwf : w.cm.wf) (hb : w.bcur + n ≤ env.bmSize)
    (hc : w.ctail + blockCap n ≤ env.cmSize) :
    let c := blockCode w.matchBit (env.bm.readBytes w.bcur n)
    (∃ vec, enc2 env n w = .ok (c.mask, w.emit n c.bytes c.matchBit vec)) ∧ c.bytes.length ≤ blockCap n ∧
      (c.mask = 0#8 → c.bytes = []) := by
  have h8 := roundCount_le n hn
  have := maskedBlock_encodes env 64 roundCap (encRound env) roundCode (by omega) (encRound_encodes env)
    (roundCount n) 0 n 0#8 w (covers_rounds n) (by omega) hwf hb (by rw [childrenCap_rounds]; exact hc)
  rw [childrenCap_rounds] at this
  simp only [blockCode, Memory.readBytes_length]
  obtain ⟨⟨vec, he⟩, hl⟩ := this
  refine ⟨⟨vec, ?_⟩, hl, fun h => childrenCode_bytes_nil _ _ _ _ _ _ (by omega) h⟩
  unfold enc2
  rw [he, BitVec.zero_or]

theorem enc2_encodes (env : EncEnv) : Encodes env 512 blockCap (enc2 env) blockCode :=
  fun n w _ hn hwf hb hc => enc2_encodes' env n w hn hwf hb hc

/-- `Enc3` writes the region encoding, for every length it may have (R78, R53). -/
theorem enc3_encodes' (env : EncEnv) (n : Nat) (w : EncWork) (hn : n ≤ 4096) (hwf : w.cm.wf) (hb : w.bcur + n ≤ env.bmSize)
    (hc : w.ctail + regionCap n ≤ env.cmSize) :
    let c := regionCode w.matchBit (env.bm.readBytes w.bcur n)
    (∃ vec, enc3 env n w = .ok (c.mask, w.emit n c.bytes c.matchBit vec)) ∧ c.bytes.length ≤ regionCap n ∧
      (c.mask = 0#8 → c.bytes = []) := by
  have h8 := blockCount_le n hn
  have := maskedBlock_encodes env 512 blockCap (enc2 env) blockCode (by omega) (enc2_encodes env)
    (blockCount n) 0 n 0#8 w (covers_blocks n) (by omega) hwf hb (by rw [childrenCap_blocks]; exact hc)
  rw [childrenCap_blocks] at this
  simp only [regionCode, Memory.readBytes_length]
  obtain ⟨⟨vec, he⟩, hl⟩ := this
  refine ⟨⟨vec, ?_⟩, hl, fun h => childrenCode_bytes_nil _ _ _ _ _ _ (by omega) h⟩
  unfold enc3
  rw [he, BitVec.zero_or]

theorem enc3_encodes (env : EncEnv) : Encodes env 4096 regionCap (enc3 env) regionCode :=
  fun n w _ hn hwf hb hc => enc3_encodes' env n w hn hwf hb hc

/-- The region loop of `ENCODE` writes every region's code behind its `M3` byte (R81, R82). -/
theorem encRegions_encodes (env : EncEnv) :
    ∀ left rem any w, Covers 4096 left rem → w.cm.wf → w.bcur + rem ≤ env.bmSize →
      w.ctail + childrenCap 4096 regionCap left rem ≤ env.cmSize →
      let c := regionsCode left w.matchBit (env.bm.readBytes w.bcur rem)
      (∃ vec, encRegions env left rem any w = .ok (any ||| c.mask, w.emit rem c.bytes c.matchBit vec)) ∧
        c.bytes.length ≤ childrenCap 4096 regionCap left rem := by
  intro left
  induction left with
  | zero =>
    intro rem any w hcov _ _ _
    simp only [Covers] at hcov
    subst hcov
    refine ⟨⟨w.l1mask, ?_⟩, by simp [regionsCode, childrenCap]⟩
    simp [encRegions, regionsCode, EncWork.emit, Memory.writeBytes]
  | succ left ih =>
    intro rem any w hcov hwf hb hc
    obtain ⟨h1, hcov⟩ := hcov
    simp only [childrenCap] at hc
    have ht : (env.bm.readBytes w.bcur rem).take 4096 = env.bm.readBytes w.bcur (min 4096 rem) := Memory.readBytes_take _ _ _ _
    have hd : (env.bm.readBytes w.bcur rem).drop 4096 = env.bm.readBytes (w.bcur + min 4096 rem) (rem - 4096) := by
      rw [Memory.readBytes_drop]
      by_cases hr : rem ≤ 4096
      · rw [Nat.sub_eq_zero_of_le hr]; rfl
      · rw [Nat.min_eq_left (by omega)]
    obtain ⟨⟨vec, he⟩, hlen, _⟩ := enc3_encodes env (min 4096 rem) { w with ctail := w.ctail + 1 } (by omega) (by omega) hwf
      (by simp only; omega) (by simp only; omega)
    simp only [regionsCode, ht, hd]
    simp only at he hlen
    generalize regionCode w.matchBit (env.bm.readBytes w.bcur (min 4096 rem)) = c at he hlen ⊢
    simp only [encRegions, he, bind, Except.bind]
    rw [if_neg (by omega)]
    obtain ⟨⟨vec', he'⟩, hlen'⟩ := ih (rem - 4096) (any ||| c.mask)
      (w.emit (min 4096 rem) (c.mask :: c.bytes) c.matchBit vec) hcov
      (by simp only [EncWork.emit]; exact Memory.writeBytes_wf _ _ _ hwf)
      (by simp only [EncWork.emit]; omega) (by simp only [EncWork.emit, List.length_cons]; omega)
    simp only [EncWork.emit, List.length_cons] at he' hlen' ⊢
    have hbc : w.bcur + min 4096 rem + (rem - 4096) = w.bcur + rem := by omega
    refine ⟨⟨vec', ?_⟩, ?_⟩
    · rw [Memory.write_reserved _ _ _ _ hwf]
      rw [show w.ctail + 1 + c.bytes.length = w.ctail + (c.bytes.length + 1) by omega, he', hbc]
      rw [← List.cons_append, Memory.writeBytes_append, BitVec.or_assoc]
      simp only [List.length_cons, List.length_append]
      rw [show w.ctail + (c.bytes.length + 1) + (regionsCode left c.matchBit (env.bm.readBytes (w.bcur + min 4096 rem)
        (rem - 4096))).bytes.length = w.ctail + (c.bytes.length + (regionsCode left c.matchBit (env.bm.readBytes
        (w.bcur + min 4096 rem) (rem - 4096))).bytes.length + 1) by omega]
    · simp only [List.length_append, childrenCap]; omega

/-- The whole buffer (R81, R85): with room for the worst case the region loop writes the buffer's code and never overflows. -/
theorem encBuffer_encodes (env : EncEnv) (n : Nat) (w : EncWork) (hm : w.matchBit = false) (hb0 : w.bcur = 0) (ht0 : w.ctail = 0)
    (hwf : w.cm.wf) (hb : n ≤ env.bmSize) (hc : wcsize n ≤ env.cmSize) :
    let c := bufferCode (env.bm.readBytes 0 n)
    (∃ vec, encRegions env (regionCount n) n 0#8 w = .ok (c.mask, w.emit n c.bytes c.matchBit vec)) ∧
      c.bytes.length ≤ bufferCap n := by
  have hlt := bufferCap_lt_wcsize n
  have := encRegions_encodes env (regionCount n) n 0#8 w (covers_regions n) hwf (by omega) (by rw [childrenCap_regions]; omega)
  rw [childrenCap_regions, hm, hb0] at this
  simp only [bufferCode, Memory.readBytes_length]
  obtain ⟨⟨vec, he⟩, hl⟩ := this
  exact ⟨⟨vec, by rw [he, BitVec.zero_or]⟩, hl⟩

end Sys2Proof.Machine
end

