-- ==== Sys2Proof/Safety.lean ====
section
/-! DEFINITION. What a run may rely on: the invariant of the machine, when a run has ended well (R129), where a command is
when one of its units begins, and the terms in which the claims are stated. -/

namespace Sys2Proof.Machine

/-- The parameters lie in their ranges (R5). -/
abbrev State.paramsOk (s : State) : Prop :=
  1 ≤ s.bmSize.toNat ∧ s.bmSize.toNat ≤ Config.bmSizeMax ∧ 1 ≤ s.cmSize.toNat ∧ s.cmSize.toNat ≤ Config.cmSizeMax

/-- Both memories are in canonical form and list no offset beyond their size (R29, R30). -/
abbrev State.memoriesOk (s : State) : Prop :=
  s.bm.wf ∧ s.bm.within s.bmSize.toNat ∧ s.cm.wf ∧ s.cm.within s.cmSize.toNat

/-- `BUSY`, `DONE` and `FAULT` exclude each other (R20). -/
abbrev State.flagsOk (s : State) : Prop :=
  ¬ (s.busy = true ∧ s.done = true) ∧ ¬ (s.busy = true ∧ s.fault = true) ∧ ¬ (s.done = true ∧ s.fault = true)

/-- `CAUSE` and `FADDR` are 0 while `FAULT = 0` (R22, R23), and `CAUSE` names a fault while `FAULT = 1`. -/
abbrev State.causeOk (s : State) : Prop :=
  (s.fault = false → s.cause = .none ∧ s.faddr = 0#32) ∧ (s.fault = true → s.cause ≠ .none)

/-- The invariant every step keeps. -/
abbrev State.Inv (s : State) : Prop := s.paramsOk ∧ s.memoriesOk ∧ s.flagsOk ∧ s.causeOk

/-! ### The end of a command and of a run (R129) -/

/-- The last command of a run: none yet, accepted and not over, or over; an over command has succeeded or not. -/
inductive LastCommand where
  | none
  | running (w : Word)
  | over (succeeded : Bool)
  deriving DecidableEq, Repr

/-- A run under way: the state it has come to and its last command (R129). -/
structure Run where
  state : State
  last : LastCommand
  deriving DecidableEq, Repr

/-- The command `w` is over and left `t`: it succeeded when `DONE = 1` and `FAULT = 0`, `SRST` when `STATUS = 0` (R129). -/
def State.succeeded (t : State) (w : Word) : Bool :=
  if decode w = some .srst then t.statusWord == 0#32 else t.done && !t.fault

/-- The command is over when `STATUS.BUSY` reads 0 (R129). -/
def State.commandEnd (t : State) (w : Word) : LastCommand := if t.busy then .running w else .over (t.succeeded w)

/-- The command word that the event starts: a write of `CMD` that is not ignored (R21, R119, R126). -/
def State.started (s : State) : Event → Option Word
  | .host (.writeReg width off w) =>
    if !s.busy && regReached width off = some .cmd && (!s.fault || decode w = some .srst) then some w else none
  | .host _ => none
  | .block => none

/-- The last command of the run after an event that led from `s` to `t` (R129). A hardware reset abandons the command in execution
"without completing" (R123), so that it has not succeeded (log 17). -/
def lastAfter (s t : State) (e : Event) (last : LastCommand) : LastCommand :=
  match s.started e, last with
  | some w, _ => t.commandEnd w
  | .none, .running w => if e = .host .reset then .over false else t.commandEnd w
  | .none, l => l

/-- The run over the events of a list, as far as it is one: an event outside the windows is no move (R34). -/
def runFrom : List Event → Run → Option Run
  | [], r => some r
  | e :: es, r =>
    match event e r.state with
    | .next t => runFrom es { state := t, last := lastAfter r.state t e r.last }
    | .fault _ => none
    | .refused _ => none

/-- What a run starts with: the command in execution, if there is one. -/
def State.begun (s : State) : Run := { state := s, last := s.command.elim .none .running }

/-- The run over `es` from `s` "ends well when its last command has succeeded and `FAULT = 0`" (R129). -/
def State.endsWell (s : State) (es : List Event) : Bool :=
  match runFrom es s.begun with
  | some r => r.last == .over true && !r.state.fault
  | none => false

/-- "An encode pass is complete when `BCUR = NBYTES(BITLEN)`" (R129). -/
def State.encodePassComplete (s : State) : Bool := s.bcur.toNat == nbytes s.bitlen.toNat

/-! ### Where a command is when one of its units begins

Every encode or decode command runs units of the level below it. `Reaches i s j u` says that the command `i`, begun at `s`, comes to
the unit `j` with the registers and memories of `u`, and names no step of the model's own: the part of a unit before a given child
is the same unit, shorter, with the mask bits of the children before it. -/

/-- The command `i` at `s` completes without fault and leaves `t`. -/
def Succeeds (i : Instr) (s t : State) : Prop := exec i s = .next t ∧ t.fault = false

/-- `CTAIL` past one byte: a mask byte read from the stream, or a byte reserved in it. -/
def State.pastByte (v : State) : State := { v with ctail := v.ctail + 1#32 }

/-- The mask of a child: read from the stream if its parent marks it, else zero (R91, R92). -/
def State.childMask (v : State) (marked : Bool) : Byte := if marked then v.cm.read v.ctail.toNat else 0x00#8

/-- After the read of that mask. -/
def State.afterMask (v : State) (marked : Bool) : State := if marked then v.pastByte else v

/-- That read does not fault: it is before `CLEN` and does not give zero (R91, R92). -/
def State.maskThere (v : State) (marked : Bool) : Prop :=
  marked = true → v.ctail.toNat < v.clen.toNat ∧ v.cm.read v.ctail.toNat ≠ 0x00#8

/-- Round `k` of a block of `n` bytes under `mask`, begun at `u`, begins at `v` (R91). -/
def RoundStart (n : Nat) (mask : Byte) (u : State) (k : Nat) (v : State) : Prop :=
  n ≤ 512 ∧ maskBeyond mask (roundCount n) = false ∧ k < roundCount n ∧ Succeeds (.dec2 (64 * k) (mask &&& topBits 8 k)) u v

/-- Block `k` of a region of `n` bytes under `mask`, begun at `u`, begins at `v` (R92). -/
def BlockStart (n : Nat) (mask : Byte) (u : State) (k : Nat) (v : State) : Prop :=
  n ≤ 4096 ∧ maskBeyond mask (blockCount n) = false ∧ k < blockCount n ∧ Succeeds (.dec3 (512 * k) (mask &&& topBits 8 k)) u v

/-- Region `q` of `DECODE`, begun at `s`, begins at `v`: at its `M3` byte (R95). -/
def RegionStart (s : State) : Nat → State → Prop
  | 0, v => s.bitlen.toNat ≤ 8 * s.bmSize.toNat ∧ s.clen.toNat ≤ s.cmSize.toNat ∧ s.clen ≠ 0#32 ∧
      v = { s with matchBit := false, bcur := 0#32, ctail := 0#32 }
  | q + 1, v => ∃ v', RegionStart s q v' ∧ v'.ctail.toNat < v'.clen.toNat ∧
      Succeeds (.dec3 4096 (v'.cm.read v'.ctail.toNat)) v'.pastByte v

/-- Group `g`, marked, of a chunk of `n` bytes in its masked form, begun at `u`, begins at `v`: at its group mask (R89). -/
def GroupStart (n : Nat) (nib : Nibble) (u : State) (g : Nat) (v : State) : Prop :=
  1 ≤ n ∧ n ≤ 32 ∧ nibBeyond nib n = false ∧ u.bcur.toNat + n ≤ u.bmSize.toNat ∧ hasGroup nib g = true ∧ g < groupCount n ∧
  Succeeds (.dec1 (8 * g) (nib &&& topBits 4 g)) u v ∧ (nib &&& topBits 4 g ≠ 0#4 → u.cm.read u.ctail.toNat ≠ 0x00#8)

/-- The literals that a group mask promises (R56). -/
def markCount (gm : Byte) : Nat := (List.range 8).countP (hasChild gm)

/-- The command `i`, begun at `s`, comes to the unit `j` at `u` (R74, R76, R78, R91, R92, R95). Encode units reserve a byte for each
child first, which must not pass the last 32-bit value of `CTAIL`. -/
inductive Reaches (i : Instr) (s : State) : Instr → State → Prop
  | self : Reaches i s i s
  | region {q : Nat} {v : State} : i = .decode → RegionStart s q v → q < regionCount (nbytes s.bitlen.toNat) →
      v.ctail.toNat < v.clen.toNat →
      Reaches i s (.dec3 (min 4096 (nbytes s.bitlen.toNat - 4096 * q)) (v.cm.read v.ctail.toNat)) v.pastByte
  | block {n k : Nat} {mask : Byte} {u v : State} : Reaches i s (.dec3 n mask) u → BlockStart n mask u k v →
      v.maskThere (hasChild mask k) →
      Reaches i s (.dec2 (min 512 (n - 512 * k)) (v.childMask (hasChild mask k))) (v.afterMask (hasChild mask k))
  | chunk1 {n k : Nat} {mask : Byte} {u v : State} : Reaches i s (.dec2 n mask) u → RoundStart n mask u k v →
      v.maskThere (hasChild mask k) →
      Reaches i s (.dec1 (firstChunk (n - 64 * k)) (pairHigh (v.childMask (hasChild mask k)))) (v.afterMask (hasChild mask k))
  | chunk2 {n k : Nat} {mask : Byte} {u v w : State} : Reaches i s (.dec2 n mask) u → RoundStart n mask u k v →
      v.maskThere (hasChild mask k) →
      Succeeds (.dec1 (firstChunk (n - 64 * k)) (pairHigh (v.childMask (hasChild mask k)))) (v.afterMask (hasChild mask k)) w →
      Reaches i s (.dec1 (secondChunk (n - 64 * k)) (pairLow (v.childMask (hasChild mask k)))) w
  | encBlock {n k : Nat} {u v : State} : Reaches i s (.enc3 n) u → n ≤ 4096 → 512 * k < n → Succeeds (.enc3 (512 * k)) u v →
      v.ctail.toNat + 1 < 2 ^ 32 → Reaches i s (.enc2 (min 512 (n - 512 * k))) v.pastByte
  | encChunk1 {n k : Nat} {u v : State} : Reaches i s (.enc2 n) u → n ≤ 512 → 64 * k < n → Succeeds (.enc2 (64 * k)) u v →
      v.ctail.toNat + 1 < 2 ^ 32 → Reaches i s (.enc1 (firstChunk (n - 64 * k))) v.pastByte
  | encChunk2 {n k : Nat} {u v w : State} : Reaches i s (.enc2 n) u → n ≤ 512 → 64 * k + 32 < n → Succeeds (.enc2 (64 * k)) u v →
      v.ctail.toNat + 1 < 2 ^ 32 → Succeeds (.enc1 32) v.pastByte w →
      Reaches i s (.enc1 (secondChunk (n - 64 * k))) w

/-! ### Terms of the claims -/

/-- Column `reset` of the table of R13: what a read of each register returns after a reset. -/
def resetColumn (s : State) : Reg → Word
  | .cmd => 0#32
  | .status => 0#32
  | .cause => 0#32
  | .faddr => 0#32
  | .bitlen => 0#32
  | .clen => 0#32
  | .bcur => 0#32
  | .ctail => 0#32
  | .matchByte => 0#32
  | .result => 0#32
  | .l1mask => 0#32
  | .wcsz => 4#32
  | .bmsize => s.bmSize
  | .cmsize => s.cmSize

/-- The rows of the opcode map, columns `mask` and `match` (R48). -/
def opcodeRows : List (Word × Word) :=
  [(0xFFFFFFFF#32, 0x00000000#32), (0xFFFFFFFF#32, 0x01000000#32), (0xFFFFFFFF#32, 0x02000000#32),
   (0xFFFFFFFF#32, 0x08000000#32), (0xFFFFE000#32, 0x10000000#32), (0xFFFFE000#32, 0x11000000#32)] ++
  [(0xFFFFE000#32, 0x12000000#32), (0xFFFFFFFF#32, 0x13000000#32), (0xFFF0E000#32, 0x20000000#32),
   (0xFF00E000#32, 0x21000000#32), (0xFF00E000#32, 0x22000000#32), (0xFFFFFFFF#32, 0x23000000#32)]

/-- "A word `w` selects the row when `(w & mask) == match`" (R48). -/
def selects (w : Word) (row : Word × Word) : Bool := w &&& row.1 == row.2

/-- The state after fault entry with cause `c` and offset `a` (R118): nothing but `STATUS`, `CAUSE` and `FADDR` changes. -/
def State.faultedWith (s : State) (c : Cause) (a : Word) : State :=
  { s with command := none, done := false, fault := true, cause := c, faddr := a }

/-- `m'` is canonical and is `m` with `bytes` stored from offset `a` upward: every other offset reads as before (R39). -/
def Memory.Stored (m m' : Memory) (a : Nat) (bytes : List Byte) : Prop :=
  m'.wf ∧ ∀ x, m'.read x = if a ≤ x ∧ x < a + bytes.length then bytes.getD (x - a) 0#8 else m.read x

/-- The `n` bytes of the bitmap that an encode unit over `n` bytes would read (R39). -/
def State.input (s : State) (n : Nat) : List Byte := s.bm.readBytes s.bcur.toNat n

/-- The normalised bitmap: the `N` bytes that `ENCODE` encodes (R81). -/
def State.bitmap (s : State) : List Byte := (normalized s.bm s.bitlen.toNat).readBytes 0 (nbytes s.bitlen.toNat)

/-- The code stream holds `bytes` at the read cursor, before `CLEN` (R88). -/
def State.StreamHolds (s : State) (bytes : List Byte) : Prop :=
  s.ctail.toNat + bytes.length ≤ s.clen.toNat ∧ s.cm.readBytes s.ctail.toNat bytes.length = bytes

/-- The state in which a step ended, if it is a next state. -/
def nextState : Host.Outcome State Fault Refusal → Option State
  | .next t => some t
  | .fault _ => none
  | .refused _ => none

end Sys2Proof.Machine
end

