-- ==== Sys2Proof/Certificates/Slice0/Obligations.lean ====
section
/-! DEFINITION. The claims about the RLB codec, each from the numbered rules it names. None is about a program. -/

open Sys2Proof Sys2Proof.Machine

/-! ### Reset -/

/-- R32, R123: after hardware reset and after `SRST` every register reads as the reset column says and the block is idle; `SRST`
keeps the memories; after hardware reset every byte of them is a value nothing constrains (log 3). -/
def Obligations.ResetRegisterValues : Prop :=
  ∀ s : State, ∃ t u : State,
    hostMove .reset s = .next t ∧ exec .srst s = .next u ∧
    (∀ r, readReg r t = resetColumn s r ∧ readReg r u = resetColumn s r) ∧
    t.command = none ∧ t.fault = false ∧ u.command = none ∧ u.fault = false ∧ u.bm = s.bm ∧ u.cm = s.cm ∧
    (∀ a, a < s.bmSize.toNat → t.bm.read a = Config.bmAfterReset s.fresh a) ∧
    (∀ a, a < s.cmSize.toNat → t.cm.read a = Config.cmAfterReset s.fresh a)

/-- R32, R123: the state right after reset reads as the reset column says, is idle, and satisfies the invariant. The values of the
two size registers there are the model's choice (log 1), as is what the memories hold (log 2). -/
def Obligations.ResetSatisfiesInvariant : Prop :=
  State.reset.Inv ∧ State.reset.command = none ∧ State.reset.fault = false ∧
    ∀ r, readReg r State.reset = resetColumn State.reset r

/-! ### The command word -/

/-- R45 to R48: every command with a 13-bit length has a word that decodes to it, operands included. -/
def Obligations.DecodeInvertsEncode : Prop :=
  ∀ i : Instr, i.wellFormed = true → decode (encode i) = some i

/-- R45 to R48: a word that decodes to a command is the word of that command and of no other, and its length fits the field. -/
def Obligations.EncodeInvertsDecode : Prop :=
  ∀ (w : Word) (i : Instr), decode w = some i → encode i = w ∧ i.wellFormed = true

/-- R48, R49: the rows of the opcode map are disjoint, and a word is illegal exactly when it selects none of them. -/
def Obligations.OpcodeMapIsExact : Prop :=
  (∀ w : Word, (opcodeRows.filter (selects w)).length ≤ 1) ∧
  ∀ w : Word, decode w = none ↔ ∀ row ∈ opcodeRows, selects w row = false

/-- R48: the example words of the rule, and one word of every other row, decode to the commands they stand for; R49: words with a
reserved field set decode to none. -/
def Obligations.ExampleWordsDecode : Prop :=
  decode 0x10000020#32 = some (.enc1 32) ∧ decode 0x11000200#32 = some (.enc2 512) ∧
  decode 0x12001000#32 = some (.enc3 4096) ∧ decode 0x20080020#32 = some (.dec1 32 0x8#4) ∧
  decode 0x21C00064#32 = some (.dec2 100 0xC0#8) ∧ decode 0x13000000#32 = some .encode ∧
  decode 0x00000000#32 = some .nop ∧ decode 0x01000000#32 = some .init ∧ decode 0x02000000#32 = some .srst ∧
  decode 0x08000000#32 = some .norm ∧ decode 0x22401000#32 = some (.dec3 4096 0x40#8) ∧
  decode 0x23000000#32 = some .decode ∧ decode 0x03000000#32 = none ∧ decode 0x00000001#32 = none ∧
  decode 0x10002020#32 = none ∧ decode 0x10010020#32 = none ∧ decode 0x20100020#32 = none

/-- R7, R21: when it is the block's turn and the word in execution decodes to a command, the step is that command's meaning; the
turn is taken from the agenda, and an empty agenda is the block's turn (log 4). The second clause is the same for the word that
`withFetchWord` places (log 5). -/
def Obligations.StepRunsDecodedInstruction : Prop :=
  (∀ (s : State) (w : Word) (i : Instr) (rest : List Event), s.command = some w → decode w = some i →
    (s.agenda = [] → step s = exec i s) ∧
    (s.agenda = .block :: rest → step s = exec i { s with agenda := rest })) ∧
  ∀ (s : State) (nbits w : Nat) (i : Instr), decodeTableWord nbits w = some i →
    step (s.withFetchWord nbits w) = exec i { s with command := some (tableWord nbits w), done := false }

/-! ### Issuing a command -/

/-- R21, R119: what a write of `CMD` does, and how a command that was started ends. That `SRST` at `FAULT = 1` is executed with the
write itself is the model's reading (log 7).
R129: a run ends well when its last command has succeeded; one that a reset abandons has not (log 17). -/
def Obligations.CommandRegister : Prop :=
  (∀ (s : State) (w : Word), s.command = none → s.fault = false →
    hostMove (.writeReg .word 0x00#8 w) s = .next { s with command := some w, done := false }) ∧
  (∀ (s : State) (w : Word), s.command = none → s.fault = true → w ≠ 0x02000000#32 →
    hostMove (.writeReg .word 0x00#8 w) s = .next s) ∧
  (∀ s : State, s.command = none → s.fault = true →
    hostMove (.writeReg .word 0x00#8 0x02000000#32) s = exec .srst s) ∧
  (∀ s : State, readReg .cmd s = 0#32) ∧
  (∀ (s : State) (w : Word), s.command = some w → s.fault = false → w ≠ 0x02000000#32 →
    ∃ t : State, blockTurn s = .next t ∧ t.command = none ∧ (t.done = !t.fault)) ∧
  (∀ s : State, s.command = none → s.endsWell [] = false) ∧
  ∀ (s : State) (w : Word), s.command = none → s.fault = false →
    s.endsWell [.host (.writeReg .word 0x00#8 w)] = false ∧
    s.endsWell [.host (.writeReg .word 0x00#8 w), .host .reset] = false ∧
    ∃ t : State, blockTurn { s with command := some w, done := false } = .next t ∧
      s.endsWell [.host (.writeReg .word 0x00#8 w), .block] = !t.fault ∧
      s.endsWell [.host (.writeReg .word 0x00#8 w), .block, .host .reset] = !t.fault

/-- R104, R49: a word that selects no row, written to `CMD` of an idle block that is not faulted, raises `ILLEGAL_CMD` with
`FADDR = 0` at decode, whatever else holds, and changes nothing else. -/
def Obligations.IllegalWordFaults : Prop :=
  ∀ (s : State) (w : Word), s.command = none → s.fault = false → (∀ row ∈ opcodeRows, selects w row = false) →
    ∃ s1 : State, hostMove (.writeReg .word 0x00#8 w) s = .next s1 ∧ blockTurn s1 = .next (s.faultedWith .illegalCmd 0#32)

/-- R126: while `BUSY = 1` a host write changes nothing, a read of `STATUS` returns it, any other read returns a value nothing
constrains (log 8), and no host move but a hardware reset disturbs the command in execution or anything it works on. -/
def Obligations.BusyProtocol : Prop :=
  (∀ (s t : State) (m : HostMove), s.busy = true → m ≠ .reset → hostMove m s = .next t →
    t = { s with hostData := t.hostData, fresh := t.fresh }) ∧
  (∀ (s : State) (width : Width) (off : BitVec 8) (w : Word), s.busy = true → hostMove (.writeReg width off w) s = .next s) ∧
  (∀ (s : State) (a : Nat) (v : Byte), s.busy = true → a < s.bmSize.toNat → hostMove (.writeBM a v) s = .next s) ∧
  (∀ (s : State) (a : Nat) (v : Byte), s.busy = true → a < s.cmSize.toNat → hostMove (.writeCM a v) s = .next s) ∧
  (∀ s : State, s.busy = true →
    hostMove (.readReg .word 0x04#8) s = .next { s with hostData := s.statusWord }) ∧
  ∀ (s : State) (r : Reg), s.busy = true → r ≠ .status →
    hostMove (.readReg .word (regOffset r)) s = .next { s with hostData := Config.busyRead s.fresh, fresh := s.fresh + 1 }

/-! ### The host's windows -/

/-- R28, R33, R37: what a register access does while the block is idle. A whole word at a register's offset reaches it; any other
access reads 0 and its writes are ignored; the five writable registers take writes only while `FAULT = 0`. -/
def Obligations.RegisterWindow : Prop :=
  (∀ (s : State) (r : Reg), s.command = none →
    hostMove (.readReg .word (regOffset r)) s = .next { s with hostData := readReg r s }) ∧
  (∀ (s : State) (width : Width) (off : BitVec 8) (w : Word), s.command = none →
    (width ≠ .word ∨ off.toNat % 4 ≠ 0 ∨ 0x38 ≤ off.toNat) →
    hostMove (.writeReg width off w) s = .next s ∧ hostMove (.readReg width off) s = .next { s with hostData := 0#32 }) ∧
  (∀ (s : State) (w : Word), s.command = none → s.fault = false →
    hostMove (.writeReg .word 0x10#8 w) s = .next { s with bitlen := w } ∧
    hostMove (.writeReg .word 0x14#8 w) s = .next { s with clen := w } ∧
    hostMove (.writeReg .word 0x18#8 w) s = .next { s with bcur := w } ∧
    hostMove (.writeReg .word 0x1C#8 w) s = .next { s with ctail := w } ∧
    hostMove (.writeReg .word 0x20#8 w) s = .next { s with matchBit := w.getLsbD 0 }) ∧
  (∀ (s : State) (r : Reg) (w : Word), s.command = none → r ≠ .cmd →
    (s.fault = true ∨ r ∈ [.status, .cause, .faddr, .result, .l1mask, .wcsz, .bmsize, .cmsize]) →
    hostMove (.writeReg .word (regOffset r) w) s = .next s)

/-- R18: `MATCH` reads as `0x00` or `0xFF`, and a host write of `v` while idle stores `v[0]` alone. -/
def Obligations.MatchRegister : Prop :=
  (∀ s : State, readReg .matchByte s = if s.matchBit then 0xFF#32 else 0x00#32) ∧
  ∀ (s : State) (v : Word), s.command = none → s.fault = false →
    ∃ t : State, hostMove (.writeReg .word 0x20#8 v) s = .next t ∧
      readReg .matchByte t = if v.getLsbD 0 then 0xFF#32 else 0x00#32

/-- R20, R22, R24: the bits of `STATUS` (`BUSY` is 1 while a word is in execution: log 6), and the bits of `CAUSE` and
`RESULT` that always read 0. -/
def Obligations.StatusRegister : Prop :=
  ∀ s : State,
    (readReg .status s).getLsbD 0 = s.command.isSome ∧ (readReg .status s).getLsbD 1 = s.done ∧
    (readReg .status s).getLsbD 2 = s.fault ∧ (∀ k, 3 ≤ k → (readReg .status s).getLsbD k = false) ∧
    (∀ k, 8 ≤ k → (readReg .cause s).getLsbD k = false ∧ (readReg .result s).getLsbD k = false) ∧
    (readReg .cause s).toNat ≤ 11

/-- R26: `WCSZ` reads as the worst-case size of the current `BITLEN`, without wrapping for any `BITLEN`;
a write is ignored; it reads 4 after reset. -/
def Obligations.WorstCaseRegister : Prop :=
  (∀ s : State, (readReg .wcsz s).toNat = (s.bitlen.toNat + 7) / 8 + ((s.bitlen.toNat + 7) / 8 + 15) / 16 + 4) ∧
  (∀ (s : State) (w : Word), s.command = none →
    hostMove (.readReg .word 0x2C#8) s = .next { s with hostData := readReg .wcsz s } ∧
    hostMove (.writeReg .word 0x2C#8 w) s = .next s) ∧
  ∀ s t : State, hostMove .reset s = .next t → readReg .wcsz t = 4#32

/-- R34, R36: while the block is idle the host reads and writes one byte of either memory, also while `FAULT = 1` (R119); an offset
at or beyond the size is no move of this block, on which the model stops (log 9). -/
def Obligations.MemoryWindows : Prop :=
  ∀ (s : State) (a : Nat) (v : Byte), s.command = none → s.bm.wf → s.cm.wf →
    (a < s.bmSize.toNat →
      hostMove (.readBM a) s = .next { s with hostData := (s.bm.read a).setWidth 32 } ∧
      ∃ bm' : Memory, s.bm.Stored bm' a [v] ∧ hostMove (.writeBM a v) s = .next { s with bm := bm' }) ∧
    (a < s.cmSize.toNat →
      hostMove (.readCM a) s = .next { s with hostData := (s.cm.read a).setWidth 32 } ∧
      ∃ cm' : Memory, s.cm.Stored cm' a [v] ∧ hostMove (.writeCM a v) s = .next { s with cm := cm' }) ∧
    (s.bmSize.toNat ≤ a → hostMove (.readBM a) s = .fault .outsideWindow ∧ hostMove (.writeBM a v) s = .fault .outsideWindow) ∧
    (s.cmSize.toNat ≤ a → hostMove (.readCM a) s = .fault .outsideWindow ∧ hostMove (.writeCM a v) s = .fault .outsideWindow)

/-- R38, R41: a read, of a register or of a memory byte, changes nothing of the machine, and the block does nothing while no command
is in execution. -/
def Obligations.ReadsAndIdleChangeNothing : Prop :=
  (∀ (s t : State) (width : Width) (off : BitVec 8), hostMove (.readReg width off) s = .next t →
    t = { s with hostData := t.hostData, fresh := t.fresh }) ∧
  (∀ (s t : State) (a : Nat), hostMove (.readBM a) s = .next t ∨ hostMove (.readCM a) s = .next t →
    t = { s with hostData := t.hostData, fresh := t.fresh }) ∧
  ∀ s : State, s.command = none → blockTurn s = .next s

/-! ### Rules about every step -/

/-- R20, R22, R23, R29, R30, R5: the parameters stay in range, both memories stay canonical and inside their size, `BUSY`, `DONE`
and `FAULT` stay exclusive, `CAUSE` and `FADDR` stay 0 while `FAULT = 0`. -/
def Obligations.StepKeepsInvariant : Prop :=
  ∀ s t : State, s.Inv → step s = .next t → t.Inv

/-- R27: `BMSIZE` and `CMSIZE` read as the parameters and nothing changes them; a write is ignored. -/
def Obligations.ParametersNeverChange : Prop :=
  (∀ s t : State, step s = .next t → t.bmSize = s.bmSize ∧ t.cmSize = s.cmSize) ∧
  (∀ s : State, readReg .bmsize s = s.bmSize ∧ readReg .cmsize s = s.cmSize) ∧
  ∀ (s : State) (w : Word), s.command = none →
    hostMove (.writeReg .word 0x30#8 w) s = .next s ∧ hostMove (.writeReg .word 0x34#8 w) s = .next s ∧
    hostMove (.readReg .word 0x30#8) s = .next { s with hostData := s.bmSize } ∧
    hostMove (.readReg .word 0x34#8) s = .next { s with hostData := s.cmSize }

/-- R34: a step always has a next state, except where the host addresses a byte outside a memory (log 9). -/
def Obligations.StepStopsOnlyOutsideWindows : Prop :=
  ∀ s : State, (∃ t, step s = .next t) ∨
    (step s = .fault .outsideWindow ∧ ∃ (a : Nat) (v : Byte) (rest : List Event),
      (s.bmSize.toNat ≤ a ∧ (s.agenda = .host (.readBM a) :: rest ∨ s.agenda = .host (.writeBM a v) :: rest)) ∨
      (s.cmSize.toNat ≤ a ∧ (s.agenda = .host (.readCM a) :: rest ∨ s.agenda = .host (.writeCM a v) :: rest)))

/-- R20, R119: no step but a hardware reset or a host write of `SRST` leaves the fault state, and none changes what it records or
any register; only the host's own accesses to the memories still work. -/
def Obligations.FaultIsSticky : Prop :=
  ∀ s t : State, s.command = none → s.fault = true → step s = .next t →
    (∃ rest, s.agenda = .host .reset :: rest) ∨
    (∃ rest, s.agenda = .host (.writeReg .word 0x00#8 0x02000000#32) :: rest) ∨
    t = { s with agenda := t.agenda, bm := t.bm, cm := t.cm, hostData := t.hostData, fresh := t.fresh }

/-- R119: while `FAULT = 1` every command but `SRST` is ignored, `SRST` and hardware reset clear the fault and every register. -/
def Obligations.FaultStateExits : Prop :=
  (∀ (i : Instr) (s : State), s.fault = true → i ≠ .srst → exec i s = .next s) ∧
  (∀ (s : State) (r : Reg) (w : Word), s.command = none → s.fault = true → r ≠ .cmd →
    hostMove (.writeReg .word (regOffset r) w) s = .next s) ∧
  ∀ s : State, s.fault = true → ∃ t u : State, exec .srst s = .next t ∧ hostMove .reset s = .next u ∧
    (∀ r, readReg r t = resetColumn s r ∧ readReg r u = resetColumn s r)

/-! ### The outcomes of a command -/

/-- R118, R97: a command either completes, or faults with a cause and with every write undone: only `STATUS`, `CAUSE` and `FADDR`
differ from before. -/
def Obligations.CommandCompletesOrFaults : Prop :=
  ∀ (i : Instr) (s : State), i ≠ .srst → s.fault = false →
    (∃ t : State, exec i s = .next t ∧ t.command = none ∧ t.done = true ∧ t.fault = false ∧ t.cause = s.cause ∧
      t.faddr = s.faddr) ∨
    ∃ (c : Cause) (a : Word), c ≠ .none ∧ exec i s = .next (s.faultedWith c a)

/-- R103, R108, R109, R111: the causes each command can raise, and where in its bytes the unit lies that `FADDR` names. `ENCODE`
never overflows and neither `ENCODE` nor `DECODE` ever runs out of the bitmap memory. -/
def Obligations.CausesOfEachCommand : Prop :=
  ∀ (s : State) (c : Cause) (a : Word), s.fault = false → s.cm.wf →
    (∀ n, exec (.enc1 n) s = .next (s.faultedWith c a) ∨ exec (.enc2 n) s = .next (s.faultedWith c a) ∨
        exec (.enc3 n) s = .next (s.faultedWith c a) →
      c ∈ [.badLen, .outOverflow, .bmRange] ∧ s.bcur.toNat ≤ a.toNat ∧ a.toNat ≤ s.bcur.toNat + n) ∧
    (∀ n nib mask, exec (.dec1 n nib) s = .next (s.faultedWith c a) ∨ exec (.dec2 n mask) s = .next (s.faultedWith c a) ∨
        exec (.dec3 n mask) s = .next (s.faultedWith c a) →
      c ∈ [.badLen, .badClen, .bmRange, .corruptTruncated, .corruptZeroMask, .corruptMaskRange] ∧
        s.bcur.toNat ≤ a.toNat ∧ a.toNat ≤ s.bcur.toNat + n) ∧
    (exec .norm s = .next (s.faultedWith c a) → c = .badBitlen ∧ a = 0#32) ∧
    (exec .encode s = .next (s.faultedWith c a) → c ∈ [.badBitlen, .outTooSmall] ∧ a = 0#32) ∧
    (exec .decode s = .next (s.faultedWith c a) →
      c ∈ [.badBitlen, .badClen, .corruptTruncated, .corruptZeroMask, .corruptMaskRange, .corruptTrailing] ∧
        a.toNat ≤ nbytes s.bitlen.toNat)

/-! ### Control commands and the normalizer -/

/-- R99: `NOP` writes `RESULT <- 0` and changes nothing else but the flags: `DONE` is cleared when the word is accepted and set at
completion. While `FAULT = 1` it is ignored. -/
def Obligations.NopCompletes : Prop :=
  decode 0x00000000#32 = some .nop ∧
  (∀ s : State, s.command = none → s.fault = false → ∃ s1 : State,
    hostMove (.writeReg .word 0x00#8 0x00000000#32) s = .next s1 ∧ s1 = { s with command := some 0x00000000#32, done := false } ∧
    blockTurn s1 = .next { s with done := true, result := 0#8 }) ∧
  (∀ s : State, s.fault = false → exec .nop s = .next { s with command := none, done := true, result := 0#8 }) ∧
  ∀ s : State, s.fault = true → exec .nop s = .next s ∧
    (s.command = none → hostMove (.writeReg .word 0x00#8 0x00000000#32) s = .next s)

/-- R100: `INIT` makes the context fresh and keeps `BITLEN`, `CLEN`, `BM` and `CM`. -/
def Obligations.InitCompletes : Prop :=
  decode 0x01000000#32 = some .init ∧
  ∀ s : State, s.fault = false →
    exec .init s = .next { s with
      command := none, done := true, result := 0#8, matchBit := false, bcur := 0#32, ctail := 0#32, l1mask := 0#32 }

/-- R101: `SRST` takes every register to its reset value, also while `FAULT = 1`, keeps the memories and does not set `DONE`; no
other command is accepted while `FAULT = 1`, and no host move but its word in `CMD` and hardware reset leaves the fault state. -/
def Obligations.SrstCompletes : Prop :=
  decode 0x02000000#32 = some .srst ∧
  (∀ s : State, exec .srst s = .next { s with
    command := none, done := false, fault := false, cause := .none, faddr := 0#32, bitlen := 0#32, clen := 0#32, bcur := 0#32,
    ctail := 0#32, matchBit := false, result := 0#8, l1mask := 0#32 }) ∧
  (∀ s t : State, exec .srst s = .next t → readReg .status t = 0#32) ∧
  (∀ (i : Instr) (s : State), s.fault = true → i ≠ .srst → exec i s = .next s) ∧
  ∀ (m : HostMove) (s t : State), s.command = none → s.fault = true → hostMove m s = .next t → t.fault = false →
    m = .reset ∨ m = .writeReg .word 0x00#8 0x02000000#32

/-- R62, R64: `NormByte` keeps the significant bits and fills the others with the last of them; it is idempotent, independent of the
pad bits, and gives `0x00` or `0xFF` when the significant bits are equal. -/
def Obligations.NormByteFillsPadBits : Prop :=
  ∀ (b : Byte) (sig : Nat), 1 ≤ sig → sig ≤ 7 →
    (∀ k, k < 8 → (normByte b sig).getLsbD k = b.getLsbD (max k (8 - sig))) ∧
    normByte (normByte b sig) sig = normByte b sig ∧
    (∀ b' : Byte, (∀ k, 8 - sig ≤ k → k < 8 → b'.getLsbD k = b.getLsbD k) → normByte b' sig = normByte b sig) ∧
    nextBit (normByte b sig) = b.getLsbD (8 - sig) ∧
    ((∀ k, 8 - sig ≤ k → k < 8 → b.getLsbD k = b.getLsbD 7) → normByte b sig = 0x00#8 ∨ normByte b sig = 0xFF#8)

/-- R63: `NORM` rewrites at most the boundary byte, writes `RESULT <- 0`, and faults with `BAD_BITLEN` only. -/
def Obligations.NormCompletes : Prop :=
  decode 0x08000000#32 = some .norm ∧
  ∀ s : State, s.fault = false → s.bm.wf →
    (s.bitlen.toNat > 8 * s.bmSize.toNat → exec .norm s = .next (s.faultedWith .badBitlen 0#32)) ∧
    (s.bitlen.toNat ≤ 8 * s.bmSize.toNat → s.bitlen.toNat % 8 = 0 →
      exec .norm s = .next { s with command := none, done := true, result := 0#8 }) ∧
    (s.bitlen.toNat ≤ 8 * s.bmSize.toNat → s.bitlen.toNat % 8 ≠ 0 →
      s.bitlen.toNat / 8 < s.bmSize.toNat ∧
      ∃ bm' : Memory,
        s.bm.Stored bm' (s.bitlen.toNat / 8) [normByte (s.bm.read (s.bitlen.toNat / 8)) (s.bitlen.toNat % 8)] ∧
        exec .norm s = .next { s with command := none, done := true, result := 0#8, bm := bm' })

/-! ### Level 1 -/

/-- R56, R57, R66, R67: the two forms of a chunk. With `L` literals in `M` groups the masked form has `L + M` bytes; it is kept
unless that is more than the chunk, and then the marker and the raw bytes stand for it and every present group is marked. -/
def Obligations.ChunkForms : Prop :=
  ∀ (m : Bool) (bs : List Byte), 1 ≤ bs.length → bs.length ≤ 32 →
    (maskedForm m bs).length = literalCount m bs + markedGroupCount m bs ∧
    (literalCount m bs + markedGroupCount m bs ≤ bs.length →
      (chunkCode m bs).stage = maskedForm m bs ∧
      ∀ g, g < 4 → hasGroup (chunkCode m bs).nib g = literalIn m bs (8 * g) (8 * g + 8)) ∧
    (literalCount m bs + markedGroupCount m bs > bs.length →
      (chunkCode m bs).stage = 0x00#8 :: bs ∧ (chunkCode m bs).nib = fullNibble bs.length)

/-- R73: the sizes of a chunk: nothing, 2 to `n` bytes, or the fallback's `n + 1`; up to 8 bytes the masked form is kept unless every
byte is a literal; a literal chunk of one byte takes the fallback. -/
def Obligations.ChunkSizes : Prop :=
  (∀ (m : Bool) (bs : List Byte), 1 ≤ bs.length → bs.length ≤ 32 →
    (chunkCode m bs).stage.length = 0 ∨
    (2 ≤ (chunkCode m bs).stage.length ∧ (chunkCode m bs).stage.length ≤ bs.length) ∨
    (chunkCode m bs).stage.length = bs.length + 1) ∧
  (∀ (m : Bool) (bs : List Byte), 1 ≤ bs.length → bs.length ≤ 8 →
    ((chunkCode m bs).stage = 0x00#8 :: bs ↔ literalCount m bs = bs.length)) ∧
  ∀ (m : Bool) (b : Byte), b ≠ matchByte m → (chunkCode m [b]).stage = [0x00#8, b]

/-- R72, R66, R39: `ENC1 #n` for every length it may have, where the bitmap and the code memory have room: the chunk is stored at
`CTAIL`, both cursors advance, the run state is `Next` of the last byte, `RESULT` is the nibble; `ENC1 #0` clears `L1MASK` and
`RESULT` alone. Nothing else changes. -/
def Obligations.Enc1Completes : Prop :=
  (∀ s : State, s.fault = false →
    exec (.enc1 0) s = .next { s with command := none, done := true, result := 0#8, l1mask := 0#32 }) ∧
  ∀ (n : Nat) (s : State), 1 ≤ n → n ≤ 32 → s.fault = false → s.cm.wf → s.bcur.toNat + n ≤ s.bmSize.toNat →
    s.ctail.toNat + (chunkCode s.matchBit (s.input n)).stage.length ≤ s.cmSize.toNat →
    ∃ cm' : Memory, s.cm.Stored cm' s.ctail.toNat (chunkCode s.matchBit (s.input n)).stage ∧
      exec (.enc1 n) s = .next { s with
        command := none, done := true, result := (chunkCode s.matchBit (s.input n)).nib.setWidth 8, cm := cm',
        bcur := BitVec.ofNat 32 (s.bcur.toNat + n),
        ctail := BitVec.ofNat 32 (s.ctail.toNat + (chunkCode s.matchBit (s.input n)).stage.length),
        matchBit := nextBit (s.bm.read (s.bcur.toNat + n - 1)), l1mask := (maskedPass s.matchBit (s.input n)).vec }

/-- R68, R71: a chunk that is all run state is free: it completes changing only `BCUR`, and `L1MASK` and `RESULT` to 0. -/
def Obligations.FreeChunk : Prop :=
  ∀ (n : Nat) (s : State), 1 ≤ n → n ≤ 32 → s.fault = false → s.bcur.toNat + n ≤ s.bmSize.toNat →
    s.ctail.toNat ≤ s.cmSize.toNat → (∀ b ∈ s.input n, b = matchByte s.matchBit) →
    exec (.enc1 n) s = .next { s with
      command := none, done := true, result := 0#8, bcur := BitVec.ofNat 32 (s.bcur.toNat + n), l1mask := 0#32 }

/-- R25, R77: after a successful encode unit over `n >= 1` bytes `L1MASK` has bit `31 - i` set exactly when byte `i` of its last
chunk was a literal, whichever form the chunk took. `INIT` and `ENC1 #0` clear it, `ENC2 #0`, `ENC3 #0` and every decode command,
`NOP` and `NORM` leave it. -/
def Obligations.L1maskIsLastChunk : Prop :=
  (∀ (n : Nat) (s t : State), 1 ≤ n → s.fault = false → t.fault = false →
    (exec (.enc1 n) s = .next t ∨ exec (.enc2 n) s = .next t ∨ exec (.enc3 n) s = .next t) →
    ∀ i, i < 32 → t.l1mask.getLsbD (31 - i) =
      (decide (lastChunkStart n + i < n) && literalAt s.matchBit (s.input n) (lastChunkStart n + i))) ∧
  (∀ (s t : State), s.fault = false → (exec .init s = .next t ∨ exec (.enc1 0) s = .next t) → t.l1mask = 0#32) ∧
  ∀ (n : Nat) (nib : Nibble) (mask : Byte) (s t : State),
    (exec .nop s = .next t ∨ exec .norm s = .next t ∨ exec (.enc2 0) s = .next t ∨ exec (.enc3 0) s = .next t ∨
      exec (.dec1 n nib) s = .next t ∨ exec (.dec2 n mask) s = .next t ∨ exec (.dec3 n mask) s = .next t ∨
      exec .decode s = .next t) → t.l1mask = s.l1mask

/-- R69, R16, R18: after any unit command or whole-buffer command that succeeds over at least one byte, encode or decode, the run
state is `Next` of the byte before `BCUR`. -/
def Obligations.MatchFollowsLastByte : Prop :=
  (∀ (n : Nat) (nib : Nibble) (mask : Byte) (s t : State), 1 ≤ n → s.fault = false → t.fault = false → s.bm.wf →
    (exec (.enc1 n) s = .next t ∨ exec (.enc2 n) s = .next t ∨ exec (.enc3 n) s = .next t ∨ exec (.dec1 n nib) s = .next t ∨
      exec (.dec2 n mask) s = .next t ∨ exec (.dec3 n mask) s = .next t) →
    t.bcur.toNat = s.bcur.toNat + n ∧ t.matchBit = nextBit (t.bm.read (t.bcur.toNat - 1))) ∧
  ∀ s t : State, 1 ≤ s.bitlen.toNat → s.fault = false → t.fault = false → s.bm.wf →
    (exec .encode s = .next t ∨ exec .decode s = .next t) →
    t.bcur.toNat = nbytes s.bitlen.toNat ∧ t.matchBit = nextBit (t.bm.read (t.bcur.toNat - 1))

/-! ### Levels 2 and 3 -/

/-- R53, R54, R55: the bit of a child in its parent's mask is set exactly when a byte of the child is a literal. -/
def Obligations.MaskBitsMarkLiterals : Prop :=
  (∀ (m : Bool) (bs : List Byte) (k : Nat), bs.length ≤ 512 → k < 8 →
    hasChild (blockCode m bs).mask k = literalIn m bs (64 * k) (64 * k + 64)) ∧
  (∀ (m : Bool) (bs : List Byte) (k : Nat), bs.length ≤ 4096 → k < 8 →
    hasChild (regionCode m bs).mask k = literalIn m bs (512 * k) (512 * k + 512)) ∧
  ∀ (m : Bool) (bs : List Byte), bs.length ≤ 64 →
    (pairHigh (roundCode m bs).mask ≠ 0#4 ↔ literalIn m bs 0 32 = true) ∧
    (pairLow (roundCode m bs).mask ≠ 0#4 ↔ literalIn m bs 32 64 = true)

/-- R77, R76, R74: `ENC2 #n` with room for the most its bytes can take stores the block encoding at `CTAIL`, returns the block's
mask in `RESULT` without storing it, and changes nothing else; `ENC2 #0` writes `RESULT <- 0` alone. -/
def Obligations.Enc2Completes : Prop :=
  (∀ s : State, s.fault = false → exec (.enc2 0) s = .next { s with command := none, done := true, result := 0#8 }) ∧
  ∀ (n : Nat) (s : State), n ≤ 512 → s.fault = false → s.cm.wf → s.bcur.toNat + n ≤ s.bmSize.toNat →
    s.ctail.toNat + blockCap n ≤ s.cmSize.toNat →
    ∃ cm' : Memory, s.cm.Stored cm' s.ctail.toNat (blockCode s.matchBit (s.input n)).bytes ∧
      exec (.enc2 n) s = .next { s with
        command := none, done := true, result := (blockCode s.matchBit (s.input n)).mask, cm := cm',
        bcur := BitVec.ofNat 32 (s.bcur.toNat + n),
        ctail := BitVec.ofNat 32 (s.ctail.toNat + (blockCode s.matchBit (s.input n)).bytes.length),
        matchBit := runAfter s.matchBit (s.input n), l1mask := lastVector s.l1mask s.matchBit (s.input n) }

/-- R79, R78, R74: `ENC3 #n` as `ENC2 #n`, with the region encoding. -/
def Obligations.Enc3Completes : Prop :=
  (∀ s : State, s.fault = false → exec (.enc3 0) s = .next { s with command := none, done := true, result := 0#8 }) ∧
  ∀ (n : Nat) (s : State), n ≤ 4096 → s.fault = false → s.cm.wf → s.bcur.toNat + n ≤ s.bmSize.toNat →
    s.ctail.toNat + regionCap n ≤ s.cmSize.toNat →
    ∃ cm' : Memory, s.cm.Stored cm' s.ctail.toNat (regionCode s.matchBit (s.input n)).bytes ∧
      exec (.enc3 n) s = .next { s with
        command := none, done := true, result := (regionCode s.matchBit (s.input n)).mask, cm := cm',
        bcur := BitVec.ofNat 32 (s.bcur.toNat + n),
        ctail := BitVec.ofNat 32 (s.ctail.toNat + (regionCode s.matchBit (s.input n)).bytes.length),
        matchBit := runAfter s.matchBit (s.input n), l1mask := lastVector s.l1mask s.matchBit (s.input n) }

/-- R30, R40, R74, R108: whenever an encode unit command succeeds, however little room there was, it has stored exactly its code from
`CTAIL` upward, all of it below `CM_SIZE`, has not touched `BM`, and has changed no other register than those of R66 and R72. -/
def Obligations.EncodeUnitFrame : Prop :=
  ∀ (n : Nat) (s t : State), 1 ≤ n → s.fault = false → t.fault = false → s.cm.wf →
    (exec (.enc1 n) s = .next t →
      s.ctail.toNat + (chunkCode s.matchBit (s.input n)).stage.length ≤ s.cmSize.toNat ∧
      s.cm.Stored t.cm s.ctail.toNat (chunkCode s.matchBit (s.input n)).stage ∧
      t = { s with command := none, done := true, result := (chunkCode s.matchBit (s.input n)).nib.setWidth 8, cm := t.cm,
                   bcur := BitVec.ofNat 32 (s.bcur.toNat + n),
                   ctail := BitVec.ofNat 32 (s.ctail.toNat + (chunkCode s.matchBit (s.input n)).stage.length),
                   matchBit := runAfter s.matchBit (s.input n), l1mask := lastVector s.l1mask s.matchBit (s.input n) }) ∧
    (exec (.enc2 n) s = .next t →
      s.ctail.toNat + (blockCode s.matchBit (s.input n)).bytes.length ≤ s.cmSize.toNat ∧
      s.cm.Stored t.cm s.ctail.toNat (blockCode s.matchBit (s.input n)).bytes ∧
      t = { s with command := none, done := true, result := (blockCode s.matchBit (s.input n)).mask, cm := t.cm,
                   bcur := BitVec.ofNat 32 (s.bcur.toNat + n),
                   ctail := BitVec.ofNat 32 (s.ctail.toNat + (blockCode s.matchBit (s.input n)).bytes.length),
                   matchBit := runAfter s.matchBit (s.input n), l1mask := lastVector s.l1mask s.matchBit (s.input n) }) ∧
    (exec (.enc3 n) s = .next t →
      s.ctail.toNat + (regionCode s.matchBit (s.input n)).bytes.length ≤ s.cmSize.toNat ∧
      s.cm.Stored t.cm s.ctail.toNat (regionCode s.matchBit (s.input n)).bytes ∧
      t = { s with command := none, done := true, result := (regionCode s.matchBit (s.input n)).mask, cm := t.cm,
                   bcur := BitVec.ofNat 32 (s.bcur.toNat + n),
                   ctail := BitVec.ofNat 32 (s.ctail.toNat + (regionCode s.matchBit (s.input n)).bytes.length),
                   matchBit := runAfter s.matchBit (s.input n), l1mask := lastVector s.l1mask s.matchBit (s.input n) })

/-! ### The whole buffer -/

/-- R81, R82, R83: `ENCODE` completes when its two checks pass. It normalises the boundary byte alone, stores every region's `M3`
byte and code from `CM[0]` upward, and leaves `BCUR = N`, `CTAIL = CLEN` the stream's length and `RESULT` the OR of the `M3` bytes. -/
def Obligations.EncodeCompletes : Prop :=
  ∀ s : State, s.fault = false → s.bm.wf → s.cm.wf → s.bitlen.toNat ≤ 8 * s.bmSize.toNat →
    wcsize (nbytes s.bitlen.toNat) ≤ s.cmSize.toNat →
    ∃ bm' cm' : Memory,
      bm'.wf ∧
      (∀ x, bm'.read x = if s.bitlen.toNat % 8 ≠ 0 ∧ x = s.bitlen.toNat / 8 then normByte (s.bm.read x) (s.bitlen.toNat % 8)
        else s.bm.read x) ∧
      s.bitmap = bm'.readBytes 0 (nbytes s.bitlen.toNat) ∧
      s.cm.Stored cm' 0 (bufferCode s.bitmap).bytes ∧
      cm'.readBytes 0 (bufferStream s.bitmap).length = bufferStream s.bitmap ∧
      exec .encode s = .next { s with
        command := none, done := true, result := (bufferCode s.bitmap).mask, bm := bm', cm := cm',
        bcur := BitVec.ofNat 32 (nbytes s.bitlen.toNat), ctail := BitVec.ofNat 32 (bufferStream s.bitmap).length,
        clen := BitVec.ofNat 32 (bufferStream s.bitmap).length, matchBit := runAfter false s.bitmap,
        l1mask := lastVector 0#32 false s.bitmap }

/-- R83, R24, R52: the stream is empty, and `RESULT` is 0, exactly when every normalised byte is `0x00` (also for `N = 0`); the zero
`M3` bytes then stand in `CM` beyond `CLEN`. -/
def Obligations.StreamCollapses : Prop :=
  ∀ s : State, s.fault = false → s.bm.wf → s.cm.wf → s.bitlen.toNat ≤ 8 * s.bmSize.toNat →
    wcsize (nbytes s.bitlen.toNat) ≤ s.cmSize.toNat →
    ∃ t : State, exec .encode s = .next t ∧ t.fault = false ∧
      (t.clen = 0#32 ↔ ∀ b ∈ s.bitmap, b = 0x00#8) ∧ (t.result = 0#8 ↔ ∀ b ∈ s.bitmap, b = 0x00#8) ∧
      ((∀ b ∈ s.bitmap, b = 0x00#8) →
        t.ctail = 0#32 ∧ ∀ q, q < regionCount (nbytes s.bitlen.toNat) → t.cm.read q = 0x00#8)

/-- R61: the bound on the length of a stream, below `WCSIZE(N)`, and so on the `CLEN` that a successful `ENCODE` leaves; its first
inequality is tight. -/
def Obligations.StreamLengthBound : Prop :=
  (∀ bs : List Byte,
    (bufferStream bs).length ≤ bs.length + (bs.length + 31) / 32 + (bs.length + 63) / 64 + (bs.length + 511) / 512 +
      (bs.length + 4095) / 4096 ∧
    bs.length + (bs.length + 31) / 32 + (bs.length + 63) / 64 + (bs.length + 511) / 512 + (bs.length + 4095) / 4096 ≤
      bs.length + (bs.length + 15) / 16 + 3 ∧
    bs.length + (bs.length + 15) / 16 + 3 < wcsize bs.length) ∧
  (∀ s t : State, s.fault = false → t.fault = false → s.bm.wf → s.cm.wf → exec .encode s = .next t →
    t.clen.toNat = (bufferStream s.bitmap).length ∧ s.bitmap.length = nbytes s.bitlen.toNat ∧
    t.clen.toNat < wcsize (nbytes s.bitlen.toNat)) ∧
  bufferStream [0x01#8] = [0x80#8, 0x80#8, 0x80#8, 0x00#8, 0x01#8]

/-- R84: `ENCODE` completes whenever its two checks pass, and given `BITLEN` and the significant bits of the bitmap nothing else
decides what it produces: not the code memory, the run state, the cursors, the bytes beyond `N` or the pad bits. A second `ENCODE`
gives the same stream. -/
def Obligations.EncodeDependsOnBitmapOnly : Prop :=
  (∀ s : State, s.fault = false → s.bm.wf → s.cm.wf → s.bitlen.toNat ≤ 8 * s.bmSize.toNat →
    wcsize (nbytes s.bitlen.toNat) ≤ s.cmSize.toNat → ∃ t : State, exec .encode s = .next t ∧ t.done = true ∧ t.fault = false) ∧
  (∀ s s' t t' : State, s.fault = false → s'.fault = false → s.bm.wf → s'.bm.wf → s.cm.wf → s'.cm.wf →
    s'.bitlen = s.bitlen → s.bitlen.toNat ≤ 8 * s.bmSize.toNat → s.bitlen.toNat ≤ 8 * s'.bmSize.toNat →
    wcsize (nbytes s.bitlen.toNat) ≤ s.cmSize.toNat → wcsize (nbytes s.bitlen.toNat) ≤ s'.cmSize.toNat →
    (∀ i, i < s.bitlen.toNat → (s'.bm.read (i / 8)).getLsbD (7 - i % 8) = (s.bm.read (i / 8)).getLsbD (7 - i % 8)) →
    exec .encode s = .next t → exec .encode s' = .next t' →
    t'.clen = t.clen ∧ t'.result = t.result ∧ t'.matchBit = t.matchBit ∧ t'.l1mask = t.l1mask ∧ t'.bcur = t.bcur ∧
      t'.ctail = t.ctail ∧ ∀ a, a < t.clen.toNat → t'.cm.read a = t.cm.read a) ∧
  ∀ s t u : State, s.fault = false → s.bm.wf → s.cm.wf → s.bitlen.toNat ≤ 8 * s.bmSize.toNat →
    wcsize (nbytes s.bitlen.toNat) ≤ s.cmSize.toNat → exec .encode s = .next t → exec .encode t = .next u →
    u.clen = t.clen ∧ ∀ a, a < t.clen.toNat → u.cm.read a = t.cm.read a

/-! ### The decoder -/

/-- R90, R89: `DEC1` reads back, at the cursors, the encoding of any chunk in either form: the bytes are stored at `BCUR`, both
cursors advance, the run state is that of the bytes, `RESULT` is 0. Nothing else changes. -/
def Obligations.Dec1Completes : Prop :=
  ∀ (bs : List Byte) (s : State), bs.length ≤ 32 → s.fault = false → s.bm.wf → s.clen.toNat ≤ s.cmSize.toNat →
    (bs = [] ∨ s.bcur.toNat + bs.length ≤ s.bmSize.toNat) → s.StreamHolds (chunkCode s.matchBit bs).stage →
    ∃ bm' : Memory, s.bm.Stored bm' s.bcur.toNat bs ∧
      exec (.dec1 bs.length (chunkCode s.matchBit bs).nib) s = .next { s with
        command := none, done := true, result := 0#8, bm := bm', bcur := BitVec.ofNat 32 (s.bcur.toNat + bs.length),
        ctail := BitVec.ofNat 32 (s.ctail.toNat + (chunkCode s.matchBit bs).stage.length),
        matchBit := runAfter s.matchBit bs }

/-- R96, R57: two forms the encoder never writes that `DEC1` accepts: a fallback chunk of any bytes, and a masked chunk in which any
bytes may be marked, so that a literal may equal the run state anywhere in it, as long as every byte left out is the run state. -/
def Obligations.Dec1AcceptsUnusedForms : Prop :=
  (∀ (bs : List Byte) (s : State), 1 ≤ bs.length → bs.length ≤ 32 → s.fault = false → s.bm.wf →
    s.clen.toNat ≤ s.cmSize.toNat → s.bcur.toNat + bs.length ≤ s.bmSize.toNat → s.StreamHolds (0x00#8 :: bs) →
    ∃ bm' : Memory, s.bm.Stored bm' s.bcur.toNat bs ∧
      exec (.dec1 bs.length (fullNibble bs.length)) s = .next { s with
        command := none, done := true, result := 0#8, bm := bm', bcur := BitVec.ofNat 32 (s.bcur.toNat + bs.length),
        ctail := BitVec.ofNat 32 (s.ctail.toNat + (bs.length + 1)), matchBit := runAfter s.matchBit bs }) ∧
  ∀ (marks : List Bool) (bs : List Byte) (s : State), 1 ≤ bs.length → bs.length ≤ 32 → marks.length = bs.length →
    s.fault = false → s.bm.wf → s.clen.toNat ≤ s.cmSize.toNat → s.bcur.toNat + bs.length ≤ s.bmSize.toNat →
    (∀ i, i < bs.length → marks.getD i false = false → bs.getD i 0#8 = matchByte (runAfter s.matchBit (bs.take i))) →
    s.StreamHolds (looseChunk (groupCount bs.length) 0 marks bs).2 →
    ∃ bm' : Memory, s.bm.Stored bm' s.bcur.toNat bs ∧
      exec (.dec1 bs.length (looseChunk (groupCount bs.length) 0 marks bs).1) s = .next { s with
        command := none, done := true, result := 0#8, bm := bm', bcur := BitVec.ofNat 32 (s.bcur.toNat + bs.length),
        ctail := BitVec.ofNat 32 (s.ctail.toNat + (looseChunk (groupCount bs.length) 0 marks bs).2.length),
        matchBit := runAfter s.matchBit bs }

/-- R93, R91: `DEC2` reads back the encoding of any block, its mask in `ARG`. -/
def Obligations.Dec2Completes : Prop :=
  ∀ (bs : List Byte) (s : State), bs.length ≤ 512 → s.fault = false → s.bm.wf → s.clen.toNat ≤ s.cmSize.toNat →
    (bs = [] ∨ s.bcur.toNat + bs.length ≤ s.bmSize.toNat) → s.StreamHolds (blockCode s.matchBit bs).bytes →
    ∃ bm' : Memory, s.bm.Stored bm' s.bcur.toNat bs ∧
      exec (.dec2 bs.length (blockCode s.matchBit bs).mask) s = .next { s with
        command := none, done := true, result := 0#8, bm := bm', bcur := BitVec.ofNat 32 (s.bcur.toNat + bs.length),
        ctail := BitVec.ofNat 32 (s.ctail.toNat + (blockCode s.matchBit bs).bytes.length),
        matchBit := runAfter s.matchBit bs }

/-- R94, R92: `DEC3` reads back the encoding of any region, its mask in `ARG`. -/
def Obligations.Dec3Completes : Prop :=
  ∀ (bs : List Byte) (s : State), bs.length ≤ 4096 → s.fault = false → s.bm.wf → s.clen.toNat ≤ s.cmSize.toNat →
    (bs = [] ∨ s.bcur.toNat + bs.length ≤ s.bmSize.toNat) → s.StreamHolds (regionCode s.matchBit bs).bytes →
    ∃ bm' : Memory, s.bm.Stored bm' s.bcur.toNat bs ∧
      exec (.dec3 bs.length (regionCode s.matchBit bs).mask) s = .next { s with
        command := none, done := true, result := 0#8, bm := bm', bcur := BitVec.ofNat 32 (s.bcur.toNat + bs.length),
        ctail := BitVec.ofNat 32 (s.ctail.toNat + (regionCode s.matchBit bs).bytes.length),
        matchBit := runAfter s.matchBit bs }

/-- R89, R93, R94: with a zero mask a decode unit reads nothing from `CM` and fills its bytes with the current `MATCH`. -/
def Obligations.DecodeWithoutMask : Prop :=
  ∀ (n : Nat) (s : State), s.fault = false → s.bm.wf → s.clen.toNat ≤ s.cmSize.toNat →
    (n = 0 ∨ s.bcur.toNat + n ≤ s.bmSize.toNat) →
    ∃ bm' : Memory, s.bm.Stored bm' s.bcur.toNat (List.replicate n (matchByte s.matchBit)) ∧
      (n ≤ 32 → exec (.dec1 n 0#4) s = .next { s with
        command := none, done := true, result := 0#8, bm := bm', bcur := BitVec.ofNat 32 (s.bcur.toNat + n) }) ∧
      (n ≤ 512 → exec (.dec2 n 0#8) s = .next { s with
        command := none, done := true, result := 0#8, bm := bm', bcur := BitVec.ofNat 32 (s.bcur.toNat + n) }) ∧
      (n ≤ 4096 → exec (.dec3 n 0#8) s = .next { s with
        command := none, done := true, result := 0#8, bm := bm', bcur := BitVec.ofNat 32 (s.bcur.toNat + n) })

/-- R30, R39, R89, R95: whenever a decode command succeeds, on whatever stream, a unit command has stored exactly `n` bytes from
`BCUR` upward, inside `BM`, and its read cursor has not passed `CLEN`; `DECODE` has stored exactly the `N` bytes at `BM[0 .. N-1]`,
and left `BCUR = N` and `CTAIL = CLEN`. Neither has touched `CM`, `CLEN`, `BITLEN` or `L1MASK`. -/
def Obligations.DecodeUnitFrame : Prop :=
  (∀ (n : Nat) (nib : Nibble) (mask : Byte) (s t : State), s.fault = false → t.fault = false → s.bm.wf →
    (exec (.dec1 n nib) s = .next t ∨ exec (.dec2 n mask) s = .next t ∨ exec (.dec3 n mask) s = .next t) →
    ∃ (bs : List Byte) (c : Nat), bs.length = n ∧ s.bm.Stored t.bm s.bcur.toNat bs ∧
      (n = 0 ∨ s.bcur.toNat + n ≤ s.bmSize.toNat) ∧ s.ctail.toNat ≤ c ∧ (c = s.ctail.toNat ∨ c ≤ s.clen.toNat) ∧
      t = { s with command := none, done := true, result := 0#8, bm := t.bm, bcur := BitVec.ofNat 32 (s.bcur.toNat + n),
                   ctail := BitVec.ofNat 32 c, matchBit := runAfter s.matchBit bs }) ∧
  ∀ s t : State, s.fault = false → t.fault = false → s.bm.wf → exec .decode s = .next t →
    ∃ bs : List Byte, bs.length = nbytes s.bitlen.toNat ∧ bs.length ≤ s.bmSize.toNat ∧ s.clen.toNat ≤ s.cmSize.toNat ∧
      s.bm.Stored t.bm 0 bs ∧
      t = { s with command := none, done := true, result := 0#8, bm := t.bm, bcur := BitVec.ofNat 32 bs.length,
                   ctail := s.clen, matchBit := runAfter false bs }

/-- R95, R96: `DECODE` reads back the stream of any buffer and completes; an empty stream is all zero; a non-empty stream whose `M3`
bytes are all zero is accepted too. Bytes at `N` and above are not written. -/
def Obligations.DecodeCompletes : Prop :=
  (∀ (bs : List Byte) (s : State), s.fault = false → s.bm.wf → s.bitlen.toNat ≤ 8 * s.bmSize.toNat →
    bs.length = nbytes s.bitlen.toNat → s.clen.toNat ≤ s.cmSize.toNat → s.clen.toNat = (bufferStream bs).length →
    s.cm.readBytes 0 s.clen.toNat = bufferStream bs →
    ∃ bm' : Memory, s.bm.Stored bm' 0 bs ∧ exec .decode s = .next { s with
      command := none, done := true, result := 0#8, bm := bm', bcur := BitVec.ofNat 32 bs.length, ctail := s.clen,
      matchBit := runAfter false bs }) ∧
  ∀ s : State, s.fault = false → s.bm.wf → s.bitlen.toNat ≤ 8 * s.bmSize.toNat → s.clen.toNat ≤ s.cmSize.toNat →
    (s.clen = 0#32 ∨
      (s.clen.toNat = regionCount (nbytes s.bitlen.toNat) ∧ ∀ a, a < s.clen.toNat → s.cm.read a = 0x00#8)) →
    ∃ bm' : Memory, s.bm.Stored bm' 0 (List.replicate (nbytes s.bitlen.toNat) 0x00#8) ∧ exec .decode s = .next { s with
      command := none, done := true, result := 0#8, bm := bm', bcur := BitVec.ofNat 32 (nbytes s.bitlen.toNat), ctail := s.clen,
      matchBit := false }

/-- R98: the round trip. After `ENCODE`, with `BM` overwritten by anything, `DECODE` gives back the normalised bitmap, with
`CTAIL = CLEN`, `BCUR = N` and the encoder's final `MATCH`, and does not fault. -/
def Obligations.RoundTrip : Prop :=
  ∀ s : State, s.fault = false → s.bm.wf → s.cm.wf → s.bitlen.toNat ≤ 8 * s.bmSize.toNat →
    wcsize (nbytes s.bitlen.toNat) ≤ s.cmSize.toNat →
    ∃ t : State, exec .encode s = .next t ∧ t.fault = false ∧
      ∀ bm' : Memory, bm'.wf → ∃ u : State, exec .decode { t with bm := bm' } = .next u ∧ u.fault = false ∧ u.done = true ∧
        (∀ a, a < nbytes s.bitlen.toNat → u.bm.read a = t.bm.read a) ∧
        (∀ a, nbytes s.bitlen.toNat ≤ a → u.bm.read a = bm'.read a) ∧
        u.clen = t.clen ∧ u.ctail = u.clen ∧ u.bcur = BitVec.ofNat 32 (nbytes s.bitlen.toNat) ∧ u.matchBit = t.matchBit

/-! ### The faults -/

/-- R105: a length above the unit's size is `BAD_LEN` with `FADDR = BCUR`, before anything else is looked at. -/
def Obligations.BadLenFaults : Prop :=
  ∀ (n : Nat) (nib : Nibble) (mask : Byte) (s : State), s.fault = false →
    (n > 32 → exec (.enc1 n) s = .next (s.faultedWith .badLen s.bcur) ∧
      exec (.dec1 n nib) s = .next (s.faultedWith .badLen s.bcur)) ∧
    (n > 512 → exec (.enc2 n) s = .next (s.faultedWith .badLen s.bcur) ∧
      exec (.dec2 n mask) s = .next (s.faultedWith .badLen s.bcur)) ∧
    (n > 4096 → exec (.enc3 n) s = .next (s.faultedWith .badLen s.bcur) ∧
      exec (.dec3 n mask) s = .next (s.faultedWith .badLen s.bcur))

/-- R106: `BITLEN > 8 * BM_SIZE` at the start of `NORM`, `ENCODE` or `DECODE` is `BAD_BITLEN` with `FADDR = 0`. -/
def Obligations.BadBitlenFaults : Prop :=
  ∀ s : State, s.fault = false → s.bitlen.toNat > 8 * s.bmSize.toNat →
    exec .norm s = .next (s.faultedWith .badBitlen 0#32) ∧ exec .encode s = .next (s.faultedWith .badBitlen 0#32) ∧
    exec .decode s = .next (s.faultedWith .badBitlen 0#32)

/-- R107: `ENCODE` with a code memory below the worst case is `OUT_TOO_SMALL` with `FADDR = 0`, whatever the data. -/
def Obligations.OutTooSmallFaults : Prop :=
  ∀ s : State, s.fault = false → s.bitlen.toNat ≤ 8 * s.bmSize.toNat → wcsize (nbytes s.bitlen.toNat) > s.cmSize.toNat →
    exec .encode s = .next (s.faultedWith .outTooSmall 0#32)

/-- R110: `CLEN > CM_SIZE` at the start of a decode command is `BAD_CLEN`, with `FADDR = BCUR` for the units and 0 for `DECODE`. -/
def Obligations.BadClenFaults : Prop :=
  ∀ (n : Nat) (nib : Nibble) (mask : Byte) (s : State), s.fault = false → s.clen.toNat > s.cmSize.toNat →
    (n ≤ 32 → exec (.dec1 n nib) s = .next (s.faultedWith .badClen s.bcur)) ∧
    (n ≤ 512 → exec (.dec2 n mask) s = .next (s.faultedWith .badClen s.bcur)) ∧
    (n ≤ 4096 → exec (.dec3 n mask) s = .next (s.faultedWith .badClen s.bcur)) ∧
    (s.bitlen.toNat ≤ 8 * s.bmSize.toNat → exec .decode s = .next (s.faultedWith .badClen 0#32))

/-- R109, R40: a chunk over `n >= 1` bytes, encoded or decoded, that runs past `BM_SIZE` raises `BM_RANGE` with `FADDR` the `BCUR` at
which it starts, wherever in a unit command it stands (a chunk to decode if its nibble fits its length); the first chunk of `ENC2` and
`ENC3` whatever `CTAIL` is (R9). A command whose bytes lie inside `BM` never raises it. -/
def Obligations.BmRangeFaults : Prop :=
  (∀ (i : Instr) (s u : State) (n : Nat), s.fault = false → Reaches i s (.enc1 n) u → 1 ≤ n → n ≤ 32 →
    u.bcur.toNat + n > u.bmSize.toNat → exec i s = .next (s.faultedWith .bmRange u.bcur)) ∧
  (∀ (i : Instr) (s u : State) (n : Nat) (nib : Nibble), s.fault = false → Reaches i s (.dec1 n nib) u → 1 ≤ n → n ≤ 32 →
    u.clen.toNat ≤ u.cmSize.toNat → nibBeyond nib n = false →
    u.bcur.toNat + n > u.bmSize.toNat → exec i s = .next (s.faultedWith .bmRange u.bcur)) ∧
  (∀ (s : State) (n : Nat), s.fault = false → 1 ≤ n → s.bcur.toNat + min 32 n > s.bmSize.toNat →
    (n ≤ 512 → exec (.enc2 n) s = .next (s.faultedWith .bmRange s.bcur)) ∧
    (n ≤ 4096 → exec (.enc3 n) s = .next (s.faultedWith .bmRange s.bcur))) ∧
  ∀ (s : State) (n : Nat) (nib : Nibble) (mask : Byte) (a : Word), s.fault = false →
    n = 0 ∨ s.bcur.toNat + n ≤ s.bmSize.toNat →
    ∀ i ∈ [Instr.enc1 n, .enc2 n, .enc3 n, .dec1 n nib, .dec2 n mask, .dec3 n mask],
      exec i s ≠ .next (s.faultedWith .bmRange a)

/-- R108, R40: a chunk whose whole staged code does not fit below `CM_SIZE` raises `OUT_OVERFLOW` with `FADDR` the `BCUR` at which the
chunk starts, and none of the command's writes stay, wherever in `ENC1`, `ENC2` or `ENC3` it stands. With `CTAIL` at `CM_SIZE` or above,
the reserves alone leave the first chunk of `ENC2` and `ENC3` no room, whatever `CTAIL` is (R9). For an empty stage, with `CTAIL` above
`CM_SIZE`, this is the model's reading (log 10). -/
def Obligations.OutOverflowFaults : Prop :=
  (∀ (i : Instr) (s u : State) (n : Nat), s.fault = false → Reaches i s (.enc1 n) u → 1 ≤ n → n ≤ 32 →
    u.bcur.toNat + n ≤ u.bmSize.toNat →
    u.ctail.toNat + (chunkCode u.matchBit (u.input n)).stage.length > u.cmSize.toNat →
    exec i s = .next (s.faultedWith .outOverflow u.bcur)) ∧
  ∀ (s : State) (n : Nat), s.fault = false → 1 ≤ n → s.bcur.toNat + min 32 n ≤ s.bmSize.toNat →
    s.cmSize.toNat ≤ s.ctail.toNat →
    (n ≤ 512 → exec (.enc2 n) s = .next (s.faultedWith .outOverflow s.bcur)) ∧
    (n ≤ 4096 → exec (.enc3 n) s = .next (s.faultedWith .outOverflow s.bcur))

/-- R112, R88: every read at or beyond `CLEN` raises `CORRUPT_TRUNCATED` with `FADDR` the `BCUR` of the unit that reads, wherever in a
decode command it stands: the raw bytes of a fallback chunk, any group's mask, any literal of a group, the mask byte of any round or
block, the `M3` byte of any region. -/
def Obligations.TruncatedStreamFaults : Prop :=
  (∀ (i : Instr) (s u : State) (n : Nat), s.fault = false → Reaches i s (.dec1 n (fullNibble n)) u →
    u.clen.toNat ≤ u.cmSize.toNat → 1 ≤ n → n ≤ 32 → u.bcur.toNat + n ≤ u.bmSize.toNat →
    u.ctail.toNat < u.clen.toNat → u.cm.read u.ctail.toNat = 0x00#8 → u.ctail.toNat + 1 + n > u.clen.toNat →
    exec i s = .next (s.faultedWith .corruptTruncated u.bcur)) ∧
  (∀ (i : Instr) (s u v : State) (n g : Nat) (nib : Nibble), s.fault = false → Reaches i s (.dec1 n nib) u →
    GroupStart n nib u g v →
    (v.clen.toNat ≤ v.ctail.toNat → exec i s = .next (s.faultedWith .corruptTruncated u.bcur)) ∧
    (v.ctail.toNat < v.clen.toNat → v.cm.read v.ctail.toNat ≠ 0x00#8 →
      groupMaskBeyond (v.cm.read v.ctail.toNat) (groupSize n g) = false →
      v.ctail.toNat + 1 + markCount (v.cm.read v.ctail.toNat) > v.clen.toNat →
      exec i s = .next (s.faultedWith .corruptTruncated u.bcur))) ∧
  (∀ (i : Instr) (s u v : State) (n k : Nat) (mask : Byte), s.fault = false → hasChild mask k = true →
    v.clen.toNat ≤ v.ctail.toNat →
    (Reaches i s (.dec2 n mask) u → RoundStart n mask u k v → exec i s = .next (s.faultedWith .corruptTruncated v.bcur)) ∧
    (Reaches i s (.dec3 n mask) u → BlockStart n mask u k v → exec i s = .next (s.faultedWith .corruptTruncated v.bcur))) ∧
  ∀ (s v : State) (q : Nat), s.fault = false → RegionStart s q v → q < regionCount (nbytes s.bitlen.toNat) →
    v.clen.toNat ≤ v.ctail.toNat → exec .decode s = .next (s.faultedWith .corruptTruncated v.bcur)

/-- R113: a zero mask byte under a set bit raises `CORRUPT_ZERO_MASK` with `FADDR` the `BCUR` of the unit that reads it, wherever in a
decode command it stands: any group's mask but the marker position, the pair byte of any round, the Level-2 mask byte of any block. -/
def Obligations.ZeroMaskFaults : Prop :=
  (∀ (i : Instr) (s u v : State) (n g : Nat) (nib : Nibble), s.fault = false → Reaches i s (.dec1 n nib) u →
    GroupStart n nib u g v → ¬ (g = 0 ∧ nib = fullNibble n) →
    v.ctail.toNat < v.clen.toNat → v.cm.read v.ctail.toNat = 0x00#8 →
    exec i s = .next (s.faultedWith .corruptZeroMask u.bcur)) ∧
  ∀ (i : Instr) (s u v : State) (n k : Nat) (mask : Byte), s.fault = false → hasChild mask k = true →
    v.ctail.toNat < v.clen.toNat → v.cm.read v.ctail.toNat = 0x00#8 →
    (Reaches i s (.dec2 n mask) u → RoundStart n mask u k v → exec i s = .next (s.faultedWith .corruptZeroMask v.bcur)) ∧
    (Reaches i s (.dec3 n mask) u → BlockStart n mask u k v → exec i s = .next (s.faultedWith .corruptZeroMask v.bcur))

/-- R114: a mask bit for a child that the length does not have raises `CORRUPT_MASK_RANGE` with `FADDR` the `BCUR` of the unit that
detects it, wherever in a decode command it stands, whether the mask is `ARG` or comes from the stream: a group of any chunk's nibble
(a chunk of no bytes has none, so that a low nibble of a pair byte without a second chunk is one), a byte of any short group, a round
of any Level-2 mask, a block of any Level-3 mask. -/
def Obligations.MaskRangeFaults : Prop :=
  (∀ (i : Instr) (s u : State) (n : Nat) (nib : Nibble), s.fault = false → Reaches i s (.dec1 n nib) u → n ≤ 32 →
    u.clen.toNat ≤ u.cmSize.toNat → (∃ g, groupCount n ≤ g ∧ g < 4 ∧ hasGroup nib g = true) →
    exec i s = .next (s.faultedWith .corruptMaskRange u.bcur)) ∧
  (∀ (i : Instr) (s u v : State) (n g : Nat) (nib : Nibble), s.fault = false → Reaches i s (.dec1 n nib) u →
    GroupStart n nib u g v → v.ctail.toNat < v.clen.toNat →
    (∃ j, groupSize n g ≤ j ∧ j < 8 ∧ hasChild (v.cm.read v.ctail.toNat) j = true) →
    exec i s = .next (s.faultedWith .corruptMaskRange u.bcur)) ∧
  ∀ (i : Instr) (s u : State) (n : Nat) (mask : Byte), s.fault = false → u.clen.toNat ≤ u.cmSize.toNat →
    (Reaches i s (.dec2 n mask) u → n ≤ 512 → (∃ r, roundCount n ≤ r ∧ r < 8 ∧ hasChild mask r = true) →
      exec i s = .next (s.faultedWith .corruptMaskRange u.bcur)) ∧
    (Reaches i s (.dec3 n mask) u → n ≤ 4096 → (∃ k, blockCount n ≤ k ∧ k < 8 ∧ hasChild mask k = true) →
      exec i s = .next (s.faultedWith .corruptMaskRange u.bcur))

/-- R115: `DECODE` of the stream of a whole buffer with bytes left over raises `CORRUPT_TRAILING` with `FADDR = N`; for `N = 0` any
non-empty stream does. -/
def Obligations.TrailingBytesFault : Prop :=
  (∀ (bs : List Byte) (s : State), s.fault = false → s.bitlen.toNat ≤ 8 * s.bmSize.toNat →
    bs.length = nbytes s.bitlen.toNat → s.clen.toNat ≤ s.cmSize.toNat → (bufferStream bs).length < s.clen.toNat →
    bufferStream bs ≠ [] → s.cm.readBytes 0 (bufferStream bs).length = bufferStream bs →
    exec .decode s = .next (s.faultedWith .corruptTrailing (BitVec.ofNat 32 (nbytes s.bitlen.toNat)))) ∧
  ∀ s : State, s.fault = false → s.bitlen = 0#32 → s.clen.toNat ≤ s.cmSize.toNat → s.clen ≠ 0#32 →
    exec .decode s = .next (s.faultedWith .corruptTrailing 0#32)
end

