-- ==== Sys2Proof/Laws/Units.lean ====
section
/-! SUPPORT. Everything a unit that succeeds leaves alone and keeps, on ANY input, well coded or not: one lemma per unit (R30, R39,
R40, R89). -/

namespace Sys2Proof.Machine

/-! ### Encode units -/

/-- What a successful encode unit over `n` bytes keeps: the code memory stays canonical and inside its size, its bytes outside the
window from the starting tail to the final one are as before, and the input cursor has advanced by `n`. -/
structure EncKeeps (env : EncEnv) (n : Nat) (w w' : EncWork) : Prop where
  wf : w.cm.wf → w'.cm.wf
  within : w.cm.within env.cmSize → w'.cm.within env.cmSize
  same : w.cm.wf → ∀ a, a < w.ctail ∨ w'.ctail ≤ a ∨ env.cmSize ≤ a → w'.cm.read a = w.cm.read a
  bcur : w'.bcur = w.bcur + n
  inside : n = 0 ∨ w.bcur + n ≤ env.bmSize
  tail : w.ctail ≤ w'.ctail
  room : (n = 0 ∧ w'.ctail = w.ctail) ∨ w'.ctail ≤ env.cmSize

theorem EncKeeps.refl (env : EncEnv) (w : EncWork) : EncKeeps env 0 w w :=
  ⟨id, id, fun _ _ _ => rfl, rfl, .inl rfl, Nat.le_refl _, .inl ⟨rfl, rfl⟩⟩

theorem EncKeeps.trans {env : EncEnv} {n k : Nat} {w w1 w2 : EncWork} (h : EncKeeps env n w w1) (h' : EncKeeps env k w1 w2) :
    EncKeeps env (n + k) w w2 where
  wf := h'.wf ∘ h.wf
  within := h'.within ∘ h.within
  same hwf a ha := by
    rw [h'.same (h.wf hwf) a (by have := h.tail; omega), h.same hwf a (by have := h'.tail; omega)]
  bcur := by rw [h'.bcur, h.bcur, Nat.add_assoc]
  inside := by have := h.inside; have := h'.inside; have := h.bcur; omega
  tail := Nat.le_trans h.tail h'.tail
  room := by have := h.room; have := h'.room; omega

theorem enc1_keeps (env : EncEnv) (n : Nat) (w w' : EncWork) (v : Nibble) (h : enc1 env n w = .ok (v, w')) :
    EncKeeps env n w w' := by
  unfold enc1 at h
  split at h
  · next h0 => cases h; subst h0; exact EncKeeps.refl env w
  · next h0 =>
    split at h
    · cases h
    · next hb =>
      simp only at h
      split at h
      · cases h
      · next hc =>
        cases h
        refine ⟨fun hw => Memory.writeBytes_wf _ _ _ hw, fun hw => Memory.writeBytes_within _ _ _ _ hw (.inr (by omega)),
          fun hw a ha => ?_, rfl, .inr (by omega), Nat.le_add_right _ _, .inr (by simp only; omega)⟩
        simp only at ha ⊢
        rw [Memory.read_writeBytes _ _ _ _ hw, if_neg (by omega)]

/-- A chunk that returns 0 has written nothing (R68). -/
theorem enc1_quiet (env : EncEnv) (n : Nat) (w w' : EncWork) (hn : n ≤ 32) (h : enc1 env n w = .ok (0#4, w')) :
    w'.cm = w.cm ∧ w'.ctail = w.ctail := by
  unfold enc1 at h
  split at h
  · cases h; exact ⟨rfl, rfl⟩
  · split at h
    · cases h
    · simp only at h
      split at h
      · cases h
      · simp only [Except.ok.injEq, Prod.mk.injEq] at h
        obtain ⟨hv, rfl⟩ := h
        have := (chunkCode_stage_nil w.matchBit (env.bm.readBytes w.bcur n) (by simpa using hn)).mp hv
        simp [this, Memory.writeBytes]

theorem encRound_keeps (env : EncEnv) (n : Nat) (w w' : EncWork) (v : Byte) (hn : n ≤ 64) (h : encRound env n w = .ok (v, w')) :
    EncKeeps env n w w' := by
  unfold encRound at h
  simp only [bind, Except.bind] at h
  split at h
  · cases h
  · next x hx =>
    obtain ⟨a, w1⟩ := x
    simp only at h
    split at h
    · cases h
    · next y hy =>
      obtain ⟨b, w2⟩ := y
      cases h
      have := (enc1_keeps env _ _ _ _ hx).trans (enc1_keeps env _ _ _ _ hy)
      rwa [show firstChunk n + secondChunk n = n by unfold firstChunk secondChunk; omega] at this

theorem encRound_quiet (env : EncEnv) (n : Nat) (w w' : EncWork) (h : encRound env n w = .ok (0#8, w')) :
    w'.cm = w.cm ∧ w'.ctail = w.ctail := by
  simp only [encRound, bind, Except.bind] at h
  split at h
  · cases h
  · next x hx =>
    obtain ⟨a, w1⟩ := x
    simp only at h
    split at h
    · cases h
    · next y hy =>
      obtain ⟨b, w2⟩ := y
      simp only [Except.ok.injEq, Prod.mk.injEq, pairByte_eq_zero] at h
      obtain ⟨⟨rfl, rfl⟩, rfl⟩ := h
      have h1 := enc1_quiet _ _ _ _ (by unfold firstChunk; omega) hx
      have h2 := enc1_quiet _ _ _ _ (by unfold secondChunk; omega) hy
      exact ⟨h2.1.trans h1.1, h2.2.trans h1.2⟩

/-- A masked block only ever adds bits to the result it starts from. -/
theorem maskedBlock_quiet (env : EncEnv) (unit : Nat) (child : Nat → EncWork → Except Raise (Byte × EncWork))
    (hq : ∀ n w w', n ≤ unit → child n w = .ok (0#8, w') → w'.cm = w.cm ∧ w'.ctail = w.ctail) :
    ∀ left k rem res w w', k + left ≤ 8 → maskedBlock env unit child left k rem res w = .ok (0#8, w') →
      res = 0#8 ∧ w'.cm = w.cm ∧ w'.ctail = w.ctail := by
  intro left
  induction left with
  | zero => intro k rem res w w' _ h; cases h; exact ⟨rfl, rfl, rfl⟩
  | succ left ih =>
    intro k rem res w w' hk h
    simp only [maskedBlock, bind, Except.bind] at h
    split at h
    · cases h
    · next x hx =>
      obtain ⟨u, w1⟩ := x
      simp only at h
      split at h
      · next hu =>
        subst hu
        obtain ⟨h0, h1, h2⟩ := ih _ _ _ _ _ (by omega) h
        exact ⟨h0, h1.trans (hq _ _ _ (Nat.min_le_left _ _) hx).1, h2⟩
      · split at h
        · cases h
        · have := (ih _ _ _ _ _ (by omega) h).1
          exact absurd ((byte_or_eq_zero _ _).mp this).2 (childBit_ne_zero k (by omega))

theorem maskedBlock_keeps (env : EncEnv) (unit : Nat) (child : Nat → EncWork → Except Raise (Byte × EncWork))
    (hch : ∀ n w v w', n ≤ unit → child n w = .ok (v, w') → EncKeeps env n w w')
    (hq : ∀ n w w', n ≤ unit → child n w = .ok (0#8, w') → w'.cm = w.cm ∧ w'.ctail = w.ctail) (hu : 1 ≤ unit) :
    ∀ left k rem res w v w', Covers unit left rem → maskedBlock env unit child left k rem res w = .ok (v, w') →
      EncKeeps env rem w w' := by
  intro left
  induction left with
  | zero =>
    intro k rem res w v w' hcov h
    simp only [Covers] at hcov
    subst hcov
    cases h
    exact EncKeeps.refl env w
  | succ left ih =>
    intro k rem res w v w' hcov h
    simp only [maskedBlock, bind, Except.bind] at h
    split at h
    · cases h
    · next x hx =>
      obtain ⟨u, w1⟩ := x
      have hk := hch _ _ _ _ (Nat.min_le_left _ _) hx
      have hsum : min unit rem + (rem - unit) = rem := by omega
      simp only at h
      split at h
      · next hu0 =>
        subst hu0
        have hsame := (hq _ _ _ (Nat.min_le_left _ _) hx).1
        simp only at hsame
        have h1 : EncKeeps env (min unit rem) w { w1 with ctail := w.ctail } :=
          ⟨hk.wf, hk.within, fun hw a ha => by simp only; rw [hsame], hk.bcur, hk.inside, Nat.le_refl _,
            by have := hk.room; have := hk.tail; have := hcov.1; simp only at *; omega⟩
        have := h1.trans (ih _ _ _ _ _ _ hcov.2 h)
        rwa [hsum] at this
      · split at h
        · cases h
        · next hp =>
          have h1 : EncKeeps env (min unit rem) w { w1 with cm := w1.cm.write w.ctail u } := by
            refine ⟨fun hw => Memory.write_wf _ _ _ (hk.wf hw), fun hw => Memory.write_within _ _ _ _ (hk.within hw) (by omega),
              fun hw a ha => ?_, hk.bcur, hk.inside, by have := hk.tail; simp only at this ⊢; omega,
              by have := hk.room; have := hcov.1; simp only at *; omega⟩
            have ht := hk.tail
            simp only at ha ht ⊢
            rw [Memory.read_write _ _ _ _ (hk.wf hw), if_neg (by omega)]
            exact hk.same hw a (by simp only; omega)
          have := h1.trans (ih _ _ _ _ _ _ hcov.2 h)
          rwa [hsum] at this

theorem enc2_keeps (env : EncEnv) (n : Nat) (w w' : EncWork) (v : Byte) (h : enc2 env n w = .ok (v, w')) : EncKeeps env n w w' :=
  maskedBlock_keeps env 64 _ (fun n w v w' hn h => encRound_keeps env n w w' v hn h) (fun n w w' _ h => encRound_quiet env n w w' h)
    (by omega) _ _ _ _ _ _ _ (covers_rounds n) h

/-- A block that returns 0 has written nothing (R75). -/
theorem enc2_quiet (env : EncEnv) (n : Nat) (w w' : EncWork) (hn : n ≤ 512) (h : enc2 env n w = .ok (0#8, w')) :
    w'.cm = w.cm ∧ w'.ctail = w.ctail :=
  (maskedBlock_quiet env 64 _ (fun n w w' _ h => encRound_quiet env n w w' h) _ _ _ _ _ _ (by have := roundCount_le n hn; omega) h).2

theorem enc3_keeps (env : EncEnv) (n : Nat) (w w' : EncWork) (v : Byte) (h : enc3 env n w = .ok (v, w')) : EncKeeps env n w w' :=
  maskedBlock_keeps env 512 _ (fun n w v w' _ h => enc2_keeps env n w w' v h) (fun n w w' hn h => enc2_quiet env n w w' hn h)
    (by omega) _ _ _ _ _ _ _ (covers_blocks n) h

theorem encRegions_keeps (env : EncEnv) :
    ∀ left rem any w v w', Covers 4096 left rem → encRegions env left rem any w = .ok (v, w') → EncKeeps env rem w w' := by
  intro left
  induction left with
  | zero =>
    intro rem any w v w' hcov h
    simp only [Covers] at hcov
    subst hcov
    cases h
    exact EncKeeps.refl env w
  | succ left ih =>
    intro rem any w v w' hcov h
    simp only [encRegions, bind, Except.bind] at h
    split at h
    · cases h
    · next x hx =>
      obtain ⟨u, w1⟩ := x
      have hk := enc3_keeps _ _ _ _ _ hx
      simp only at h
      split at h
      · cases h
      · next hp =>
        have h1 : EncKeeps env (min 4096 rem) w { w1 with cm := w1.cm.write w.ctail u } := by
          refine ⟨fun hw => Memory.write_wf _ _ _ (hk.wf hw), fun hw => Memory.write_within _ _ _ _ (hk.within hw) (by omega),
            fun hw a ha => ?_, hk.bcur, hk.inside, by have := hk.tail; simp only at this ⊢; omega,
            by have := hk.room; have := hcov.1; simp only at *; omega⟩
          have ht := hk.tail
          simp only at ha ht ⊢
          rw [Memory.read_write _ _ _ _ (hk.wf hw), if_neg (by omega)]
          exact hk.same hw a (by simp only; omega)
        have := h1.trans (ih _ _ _ _ _ hcov.2 h)
        rwa [show min 4096 rem + (rem - 4096) = rem by omega] at this

/-! ### Decode units -/

/-- What a successful decode unit over `n` bytes keeps: the bitmap memory stays canonical and inside its size, only the `n` bytes from
the starting cursor on may change, and the read cursor never passes `CLEN` unless it began there. -/
structure DecKeeps (env : DecEnv) (n : Nat) (w w' : DecWork) : Prop where
  wf : w.bm.wf → w'.bm.wf
  within : w.bm.within env.bmSize → w'.bm.within env.bmSize
  same : w.bm.wf → ∀ a, a < w.bcur ∨ w.bcur + n ≤ a → w'.bm.read a = w.bm.read a
  bcur : w'.bcur = w.bcur + n
  inside : n = 0 ∨ w.bcur + n ≤ env.bmSize
  tail : w.ctail ≤ w'.ctail
  stream : w'.ctail = w.ctail ∨ w'.ctail ≤ env.clen

theorem DecKeeps.refl (env : DecEnv) (w : DecWork) : DecKeeps env 0 w w :=
  ⟨id, id, fun _ _ _ => rfl, rfl, .inl rfl, Nat.le_refl _, .inl rfl⟩

theorem DecKeeps.trans {env : DecEnv} {n k : Nat} {w w1 w2 : DecWork} (h : DecKeeps env n w w1) (h' : DecKeeps env k w1 w2) :
    DecKeeps env (n + k) w w2 where
  wf := h'.wf ∘ h.wf
  within := h'.within ∘ h.within
  same hwf a ha := by
    have := h.bcur
    rw [h'.same (h.wf hwf) a (by omega), h.same hwf a (by omega)]
  bcur := by rw [h'.bcur, h.bcur, Nat.add_assoc]
  inside := by have := h.inside; have := h'.inside; have := h.bcur; omega
  tail := Nat.le_trans h.tail h'.tail
  stream := by have := h.stream; have := h'.stream; omega

/-- A read of the stream succeeds only below `CLEN` (R88). -/
theorem cmRead_ok {env : DecEnv} {t c : Nat} {b : Byte} (h : cmRead env t c = .ok b) : t < env.clen ∧ b = env.cm.read t := by
  unfold cmRead at h
  split at h
  · cases h
  · cases h; exact ⟨by omega, rfl⟩

/-- Reconstructed bytes: how many, and where the read cursor ends. -/
def RunKeeps (env : DecEnv) (n t : Nat) (r : DecRun) : Prop :=
  r.bytes.length = n ∧ t ≤ r.ctail ∧ (r.ctail = t ∨ r.ctail ≤ env.clen)

theorem decodeGroup_keeps (env : DecEnv) (c : Nat) (gm : Byte) (left j : Nat) (m : Bool) (t : Nat) (r : DecRun)
    (h : decodeGroup env c gm left j m t = .ok r) : RunKeeps env left t r := by
  induction left generalizing j m t r with
  | zero => cases h; exact ⟨rfl, Nat.le_refl _, .inl rfl⟩
  | succ left ih =>
    simp only [decodeGroup, bind, Except.bind] at h
    split at h
    · split at h
      · cases h
      · next b hb =>
        split at h
        · cases h
        · next r' hr =>
          cases h
          obtain ⟨h1, h2, h3⟩ := ih _ _ _ _ hr
          have := (cmRead_ok hb).1
          exact ⟨by simp [h1], by simp only; omega, by simp only; omega⟩
    · split at h
      · cases h
      · next r' hr =>
        cases h
        obtain ⟨h1, h2, h3⟩ := ih _ _ _ _ hr
        exact ⟨by simp [h1], h2, h3⟩

theorem markedGroup_keeps (env : DecEnv) (c s : Nat) (m : Bool) (t : Nat) (r : DecRun) (h : markedGroup env c s m t = .ok r) :
    RunKeeps env s t r := by
  simp only [markedGroup, bind, Except.bind] at h
  split at h
  · cases h
  · next gm hg =>
    split at h
    · cases h
    · split at h
      · cases h
      · obtain ⟨h1, h2, h3⟩ := decodeGroup_keeps _ _ _ _ _ _ _ _ h
        have := (cmRead_ok hg).1
        exact ⟨h1, by omega, by omega⟩

theorem decodeGroups_keeps (env : DecEnv) (c n : Nat) (nib : Nibble) (left g : Nat) (m : Bool) (t : Nat) (r : DecRun)
    (hn : n - 8 * g ≤ 8 * left) (h : decodeGroups env c n nib left g m t = .ok r) : RunKeeps env (n - 8 * g) t r := by
  induction left generalizing g m t r with
  | zero =>
    cases h
    exact ⟨by simp; omega, Nat.le_refl _, .inl rfl⟩
  | succ left ih =>
    have hmain : ∀ r1 : DecRun, RunKeeps env (groupSize n g) t r1 →
        ∀ rs, decodeGroups env c n nib left (g + 1) r1.matchBit r1.ctail = .ok rs →
          RunKeeps env (n - 8 * g) t { rs with bytes := r1.bytes ++ rs.bytes } := by
      intro r1 ⟨h1, h2, h3⟩ rs hrs
      obtain ⟨k1, k2, k3⟩ := ih (g + 1) _ _ _ (by omega) hrs
      refine ⟨?_, by simp only; omega, by simp only; omega⟩
      simp only [List.length_append, h1, k1]
      unfold groupSize
      omega
    simp only [decodeGroups, bind, Except.bind] at h
    by_cases hg : hasGroup nib g = true
    · rw [if_pos hg] at h
      split at h
      · cases h
      · next r1 hr1 =>
        split at h
        · cases h
        · next rs hrs => cases h; exact hmain r1 (markedGroup_keeps _ _ _ _ _ _ hr1) rs hrs
    · rw [if_neg hg] at h
      split at h
      · cases h
      · next rs hrs =>
        cases h
        exact hmain _ ⟨by simp [absentBytes], Nat.le_refl _, .inl rfl⟩ rs hrs

theorem markedChunk_keeps (env : DecEnv) (c n : Nat) (nib : Nibble) (m : Bool) (t : Nat) (r : DecRun)
    (h : markedChunk env c n nib m t = .ok r) : RunKeeps env n t r := by
  have hg : ∀ r, decodeGroups env c n nib (groupCount n) 0 m t = .ok r → RunKeeps env n t r := fun r h => by
    have := decodeGroups_keeps env c n nib (groupCount n) 0 m t r (by have := groupCount_covers n; omega) h
    simpa using this
  simp only [markedChunk, bind, Except.bind] at h
  split at h
  · split at h
    · cases h
    · split at h
      · unfold fallbackChunk at h
        split at h
        · cases h
        · cases h; exact ⟨by simp, by simp only; omega, by simp only; omega⟩
      · exact hg r h
  · exact hg r h

theorem dec1_keeps (env : DecEnv) (n : Nat) (nib : Nibble) (w w' : DecWork) (h : dec1 env n nib w = .ok w') : DecKeeps env n w w' := by
  unfold dec1 at h
  split at h
  · cases h
  · split at h
    · next h0 => cases h; subst h0; exact DecKeeps.refl env w
    · split at h
      · cases h
      · next hb =>
        have hmain : ∀ r : DecRun, RunKeeps env n w.ctail r →
            DecKeeps env n w { bm := w.bm.writeBytes w.bcur r.bytes, bcur := w.bcur + n, ctail := r.ctail, matchBit := r.matchBit } := by
          intro r ⟨h1, h2, h3⟩
          refine ⟨fun hw => Memory.writeBytes_wf _ _ _ hw, fun hw => Memory.writeBytes_within _ _ _ _ hw (.inr (by omega)),
            fun hw a ha => ?_, rfl, .inr (by omega), h2, h3⟩
          simp only
          rw [Memory.read_writeBytes _ _ _ _ hw, if_neg (by omega)]
        simp only [bind, Except.bind] at h
        by_cases hz : nib = 0#4
        · rw [if_pos hz] at h
          cases h
          exact hmain (absentBytes n w.matchBit w.ctail) ⟨by simp [absentBytes], Nat.le_refl _, .inl rfl⟩
        · rw [if_neg hz] at h
          split at h
          · cases h
          · next r hr => cases h; exact hmain r (markedChunk_keeps _ _ _ _ _ _ _ hr)

theorem decRound_keeps (env : DecEnv) (n : Nat) (p : Byte) (w w' : DecWork) (hn : n ≤ 64) (h : decRound env n p w = .ok w') :
    DecKeeps env n w w' := by
  simp only [decRound, bind, Except.bind] at h
  split at h
  · cases h
  · next w1 h1 =>
    have := (dec1_keeps _ _ _ _ _ h1).trans (dec1_keeps _ _ _ _ _ h)
    rwa [show firstChunk n + secondChunk n = n by unfold firstChunk secondChunk; omega] at this

theorem unmaskedBlock_keeps (env : DecEnv) (unit : Nat) (child : Nat → Byte → DecWork → Except Raise DecWork) (mask : Byte)
    (hch : ∀ n v w w', n ≤ unit → child n v w = .ok w' → DecKeeps env n w w') :
    ∀ left k rem w w', Covers unit left rem → unmaskedBlock env unit child mask left k rem w = .ok w' → DecKeeps env rem w w' := by
  intro left
  induction left with
  | zero =>
    intro k rem w w' hcov h
    simp only [Covers] at hcov
    subst hcov
    cases h
    exact DecKeeps.refl env w
  | succ left ih =>
    intro k rem w w' hcov h
    have hsum : min unit rem + (rem - unit) = rem := by omega
    simp only [unmaskedBlock, bind, Except.bind] at h
    split at h
    · split at h
      · cases h
      · next v hv =>
        split at h
        · cases h
        · split at h
          · cases h
          · next w1 h1 =>
            have hk := hch _ _ _ _ (Nat.min_le_left _ _) h1
            have hlt := (cmRead_ok hv).1
            have h2 : DecKeeps env (min unit rem) w w1 :=
              ⟨hk.wf, hk.within, hk.same, hk.bcur, hk.inside, by have := hk.tail; simp only at this; omega,
                by have := hk.stream; simp only at this; omega⟩
            have := h2.trans (ih _ _ _ _ hcov.2 h)
            rwa [hsum] at this
    · split at h
      · cases h
      · next w1 h1 =>
        have := (hch _ _ _ _ (Nat.min_le_left _ _) h1).trans (ih _ _ _ _ hcov.2 h)
        rwa [hsum] at this

theorem dec2_keeps (env : DecEnv) (n : Nat) (mask : Byte) (w w' : DecWork) (h : dec2 env n mask w = .ok w') : DecKeeps env n w w' := by
  unfold dec2 at h
  split at h
  · cases h
  · exact unmaskedBlock_keeps env 64 _ mask (fun n v w w' hn h => decRound_keeps env n v w w' hn h) _ _ _ _ _ (covers_rounds n) h

theorem dec3_keeps (env : DecEnv) (n : Nat) (mask : Byte) (w w' : DecWork) (h : dec3 env n mask w = .ok w') : DecKeeps env n w w' := by
  unfold dec3 at h
  split at h
  · cases h
  · exact unmaskedBlock_keeps env 512 _ mask (fun n v w w' _ h => dec2_keeps env n v w w' h) _ _ _ _ _ (covers_blocks n) h

theorem decRegions_keeps (env : DecEnv) :
    ∀ left rem w w', Covers 4096 left rem → decRegions env left rem w = .ok w' → DecKeeps env rem w w' := by
  intro left
  induction left with
  | zero =>
    intro rem w w' hcov h
    simp only [Covers] at hcov
    subst hcov
    cases h
    exact DecKeeps.refl env w
  | succ left ih =>
    intro rem w w' hcov h
    simp only [decRegions, bind, Except.bind] at h
    split at h
    · cases h
    · next v hv =>
      split at h
      · cases h
      · next w1 h1 =>
        have hk := dec3_keeps _ _ _ _ _ h1
        have hlt := (cmRead_ok hv).1
        have h2 : DecKeeps env (min 4096 rem) w w1 :=
          ⟨hk.wf, hk.within, hk.same, hk.bcur, hk.inside, by have := hk.tail; simp only at this; omega,
            by have := hk.stream; simp only at this; omega⟩
        have := h2.trans (ih _ _ _ hcov.2 h)
        rwa [show min 4096 rem + (rem - 4096) = rem by omega] at this

end Sys2Proof.Machine
end

