-- ==== Sys2Proof/Laws/Raises.lean ====
section
/-! SUPPORT. What a unit that fails can raise, and the offset it names: that of a unit inside the bytes it was called for (R23, R108,
R109, R111). -/

namespace Sys2Proof.Machine

/-- The offset a unit over `n` bytes from offset `c` names: its own start, or a later one that its bytes before it have reached
inside a bitmap memory of `size` bytes. -/
def InUnit (size c n : Nat) (r : Raise) : Prop := c ≤ r.addr ∧ r.addr ≤ c + n ∧ (r.addr = c ∨ r.addr ≤ size)

/-- A fault of an encode unit over `n` bytes from offset `c`. -/
def EncRaise (size c n : Nat) (r : Raise) : Prop := (r.cause = .bmRange ∨ r.cause = .outOverflow) ∧ InUnit size c n r

/-- A fault of a decode unit over `n` bytes from offset `c`. -/
def DecRaise (size c n : Nat) (r : Raise) : Prop :=
  (r.cause = .bmRange ∨ r.cause = .corruptTruncated ∨ r.cause = .corruptZeroMask ∨ r.cause = .corruptMaskRange) ∧ InUnit size c n r

theorem InUnit.own (size c n : Nat) (cause : Cause) : InUnit size c n ⟨cause, c⟩ := ⟨Nat.le_refl _, Nat.le_add_right _ _, .inl rfl⟩

/-- A unit inside a larger one: `k` bytes were done before it, inside the memory if there were any. -/
theorem InUnit.widen {size c n c' n' k : Nat} {r : Raise} (h : InUnit size c n r) (hc : c = c' + k) (hk : k = 0 ∨ c' + k ≤ size)
    (hn : k + n ≤ n') : InUnit size c' n' r := by
  obtain ⟨h1, h2, h3⟩ := h
  exact ⟨by omega, by omega, by omega⟩

theorem EncRaise.widen {size c n c' n' k : Nat} {r : Raise} (h : EncRaise size c n r) (hc : c = c' + k) (hk : k = 0 ∨ c' + k ≤ size)
    (hn : k + n ≤ n') : EncRaise size c' n' r := ⟨h.1, h.2.widen hc hk hn⟩

theorem DecRaise.widen {size c n c' n' k : Nat} {r : Raise} (h : DecRaise size c n r) (hc : c = c' + k) (hk : k = 0 ∨ c' + k ≤ size)
    (hn : k + n ≤ n') : DecRaise size c' n' r := ⟨h.1, h.2.widen hc hk hn⟩

/-! ### Encode units -/

theorem enc1_raises (env : EncEnv) (n : Nat) (w : EncWork) (r : Raise) (h : enc1 env n w = .error r) :
    (r.cause = .bmRange ∨ r.cause = .outOverflow) ∧ r.addr = w.bcur ∧ 1 ≤ n := by
  unfold enc1 at h
  split at h
  · cases h
  · next h0 =>
    split at h
    · cases h; exact ⟨.inl rfl, rfl, by omega⟩
    · simp only at h
      split at h
      · cases h; exact ⟨.inr rfl, rfl, by omega⟩
      · cases h

theorem encRound_raises (env : EncEnv) (n : Nat) (w : EncWork) (r : Raise) (hn : n ≤ 64) (h : encRound env n w = .error r) :
    EncRaise env.bmSize w.bcur n r := by
  simp only [encRound, bind, Except.bind] at h
  split at h
  · next r' hx =>
    cases h
    obtain ⟨hc, ha, _⟩ := enc1_raises _ _ _ _ hx
    exact ⟨hc, by omega, by omega, .inl ha⟩
  · next x hx =>
    obtain ⟨a, w1⟩ := x
    have hk := enc1_keeps _ _ _ _ _ hx
    have hb := hk.bcur
    have hi := hk.inside
    simp only at h
    split at h
    · next r' hy =>
      cases h
      obtain ⟨hc, ha, h1⟩ := enc1_raises _ _ _ _ hy
      unfold firstChunk at hb hi
      exact ⟨hc, by omega, by omega, by omega⟩
    · cases h

theorem maskedBlock_raises (env : EncEnv) (unit : Nat) (child : Nat → EncWork → Except Raise (Byte × EncWork))
    (hk : ∀ n w v w', n ≤ unit → child n w = .ok (v, w') → EncKeeps env n w w')
    (hch : ∀ n w r, n ≤ unit → child n w = .error r → EncRaise env.bmSize w.bcur n r) :
    ∀ left k rem res w r, Covers unit left rem → maskedBlock env unit child left k rem res w = .error r → EncRaise env.bmSize w.bcur rem r := by
  intro left
  induction left with
  | zero => intro k rem res w r _ h; cases h
  | succ left ih =>
    intro k rem res w r hcov h
    obtain ⟨h1, hcov⟩ := hcov
    simp only [maskedBlock, bind, Except.bind] at h
    split at h
    · next r' hx =>
      cases h
      exact (hch _ _ _ (Nat.min_le_left _ _) hx).widen (k := 0) rfl (.inl rfl) (by omega)
    · next x hx =>
      obtain ⟨u, w1⟩ := x
      have hkp := hk _ _ _ _ (Nat.min_le_left _ _) hx
      have hb := hkp.bcur
      have hi := hkp.inside
      simp only at h hb hi
      split at h
      · exact (ih _ _ _ _ _ hcov h).widen hb hi (by omega)
      · split at h
        · cases h; exact ⟨.inr rfl, InUnit.own _ _ _ _⟩
        · exact (ih _ _ _ _ _ hcov h).widen hb hi (by omega)

theorem enc2_raises (env : EncEnv) (n : Nat) (w : EncWork) (r : Raise) (h : enc2 env n w = .error r) : EncRaise env.bmSize w.bcur n r :=
  maskedBlock_raises env 64 _ (fun n w v w' hn h => encRound_keeps env n w w' v hn h)
    (fun n w r hn h => encRound_raises env n w r hn h) _ _ _ _ _ _ (covers_rounds n) h

theorem enc3_raises (env : EncEnv) (n : Nat) (w : EncWork) (r : Raise) (h : enc3 env n w = .error r) : EncRaise env.bmSize w.bcur n r :=
  maskedBlock_raises env 512 _ (fun n w v w' _ h => enc2_keeps env n w w' v h)
    (fun n w r _ h => enc2_raises env n w r h) _ _ _ _ _ _ (covers_blocks n) h

/-- A unit whose bytes lie inside the bitmap memory never raises `BM_RANGE` (R109). -/
theorem enc1_bmRange (env : EncEnv) (n : Nat) (w : EncWork) (r : Raise) (h : enc1 env n w = .error r) (hc : r.cause = .bmRange) :
    1 ≤ n ∧ w.bcur + n > env.bmSize := by
  unfold enc1 at h
  split at h
  · cases h
  · split at h
    · next h0 hb => exact ⟨by omega, hb⟩
    · simp only at h
      split at h
      · cases h; cases hc
      · cases h

theorem encRound_bmRange (env : EncEnv) (n : Nat) (w : EncWork) (r : Raise) (h : encRound env n w = .error r)
    (hc : r.cause = .bmRange) : w.bcur + n > env.bmSize := by
  simp only [encRound, bind, Except.bind] at h
  split at h
  · next hx => cases h; have := enc1_bmRange _ _ _ _ hx hc; unfold firstChunk at this; omega
  · next x hx =>
    split at h
    · next hy =>
      cases h
      have hb := (enc1_keeps _ _ _ _ _ hx).bcur
      have := enc1_bmRange _ _ _ _ hy hc
      unfold firstChunk at hb
      unfold secondChunk at this
      omega
    · cases h

theorem maskedBlock_bmRange (env : EncEnv) (unit : Nat) (child : Nat → EncWork → Except Raise (Byte × EncWork))
    (hk : ∀ n w v w', n ≤ unit → child n w = .ok (v, w') → EncKeeps env n w w')
    (hch : ∀ n w r, n ≤ unit → child n w = .error r → r.cause = .bmRange → w.bcur + n > env.bmSize) :
    ∀ left k rem res w r, Covers unit left rem → maskedBlock env unit child left k rem res w = .error r → r.cause = .bmRange →
      w.bcur + rem > env.bmSize := by
  intro left
  induction left with
  | zero => intro k rem res w r _ h; cases h
  | succ left ih =>
    intro k rem res w r hcov h hc
    obtain ⟨h1, hcov⟩ := hcov
    simp only [maskedBlock, bind, Except.bind] at h
    split at h
    · next hx => cases h; have := hch _ _ _ (Nat.min_le_left _ _) hx hc; simp only at this; omega
    · next x hx =>
      have hb := (hk _ _ _ _ (Nat.min_le_left _ _) hx).bcur
      simp only at hb h
      split at h
      · have := ih _ _ _ _ _ hcov h hc; simp only at this; omega
      · split at h
        · cases h; cases hc
        · have := ih _ _ _ _ _ hcov h hc; simp only at this; omega

theorem enc2_bmRange (env : EncEnv) (n : Nat) (w : EncWork) (r : Raise) (h : enc2 env n w = .error r) (hc : r.cause = .bmRange) :
    w.bcur + n > env.bmSize :=
  maskedBlock_bmRange env 64 _ (fun n w v w' hn h => encRound_keeps env n w w' v hn h)
    (fun n w r _ h hc => encRound_bmRange env n w r h hc) _ _ _ _ _ _ (covers_rounds n) h hc

theorem enc3_bmRange (env : EncEnv) (n : Nat) (w : EncWork) (r : Raise) (h : enc3 env n w = .error r) (hc : r.cause = .bmRange) :
    w.bcur + n > env.bmSize :=
  maskedBlock_bmRange env 512 _ (fun n w v w' _ h => enc2_keeps env n w w' v h)
    (fun n w r _ h hc => enc2_bmRange env n w r h hc) _ _ _ _ _ _ (covers_blocks n) h hc

/-! ### Decode units -/

theorem cmRead_raises {env : DecEnv} {t c : Nat} {r : Raise} (h : cmRead env t c = .error r) :
    r = ⟨.corruptTruncated, c⟩ := by
  unfold cmRead at h
  split at h <;> cases h
  rfl

theorem decodeGroup_raises (env : DecEnv) (c : Nat) (gm : Byte) (left j : Nat) (m : Bool) (t : Nat) (r : Raise)
    (h : decodeGroup env c gm left j m t = .error r) : r = ⟨.corruptTruncated, c⟩ := by
  induction left generalizing j m t with
  | zero => cases h
  | succ left ih =>
    simp only [decodeGroup, bind, Except.bind] at h
    split at h
    · split at h
      · next hx => cases h; exact cmRead_raises hx
      · split at h
        · next hx => cases h; exact ih _ _ _ hx
        · cases h
    · split at h
      · next hx => cases h; exact ih _ _ _ hx
      · cases h

/-- The three faults a chunk can raise once its bytes are known to lie in the bitmap. -/
def ChunkRaise (c : Nat) (r : Raise) : Prop :=
  (r.cause = .corruptTruncated ∨ r.cause = .corruptZeroMask ∨ r.cause = .corruptMaskRange) ∧ r.addr = c

theorem markedGroup_raises (env : DecEnv) (c s : Nat) (m : Bool) (t : Nat) (r : Raise) (h : markedGroup env c s m t = .error r) :
    ChunkRaise c r := by
  simp only [markedGroup, bind, Except.bind] at h
  split at h
  · next hx => cases h; rw [cmRead_raises hx]; exact ⟨.inl rfl, rfl⟩
  · split at h
    · cases h; exact ⟨.inr (.inl rfl), rfl⟩
    · split at h
      · cases h; exact ⟨.inr (.inr rfl), rfl⟩
      · rw [decodeGroup_raises _ _ _ _ _ _ _ _ h]; exact ⟨.inl rfl, rfl⟩

theorem decodeGroups_raises (env : DecEnv) (c n : Nat) (nib : Nibble) (left g : Nat) (m : Bool) (t : Nat) (r : Raise)
    (h : decodeGroups env c n nib left g m t = .error r) : ChunkRaise c r := by
  induction left generalizing g m t with
  | zero => cases h
  | succ left ih =>
    simp only [decodeGroups, bind, Except.bind] at h
    by_cases hg : hasGroup nib g = true
    · rw [if_pos hg] at h
      split at h
      · next hx => cases h; exact markedGroup_raises _ _ _ _ _ _ hx
      · split at h
        · next hx => cases h; exact ih _ _ _ hx
        · cases h
    · rw [if_neg hg] at h
      split at h
      · next hx => cases h; exact ih _ _ _ hx
      · cases h

theorem markedChunk_raises (env : DecEnv) (c n : Nat) (nib : Nibble) (m : Bool) (t : Nat) (r : Raise)
    (h : markedChunk env c n nib m t = .error r) : ChunkRaise c r := by
  simp only [markedChunk, bind, Except.bind] at h
  split at h
  · split at h
    · next hx => cases h; rw [cmRead_raises hx]; exact ⟨.inl rfl, rfl⟩
    · split at h
      · unfold fallbackChunk at h
        split at h <;> cases h
        exact ⟨.inl rfl, rfl⟩
      · exact decodeGroups_raises _ _ _ _ _ _ _ _ _ h
  · exact decodeGroups_raises _ _ _ _ _ _ _ _ _ h

theorem dec1_raises (env : DecEnv) (n : Nat) (nib : Nibble) (w : DecWork) (r : Raise) (h : dec1 env n nib w = .error r) :
    DecRaise env.bmSize w.bcur n r ∧ r.addr = w.bcur := by
  unfold dec1 at h
  split at h
  · cases h; exact ⟨⟨.inr (.inr (.inr rfl)), InUnit.own _ _ _ _⟩, rfl⟩
  · split at h
    · cases h
    · split at h
      · cases h; exact ⟨⟨.inl rfl, InUnit.own _ _ _ _⟩, rfl⟩
      · simp only [bind, Except.bind] at h
        by_cases hz : nib = 0#4
        · rw [if_pos hz] at h; cases h
        · rw [if_neg hz] at h
          split at h
          · next hx =>
            cases h
            obtain ⟨hc, ha⟩ := markedChunk_raises _ _ _ _ _ _ _ hx
            refine ⟨⟨?_, by omega, by omega, .inl ha⟩, ha⟩
            rcases hc with hc | hc | hc
            · exact .inr (.inl hc)
            · exact .inr (.inr (.inl hc))
            · exact .inr (.inr (.inr hc))
          · cases h

theorem decRound_raises (env : DecEnv) (n : Nat) (p : Byte) (w : DecWork) (r : Raise) (hn : n ≤ 64) (h : decRound env n p w = .error r) :
    DecRaise env.bmSize w.bcur n r := by
  simp only [decRound, bind, Except.bind] at h
  split at h
  · next hx => cases h; exact (dec1_raises _ _ _ _ _ hx).1.widen (k := 0) rfl (.inl rfl) (by unfold firstChunk; omega)
  · next w1 hx =>
    have hk := dec1_keeps _ _ _ _ _ hx
    exact (dec1_raises _ _ _ _ _ h).1.widen hk.bcur hk.inside (by unfold firstChunk secondChunk; omega)

theorem unmaskedBlock_raises (env : DecEnv) (unit : Nat) (child : Nat → Byte → DecWork → Except Raise DecWork) (mask : Byte)
    (hk : ∀ n v w w', n ≤ unit → child n v w = .ok w' → DecKeeps env n w w')
    (hch : ∀ n v w r, n ≤ unit → child n v w = .error r → DecRaise env.bmSize w.bcur n r) :
    ∀ left k rem w r, Covers unit left rem → unmaskedBlock env unit child mask left k rem w = .error r → DecRaise env.bmSize w.bcur rem r := by
  intro left
  induction left with
  | zero => intro k rem w r _ h; cases h
  | succ left ih =>
    intro k rem w r hcov h
    obtain ⟨h1, hcov⟩ := hcov
    simp only [unmaskedBlock, bind, Except.bind] at h
    split at h
    · split at h
      · next hx => cases h; rw [cmRead_raises hx]; exact ⟨.inr (.inl rfl), InUnit.own _ _ _ _⟩
      · split at h
        · cases h; exact ⟨.inr (.inr (.inl rfl)), InUnit.own _ _ _ _⟩
        · split at h
          · next hx => cases h; exact (hch _ _ _ _ (Nat.min_le_left _ _) hx).widen (k := 0) rfl (.inl rfl) (by omega)
          · next w1 hx =>
            have hkp := hk _ _ _ _ (Nat.min_le_left _ _) hx
            exact (ih _ _ _ _ hcov h).widen hkp.bcur hkp.inside (by omega)
    · split at h
      · next hx => cases h; exact (hch _ _ _ _ (Nat.min_le_left _ _) hx).widen (k := 0) rfl (.inl rfl) (by omega)
      · next w1 hx =>
        have hkp := hk _ _ _ _ (Nat.min_le_left _ _) hx
        exact (ih _ _ _ _ hcov h).widen hkp.bcur hkp.inside (by omega)

theorem dec2_raises (env : DecEnv) (n : Nat) (mask : Byte) (w : DecWork) (r : Raise) (h : dec2 env n mask w = .error r) :
    DecRaise env.bmSize w.bcur n r := by
  unfold dec2 at h
  split at h
  · cases h; exact ⟨.inr (.inr (.inr rfl)), InUnit.own _ _ _ _⟩
  · exact unmaskedBlock_raises env 64 _ mask (fun n v w w' hn h => decRound_keeps env n v w w' hn h)
      (fun n v w r hn h => decRound_raises env n v w r hn h) _ _ _ _ _ (covers_rounds n) h

theorem dec3_raises (env : DecEnv) (n : Nat) (mask : Byte) (w : DecWork) (r : Raise) (h : dec3 env n mask w = .error r) :
    DecRaise env.bmSize w.bcur n r := by
  unfold dec3 at h
  split at h
  · cases h; exact ⟨.inr (.inr (.inr rfl)), InUnit.own _ _ _ _⟩
  · exact unmaskedBlock_raises env 512 _ mask (fun n v w w' _ h => dec2_keeps env n v w w' h)
      (fun n v w r _ h => dec2_raises env n v w r h) _ _ _ _ _ (covers_blocks n) h

theorem decRegions_raises (env : DecEnv) :
    ∀ left rem w r, Covers 4096 left rem → decRegions env left rem w = .error r → DecRaise env.bmSize w.bcur rem r := by
  intro left
  induction left with
  | zero => intro rem w r _ h; cases h
  | succ left ih =>
    intro rem w r hcov h
    obtain ⟨h1, hcov⟩ := hcov
    simp only [decRegions, bind, Except.bind] at h
    split at h
    · next hx => cases h; rw [cmRead_raises hx]; exact ⟨.inr (.inl rfl), InUnit.own _ _ _ _⟩
    · split at h
      · next hx => cases h; exact (dec3_raises _ _ _ _ _ hx).widen (k := 0) rfl (.inl rfl) (by omega)
      · next w1 hx =>
        have hkp := dec3_keeps _ _ _ _ _ hx
        exact (ih _ _ _ hcov h).widen hkp.bcur hkp.inside (by omega)

/-! ### No unit inside the bitmap raises BM_RANGE (R109) -/

theorem dec1_bmRange (env : DecEnv) (n : Nat) (nib : Nibble) (w : DecWork) (r : Raise) (h : dec1 env n nib w = .error r)
    (hc : r.cause = .bmRange) : 1 ≤ n ∧ w.bcur + n > env.bmSize := by
  unfold dec1 at h
  split at h
  · cases h; cases hc
  · split at h
    · cases h
    · next h0 =>
      split at h
      · next hb => exact ⟨by omega, hb⟩
      · simp only [bind, Except.bind] at h
        by_cases hz : nib = 0#4
        · rw [if_pos hz] at h; cases h
        · rw [if_neg hz] at h
          split at h
          · next hx =>
            cases h
            have := (markedChunk_raises _ _ _ _ _ _ _ hx).1
            simp [hc] at this
          · cases h

theorem decRound_bmRange (env : DecEnv) (n : Nat) (p : Byte) (w : DecWork) (r : Raise) (hn : n ≤ 64) (h : decRound env n p w = .error r)
    (hc : r.cause = .bmRange) : w.bcur + n > env.bmSize := by
  simp only [decRound, bind, Except.bind] at h
  split at h
  · next hx => cases h; have := (dec1_bmRange _ _ _ _ _ hx hc).2; unfold firstChunk at this; omega
  · next w1 hx =>
    have hb := (dec1_keeps _ _ _ _ _ hx).bcur
    have := (dec1_bmRange _ _ _ _ _ h hc).2
    unfold firstChunk at hb
    unfold secondChunk at this
    omega

theorem unmaskedBlock_bmRange (env : DecEnv) (unit : Nat) (child : Nat → Byte → DecWork → Except Raise DecWork) (mask : Byte)
    (hk : ∀ n v w w', n ≤ unit → child n v w = .ok w' → DecKeeps env n w w')
    (hch : ∀ n v w r, n ≤ unit → child n v w = .error r → r.cause = .bmRange → w.bcur + n > env.bmSize) :
    ∀ left k rem w r, Covers unit left rem → unmaskedBlock env unit child mask left k rem w = .error r → r.cause = .bmRange →
      w.bcur + rem > env.bmSize := by
  intro left
  induction left with
  | zero => intro k rem w r _ h; cases h
  | succ left ih =>
    intro k rem w r hcov h hc
    obtain ⟨h1, hcov⟩ := hcov
    simp only [unmaskedBlock, bind, Except.bind] at h
    split at h
    · split at h
      · next hx => cases h; rw [cmRead_raises hx] at hc; cases hc
      · split at h
        · cases h; cases hc
        · split at h
          · next hx => cases h; have := hch _ _ _ _ (Nat.min_le_left _ _) hx hc; simp only at this; omega
          · next w1 hx =>
            have hb := (hk _ _ _ _ (Nat.min_le_left _ _) hx).bcur
            simp only at hb
            have := ih _ _ _ _ hcov h hc
            omega
    · split at h
      · next hx => cases h; have := hch _ _ _ _ (Nat.min_le_left _ _) hx hc; omega
      · next w1 hx =>
        have hb := (hk _ _ _ _ (Nat.min_le_left _ _) hx).bcur
        have := ih _ _ _ _ hcov h hc
        omega

theorem dec2_bmRange (env : DecEnv) (n : Nat) (mask : Byte) (w : DecWork) (r : Raise) (h : dec2 env n mask w = .error r)
    (hc : r.cause = .bmRange) : w.bcur + n > env.bmSize := by
  unfold dec2 at h
  split at h
  · cases h; cases hc
  · exact unmaskedBlock_bmRange env 64 _ mask (fun n v w w' hn h => decRound_keeps env n v w w' hn h)
      (fun n v w r hn h hc => decRound_bmRange env n v w r hn h hc) _ _ _ _ _ (covers_rounds n) h hc

theorem dec3_bmRange (env : DecEnv) (n : Nat) (mask : Byte) (w : DecWork) (r : Raise) (h : dec3 env n mask w = .error r)
    (hc : r.cause = .bmRange) : w.bcur + n > env.bmSize := by
  unfold dec3 at h
  split at h
  · cases h; cases hc
  · exact unmaskedBlock_bmRange env 512 _ mask (fun n v w w' _ h => dec2_keeps env n v w w' h)
      (fun n v w r _ h hc => dec2_bmRange env n v w r h hc) _ _ _ _ _ (covers_blocks n) h hc

theorem decRegions_bmRange (env : DecEnv) :
    ∀ left rem w r, Covers 4096 left rem → decRegions env left rem w = .error r → r.cause = .bmRange → w.bcur + rem > env.bmSize := by
  intro left
  induction left with
  | zero => intro rem w r _ h; cases h
  | succ left ih =>
    intro rem w r hcov h hc
    obtain ⟨h1, hcov⟩ := hcov
    simp only [decRegions, bind, Except.bind] at h
    split at h
    · next hx => cases h; rw [cmRead_raises hx] at hc; cases hc
    · split at h
      · next hx => cases h; have := dec3_bmRange _ _ _ _ _ hx hc; simp only at this; omega
      · next w1 hx =>
        have hb := (dec3_keeps _ _ _ _ _ hx).bcur
        simp only at hb
        have := ih _ _ _ hcov h hc
        omega

end Sys2Proof.Machine
end

