-- ==== Sys2Proof/Laws/Decoder.lean ====
section
/-! SUPPORT. The decoder inverts the code stream (R98): a unit that reads the code of some bytes reconstructs those bytes and ends in
the encoder's run state. -/

namespace Sys2Proof.Machine

/-! ### The stream at a position -/

/-- The stream holds `bs` at offset `t`, all of it below `CLEN`. -/
def StreamAt (env : DecEnv) (t : Nat) (bs : List Byte) : Prop :=
  t + bs.length ≤ env.clen ∧ env.cm.readBytes t bs.length = bs

theorem StreamAt.append {env : DecEnv} {t : Nat} {xs ys : List Byte} (h : StreamAt env t (xs ++ ys)) :
    StreamAt env t xs ∧ StreamAt env (t + xs.length) ys := by
  obtain ⟨hl, hr⟩ := h
  rw [List.length_append] at hl hr
  rw [Memory.readBytes_append] at hr
  obtain ⟨h1, h2⟩ := List.append_inj hr (by simp)
  exact ⟨⟨by omega, h1⟩, ⟨by omega, h2⟩⟩

theorem StreamAt.cons {env : DecEnv} {t : Nat} {b : Byte} {bs : List Byte} (h : StreamAt env t (b :: bs)) (c : Nat) :
    cmRead env t c = .ok b ∧ StreamAt env (t + 1) bs := by
  have h' := StreamAt.append (xs := [b]) (ys := bs) h
  obtain ⟨⟨hl, hr⟩, h2⟩ := h'
  simp [Memory.readBytes] at hr hl
  refine ⟨?_, h2⟩
  unfold cmRead
  rw [if_neg (by omega), hr]

/-! ### One group -/

theorem decodeGroup_inverts (env : DecEnv) (c : Nat) (gm : Byte) (m : Bool) (j t : Nat) (bs : List Byte)
    (hgm : ∀ i, i < bs.length → hasChild gm (j + i) = literalAt m bs i)
    (hs : StreamAt env t (encodeGroup m j bs).lits) :
    decodeGroup env c gm bs.length j m t =
      .ok { bytes := bs, matchBit := runAfter m bs, ctail := t + (encodeGroup m j bs).lits.length } := by
  induction bs generalizing m j t with
  | nil => rfl
  | cons b bs ih =>
    have h0 := hgm 0 (by simp)
    have hrest : ∀ i, i < bs.length → hasChild gm (j + 1 + i) = literalAt (nextBit b) bs i := by
      intro i hi
      have := hgm (i + 1) (by simpa using hi)
      rwa [literalAt_succ, show j + (i + 1) = j + 1 + i by omega] at this
    simp only [literalAt_zero, Nat.add_zero] at h0
    simp only [List.length_cons, decodeGroup]
    by_cases hb : b = matchByte m
    · subst hb
      rw [encodeGroup_skip] at hs ⊢
      rw [nextBit_matchByte] at hrest
      rw [if_neg (by simp [h0]), ih m (j + 1) t hrest hs]
      simp [bind, Except.bind, nextBit_matchByte]
    · rw [encodeGroup_literal m j b bs hb] at hs ⊢
      obtain ⟨hr, hs'⟩ := hs.cons c
      rw [if_pos (by simp [h0, hb]), hr]
      simp only [bind, Except.bind]
      rw [ih (nextBit b) (j + 1) (t + 1) hrest hs']
      simp only [runAfter_cons, List.length_cons]
      rw [show ∀ x : Nat, t + 1 + x = t + (x + 1) by intro x; omega]

/-- A marked group is read back (R89). -/
theorem markedGroup_inverts (env : DecEnv) (c : Nat) (m : Bool) (t : Nat) (bs : List Byte) (h8 : bs.length ≤ 8)
    (hm : (encodeGroup m 0 bs).mask ≠ 0#8) (hs : StreamAt env t (encodeGroup m 0 bs).bytes) :
    markedGroup env c bs.length m t =
      .ok { bytes := bs, matchBit := runAfter m bs, ctail := t + (encodeGroup m 0 bs).bytes.length } := by
  unfold GroupCode.bytes at hs ⊢
  rw [if_neg hm] at hs ⊢
  obtain ⟨hr, hs'⟩ := hs.cons c
  unfold markedGroup
  rw [hr]
  simp only [bind, Except.bind]
  rw [if_neg hm, groupMaskBeyond_eq_false _ _ (fun k h1 h2 => encodeGroup_hasChild_beyond m bs k h2 h1) h8]
  simp only [Bool.false_eq_true, if_false]
  rw [decodeGroup_inverts env c _ m 0 (t + 1) bs (fun i hi => ?_) hs']
  · rw [List.length_cons, show ∀ x : Nat, t + 1 + x = t + (x + 1) by intro x; omega]
  · rw [encodeGroup_hasChild m 0 bs (0 + i) (by omega)]
    simp [hi]

/-! ### One chunk -/

theorem decodeGroups_inverts (env : DecEnv) (c n : Nat) (nib : Nibble) :
    ∀ count g m t bs, bs.length = n - 8 * g → bs.length ≤ 8 * count → g + count ≤ 4 →
      (∀ k, g ≤ k → k < 4 → hasGroup nib k = hasGroup (encodeGroups m g (groupsOf count bs)).nib k) →
      StreamAt env t (encodeGroups m g (groupsOf count bs)).stage →
      decodeGroups env c n nib count g m t =
        .ok { bytes := bs, matchBit := runAfter m bs, ctail := t + (encodeGroups m g (groupsOf count bs)).stage.length } := by
  intro count
  induction count with
  | zero =>
    intro g m t bs _ h _ _ _
    simp at h
    subst h
    rfl
  | succ count ih =>
    intro g m t bs hlen h8 hg hnib hs
    rw [encodeGroups_cons] at hs ⊢
    simp only at hs ⊢
    obtain ⟨hs1, hs2⟩ := hs.append
    have hsz : groupSize n g = (bs.take 8).length := by simp only [groupSize, List.length_take]; omega
    have htk : (bs.take 8).length ≤ 8 := by simp
    have hhere : hasGroup nib g = decide ((encodeGroup m 0 (bs.take 8)).mask ≠ 0#8) := by
      rw [hnib g (Nat.le_refl g) (by omega), encodeGroups_cons]
      simp only
      rw [hasGroup_or _ _ g (by omega), encodeGroups_hasGroup_below _ (g + 1) _ _ g (by omega) (by omega)]
      unfold GroupCode.nibBit
      split
      · next h => simp [h]
      · next h => rw [hasGroup_groupBit g g (by omega) (by omega)]; simp [h]
    have hrest := ih (g + 1) (runAfter m (bs.take 8)) (t + (encodeGroup m 0 (bs.take 8)).bytes.length) (bs.drop 8)
      (by simp; omega) (by simp; omega) (by omega)
      (by
        intro k hk hk4
        rw [hnib k (by omega) hk4, encodeGroups_cons]
        simp only
        rw [hasGroup_or _ _ k hk4]
        unfold GroupCode.nibBit
        split
        · simp
        · rw [hasGroup_groupBit g k (by omega) hk4]; simp; omega)
      hs2
    have hjoin : ∀ r : DecRun, r = { bytes := bs.take 8, matchBit := runAfter m (bs.take 8), ctail := t + (encodeGroup m 0 (bs.take 8)).bytes.length } →
        (do let rs ← decodeGroups env c n nib count (g + 1) r.matchBit r.ctail
            .ok { rs with bytes := r.bytes ++ rs.bytes }) =
          (.ok { bytes := bs, matchBit := runAfter m bs, ctail := t + ((encodeGroup m 0 (bs.take 8)).bytes ++
            (encodeGroups (runAfter m (bs.take 8)) (g + 1) (groupsOf count (bs.drop 8))).stage).length } : Except Raise DecRun) := by
      intro r hr
      subst hr
      simp only
      rw [hrest]
      simp only [bind, Except.bind, List.take_append_drop, List.length_append, Nat.add_assoc, ← runAfter_append]
    simp only [decodeGroups, hhere, decide_eq_true_eq]
    by_cases hm : (encodeGroup m 0 (bs.take 8)).mask = 0#8
    · rw [if_neg (by simp [hm])]
      have hl := (encodeGroup_mask_eq_zero m 0 (bs.take 8) (by omega)).mp hm
      obtain ⟨hrun, hra⟩ := encodeGroup_run m 0 _ hl
      refine hjoin _ ?_
      unfold absentBytes
      rw [hsz, ← hrun, hra]
      simp [GroupCode.bytes, hm]
    · rw [if_pos hm, hsz, markedGroup_inverts env c m t (bs.take 8) htk hm hs1]
      exact hjoin _ rfl

/-- The masked form of a chunk is read back. -/
theorem maskedPass_inverts (env : DecEnv) (c t : Nat) (m : Bool) (bs : List Byte) (hn : bs.length ≤ 32)
    (hs : StreamAt env t (maskedPass m bs).stage) :
    decodeGroups env c bs.length (maskedPass m bs).nib (groupCount bs.length) 0 m t =
      .ok { bytes := bs, matchBit := runAfter m bs, ctail := t + (maskedPass m bs).stage.length } :=
  decodeGroups_inverts env c bs.length _ _ 0 m t bs (by omega) (groupCount_covers _)
    (by have := groupCount_le _ hn; omega) (fun _ _ _ => rfl) hs

/-- A masked chunk with every present group marked does not begin with the marker (R58). -/
theorem maskedPass_head (m : Bool) (bs : List Byte) (h1 : 1 ≤ bs.length) (hn : bs.length ≤ 32)
    (hf : (maskedPass m bs).nib = fullNibble bs.length) : ∃ b rest, (maskedPass m bs).stage = b :: rest ∧ b ≠ 0#8 := by
  have hg0 : hasGroup (maskedPass m bs).nib 0 = true := by
    rw [hf, fullNibble_hasGroup _ 0 hn (by omega)]
    simp; unfold groupCount; omega
  obtain ⟨count, hc⟩ : ∃ count, groupCount bs.length = count + 1 := ⟨groupCount bs.length - 1, by unfold groupCount; omega⟩
  have h4 := groupCount_le _ hn
  unfold maskedPass at hg0 ⊢
  rw [hc, encodeGroups_cons] at hg0 ⊢
  simp only at hg0 ⊢
  rw [hasGroup_or _ _ 0 (by omega), encodeGroups_hasGroup_below _ 1 _ _ 0 (by omega) (by omega)] at hg0
  have hm : (encodeGroup m 0 (bs.take 8)).mask ≠ 0#8 := by
    intro h
    simp [GroupCode.nibBit, h] at hg0
  simp [GroupCode.bytes, hm]

/-- The chunk nibble marks no group the chunk does not have (R70). -/
theorem chunkCode_nib_in_range (m : Bool) (bs : List Byte) (hn : bs.length ≤ 32) :
    nibBeyond (chunkCode m bs).nib bs.length = false := by
  refine nibBeyond_eq_false _ _ (fun g hg h4 => ?_) hn
  rcases chunkCode_cases m bs with ⟨he, _⟩ | ⟨_, _, he⟩
  · rw [he]; exact encodeGroups_hasGroup_beyond m 0 _ bs g (by omega) h4
  · rw [he]; simp only; rw [fullNibble_hasGroup _ g hn h4]; simp; omega

theorem readBytes_of_streamAt {env : DecEnv} {t : Nat} {bs : List Byte} (h : StreamAt env t bs) :
    env.cm.readBytes t bs.length = bs := h.2

/-- A chunk with output is read back, in either of its forms (R89). -/
theorem markedChunk_inverts (env : DecEnv) (c t : Nat) (m : Bool) (bs : List Byte) (h1 : 1 ≤ bs.length) (hn : bs.length ≤ 32)
    (hs : StreamAt env t (chunkCode m bs).stage) :
    markedChunk env c bs.length (chunkCode m bs).nib m t =
      .ok { bytes := bs, matchBit := runAfter m bs, ctail := t + (chunkCode m bs).stage.length } := by
  rcases chunkCode_cases m bs with ⟨he, _⟩ | ⟨_, _, he⟩
  · rw [he] at hs ⊢
    have hd := maskedPass_inverts env c t m bs hn hs
    unfold markedChunk
    split
    · next hf =>
      obtain ⟨b, rest, hb, hb0⟩ := maskedPass_head m bs h1 hn hf
      rw [hb] at hs
      rw [(hs.cons c).1]
      simp only [bind, Except.bind]
      rw [if_neg hb0, hd]
    · exact hd
  · rw [he] at hs ⊢
    simp only at hs ⊢
    obtain ⟨hr, hs'⟩ := hs.cons c
    unfold markedChunk
    rw [if_pos rfl, hr]
    simp only [bind, Except.bind, if_true]
    unfold fallbackChunk
    have hl := hs'.1
    rw [if_neg (by omega)]
    simp only [readBytes_of_streamAt hs', List.length_cons]
    rw [show t + 1 + bs.length = t + (bs.length + 1) by omega]

/-- What a decode unit leaves when it has reconstructed `bs` from `k` bytes of the stream. -/
def DecWork.restore (w : DecWork) (bs : List Byte) (k : Nat) (m : Bool) : DecWork :=
  { bm := w.bm.writeBytes w.bcur bs, bcur := w.bcur + bs.length, ctail := w.ctail + k, matchBit := m }

/-- `Dec1` inverts `Enc1` (R89, R98). -/
theorem dec1_inverts (env : DecEnv) (bs : List Byte) (w : DecWork) (hn : bs.length ≤ 32) (hb : w.bcur + bs.length ≤ env.bmSize)
    (hs : StreamAt env w.ctail (chunkCode w.matchBit bs).stage) :
    dec1 env bs.length (chunkCode w.matchBit bs).nib w =
      .ok (w.restore bs (chunkCode w.matchBit bs).stage.length (runAfter w.matchBit bs)) := by
  unfold dec1
  rw [chunkCode_nib_in_range w.matchBit bs hn]
  simp only [Bool.false_eq_true, if_false]
  by_cases h0 : bs.length = 0
  · rw [if_pos h0]
    have := List.eq_nil_of_length_eq_zero h0
    subst this
    simp [DecWork.restore, Memory.writeBytes]
  · rw [if_neg h0, if_neg (by omega)]
    by_cases hz : (chunkCode w.matchBit bs).nib = 0#4
    · rw [if_pos hz]
      obtain ⟨hrun, hra⟩ := chunkCode_run w.matchBit bs hn hz
      have hst := (chunkCode_stage_nil w.matchBit bs hn).mp hz
      simp only [bind, Except.bind, absentBytes, DecWork.restore, hst, hra]
      rw [← hrun]
      rfl
    · rw [if_neg hz, markedChunk_inverts env w.bcur w.ctail w.matchBit bs (by omega) hn hs]
      rfl

/-! ### Units above the chunk -/

/-- `child` is a decode unit that inverts `code`. -/
def Inverts (env : DecEnv) (unit : Nat) (child : Nat → Byte → DecWork → Except Raise DecWork)
    (code : Bool → List Byte → UnitCode) : Prop :=
  ∀ bs w, bs.length ≤ unit → w.bcur + bs.length ≤ env.bmSize →
    let c := code w.matchBit bs
    (c.mask = 0#8 → c.bytes = []) ∧
      (StreamAt env w.ctail c.bytes → child bs.length c.mask w = .ok (w.restore bs c.bytes.length c.matchBit))

theorem DecWork.restore_restore (w : DecWork) (as bs : List Byte) (k l : Nat) (m m' : Bool) :
    (w.restore as k m).restore bs l m' = w.restore (as ++ bs) (k + l) m' := by
  simp [DecWork.restore, Memory.writeBytes_append, Nat.add_assoc]

theorem decRound_inverts (env : DecEnv) : Inverts env 64 (decRound env) roundCode := by
  intro bs w hn hb
  simp only [roundCode]
  generalize hA : chunkCode w.matchBit (bs.take 32) = a
  generalize hB : chunkCode a.matchBit (bs.drop 32) = b
  have hl1 : (bs.take 32).length = firstChunk bs.length := by simp [firstChunk]
  have hl2 : (bs.drop 32).length = secondChunk bs.length := by simp only [secondChunk, List.length_drop]; omega
  constructor
  · intro h
    obtain ⟨ha0, hb0⟩ := (pairByte_eq_zero _ _).mp h
    rw [← hA] at ha0
    rw [← hB] at hb0
    have e1 := (chunkCode_stage_nil w.matchBit (bs.take 32) (by simp)).mp ha0
    have e2 := (chunkCode_stage_nil a.matchBit (bs.drop 32) (by simp; omega)).mp hb0
    rw [hA] at e1
    rw [hB] at e2
    simp [e1, e2]
  · intro hs
    obtain ⟨hs1, hs2⟩ := hs.append
    have hra : a.matchBit = runAfter w.matchBit (bs.take 32) := by rw [← hA]; exact chunkCode_matchBit _ _
    have hrb : b.matchBit = runAfter a.matchBit (bs.drop 32) := by rw [← hB]; exact chunkCode_matchBit _ _
    have h1 := dec1_inverts env (bs.take 32) w (by simp) (by simp; omega) (by rw [hA]; exact hs1)
    rw [hA, hl1, ← hra] at h1
    have h2 := dec1_inverts env (bs.drop 32) (w.restore (bs.take 32) a.stage.length a.matchBit) (by simp; omega)
      (by simp [DecWork.restore]; omega) (by simp only [DecWork.restore]; rw [hB]; exact hs2)
    rw [show (w.restore (bs.take 32) a.stage.length a.matchBit).matchBit = a.matchBit from rfl, hB, hl2, ← hrb,
      DecWork.restore_restore, List.take_append_drop] at h2
    unfold decRound
    rw [pairHigh_pairByte, pairLow_pairByte, h1]
    simp only [bind, Except.bind]
    rw [h2, List.length_append]

theorem UnitCode.maskBit_below (c : UnitCode) (k i : Nat) (hk : k < 8) (hi : i < 8) :
    hasChild (c.maskBit k) i = (decide (k = i) && decide (c.mask ≠ 0#8)) := by
  unfold UnitCode.maskBit
  split
  · next h => simp [h]
  · next h => rw [hasChild_childBit k i hk hi]; simp [h]

/-- A unit's mask has no bit before its first child. -/
theorem childrenCode_hasChild_below (size : Nat) (child : Bool → List Byte → UnitCode) (left k : Nat) (m : Bool) (bs : List Byte)
    (i : Nat) (hk : k + left ≤ 8) (hi : i < k) : hasChild (childrenCode size child left k m bs).mask i = false := by
  induction left generalizing k m bs with
  | zero => simp [childrenCode]
  | succ left ih =>
    simp only [childrenCode]
    rw [hasChild_or _ _ i (by omega), UnitCode.maskBit_below _ _ _ (by omega) (by omega), ih _ _ _ (by omega) (by omega)]
    simp; omega

/-- A unit's mask has no bit for a child it does not have (R53, R54). -/
theorem childrenCode_hasChild_beyond (size : Nat) (child : Bool → List Byte → UnitCode) (left k : Nat) (m : Bool) (bs : List Byte)
    (i : Nat) (hi : k + left ≤ i) (h8 : i < 8) : hasChild (childrenCode size child left k m bs).mask i = false := by
  induction left generalizing k m bs with
  | zero => simp [childrenCode]
  | succ left ih =>
    simp only [childrenCode]
    rw [hasChild_or _ _ i h8, UnitCode.maskBit_below _ _ _ (by omega) (by omega), ih _ _ _ (by omega)]
    simp; omega

/-- The inverse of the masked block routine (R91, R92). -/
theorem unmaskedBlock_inverts (env : DecEnv) (unit : Nat) (child : Nat → Byte → DecWork → Except Raise DecWork)
    (code : Bool → List Byte → UnitCode) (hch : Inverts env unit child code) (mask : Byte) :
    ∀ left k bs w, Covers unit left bs.length → k + left ≤ 8 → w.bcur + bs.length ≤ env.bmSize →
      let c := childrenCode unit code left k w.matchBit bs
      (∀ i, k ≤ i → i < 8 → hasChild mask i = hasChild c.mask i) → StreamAt env w.ctail c.bytes →
      unmaskedBlock env unit child mask left k bs.length w = .ok (w.restore bs c.bytes.length c.matchBit) := by
  intro left
  induction left with
  | zero =>
    intro k bs w hcov _ _ c _ _
    have hz : bs = [] := List.eq_nil_of_length_eq_zero hcov
    subst hz
    rfl
  | succ left ih =>
    intro k bs w hcov hk hb c hmask hs
    obtain ⟨h1, hcov⟩ := hcov
    simp only [c, childrenCode] at hmask hs ⊢
    have htl : (bs.take unit).length = min unit bs.length := List.length_take ..
    have hdl : (bs.drop unit).length = bs.length - unit := List.length_drop ..
    obtain ⟨hs1, hs2⟩ := hs.append
    generalize hC : code w.matchBit (bs.take unit) = d at hmask hs1 hs2 ⊢
    have hhere : hasChild mask k = decide (d.mask ≠ 0#8) := by
      rw [hmask k (Nat.le_refl k) (by omega), hasChild_or _ _ k (by omega), UnitCode.maskBit_below _ _ _ (by omega) (by omega),
        childrenCode_hasChild_below _ _ _ _ _ _ k (by omega) (by omega)]
      simp
    have hrest : ∀ i, k + 1 ≤ i → i < 8 →
        hasChild mask i = hasChild (childrenCode unit code left (k + 1) d.matchBit (bs.drop unit)).mask i := by
      intro i hi h8
      rw [hmask i (by omega) h8, hasChild_or _ _ i h8, UnitCode.maskBit_below _ _ _ (by omega) h8]
      simp [show k ≠ i by omega]
    obtain ⟨hzero, hok⟩ := hch (bs.take unit) w (by omega) (by omega)
    simp only [unmaskedBlock, hhere, decide_eq_true_eq]
    have hfin : ∀ l, l = d.inParent.length →
        unmaskedBlock env unit child mask left (k + 1) (bs.length - unit) (w.restore (bs.take unit) l d.matchBit) =
          .ok (w.restore bs (d.inParent ++ (childrenCode unit code left (k + 1) d.matchBit (bs.drop unit)).bytes).length
            (childrenCode unit code left (k + 1) d.matchBit (bs.drop unit)).matchBit) := by
      intro l hl
      have := ih (k + 1) (bs.drop unit) (w.restore (bs.take unit) l d.matchBit) (by rw [hdl]; exact hcov) (by omega)
        (by simp only [DecWork.restore, htl, hdl]; omega) hrest (by simp only [DecWork.restore, hl]; exact hs2)
      rw [hdl] at this
      rw [this, DecWork.restore_restore, List.take_append_drop, List.length_append, hl]
      rfl
    by_cases hm : d.mask = 0#8
    · rw [if_neg (by simp [hm])]
      have hin : d.inParent = [] := by simp [UnitCode.inParent, hm]
      have hbytes : d.bytes = [] := by rw [hC] at hzero; exact hzero hm
      have hdo := hok (by rw [hC, hbytes]; exact ⟨by simpa [hin] using hs1.1, rfl⟩)
      rw [hC, hm, htl, hbytes] at hdo
      rw [hdo]
      exact hfin 0 (by simp [hin])
    · rw [if_pos hm]
      have hin : d.inParent = d.mask :: d.bytes := by simp [UnitCode.inParent, hm]
      rw [hin] at hs1
      obtain ⟨hr, hs1'⟩ := hs1.cons w.bcur
      rw [hr]
      simp only [bind, Except.bind]
      rw [if_neg hm]
      have hdo := (hch (bs.take unit) { w with ctail := w.ctail + 1 } (by omega) (by simp only; omega)).2
        (by simp only; rw [hC]; exact hs1')
      simp only at hdo
      rw [hC, htl] at hdo
      rw [hdo]
      have hw : ({ w with ctail := w.ctail + 1 } : DecWork).restore (bs.take unit) d.bytes.length d.matchBit =
          w.restore (bs.take unit) d.inParent.length d.matchBit := by
        simp [DecWork.restore, hin, Nat.add_assoc, Nat.add_comm 1]
      simp only [hw]
      exact hfin _ rfl

theorem childrenCode_maskBeyond (size : Nat) (child : Bool → List Byte → UnitCode) (left : Nat) (m : Bool) (bs : List Byte)
    (h : left ≤ 8) : maskBeyond (childrenCode size child left 0 m bs).mask left = false :=
  maskBeyond_eq_false _ _ (fun i hi h8 => childrenCode_hasChild_beyond _ _ _ _ _ _ i (by omega) h8) h

/-- `Dec2` inverts `Enc2` (R91, R98). -/
theorem dec2_inverts (env : DecEnv) : Inverts env 512 (dec2 env) blockCode := by
  intro bs w hn hb
  have h8 := roundCount_le bs.length hn
  refine ⟨fun h => childrenCode_bytes_nil _ _ _ _ _ _ (by omega) h, fun hs => ?_⟩
  unfold dec2
  rw [show (blockCode w.matchBit bs).mask = (childrenCode 64 roundCode (roundCount bs.length) 0 w.matchBit bs).mask from rfl,
    childrenCode_maskBeyond _ _ _ _ _ h8]
  exact unmaskedBlock_inverts env 64 (decRound env) roundCode (decRound_inverts env) _ _ 0 bs w (covers_rounds _)
    (by omega) hb (fun _ _ _ => rfl) hs

/-- `Dec3` inverts `Enc3` (R92, R98). -/
theorem dec3_inverts (env : DecEnv) : Inverts env 4096 (dec3 env) regionCode := by
  intro bs w hn hb
  have h8 := blockCount_le bs.length hn
  refine ⟨fun h => childrenCode_bytes_nil _ _ _ _ _ _ (by omega) h, fun hs => ?_⟩
  unfold dec3
  rw [show (regionCode w.matchBit bs).mask = (childrenCode 512 blockCode (blockCount bs.length) 0 w.matchBit bs).mask from rfl,
    childrenCode_maskBeyond _ _ _ _ _ h8]
  exact unmaskedBlock_inverts env 512 (dec2 env) blockCode (dec2_inverts env) _ _ 0 bs w (covers_blocks _)
    (by omega) hb (fun _ _ _ => rfl) hs

/-- The region loop of `DECODE` inverts that of `ENCODE` (R95, R98). -/
theorem decRegions_inverts (env : DecEnv) :
    ∀ left bs w, Covers 4096 left bs.length → w.bcur + bs.length ≤ env.bmSize →
      let c := regionsCode left w.matchBit bs
      StreamAt env w.ctail c.bytes → decRegions env left bs.length w = .ok (w.restore bs c.bytes.length c.matchBit) := by
  intro left
  induction left with
  | zero =>
    intro bs w hcov _ c _
    have hz : bs = [] := List.eq_nil_of_length_eq_zero hcov
    subst hz
    rfl
  | succ left ih =>
    intro bs w hcov hb c hs
    obtain ⟨h1, hcov⟩ := hcov
    simp only [c, regionsCode] at hs ⊢
    have htl : (bs.take 4096).length = min 4096 bs.length := List.length_take ..
    have hdl : (bs.drop 4096).length = bs.length - 4096 := List.length_drop ..
    generalize hC : regionCode w.matchBit (bs.take 4096) = d at hs ⊢
    obtain ⟨hr, hs'⟩ := hs.cons w.bcur
    obtain ⟨hs1, hs2⟩ := hs'.append
    have hdo := (dec3_inverts env (bs.take 4096) { w with ctail := w.ctail + 1 } (by omega) (by simp only; omega)).2
      (by simp only; rw [hC]; exact hs1)
    simp only at hdo
    rw [hC, htl] at hdo
    simp only [decRegions, hr, bind, Except.bind, hdo]
    have := ih (bs.drop 4096) (({ w with ctail := w.ctail + 1 } : DecWork).restore (bs.take 4096) d.bytes.length d.matchBit)
      (by rw [hdl]; exact hcov) (by simp only [DecWork.restore, htl, hdl]; omega) (by simpa only [DecWork.restore] using hs2)
    rw [hdl] at this
    rw [this, DecWork.restore_restore, List.take_append_drop]
    simp [DecWork.restore, Nat.add_assoc, Nat.add_comm 1]

end Sys2Proof.Machine
end

