-- ==== Sys2Proof/Laws/Stream.lean ====
section
/-! SUPPORT. The code stream as a function: the run state it ends in, and that a unit has no output exactly when its bytes are the run
(R69, R71, R83). -/

namespace Sys2Proof.Machine

/-! ### The run state after a unit -/

theorem roundCode_matchBit (m : Bool) (bs : List Byte) : (roundCode m bs).matchBit = runAfter m bs := by
  simp only [roundCode, chunkCode_matchBit]
  rw [← runAfter_append, List.take_append_drop]

theorem childrenCode_matchBit (size : Nat) (child : Bool → List Byte → UnitCode)
    (hch : ∀ m bs, (child m bs).matchBit = runAfter m bs) (left k : Nat) (m : Bool) (bs : List Byte)
    (hcov : Covers size left bs.length) : (childrenCode size child left k m bs).matchBit = runAfter m bs := by
  induction left generalizing k m bs with
  | zero => rw [List.eq_nil_of_length_eq_zero hcov]; rfl
  | succ left ih =>
    simp only [childrenCode]
    rw [ih _ _ _ (by rw [List.length_drop]; exact hcov.2), hch, ← runAfter_append, List.take_append_drop]

theorem blockCode_matchBit (m : Bool) (bs : List Byte) : (blockCode m bs).matchBit = runAfter m bs :=
  childrenCode_matchBit 64 roundCode roundCode_matchBit _ 0 m bs (covers_rounds _)

theorem regionCode_matchBit (m : Bool) (bs : List Byte) : (regionCode m bs).matchBit = runAfter m bs :=
  childrenCode_matchBit 512 blockCode blockCode_matchBit _ 0 m bs (covers_blocks _)

theorem regionsCode_matchBit (left : Nat) (m : Bool) (bs : List Byte) (hcov : Covers 4096 left bs.length) :
    (regionsCode left m bs).matchBit = runAfter m bs := by
  induction left generalizing m bs with
  | zero => rw [List.eq_nil_of_length_eq_zero hcov]; rfl
  | succ left ih =>
    simp only [regionsCode]
    rw [ih _ _ (by rw [List.length_drop]; exact hcov.2), regionCode_matchBit, ← runAfter_append, List.take_append_drop]

/-- The run state after a whole buffer is `Next` of its last byte (R69). -/
theorem bufferCode_matchBit (bs : List Byte) : (bufferCode bs).matchBit = runAfter false bs :=
  regionsCode_matchBit _ _ bs (covers_regions _)

/-! ### Runs -/

/-- Every byte of `bs` is the run state. -/
abbrev IsRun (m : Bool) (bs : List Byte) : Prop := ∀ b ∈ bs, b = matchByte m

theorem isRun_iff_replicate (m : Bool) (bs : List Byte) : IsRun m bs ↔ bs = List.replicate bs.length (matchByte m) :=
  ⟨fun h => List.eq_replicate_of_mem h, fun h b hb => by rw [h] at hb; exact List.eq_of_mem_replicate hb⟩

theorem runAfter_of_isRun (m : Bool) (bs : List Byte) (h : IsRun m bs) : runAfter m bs = m := by
  induction bs with
  | nil => rfl
  | cons b bs ih =>
    rw [runAfter_cons, h b (by simp), nextBit_matchByte]
    exact ih (fun c hc => h c (by simp [hc]))

theorem isRun_split (m : Bool) (bs : List Byte) (k : Nat) : IsRun m bs ↔ IsRun m (bs.take k) ∧ IsRun m (bs.drop k) := by
  conv => lhs; rw [← List.take_append_drop k bs]
  simp only [IsRun, List.mem_append, or_imp, forall_and]

/-- No byte of a run is a literal, and bytes of which none is a literal are a run (R69). -/
theorem isRun_iff_no_literal (m : Bool) (bs : List Byte) : IsRun m bs ↔ ∀ i, i < bs.length → literalAt m bs i = false := by
  induction bs generalizing m with
  | nil => simp [IsRun]
  | cons b bs ih =>
    constructor
    · intro h i hi
      have hb := h b (by simp)
      cases i with
      | zero => simp [hb]
      | succ i =>
        rw [literalAt_succ, hb, nextBit_matchByte]
        exact (ih m).mp (fun c hc => h c (by simp [hc])) i (by simpa using hi)
    · intro h
      have hb : b = matchByte m := by simpa using h 0 (by simp)
      have := (ih m).mpr (fun i hi => by
        have := h (i + 1) (by simpa using hi)
        rwa [literalAt_succ, hb, nextBit_matchByte] at this)
      intro c hc
      rcases List.mem_cons.mp hc with rfl | hc
      · exact hb
      · exact this c hc

theorem encodeGroup_of_isRun (m : Bool) (j : Nat) (bs : List Byte) (h : IsRun m bs) : (encodeGroup m j bs).mask = 0#8 := by
  induction bs generalizing j with
  | nil => rfl
  | cons b bs ih =>
    have hb := h b (by simp)
    subst hb
    rw [encodeGroup_skip]
    exact ih (j + 1) (fun c hc => h c (by simp [hc]))

theorem encodeGroups_of_isRun (m : Bool) (g count : Nat) (bs : List Byte) (h : IsRun m bs) :
    (encodeGroups m g (groupsOf count bs)).nib = 0#4 := by
  induction count generalizing g bs with
  | zero => rfl
  | succ count ih =>
    obtain ⟨h1, h2⟩ := (isRun_split m bs 8).mp h
    rw [encodeGroups_cons, runAfter_of_isRun m _ h1]
    simp only
    rw [ih (g + 1) _ h2]
    simp [GroupCode.nibBit, encodeGroup_of_isRun m 0 _ h1]

/-- A chunk is free exactly when it is the run (R68, R71). -/
theorem chunkCode_nib_eq_zero (m : Bool) (bs : List Byte) (hn : bs.length ≤ 32) : (chunkCode m bs).nib = 0#4 ↔ IsRun m bs := by
  constructor
  · intro h; exact (isRun_iff_replicate m bs).mpr (chunkCode_run m bs hn h).1
  · intro h
    have h0 : (maskedPass m bs).nib = 0#4 := encodeGroups_of_isRun m 0 _ bs h
    rcases chunkCode_cases m bs with ⟨he, _⟩ | ⟨hne, _⟩
    · rw [he]; exact h0
    · exact absurd h0 hne

theorem roundCode_mask_eq_zero (m : Bool) (bs : List Byte) (hn : bs.length ≤ 64) : (roundCode m bs).mask = 0#8 ↔ IsRun m bs := by
  simp only [roundCode, pairByte_eq_zero, chunkCode_matchBit]
  rw [chunkCode_nib_eq_zero m _ (by simp), chunkCode_nib_eq_zero _ _ (by simp; omega), isRun_split m bs 32]
  refine and_congr_right (fun h => ?_)
  rw [runAfter_of_isRun m _ h]

theorem UnitCode.maskBit_eq_zero (c : UnitCode) (k : Nat) (hk : k < 8) : c.maskBit k = 0#8 ↔ c.mask = 0#8 := by
  unfold UnitCode.maskBit
  split
  · simp_all
  · simp_all [childBit_ne_zero k hk]

theorem childrenCode_mask_eq_zero (size : Nat) (child : Bool → List Byte → UnitCode)
    (hmb : ∀ m bs, (child m bs).matchBit = runAfter m bs)
    (hch : ∀ m bs, bs.length ≤ size → ((child m bs).mask = 0#8 ↔ IsRun m bs)) (left k : Nat) (m : Bool) (bs : List Byte)
    (hcov : Covers size left bs.length) (hk : k + left ≤ 8) :
    (childrenCode size child left k m bs).mask = 0#8 ↔ IsRun m bs := by
  induction left generalizing k m bs with
  | zero => rw [List.eq_nil_of_length_eq_zero hcov]; simp [childrenCode, IsRun]
  | succ left ih =>
    simp only [childrenCode]
    rw [byte_or_eq_zero, UnitCode.maskBit_eq_zero _ _ (by omega), hch _ _ (by simp), isRun_split m bs size, hmb]
    refine and_congr_right (fun h => ?_)
    rw [runAfter_of_isRun m _ h, ih _ _ _ (by rw [List.length_drop]; exact hcov.2) (by omega)]

theorem blockCode_mask_eq_zero (m : Bool) (bs : List Byte) (hn : bs.length ≤ 512) : (blockCode m bs).mask = 0#8 ↔ IsRun m bs :=
  childrenCode_mask_eq_zero 64 roundCode roundCode_matchBit roundCode_mask_eq_zero _ 0 m bs (covers_rounds _)
    (by have := roundCount_le _ hn; omega)

theorem regionCode_mask_eq_zero (m : Bool) (bs : List Byte) (hn : bs.length ≤ 4096) : (regionCode m bs).mask = 0#8 ↔ IsRun m bs :=
  childrenCode_mask_eq_zero 512 blockCode blockCode_matchBit blockCode_mask_eq_zero _ 0 m bs (covers_blocks _)
    (by have := blockCount_le _ hn; omega)

theorem regionsCode_mask_eq_zero (left : Nat) (m : Bool) (bs : List Byte) (hcov : Covers 4096 left bs.length) :
    (regionsCode left m bs).mask = 0#8 ↔ IsRun m bs := by
  induction left generalizing m bs with
  | zero => rw [List.eq_nil_of_length_eq_zero hcov]; simp [regionsCode, IsRun]
  | succ left ih =>
    simp only [regionsCode]
    rw [byte_or_eq_zero, regionCode_mask_eq_zero _ _ (by simp), isRun_split m bs 4096, regionCode_matchBit]
    refine and_congr_right (fun h => ?_)
    rw [runAfter_of_isRun m _ h, ih _ _ (by rw [List.length_drop]; exact hcov.2)]

/-- A buffer collapses exactly when every byte is `0x00` (R83). -/
theorem bufferCode_mask_eq_zero (bs : List Byte) : (bufferCode bs).mask = 0#8 ↔ ∀ b ∈ bs, b = 0#8 :=
  regionsCode_mask_eq_zero _ false bs (covers_regions _)

end Sys2Proof.Machine
end

