-- ==== Sys2Proof/Laws/LastChunk.lean ====
section
/-! SUPPORT. Run state and byte-presence vector after an encode unit that succeeds, on ANY input (R25, R69, R77). -/

namespace Sys2Proof.Machine

/-- After an encode unit over `n` bytes: the run state is that of the bytes, the presence vector that of the last chunk. -/
def RunsOver (env : EncEnv) (n : Nat) (w w' : EncWork) : Prop :=
  let bs := env.bm.readBytes w.bcur n
  w'.matchBit = runAfter w.matchBit bs ∧ w'.l1mask = lastVector w.l1mask w.matchBit bs

theorem lastVector_nil (old : Word) (m : Bool) : lastVector old m [] = old := rfl

theorem lastVector_short (old : Word) (m : Bool) (bs : List Byte) (h1 : bs ≠ []) (h : bs.length ≤ 32) :
    lastVector old m bs = (maskedPass m bs).vec := by
  have hp := List.length_pos_iff.mpr h1
  have h0 : lastChunkStart bs.length = 0 := by unfold lastChunkStart; omega
  simp [lastVector, h1, h0]

theorem lastVector_append (old : Word) (m : Bool) (as bs : List Byte) (q : Nat) (ha : as.length = 32 * q) :
    lastVector old m (as ++ bs) = lastVector (lastVector old m as) (runAfter m as) bs := by
  by_cases hb : bs = []
  · subst hb; simp [lastVector_nil]
  · have hp := List.length_pos_iff.mpr hb
    have hk : lastChunkStart (as ++ bs).length = as.length + lastChunkStart bs.length := by
      simp only [lastChunkStart, List.length_append]; omega
    have hab : as ++ bs ≠ [] := by simp [hb]
    simp only [lastVector, hk, if_neg hb, if_neg hab]
    rw [List.take_length_add_append, List.drop_length_add_append, runAfter_append]

theorem RunsOver.refl (env : EncEnv) (w : EncWork) : RunsOver env 0 w w := ⟨rfl, rfl⟩

/-- One unit after another, the first one of whole chunks unless the second one is empty. -/
theorem RunsOver.trans {env : EncEnv} {n k : Nat} {w w1 w2 : EncWork} (hb : w1.bcur = w.bcur + n)
    (hq : k = 0 ∨ ∃ q, n = 32 * q) (h : RunsOver env n w w1) (h' : RunsOver env k w1 w2) : RunsOver env (n + k) w w2 := by
  obtain ⟨h1, h2⟩ := h
  obtain ⟨h3, h4⟩ := h'
  rw [hb] at h3 h4
  unfold RunsOver
  rw [Memory.readBytes_append]
  refine ⟨by rw [h3, h1, runAfter_append], ?_⟩
  rcases hq with rfl | ⟨q, hq⟩
  · rw [h4, h2]; simp [Memory.readBytes, lastVector_nil]
  · rw [h4, h2, h1, lastVector_append _ _ _ _ q (by simp [hq])]

theorem enc1_runsOver (env : EncEnv) (n : Nat) (w w' : EncWork) (v : Nibble) (hn : n ≤ 32) (h : enc1 env n w = .ok (v, w')) :
    RunsOver env n w w' := by
  unfold enc1 at h
  split at h
  · next h0 => cases h; subst h0; exact RunsOver.refl env w
  · next h0 =>
    split at h
    · cases h
    · simp only at h
      split at h
      · cases h
      · cases h
        have hv : (chunkCode w.matchBit (env.bm.readBytes w.bcur n)).vec = (maskedPass w.matchBit (env.bm.readBytes w.bcur n)).vec := by
          rcases chunkCode_cases w.matchBit (env.bm.readBytes w.bcur n) with ⟨he, _⟩ | ⟨_, _, he⟩ <;> rw [he]
        refine ⟨chunkCode_matchBit _ _, ?_⟩
        rw [lastVector_short _ _ _ (by intro hc; have := congrArg List.length hc; simp at this; omega) (by simpa using hn)]
        exact hv

theorem encRound_runsOver (env : EncEnv) (n : Nat) (w w' : EncWork) (v : Byte) (hn : n ≤ 64) (h : encRound env n w = .ok (v, w')) :
    RunsOver env n w w' := by
  simp only [encRound, bind, Except.bind] at h
  split at h
  · cases h
  · next x hx =>
    obtain ⟨a, w1⟩ := x
    simp only at h
    split at h
    · cases h
    · next y hy =>
      obtain ⟨b, w2⟩ := y
      cases h
      have h1 := enc1_runsOver env _ _ _ _ (by unfold firstChunk; omega) hx
      have h2 := enc1_runsOver env _ _ _ _ (by unfold secondChunk; omega) hy
      have := RunsOver.trans (enc1_keeps env _ _ _ _ hx).bcur (by
        by_cases hs : n ≤ 32
        · left; unfold secondChunk; omega
        · right; exact ⟨1, by unfold firstChunk; omega⟩) h1 h2
      rwa [show firstChunk n + secondChunk n = n by unfold firstChunk secondChunk; omega] at this

theorem maskedBlock_runsOver (env : EncEnv) (unit q : Nat) (hu : unit = 32 * q) (child : Nat → EncWork → Except Raise (Byte × EncWork))
    (hk : ∀ n w v w', n ≤ unit → child n w = .ok (v, w') → EncKeeps env n w w')
    (hch : ∀ n w v w', n ≤ unit → child n w = .ok (v, w') → RunsOver env n w w') :
    ∀ left k rem res w v w', Covers unit left rem → maskedBlock env unit child left k rem res w = .ok (v, w') →
      RunsOver env rem w w' := by
  intro left
  induction left with
  | zero =>
    intro k rem res w v w' hcov h
    simp only [Covers] at hcov
    subst hcov
    cases h
    exact RunsOver.refl env w
  | succ left ih =>
    intro k rem res w v w' hcov h
    obtain ⟨h1, hcov⟩ := hcov
    simp only [maskedBlock, bind, Except.bind] at h
    have hq : rem - unit = 0 ∨ ∃ q, min unit rem = 32 * q := by
      by_cases hr : rem ≤ unit
      · left; omega
      · right; exact ⟨q, by omega⟩
    have hsum : min unit rem + (rem - unit) = rem := by omega
    split at h
    · cases h
    · next x hx =>
      obtain ⟨u, w1⟩ := x
      have hb := (hk _ _ _ _ (Nat.min_le_left _ _) hx).bcur
      have hr := hch _ _ _ _ (Nat.min_le_left _ _) hx
      simp only at h
      split at h
      · have := RunsOver.trans (w := w) (w1 := { w1 with ctail := w.ctail }) hb hq hr (ih _ _ _ _ _ _ hcov h)
        rwa [hsum] at this
      · split at h
        · cases h
        · have := RunsOver.trans (w := w) (w1 := { w1 with cm := w1.cm.write w.ctail u }) hb hq hr (ih _ _ _ _ _ _ hcov h)
          rwa [hsum] at this

theorem enc2_runsOver (env : EncEnv) (n : Nat) (w w' : EncWork) (v : Byte) (h : enc2 env n w = .ok (v, w')) : RunsOver env n w w' :=
  maskedBlock_runsOver env 64 2 rfl _ (fun n w v w' hn h => encRound_keeps env n w w' v hn h)
    (fun n w v w' hn h => encRound_runsOver env n w w' v hn h) _ _ _ _ _ _ _ (covers_rounds n) h

theorem enc3_runsOver (env : EncEnv) (n : Nat) (w w' : EncWork) (v : Byte) (h : enc3 env n w = .ok (v, w')) : RunsOver env n w w' :=
  maskedBlock_runsOver env 512 16 rfl _ (fun n w v w' _ h => enc2_keeps env n w w' v h)
    (fun n w v w' _ h => enc2_runsOver env n w w' v h) _ _ _ _ _ _ _ (covers_blocks n) h

theorem encRegions_runsOver (env : EncEnv) :
    ∀ left rem any w v w', Covers 4096 left rem → encRegions env left rem any w = .ok (v, w') → RunsOver env rem w w' := by
  intro left
  induction left with
  | zero =>
    intro rem any w v w' hcov h
    simp only [Covers] at hcov
    subst hcov
    cases h
    exact RunsOver.refl env w
  | succ left ih =>
    intro rem any w v w' hcov h
    obtain ⟨h1, hcov⟩ := hcov
    simp only [encRegions, bind, Except.bind] at h
    split at h
    · cases h
    · next x hx =>
      obtain ⟨u, w1⟩ := x
      have hb := (enc3_keeps _ _ _ _ _ hx).bcur
      have hr := enc3_runsOver _ _ _ _ _ hx
      simp only at h
      split at h
      · cases h
      · have := RunsOver.trans (w := w) (w1 := { w1 with cm := w1.cm.write w.ctail u }) hb (by
          by_cases hr : rem ≤ 4096
          · left; omega
          · right; exact ⟨128, by omega⟩) hr (ih _ _ _ _ _ hcov h)
        rwa [show min 4096 rem + (rem - 4096) = rem by omega] at this

end Sys2Proof.Machine
end

