-- ==== Sys2Proof/Laws/Room.lean ====
section
/-! SUPPORT. More room in the code memory changes nothing of an encode unit that succeeds; so every unit that succeeds, however little
room it had, has emitted exactly its code (R40, R74, R75). -/

namespace Sys2Proof.Machine

/-- The same environment with a code memory of `size` bytes. -/
def EncEnv.withRoom (env : EncEnv) (size : Nat) : EncEnv := { env with cmSize := size }

theorem enc1_room (env : EncEnv) (size n : Nat) (w : EncWork) (x : Nibble × EncWork) (hs : env.cmSize ≤ size)
    (h : enc1 env n w = .ok x) : enc1 (env.withRoom size) n w = .ok x := by
  unfold enc1 at h ⊢
  by_cases h0 : n = 0
  · rw [if_pos h0] at h ⊢; exact h
  · rw [if_neg h0] at h ⊢
    by_cases hb : w.bcur + n > env.bmSize
    · rw [if_pos hb] at h; cases h
    · rw [if_neg hb] at h
      rw [if_neg (show ¬ w.bcur + n > (env.withRoom size).bmSize from hb)]
      simp only at h ⊢
      split at h
      · cases h
      · next hc =>
        rw [if_neg (show ¬ w.ctail + (chunkCode w.matchBit ((env.withRoom size).bm.readBytes w.bcur n)).stage.length >
          (env.withRoom size).cmSize from fun hgt => hc (Nat.lt_of_le_of_lt hs hgt))]
        exact h

theorem encRound_room (env : EncEnv) (size n : Nat) (w : EncWork) (x : Byte × EncWork) (hs : env.cmSize ≤ size)
    (h : encRound env n w = .ok x) : encRound (env.withRoom size) n w = .ok x := by
  simp only [encRound, bind, Except.bind] at h ⊢
  split at h
  · cases h
  · next y hy =>
    rw [enc1_room env size _ _ _ hs hy]
    simp only at h ⊢
    split at h
    · cases h
    · next z hz => rw [enc1_room env size _ _ _ hs hz]; exact h

theorem maskedBlock_room (env : EncEnv) (size unit : Nat) (child child' : Nat → EncWork → Except Raise (Byte × EncWork))
    (hs : env.cmSize ≤ size) (hch : ∀ n w x, child n w = .ok x → child' n w = .ok x) :
    ∀ left k rem res w x, maskedBlock env unit child left k rem res w = .ok x →
      maskedBlock (env.withRoom size) unit child' left k rem res w = .ok x := by
  intro left
  induction left with
  | zero => intro k rem res w x h; exact h
  | succ left ih =>
    intro k rem res w x h
    simp only [maskedBlock, bind, Except.bind] at h ⊢
    split at h
    · cases h
    · next y hy =>
      rw [hch _ _ _ hy]
      simp only at h ⊢
      split at h
      · next hu => rw [if_pos hu]; exact ih _ _ _ _ _ h
      · next hu =>
        rw [if_neg hu]
        split at h
        · cases h
        · next hc =>
          rw [if_neg (show ¬ w.ctail ≥ (env.withRoom size).cmSize from fun hge => hc (Nat.le_trans hs hge))]
          exact ih _ _ _ _ _ h

theorem enc2_room (env : EncEnv) (size n : Nat) (w : EncWork) (x : Byte × EncWork) (hs : env.cmSize ≤ size)
    (h : enc2 env n w = .ok x) : enc2 (env.withRoom size) n w = .ok x :=
  maskedBlock_room env size 64 _ _ hs (fun n w x h => encRound_room env size n w x hs h) _ _ _ _ _ _ h

theorem enc3_room (env : EncEnv) (size n : Nat) (w : EncWork) (x : Byte × EncWork) (hs : env.cmSize ≤ size)
    (h : enc3 env n w = .ok x) : enc3 (env.withRoom size) n w = .ok x :=
  maskedBlock_room env size 512 _ _ hs (fun n w x h => enc2_room env size n w x hs h) _ _ _ _ _ _ h

/-- A chunk that is encoded has emitted the chunk encoding. -/
theorem enc1_emits (env : EncEnv) (n : Nat) (w w' : EncWork) (v : Nibble) (h1 : 1 ≤ n) (h : enc1 env n w = .ok (v, w')) :
    let c := chunkCode w.matchBit (env.bm.readBytes w.bcur n)
    v = c.nib ∧ w' = w.emit n c.stage c.matchBit w'.l1mask := by
  have hb : w.bcur + n ≤ env.bmSize := by have := (enc1_keeps _ _ _ _ _ h).inside; omega
  rw [enc1_eq env n w h1 hb] at h
  simp only at h ⊢
  split at h
  · cases h
  · cases h; exact ⟨rfl, rfl⟩

/-- A block that is encoded has emitted the block encoding. -/
theorem enc2_emits (env : EncEnv) (n : Nat) (w w' : EncWork) (v : Byte) (h1 : 1 ≤ n) (hn : n ≤ 512) (hwf : w.cm.wf)
    (h : enc2 env n w = .ok (v, w')) :
    let c := blockCode w.matchBit (env.bm.readBytes w.bcur n)
    v = c.mask ∧ w' = w.emit n c.bytes c.matchBit w'.l1mask := by
  have hb : w.bcur + n ≤ env.bmSize := by have := (enc2_keeps _ _ _ _ _ h).inside; omega
  have hr := enc2_room env (env.cmSize + (w.ctail + blockCap n)) n w _ (by omega) h
  obtain ⟨⟨vec, he⟩, _⟩ := enc2_encodes' (env.withRoom (env.cmSize + (w.ctail + blockCap n))) n w hn hwf hb
    (by simp only [EncEnv.withRoom]; omega)
  rw [he] at hr
  cases hr
  exact ⟨rfl, rfl⟩

/-- A region that is encoded has emitted the region encoding. -/
theorem enc3_emits (env : EncEnv) (n : Nat) (w w' : EncWork) (v : Byte) (h1 : 1 ≤ n) (hn : n ≤ 4096) (hwf : w.cm.wf)
    (h : enc3 env n w = .ok (v, w')) :
    let c := regionCode w.matchBit (env.bm.readBytes w.bcur n)
    v = c.mask ∧ w' = w.emit n c.bytes c.matchBit w'.l1mask := by
  have hb : w.bcur + n ≤ env.bmSize := by have := (enc3_keeps _ _ _ _ _ h).inside; omega
  have hr := enc3_room env (env.cmSize + (w.ctail + regionCap n)) n w _ (by omega) h
  obtain ⟨⟨vec, he⟩, _⟩ := enc3_encodes' (env.withRoom (env.cmSize + (w.ctail + regionCap n))) n w hn hwf hb
    (by simp only [EncEnv.withRoom]; omega)
  rw [he] at hr
  cases hr
  exact ⟨rfl, rfl⟩

end Sys2Proof.Machine
end

