-- ==== Sys2Proof/Laws/State.lean ====
section
/-! SUPPORT. The small lemmas of `State`: one per field per update, each true by `rfl`. -/

namespace Sys2Proof.Machine

/-! ### `State.accept` -/

@[simp] theorem State.accept_bmSize (s : State) (w : Word) : (s.accept w).bmSize = s.bmSize := rfl
@[simp] theorem State.accept_cmSize (s : State) (w : Word) : (s.accept w).cmSize = s.cmSize := rfl
@[simp] theorem State.accept_bm (s : State) (w : Word) : (s.accept w).bm = s.bm := rfl
@[simp] theorem State.accept_cm (s : State) (w : Word) : (s.accept w).cm = s.cm := rfl
@[simp] theorem State.accept_command (s : State) (w : Word) : (s.accept w).command = some w := rfl
@[simp] theorem State.accept_done (s : State) (w : Word) : (s.accept w).done = false := rfl
@[simp] theorem State.accept_fault (s : State) (w : Word) : (s.accept w).fault = s.fault := rfl
@[simp] theorem State.accept_cause (s : State) (w : Word) : (s.accept w).cause = s.cause := rfl
@[simp] theorem State.accept_faddr (s : State) (w : Word) : (s.accept w).faddr = s.faddr := rfl
@[simp] theorem State.accept_bitlen (s : State) (w : Word) : (s.accept w).bitlen = s.bitlen := rfl
@[simp] theorem State.accept_clen (s : State) (w : Word) : (s.accept w).clen = s.clen := rfl
@[simp] theorem State.accept_bcur (s : State) (w : Word) : (s.accept w).bcur = s.bcur := rfl
@[simp] theorem State.accept_ctail (s : State) (w : Word) : (s.accept w).ctail = s.ctail := rfl
@[simp] theorem State.accept_matchBit (s : State) (w : Word) : (s.accept w).matchBit = s.matchBit := rfl
@[simp] theorem State.accept_result (s : State) (w : Word) : (s.accept w).result = s.result := rfl
@[simp] theorem State.accept_l1mask (s : State) (w : Word) : (s.accept w).l1mask = s.l1mask := rfl
@[simp] theorem State.accept_agenda (s : State) (w : Word) : (s.accept w).agenda = s.agenda := rfl
@[simp] theorem State.accept_hostData (s : State) (w : Word) : (s.accept w).hostData = s.hostData := rfl
@[simp] theorem State.accept_fresh (s : State) (w : Word) : (s.accept w).fresh = s.fresh := rfl

/-! ### `State.completed` -/

@[simp] theorem State.completed_bmSize (s : State) : (s.completed).bmSize = s.bmSize := rfl
@[simp] theorem State.completed_cmSize (s : State) : (s.completed).cmSize = s.cmSize := rfl
@[simp] theorem State.completed_bm (s : State) : (s.completed).bm = s.bm := rfl
@[simp] theorem State.completed_cm (s : State) : (s.completed).cm = s.cm := rfl
@[simp] theorem State.completed_command (s : State) : (s.completed).command = none := rfl
@[simp] theorem State.completed_done (s : State) : (s.completed).done = true := rfl
@[simp] theorem State.completed_fault (s : State) : (s.completed).fault = s.fault := rfl
@[simp] theorem State.completed_cause (s : State) : (s.completed).cause = s.cause := rfl
@[simp] theorem State.completed_faddr (s : State) : (s.completed).faddr = s.faddr := rfl
@[simp] theorem State.completed_bitlen (s : State) : (s.completed).bitlen = s.bitlen := rfl
@[simp] theorem State.completed_clen (s : State) : (s.completed).clen = s.clen := rfl
@[simp] theorem State.completed_bcur (s : State) : (s.completed).bcur = s.bcur := rfl
@[simp] theorem State.completed_ctail (s : State) : (s.completed).ctail = s.ctail := rfl
@[simp] theorem State.completed_matchBit (s : State) : (s.completed).matchBit = s.matchBit := rfl
@[simp] theorem State.completed_result (s : State) : (s.completed).result = s.result := rfl
@[simp] theorem State.completed_l1mask (s : State) : (s.completed).l1mask = s.l1mask := rfl
@[simp] theorem State.completed_agenda (s : State) : (s.completed).agenda = s.agenda := rfl
@[simp] theorem State.completed_hostData (s : State) : (s.completed).hostData = s.hostData := rfl
@[simp] theorem State.completed_fresh (s : State) : (s.completed).fresh = s.fresh := rfl

/-! ### `State.faulted` -/

@[simp] theorem State.faulted_bmSize (s : State) : (s.faulted).bmSize = s.bmSize := rfl
@[simp] theorem State.faulted_cmSize (s : State) : (s.faulted).cmSize = s.cmSize := rfl
@[simp] theorem State.faulted_bm (s : State) : (s.faulted).bm = s.bm := rfl
@[simp] theorem State.faulted_cm (s : State) : (s.faulted).cm = s.cm := rfl
@[simp] theorem State.faulted_command (s : State) : (s.faulted).command = none := rfl
@[simp] theorem State.faulted_done (s : State) : (s.faulted).done = false := rfl
@[simp] theorem State.faulted_fault (s : State) : (s.faulted).fault = true := rfl
@[simp] theorem State.faulted_cause (s : State) : (s.faulted).cause = s.cause := rfl
@[simp] theorem State.faulted_faddr (s : State) : (s.faulted).faddr = s.faddr := rfl
@[simp] theorem State.faulted_bitlen (s : State) : (s.faulted).bitlen = s.bitlen := rfl
@[simp] theorem State.faulted_clen (s : State) : (s.faulted).clen = s.clen := rfl
@[simp] theorem State.faulted_bcur (s : State) : (s.faulted).bcur = s.bcur := rfl
@[simp] theorem State.faulted_ctail (s : State) : (s.faulted).ctail = s.ctail := rfl
@[simp] theorem State.faulted_matchBit (s : State) : (s.faulted).matchBit = s.matchBit := rfl
@[simp] theorem State.faulted_result (s : State) : (s.faulted).result = s.result := rfl
@[simp] theorem State.faulted_l1mask (s : State) : (s.faulted).l1mask = s.l1mask := rfl
@[simp] theorem State.faulted_agenda (s : State) : (s.faulted).agenda = s.agenda := rfl
@[simp] theorem State.faulted_hostData (s : State) : (s.faulted).hostData = s.hostData := rfl
@[simp] theorem State.faulted_fresh (s : State) : (s.faulted).fresh = s.fresh := rfl

/-! ### `faultEntry` -/

@[simp] theorem faultEntry_bmSize (r : Raise) (s : State) : (faultEntry r s).bmSize = s.bmSize := rfl
@[simp] theorem faultEntry_cmSize (r : Raise) (s : State) : (faultEntry r s).cmSize = s.cmSize := rfl
@[simp] theorem faultEntry_bm (r : Raise) (s : State) : (faultEntry r s).bm = s.bm := rfl
@[simp] theorem faultEntry_cm (r : Raise) (s : State) : (faultEntry r s).cm = s.cm := rfl
@[simp] theorem faultEntry_command (r : Raise) (s : State) : (faultEntry r s).command = none := rfl
@[simp] theorem faultEntry_done (r : Raise) (s : State) : (faultEntry r s).done = false := rfl
@[simp] theorem faultEntry_fault (r : Raise) (s : State) : (faultEntry r s).fault = true := rfl
@[simp] theorem faultEntry_cause (r : Raise) (s : State) : (faultEntry r s).cause = r.cause := rfl
@[simp] theorem faultEntry_faddr (r : Raise) (s : State) : (faultEntry r s).faddr = BitVec.ofNat 32 r.addr := rfl
@[simp] theorem faultEntry_bitlen (r : Raise) (s : State) : (faultEntry r s).bitlen = s.bitlen := rfl
@[simp] theorem faultEntry_clen (r : Raise) (s : State) : (faultEntry r s).clen = s.clen := rfl
@[simp] theorem faultEntry_bcur (r : Raise) (s : State) : (faultEntry r s).bcur = s.bcur := rfl
@[simp] theorem faultEntry_ctail (r : Raise) (s : State) : (faultEntry r s).ctail = s.ctail := rfl
@[simp] theorem faultEntry_matchBit (r : Raise) (s : State) : (faultEntry r s).matchBit = s.matchBit := rfl
@[simp] theorem faultEntry_result (r : Raise) (s : State) : (faultEntry r s).result = s.result := rfl
@[simp] theorem faultEntry_l1mask (r : Raise) (s : State) : (faultEntry r s).l1mask = s.l1mask := rfl
@[simp] theorem faultEntry_agenda (r : Raise) (s : State) : (faultEntry r s).agenda = s.agenda := rfl
@[simp] theorem faultEntry_hostData (r : Raise) (s : State) : (faultEntry r s).hostData = s.hostData := rfl
@[simp] theorem faultEntry_fresh (r : Raise) (s : State) : (faultEntry r s).fresh = s.fresh := rfl

/-! ### `complete` -/

@[simp] theorem complete_bmSize (v : Byte) (s : State) : (complete v s).bmSize = s.bmSize := rfl
@[simp] theorem complete_cmSize (v : Byte) (s : State) : (complete v s).cmSize = s.cmSize := rfl
@[simp] theorem complete_bm (v : Byte) (s : State) : (complete v s).bm = s.bm := rfl
@[simp] theorem complete_cm (v : Byte) (s : State) : (complete v s).cm = s.cm := rfl
@[simp] theorem complete_command (v : Byte) (s : State) : (complete v s).command = none := rfl
@[simp] theorem complete_done (v : Byte) (s : State) : (complete v s).done = true := rfl
@[simp] theorem complete_fault (v : Byte) (s : State) : (complete v s).fault = s.fault := rfl
@[simp] theorem complete_cause (v : Byte) (s : State) : (complete v s).cause = s.cause := rfl
@[simp] theorem complete_faddr (v : Byte) (s : State) : (complete v s).faddr = s.faddr := rfl
@[simp] theorem complete_bitlen (v : Byte) (s : State) : (complete v s).bitlen = s.bitlen := rfl
@[simp] theorem complete_clen (v : Byte) (s : State) : (complete v s).clen = s.clen := rfl
@[simp] theorem complete_bcur (v : Byte) (s : State) : (complete v s).bcur = s.bcur := rfl
@[simp] theorem complete_ctail (v : Byte) (s : State) : (complete v s).ctail = s.ctail := rfl
@[simp] theorem complete_matchBit (v : Byte) (s : State) : (complete v s).matchBit = s.matchBit := rfl
@[simp] theorem complete_result (v : Byte) (s : State) : (complete v s).result = v := rfl
@[simp] theorem complete_l1mask (v : Byte) (s : State) : (complete v s).l1mask = s.l1mask := rfl
@[simp] theorem complete_agenda (v : Byte) (s : State) : (complete v s).agenda = s.agenda := rfl
@[simp] theorem complete_hostData (v : Byte) (s : State) : (complete v s).hostData = s.hostData := rfl
@[simp] theorem complete_fresh (v : Byte) (s : State) : (complete v s).fresh = s.fresh := rfl

/-! ### `resetRegs` -/

@[simp] theorem resetRegs_bmSize (s : State) : (resetRegs s).bmSize = s.bmSize := rfl
@[simp] theorem resetRegs_cmSize (s : State) : (resetRegs s).cmSize = s.cmSize := rfl
@[simp] theorem resetRegs_bm (s : State) : (resetRegs s).bm = s.bm := rfl
@[simp] theorem resetRegs_cm (s : State) : (resetRegs s).cm = s.cm := rfl
@[simp] theorem resetRegs_command (s : State) : (resetRegs s).command = none := rfl
@[simp] theorem resetRegs_done (s : State) : (resetRegs s).done = false := rfl
@[simp] theorem resetRegs_fault (s : State) : (resetRegs s).fault = false := rfl
@[simp] theorem resetRegs_cause (s : State) : (resetRegs s).cause = .none := rfl
@[simp] theorem resetRegs_faddr (s : State) : (resetRegs s).faddr = 0#32 := rfl
@[simp] theorem resetRegs_bitlen (s : State) : (resetRegs s).bitlen = 0#32 := rfl
@[simp] theorem resetRegs_clen (s : State) : (resetRegs s).clen = 0#32 := rfl
@[simp] theorem resetRegs_bcur (s : State) : (resetRegs s).bcur = 0#32 := rfl
@[simp] theorem resetRegs_ctail (s : State) : (resetRegs s).ctail = 0#32 := rfl
@[simp] theorem resetRegs_matchBit (s : State) : (resetRegs s).matchBit = false := rfl
@[simp] theorem resetRegs_result (s : State) : (resetRegs s).result = 0#8 := rfl
@[simp] theorem resetRegs_l1mask (s : State) : (resetRegs s).l1mask = 0#32 := rfl
@[simp] theorem resetRegs_agenda (s : State) : (resetRegs s).agenda = s.agenda := rfl
@[simp] theorem resetRegs_hostData (s : State) : (resetRegs s).hostData = s.hostData := rfl
@[simp] theorem resetRegs_fresh (s : State) : (resetRegs s).fresh = s.fresh := rfl

/-! ### `hardwareReset` -/

@[simp] theorem hardwareReset_bmSize (s : State) : (hardwareReset s).bmSize = s.bmSize := rfl
@[simp] theorem hardwareReset_cmSize (s : State) : (hardwareReset s).cmSize = s.cmSize := rfl
@[simp] theorem hardwareReset_bm (s : State) : (hardwareReset s).bm = Memory.ofBytes (Config.bmAfterReset s.fresh) 0 s.bmSize.toNat := rfl
@[simp] theorem hardwareReset_cm (s : State) : (hardwareReset s).cm = Memory.ofBytes (Config.cmAfterReset s.fresh) 0 s.cmSize.toNat := rfl
@[simp] theorem hardwareReset_command (s : State) : (hardwareReset s).command = none := rfl
@[simp] theorem hardwareReset_done (s : State) : (hardwareReset s).done = false := rfl
@[simp] theorem hardwareReset_fault (s : State) : (hardwareReset s).fault = false := rfl
@[simp] theorem hardwareReset_cause (s : State) : (hardwareReset s).cause = .none := rfl
@[simp] theorem hardwareReset_faddr (s : State) : (hardwareReset s).faddr = 0#32 := rfl
@[simp] theorem hardwareReset_bitlen (s : State) : (hardwareReset s).bitlen = 0#32 := rfl
@[simp] theorem hardwareReset_clen (s : State) : (hardwareReset s).clen = 0#32 := rfl
@[simp] theorem hardwareReset_bcur (s : State) : (hardwareReset s).bcur = 0#32 := rfl
@[simp] theorem hardwareReset_ctail (s : State) : (hardwareReset s).ctail = 0#32 := rfl
@[simp] theorem hardwareReset_matchBit (s : State) : (hardwareReset s).matchBit = false := rfl
@[simp] theorem hardwareReset_result (s : State) : (hardwareReset s).result = 0#8 := rfl
@[simp] theorem hardwareReset_l1mask (s : State) : (hardwareReset s).l1mask = 0#32 := rfl
@[simp] theorem hardwareReset_agenda (s : State) : (hardwareReset s).agenda = s.agenda := rfl
@[simp] theorem hardwareReset_hostData (s : State) : (hardwareReset s).hostData = s.hostData := rfl
@[simp] theorem hardwareReset_fresh (s : State) : (hardwareReset s).fresh = s.fresh + 1 := rfl

/-! ### `State.commitEnc` -/

@[simp] theorem State.commitEnc_bmSize (s : State) (w : EncWork) : (s.commitEnc w).bmSize = s.bmSize := rfl
@[simp] theorem State.commitEnc_cmSize (s : State) (w : EncWork) : (s.commitEnc w).cmSize = s.cmSize := rfl
@[simp] theorem State.commitEnc_bm (s : State) (w : EncWork) : (s.commitEnc w).bm = s.bm := rfl
@[simp] theorem State.commitEnc_cm (s : State) (w : EncWork) : (s.commitEnc w).cm = w.cm := rfl
@[simp] theorem State.commitEnc_command (s : State) (w : EncWork) : (s.commitEnc w).command = s.command := rfl
@[simp] theorem State.commitEnc_done (s : State) (w : EncWork) : (s.commitEnc w).done = s.done := rfl
@[simp] theorem State.commitEnc_fault (s : State) (w : EncWork) : (s.commitEnc w).fault = s.fault := rfl
@[simp] theorem State.commitEnc_cause (s : State) (w : EncWork) : (s.commitEnc w).cause = s.cause := rfl
@[simp] theorem State.commitEnc_faddr (s : State) (w : EncWork) : (s.commitEnc w).faddr = s.faddr := rfl
@[simp] theorem State.commitEnc_bitlen (s : State) (w : EncWork) : (s.commitEnc w).bitlen = s.bitlen := rfl
@[simp] theorem State.commitEnc_clen (s : State) (w : EncWork) : (s.commitEnc w).clen = s.clen := rfl
@[simp] theorem State.commitEnc_bcur (s : State) (w : EncWork) : (s.commitEnc w).bcur = BitVec.ofNat 32 w.bcur := rfl
@[simp] theorem State.commitEnc_ctail (s : State) (w : EncWork) : (s.commitEnc w).ctail = BitVec.ofNat 32 w.ctail := rfl
@[simp] theorem State.commitEnc_matchBit (s : State) (w : EncWork) : (s.commitEnc w).matchBit = w.matchBit := rfl
@[simp] theorem State.commitEnc_result (s : State) (w : EncWork) : (s.commitEnc w).result = s.result := rfl
@[simp] theorem State.commitEnc_l1mask (s : State) (w : EncWork) : (s.commitEnc w).l1mask = w.l1mask := rfl
@[simp] theorem State.commitEnc_agenda (s : State) (w : EncWork) : (s.commitEnc w).agenda = s.agenda := rfl
@[simp] theorem State.commitEnc_hostData (s : State) (w : EncWork) : (s.commitEnc w).hostData = s.hostData := rfl
@[simp] theorem State.commitEnc_fresh (s : State) (w : EncWork) : (s.commitEnc w).fresh = s.fresh := rfl

/-! ### `State.commitDec` -/

@[simp] theorem State.commitDec_bmSize (s : State) (w : DecWork) : (s.commitDec w).bmSize = s.bmSize := rfl
@[simp] theorem State.commitDec_cmSize (s : State) (w : DecWork) : (s.commitDec w).cmSize = s.cmSize := rfl
@[simp] theorem State.commitDec_bm (s : State) (w : DecWork) : (s.commitDec w).bm = w.bm := rfl
@[simp] theorem State.commitDec_cm (s : State) (w : DecWork) : (s.commitDec w).cm = s.cm := rfl
@[simp] theorem State.commitDec_command (s : State) (w : DecWork) : (s.commitDec w).command = s.command := rfl
@[simp] theorem State.commitDec_done (s : State) (w : DecWork) : (s.commitDec w).done = s.done := rfl
@[simp] theorem State.commitDec_fault (s : State) (w : DecWork) : (s.commitDec w).fault = s.fault := rfl
@[simp] theorem State.commitDec_cause (s : State) (w : DecWork) : (s.commitDec w).cause = s.cause := rfl
@[simp] theorem State.commitDec_faddr (s : State) (w : DecWork) : (s.commitDec w).faddr = s.faddr := rfl
@[simp] theorem State.commitDec_bitlen (s : State) (w : DecWork) : (s.commitDec w).bitlen = s.bitlen := rfl
@[simp] theorem State.commitDec_clen (s : State) (w : DecWork) : (s.commitDec w).clen = s.clen := rfl
@[simp] theorem State.commitDec_bcur (s : State) (w : DecWork) : (s.commitDec w).bcur = BitVec.ofNat 32 w.bcur := rfl
@[simp] theorem State.commitDec_ctail (s : State) (w : DecWork) : (s.commitDec w).ctail = BitVec.ofNat 32 w.ctail := rfl
@[simp] theorem State.commitDec_matchBit (s : State) (w : DecWork) : (s.commitDec w).matchBit = w.matchBit := rfl
@[simp] theorem State.commitDec_result (s : State) (w : DecWork) : (s.commitDec w).result = s.result := rfl
@[simp] theorem State.commitDec_l1mask (s : State) (w : DecWork) : (s.commitDec w).l1mask = s.l1mask := rfl
@[simp] theorem State.commitDec_agenda (s : State) (w : DecWork) : (s.commitDec w).agenda = s.agenda := rfl
@[simp] theorem State.commitDec_hostData (s : State) (w : DecWork) : (s.commitDec w).hostData = s.hostData := rfl
@[simp] theorem State.commitDec_fresh (s : State) (w : DecWork) : (s.commitDec w).fresh = s.fresh := rfl

/-! ### `State.freshContext` -/

@[simp] theorem State.freshContext_bmSize (s : State) : (s.freshContext).bmSize = s.bmSize := rfl
@[simp] theorem State.freshContext_cmSize (s : State) : (s.freshContext).cmSize = s.cmSize := rfl
@[simp] theorem State.freshContext_bm (s : State) : (s.freshContext).bm = s.bm := rfl
@[simp] theorem State.freshContext_cm (s : State) : (s.freshContext).cm = s.cm := rfl
@[simp] theorem State.freshContext_command (s : State) : (s.freshContext).command = s.command := rfl
@[simp] theorem State.freshContext_done (s : State) : (s.freshContext).done = s.done := rfl
@[simp] theorem State.freshContext_fault (s : State) : (s.freshContext).fault = s.fault := rfl
@[simp] theorem State.freshContext_cause (s : State) : (s.freshContext).cause = s.cause := rfl
@[simp] theorem State.freshContext_faddr (s : State) : (s.freshContext).faddr = s.faddr := rfl
@[simp] theorem State.freshContext_bitlen (s : State) : (s.freshContext).bitlen = s.bitlen := rfl
@[simp] theorem State.freshContext_clen (s : State) : (s.freshContext).clen = s.clen := rfl
@[simp] theorem State.freshContext_bcur (s : State) : (s.freshContext).bcur = 0#32 := rfl
@[simp] theorem State.freshContext_ctail (s : State) : (s.freshContext).ctail = 0#32 := rfl
@[simp] theorem State.freshContext_matchBit (s : State) : (s.freshContext).matchBit = false := rfl
@[simp] theorem State.freshContext_result (s : State) : (s.freshContext).result = s.result := rfl
@[simp] theorem State.freshContext_l1mask (s : State) : (s.freshContext).l1mask = 0#32 := rfl
@[simp] theorem State.freshContext_agenda (s : State) : (s.freshContext).agenda = s.agenda := rfl
@[simp] theorem State.freshContext_hostData (s : State) : (s.freshContext).hostData = s.hostData := rfl
@[simp] theorem State.freshContext_fresh (s : State) : (s.freshContext).fresh = s.fresh := rfl

/-! ### `State.takeLength` -/

@[simp] theorem State.takeLength_bmSize (s : State) : (s.takeLength).bmSize = s.bmSize := rfl
@[simp] theorem State.takeLength_cmSize (s : State) : (s.takeLength).cmSize = s.cmSize := rfl
@[simp] theorem State.takeLength_bm (s : State) : (s.takeLength).bm = s.bm := rfl
@[simp] theorem State.takeLength_cm (s : State) : (s.takeLength).cm = s.cm := rfl
@[simp] theorem State.takeLength_command (s : State) : (s.takeLength).command = s.command := rfl
@[simp] theorem State.takeLength_done (s : State) : (s.takeLength).done = s.done := rfl
@[simp] theorem State.takeLength_fault (s : State) : (s.takeLength).fault = s.fault := rfl
@[simp] theorem State.takeLength_cause (s : State) : (s.takeLength).cause = s.cause := rfl
@[simp] theorem State.takeLength_faddr (s : State) : (s.takeLength).faddr = s.faddr := rfl
@[simp] theorem State.takeLength_bitlen (s : State) : (s.takeLength).bitlen = s.bitlen := rfl
@[simp] theorem State.takeLength_clen (s : State) : (s.takeLength).clen = s.ctail := rfl
@[simp] theorem State.takeLength_bcur (s : State) : (s.takeLength).bcur = s.bcur := rfl
@[simp] theorem State.takeLength_ctail (s : State) : (s.takeLength).ctail = s.ctail := rfl
@[simp] theorem State.takeLength_matchBit (s : State) : (s.takeLength).matchBit = s.matchBit := rfl
@[simp] theorem State.takeLength_result (s : State) : (s.takeLength).result = s.result := rfl
@[simp] theorem State.takeLength_l1mask (s : State) : (s.takeLength).l1mask = s.l1mask := rfl
@[simp] theorem State.takeLength_agenda (s : State) : (s.takeLength).agenda = s.agenda := rfl
@[simp] theorem State.takeLength_hostData (s : State) : (s.takeLength).hostData = s.hostData := rfl
@[simp] theorem State.takeLength_fresh (s : State) : (s.takeLength).fresh = s.fresh := rfl

/-! ### `State.returned` -/

@[simp] theorem State.returned_bmSize (s : State) (v : Word) : (s.returned v).bmSize = s.bmSize := rfl
@[simp] theorem State.returned_cmSize (s : State) (v : Word) : (s.returned v).cmSize = s.cmSize := rfl
@[simp] theorem State.returned_bm (s : State) (v : Word) : (s.returned v).bm = s.bm := rfl
@[simp] theorem State.returned_cm (s : State) (v : Word) : (s.returned v).cm = s.cm := rfl
@[simp] theorem State.returned_command (s : State) (v : Word) : (s.returned v).command = s.command := rfl
@[simp] theorem State.returned_done (s : State) (v : Word) : (s.returned v).done = s.done := rfl
@[simp] theorem State.returned_fault (s : State) (v : Word) : (s.returned v).fault = s.fault := rfl
@[simp] theorem State.returned_cause (s : State) (v : Word) : (s.returned v).cause = s.cause := rfl
@[simp] theorem State.returned_faddr (s : State) (v : Word) : (s.returned v).faddr = s.faddr := rfl
@[simp] theorem State.returned_bitlen (s : State) (v : Word) : (s.returned v).bitlen = s.bitlen := rfl
@[simp] theorem State.returned_clen (s : State) (v : Word) : (s.returned v).clen = s.clen := rfl
@[simp] theorem State.returned_bcur (s : State) (v : Word) : (s.returned v).bcur = s.bcur := rfl
@[simp] theorem State.returned_ctail (s : State) (v : Word) : (s.returned v).ctail = s.ctail := rfl
@[simp] theorem State.returned_matchBit (s : State) (v : Word) : (s.returned v).matchBit = s.matchBit := rfl
@[simp] theorem State.returned_result (s : State) (v : Word) : (s.returned v).result = s.result := rfl
@[simp] theorem State.returned_l1mask (s : State) (v : Word) : (s.returned v).l1mask = s.l1mask := rfl
@[simp] theorem State.returned_agenda (s : State) (v : Word) : (s.returned v).agenda = s.agenda := rfl
@[simp] theorem State.returned_hostData (s : State) (v : Word) : (s.returned v).hostData = v := rfl
@[simp] theorem State.returned_fresh (s : State) (v : Word) : (s.returned v).fresh = s.fresh := rfl

/-! ### `State.returnedFree` -/

@[simp] theorem State.returnedFree_bmSize (s : State) : (s.returnedFree).bmSize = s.bmSize := rfl
@[simp] theorem State.returnedFree_cmSize (s : State) : (s.returnedFree).cmSize = s.cmSize := rfl
@[simp] theorem State.returnedFree_bm (s : State) : (s.returnedFree).bm = s.bm := rfl
@[simp] theorem State.returnedFree_cm (s : State) : (s.returnedFree).cm = s.cm := rfl
@[simp] theorem State.returnedFree_command (s : State) : (s.returnedFree).command = s.command := rfl
@[simp] theorem State.returnedFree_done (s : State) : (s.returnedFree).done = s.done := rfl
@[simp] theorem State.returnedFree_fault (s : State) : (s.returnedFree).fault = s.fault := rfl
@[simp] theorem State.returnedFree_cause (s : State) : (s.returnedFree).cause = s.cause := rfl
@[simp] theorem State.returnedFree_faddr (s : State) : (s.returnedFree).faddr = s.faddr := rfl
@[simp] theorem State.returnedFree_bitlen (s : State) : (s.returnedFree).bitlen = s.bitlen := rfl
@[simp] theorem State.returnedFree_clen (s : State) : (s.returnedFree).clen = s.clen := rfl
@[simp] theorem State.returnedFree_bcur (s : State) : (s.returnedFree).bcur = s.bcur := rfl
@[simp] theorem State.returnedFree_ctail (s : State) : (s.returnedFree).ctail = s.ctail := rfl
@[simp] theorem State.returnedFree_matchBit (s : State) : (s.returnedFree).matchBit = s.matchBit := rfl
@[simp] theorem State.returnedFree_result (s : State) : (s.returnedFree).result = s.result := rfl
@[simp] theorem State.returnedFree_l1mask (s : State) : (s.returnedFree).l1mask = s.l1mask := rfl
@[simp] theorem State.returnedFree_agenda (s : State) : (s.returnedFree).agenda = s.agenda := rfl
@[simp] theorem State.returnedFree_hostData (s : State) : (s.returnedFree).hostData = Config.busyRead s.fresh := rfl
@[simp] theorem State.returnedFree_fresh (s : State) : (s.returnedFree).fresh = s.fresh + 1 := rfl

/-! ### `State.withCommand` -/

@[simp] theorem State.withCommand_bmSize (s : State) (w : Word) : (s.withCommand w).bmSize = s.bmSize := rfl
@[simp] theorem State.withCommand_cmSize (s : State) (w : Word) : (s.withCommand w).cmSize = s.cmSize := rfl
@[simp] theorem State.withCommand_bm (s : State) (w : Word) : (s.withCommand w).bm = s.bm := rfl
@[simp] theorem State.withCommand_cm (s : State) (w : Word) : (s.withCommand w).cm = s.cm := rfl
@[simp] theorem State.withCommand_command (s : State) (w : Word) : (s.withCommand w).command = some w := rfl
@[simp] theorem State.withCommand_done (s : State) (w : Word) : (s.withCommand w).done = false := rfl
@[simp] theorem State.withCommand_fault (s : State) (w : Word) : (s.withCommand w).fault = s.fault := rfl
@[simp] theorem State.withCommand_cause (s : State) (w : Word) : (s.withCommand w).cause = s.cause := rfl
@[simp] theorem State.withCommand_faddr (s : State) (w : Word) : (s.withCommand w).faddr = s.faddr := rfl
@[simp] theorem State.withCommand_bitlen (s : State) (w : Word) : (s.withCommand w).bitlen = s.bitlen := rfl
@[simp] theorem State.withCommand_clen (s : State) (w : Word) : (s.withCommand w).clen = s.clen := rfl
@[simp] theorem State.withCommand_bcur (s : State) (w : Word) : (s.withCommand w).bcur = s.bcur := rfl
@[simp] theorem State.withCommand_ctail (s : State) (w : Word) : (s.withCommand w).ctail = s.ctail := rfl
@[simp] theorem State.withCommand_matchBit (s : State) (w : Word) : (s.withCommand w).matchBit = s.matchBit := rfl
@[simp] theorem State.withCommand_result (s : State) (w : Word) : (s.withCommand w).result = s.result := rfl
@[simp] theorem State.withCommand_l1mask (s : State) (w : Word) : (s.withCommand w).l1mask = s.l1mask := rfl
@[simp] theorem State.withCommand_agenda (s : State) (w : Word) : (s.withCommand w).agenda = .block :: s.agenda := rfl
@[simp] theorem State.withCommand_hostData (s : State) (w : Word) : (s.withCommand w).hostData = s.hostData := rfl
@[simp] theorem State.withCommand_fresh (s : State) (w : Word) : (s.withCommand w).fresh = s.fresh := rfl

/-! ### What the units read -/

@[simp] theorem State.encEnv_bm (s : State) : s.encEnv.bm = s.bm := rfl
@[simp] theorem State.encEnv_bmSize (s : State) : s.encEnv.bmSize = s.bmSize.toNat := rfl
@[simp] theorem State.encEnv_cmSize (s : State) : s.encEnv.cmSize = s.cmSize.toNat := rfl

@[simp] theorem State.encWork_cm (s : State) : s.encWork.cm = s.cm := rfl
@[simp] theorem State.encWork_bcur (s : State) : s.encWork.bcur = s.bcur.toNat := rfl
@[simp] theorem State.encWork_ctail (s : State) : s.encWork.ctail = s.ctail.toNat := rfl
@[simp] theorem State.encWork_matchBit (s : State) : s.encWork.matchBit = s.matchBit := rfl
@[simp] theorem State.encWork_l1mask (s : State) : s.encWork.l1mask = s.l1mask := rfl

@[simp] theorem State.freshEncoder_cm (s : State) : s.freshEncoder.cm = s.cm := rfl
@[simp] theorem State.freshEncoder_bcur (s : State) : s.freshEncoder.bcur = 0 := rfl
@[simp] theorem State.freshEncoder_ctail (s : State) : s.freshEncoder.ctail = 0 := rfl
@[simp] theorem State.freshEncoder_matchBit (s : State) : s.freshEncoder.matchBit = false := rfl
@[simp] theorem State.freshEncoder_l1mask (s : State) : s.freshEncoder.l1mask = 0#32 := rfl

@[simp] theorem State.decEnv_cm (s : State) : s.decEnv.cm = s.cm := rfl
@[simp] theorem State.decEnv_clen (s : State) : s.decEnv.clen = s.clen.toNat := rfl
@[simp] theorem State.decEnv_bmSize (s : State) : s.decEnv.bmSize = s.bmSize.toNat := rfl

@[simp] theorem State.decWork_bm (s : State) : s.decWork.bm = s.bm := rfl
@[simp] theorem State.decWork_bcur (s : State) : s.decWork.bcur = s.bcur.toNat := rfl
@[simp] theorem State.decWork_ctail (s : State) : s.decWork.ctail = s.ctail.toNat := rfl
@[simp] theorem State.decWork_matchBit (s : State) : s.decWork.matchBit = s.matchBit := rfl

end Sys2Proof.Machine
end

