-- ==== Sys2Proof/Laws/Written.lean ====
section
/-! SUPPORT. What a decode unit that succeeds has written and the run state it leaves, on ANY stream (R39, R69, R89). -/

namespace Sys2Proof.Machine

/-- A decode unit over `n` bytes has written exactly `n` bytes from its cursor on, and its run state is that of the bytes. -/
def DecWrites (n : Nat) (w w' : DecWork) : Prop :=
  ∃ bs : List Byte, bs.length = n ∧ w'.bm = w.bm.writeBytes w.bcur bs ∧ w'.matchBit = runAfter w.matchBit bs

theorem DecWrites.refl (w : DecWork) : DecWrites 0 w w := ⟨[], rfl, rfl, rfl⟩

theorem DecWrites.trans {n k : Nat} {w w1 w2 : DecWork} (hb : w1.bcur = w.bcur + n) (h : DecWrites n w w1) (h' : DecWrites k w1 w2) :
    DecWrites (n + k) w w2 := by
  obtain ⟨as, ha, hm, hr⟩ := h
  obtain ⟨bs, hb', hm', hr'⟩ := h'
  refine ⟨as ++ bs, by simp [ha, hb'], ?_, ?_⟩
  · rw [hm', hm, hb, Memory.writeBytes_append, ha]
  · rw [hr', hr, runAfter_append]

theorem decodeGroup_run (env : DecEnv) (c : Nat) (gm : Byte) (left j : Nat) (m : Bool) (t : Nat) (r : DecRun)
    (h : decodeGroup env c gm left j m t = .ok r) : r.matchBit = runAfter m r.bytes := by
  induction left generalizing j m t r with
  | zero => cases h; rfl
  | succ left ih =>
    simp only [decodeGroup, bind, Except.bind] at h
    split at h
    · split at h
      · cases h
      · split at h
        · cases h
        · next hx => cases h; simp only [runAfter_cons]; exact ih _ _ _ _ hx
    · split at h
      · cases h
      · next hx => cases h; simp only [runAfter_cons, nextBit_matchByte]; exact ih _ _ _ _ hx

theorem markedGroup_run (env : DecEnv) (c s : Nat) (m : Bool) (t : Nat) (r : DecRun) (h : markedGroup env c s m t = .ok r) :
    r.matchBit = runAfter m r.bytes := by
  simp only [markedGroup, bind, Except.bind] at h
  split at h
  · cases h
  · split at h
    · cases h
    · split at h
      · cases h
      · exact decodeGroup_run _ _ _ _ _ _ _ _ h

theorem absentBytes_run (s : Nat) (m : Bool) (t : Nat) : (absentBytes s m t).matchBit = runAfter m (absentBytes s m t).bytes :=
  (runAfter_of_isRun m _ (fun _ hb => List.eq_of_mem_replicate hb)).symm

theorem decodeGroups_run (env : DecEnv) (c n : Nat) (nib : Nibble) (left g : Nat) (m : Bool) (t : Nat) (r : DecRun)
    (h : decodeGroups env c n nib left g m t = .ok r) : r.matchBit = runAfter m r.bytes := by
  induction left generalizing g m t r with
  | zero => cases h; rfl
  | succ left ih =>
    simp only [decodeGroups, bind, Except.bind] at h
    by_cases hg : hasGroup nib g = true
    · rw [if_pos hg] at h
      split at h
      · cases h
      · next r1 hr1 =>
        split at h
        · cases h
        · next rs hrs =>
          cases h
          simp only [runAfter_append]
          rw [ih _ _ _ _ hrs, markedGroup_run _ _ _ _ _ _ hr1]
    · rw [if_neg hg] at h
      split at h
      · cases h
      · next rs hrs =>
        cases h
        simp only [runAfter_append]
        rw [ih _ _ _ _ hrs, absentBytes_run]

theorem markedChunk_run (env : DecEnv) (c n : Nat) (nib : Nibble) (m : Bool) (t : Nat) (r : DecRun)
    (h : markedChunk env c n nib m t = .ok r) : r.matchBit = runAfter m r.bytes := by
  simp only [markedChunk, bind, Except.bind] at h
  split at h
  · split at h
    · cases h
    · split at h
      · unfold fallbackChunk at h
        split at h
        · cases h
        · cases h; rfl
      · exact decodeGroups_run _ _ _ _ _ _ _ _ _ h
  · exact decodeGroups_run _ _ _ _ _ _ _ _ _ h

theorem dec1_writes (env : DecEnv) (n : Nat) (nib : Nibble) (w w' : DecWork) (h : dec1 env n nib w = .ok w') : DecWrites n w w' := by
  unfold dec1 at h
  split at h
  · cases h
  · split at h
    · next h0 => cases h; subst h0; exact DecWrites.refl w
    · split at h
      · cases h
      · simp only [bind, Except.bind] at h
        by_cases hz : nib = 0#4
        · rw [if_pos hz] at h
          cases h
          exact ⟨_, by simp [absentBytes], rfl, absentBytes_run n w.matchBit w.ctail⟩
        · rw [if_neg hz] at h
          split at h
          · cases h
          · next r hr =>
            cases h
            exact ⟨r.bytes, (markedChunk_keeps _ _ _ _ _ _ _ hr).1, rfl, markedChunk_run _ _ _ _ _ _ _ hr⟩

theorem decRound_writes (env : DecEnv) (n : Nat) (p : Byte) (w w' : DecWork) (hn : n ≤ 64) (h : decRound env n p w = .ok w') :
    DecWrites n w w' := by
  simp only [decRound, bind, Except.bind] at h
  split at h
  · cases h
  · next w1 hx =>
    have := (dec1_writes _ _ _ _ _ hx).trans (dec1_keeps _ _ _ _ _ hx).bcur (dec1_writes _ _ _ _ _ h)
    rwa [show firstChunk n + secondChunk n = n by unfold firstChunk secondChunk; omega] at this

theorem unmaskedBlock_writes (env : DecEnv) (unit : Nat) (child : Nat → Byte → DecWork → Except Raise DecWork) (mask : Byte)
    (hk : ∀ n v w w', n ≤ unit → child n v w = .ok w' → DecKeeps env n w w')
    (hch : ∀ n v w w', n ≤ unit → child n v w = .ok w' → DecWrites n w w') :
    ∀ left k rem w w', Covers unit left rem → unmaskedBlock env unit child mask left k rem w = .ok w' → DecWrites rem w w' := by
  intro left
  induction left with
  | zero =>
    intro k rem w w' hcov h
    simp only [Covers] at hcov
    subst hcov
    cases h
    exact DecWrites.refl w
  | succ left ih =>
    intro k rem w w' hcov h
    obtain ⟨h1, hcov⟩ := hcov
    have hsum : min unit rem + (rem - unit) = rem := by omega
    simp only [unmaskedBlock, bind, Except.bind] at h
    split at h
    · split at h
      · cases h
      · split at h
        · cases h
        · split at h
          · cases h
          · next w1 hx =>
            have hr := hch _ _ _ _ (Nat.min_le_left _ _) hx
            have hw : DecWrites (min unit rem) w w1 := hr
            have := hw.trans (hk _ _ _ _ (Nat.min_le_left _ _) hx).bcur (ih _ _ _ _ hcov h)
            rwa [hsum] at this
    · split at h
      · cases h
      · next w1 hx =>
        have := DecWrites.trans (w := w) (hk _ _ _ _ (Nat.min_le_left _ _) hx).bcur (hch _ _ _ _ (Nat.min_le_left _ _) hx)
          (ih _ _ _ _ hcov h)
        rwa [hsum] at this

theorem dec2_writes (env : DecEnv) (n : Nat) (mask : Byte) (w w' : DecWork) (h : dec2 env n mask w = .ok w') : DecWrites n w w' := by
  unfold dec2 at h
  split at h
  · cases h
  · exact unmaskedBlock_writes env 64 _ mask (fun n v w w' hn h => decRound_keeps env n v w w' hn h)
      (fun n v w w' hn h => decRound_writes env n v w w' hn h) _ _ _ _ _ (covers_rounds n) h

theorem dec3_writes (env : DecEnv) (n : Nat) (mask : Byte) (w w' : DecWork) (h : dec3 env n mask w = .ok w') : DecWrites n w w' := by
  unfold dec3 at h
  split at h
  · cases h
  · exact unmaskedBlock_writes env 512 _ mask (fun n v w w' _ h => dec2_keeps env n v w w' h)
      (fun n v w w' _ h => dec2_writes env n v w w' h) _ _ _ _ _ (covers_blocks n) h

theorem decRegions_writes (env : DecEnv) :
    ∀ left rem w w', Covers 4096 left rem → decRegions env left rem w = .ok w' → DecWrites rem w w' := by
  intro left
  induction left with
  | zero =>
    intro rem w w' hcov h
    simp only [Covers] at hcov
    subst hcov
    cases h
    exact DecWrites.refl w
  | succ left ih =>
    intro rem w w' hcov h
    obtain ⟨h1, hcov⟩ := hcov
    simp only [decRegions, bind, Except.bind] at h
    split at h
    · cases h
    · split at h
      · cases h
      · next w1 hx =>
        have hr := dec3_writes _ _ _ _ _ hx
        have hw : DecWrites (min 4096 rem) w w1 := hr
        have := hw.trans (dec3_keeps _ _ _ _ _ hx).bcur (ih _ _ _ hcov h)
        rwa [show min 4096 rem + (rem - 4096) = rem by omega] at this

end Sys2Proof.Machine
end

