-- ==== Sys2Proof/Laws/Exec.lean ====
section
/-! SUPPORT. What a command can do, said once: the arms of `exec` while the block is not faulted, and the ends of the unit commands. -/

namespace Sys2Proof.Machine

@[simp] theorem unlessFaulted_ok (s t : State) (h : s.fault = false) : unlessFaulted s t = .next t := by simp [unlessFaulted, h]

@[simp] theorem unlessFaulted_faulted (s t : State) (h : s.fault = true) : unlessFaulted s t = .next s := by simp [unlessFaulted, h]

theorem exec_nop (s : State) (h : s.fault = false) : exec .nop s = .next (complete 0#8 s) := unlessFaulted_ok s _ h

theorem exec_init (s : State) (h : s.fault = false) : exec .init s = .next (complete 0#8 s.freshContext) := unlessFaulted_ok s _ h

theorem exec_srst (s : State) : exec .srst s = .next (resetRegs s) := rfl

theorem exec_norm (s : State) (h : s.fault = false) : exec .norm s = .next (normCommand s) := unlessFaulted_ok s _ h

theorem exec_enc1 (n : Nat) (s : State) (h : s.fault = false) : exec (.enc1 n) s = .next (enc1Command n s) := unlessFaulted_ok s _ h

theorem exec_enc2 (n : Nat) (s : State) (h : s.fault = false) : exec (.enc2 n) s = .next (enc2Command n s) := unlessFaulted_ok s _ h

theorem exec_enc3 (n : Nat) (s : State) (h : s.fault = false) : exec (.enc3 n) s = .next (enc3Command n s) := unlessFaulted_ok s _ h

theorem exec_encode (s : State) (h : s.fault = false) : exec .encode s = .next (encodeCommand s) := unlessFaulted_ok s _ h

theorem exec_dec1 (n : Nat) (nib : Nibble) (s : State) (h : s.fault = false) : exec (.dec1 n nib) s = .next (dec1Command n nib s) :=
  unlessFaulted_ok s _ h

theorem exec_dec2 (n : Nat) (mask : Byte) (s : State) (h : s.fault = false) : exec (.dec2 n mask) s = .next (dec2Command n mask s) :=
  unlessFaulted_ok s _ h

theorem exec_dec3 (n : Nat) (mask : Byte) (s : State) (h : s.fault = false) : exec (.dec3 n mask) s = .next (dec3Command n mask s) :=
  unlessFaulted_ok s _ h

theorem exec_decode (s : State) (h : s.fault = false) : exec .decode s = .next (decodeCommand s) := unlessFaulted_ok s _ h

/-- Every command but `SRST` is ignored while `FAULT = 1` (R119). -/
theorem exec_ignored (i : Instr) (s : State) (h : s.fault = true) (hi : i ≠ .srst) : exec i s = .next s := by
  cases i with
  | srst => exact absurd rfl hi
  | nop => exact unlessFaulted_faulted s _ h
  | init => exact unlessFaulted_faulted s _ h
  | norm => exact unlessFaulted_faulted s _ h
  | enc1 len => exact unlessFaulted_faulted s _ h
  | enc2 len => exact unlessFaulted_faulted s _ h
  | enc3 len => exact unlessFaulted_faulted s _ h
  | encode => exact unlessFaulted_faulted s _ h
  | dec1 len nib => exact unlessFaulted_faulted s _ h
  | dec2 len mask => exact unlessFaulted_faulted s _ h
  | dec3 len mask => exact unlessFaulted_faulted s _ h
  | decode => exact unlessFaulted_faulted s _ h

/-- Every command has a next state. -/
theorem exec_next (i : Instr) (s : State) : ∃ t, exec i s = .next t := by
  by_cases hi : i = .srst
  · subst hi; exact ⟨_, rfl⟩
  · by_cases hf : s.fault = true
    · exact ⟨s, exec_ignored i s hf hi⟩
    · have hf : s.fault = false := by simpa using hf
      cases i with
      | srst => exact absurd rfl hi
      | nop => exact ⟨_, exec_nop s hf⟩
      | init => exact ⟨_, exec_init s hf⟩
      | norm => exact ⟨_, exec_norm s hf⟩
      | enc1 len => exact ⟨_, exec_enc1 len s hf⟩
      | enc2 len => exact ⟨_, exec_enc2 len s hf⟩
      | enc3 len => exact ⟨_, exec_enc3 len s hf⟩
      | encode => exact ⟨_, exec_encode s hf⟩
      | dec1 len nib => exact ⟨_, exec_dec1 len nib s hf⟩
      | dec2 len mask => exact ⟨_, exec_dec2 len mask s hf⟩
      | dec3 len mask => exact ⟨_, exec_dec3 len mask s hf⟩
      | decode => exact ⟨_, exec_decode s hf⟩

theorem faultEntry_eq (r : Raise) (s : State) : faultEntry r s = s.faultedWith r.cause (BitVec.ofNat 32 r.addr) := rfl

/-- A fault that names a register's value records that value. -/
theorem faultEntry_reg (c : Cause) (a : Word) (s : State) : faultEntry ⟨c, a.toNat⟩ s = s.faultedWith c a := by
  rw [faultEntry_eq, BitVec.ofNat_toNat, BitVec.setWidth_eq]

/-! ### The unit commands, by the outcome of their unit -/

theorem enc1Command_ok (n : Nat) (s : State) (v : Nibble) (w : EncWork) (hn : n ≤ 32) (h1 : 1 ≤ n)
    (h : enc1 s.encEnv n s.encWork = .ok (v, w)) : enc1Command n s = complete (v.setWidth 8) (s.commitEnc w) := by
  unfold enc1Command
  rw [if_neg (by omega), if_neg (by omega), h]; rfl

theorem enc1Command_error (n : Nat) (s : State) (r : Raise) (hn : n ≤ 32) (h1 : 1 ≤ n)
    (h : enc1 s.encEnv n s.encWork = .error r) : enc1Command n s = faultEntry r s := by
  unfold enc1Command
  rw [if_neg (by omega), if_neg (by omega), h]; rfl

theorem enc2Command_ok (n : Nat) (s : State) (v : Byte) (w : EncWork) (hn : n ≤ 512)
    (h : enc2 s.encEnv n s.encWork = .ok (v, w)) : enc2Command n s = complete v (s.commitEnc w) := by
  unfold enc2Command
  rw [if_neg (by omega), h]; rfl

theorem enc2Command_error (n : Nat) (s : State) (r : Raise) (hn : n ≤ 512)
    (h : enc2 s.encEnv n s.encWork = .error r) : enc2Command n s = faultEntry r s := by
  unfold enc2Command
  rw [if_neg (by omega), h]; rfl

theorem enc3Command_ok (n : Nat) (s : State) (v : Byte) (w : EncWork) (hn : n ≤ 4096)
    (h : enc3 s.encEnv n s.encWork = .ok (v, w)) : enc3Command n s = complete v (s.commitEnc w) := by
  unfold enc3Command
  rw [if_neg (by omega), h]; rfl

theorem enc3Command_error (n : Nat) (s : State) (r : Raise) (hn : n ≤ 4096)
    (h : enc3 s.encEnv n s.encWork = .error r) : enc3Command n s = faultEntry r s := by
  unfold enc3Command
  rw [if_neg (by omega), h]; rfl

theorem decUnit_ok (size len : Nat) (unit : DecEnv → DecWork → Except Raise DecWork) (s : State) (w : DecWork) (hn : len ≤ size)
    (hc : s.clen.toNat ≤ s.cmSize.toNat) (h : unit s.decEnv s.decWork = .ok w) : decUnit size len unit s = complete 0#8 (s.commitDec w) := by
  unfold decUnit
  rw [if_neg (by omega), if_neg (by omega), h]; rfl

theorem decUnit_error (size len : Nat) (unit : DecEnv → DecWork → Except Raise DecWork) (s : State) (r : Raise) (hn : len ≤ size)
    (hc : s.clen.toNat ≤ s.cmSize.toNat) (h : unit s.decEnv s.decWork = .error r) : decUnit size len unit s = faultEntry r s := by
  unfold decUnit
  rw [if_neg (by omega), if_neg (by omega), h]; rfl

/-- Everything a decode unit command can do: two checks, then its unit's fault or its unit's writes. -/
theorem decUnit_cases (size len : Nat) (unit : DecEnv → DecWork → Except Raise DecWork) (s : State) :
    (len > size ∧ decUnit size len unit s = s.faultedWith .badLen s.bcur) ∨
    (len ≤ size ∧ s.clen.toNat > s.cmSize.toNat ∧ decUnit size len unit s = s.faultedWith .badClen s.bcur) ∨
    (len ≤ size ∧ s.clen.toNat ≤ s.cmSize.toNat ∧
      ((∃ r, unit s.decEnv s.decWork = .error r ∧ decUnit size len unit s = faultEntry r s) ∨
        ∃ w, unit s.decEnv s.decWork = .ok w ∧ decUnit size len unit s = complete 0#8 (s.commitDec w))) := by
  by_cases h1 : len > size
  · left; exact ⟨h1, by unfold decUnit; rw [if_pos h1, faultEntry_reg]⟩
  · right
    by_cases h2 : s.clen.toNat > s.cmSize.toNat
    · left; exact ⟨by omega, h2, by unfold decUnit; rw [if_neg h1, if_pos h2, faultEntry_reg]⟩
    · right
      refine ⟨by omega, by omega, ?_⟩
      cases h : unit s.decEnv s.decWork with
      | error r => exact .inl ⟨r, rfl, decUnit_error _ _ _ _ _ (by omega) (by omega) h⟩
      | ok w => exact .inr ⟨w, rfl, decUnit_ok _ _ _ _ _ (by omega) (by omega) h⟩

/-- Everything `ENC1` can do (R72). -/
theorem enc1Command_cases (n : Nat) (s : State) :
    (n > 32 ∧ enc1Command n s = s.faultedWith .badLen s.bcur) ∨
    (n = 0 ∧ enc1Command n s = complete 0#8 { s with l1mask := 0#32 }) ∨
    (1 ≤ n ∧ n ≤ 32 ∧
      ((∃ r, enc1 s.encEnv n s.encWork = .error r ∧ enc1Command n s = faultEntry r s) ∨
        ∃ v w, enc1 s.encEnv n s.encWork = .ok (v, w) ∧ enc1Command n s = complete (v.setWidth 8) (s.commitEnc w))) := by
  by_cases h1 : n > 32
  · left; exact ⟨h1, by unfold enc1Command; rw [if_pos h1, faultEntry_reg]⟩
  · right
    by_cases h2 : n = 0
    · left; exact ⟨h2, by unfold enc1Command; rw [if_neg h1, if_pos h2]⟩
    · right
      refine ⟨by omega, by omega, ?_⟩
      cases h : enc1 s.encEnv n s.encWork with
      | error r => exact .inl ⟨r, rfl, enc1Command_error _ _ _ (by omega) (by omega) h⟩
      | ok x => obtain ⟨v, w⟩ := x; exact .inr ⟨v, w, rfl, enc1Command_ok _ _ _ _ (by omega) (by omega) h⟩

/-- Everything `ENC2` can do (R77). -/
theorem enc2Command_cases (n : Nat) (s : State) :
    (n > 512 ∧ enc2Command n s = s.faultedWith .badLen s.bcur) ∨
    (n ≤ 512 ∧
      ((∃ r, enc2 s.encEnv n s.encWork = .error r ∧ enc2Command n s = faultEntry r s) ∨
        ∃ v w, enc2 s.encEnv n s.encWork = .ok (v, w) ∧ enc2Command n s = complete v (s.commitEnc w))) := by
  by_cases h1 : n > 512
  · left; exact ⟨h1, by unfold enc2Command; rw [if_pos h1, faultEntry_reg]⟩
  · right
    refine ⟨by omega, ?_⟩
    cases h : enc2 s.encEnv n s.encWork with
    | error r => exact .inl ⟨r, rfl, enc2Command_error _ _ _ (by omega) h⟩
    | ok x => obtain ⟨v, w⟩ := x; exact .inr ⟨v, w, rfl, enc2Command_ok _ _ _ _ (by omega) h⟩

/-- Everything `ENC3` can do (R79). -/
theorem enc3Command_cases (n : Nat) (s : State) :
    (n > 4096 ∧ enc3Command n s = s.faultedWith .badLen s.bcur) ∨
    (n ≤ 4096 ∧
      ((∃ r, enc3 s.encEnv n s.encWork = .error r ∧ enc3Command n s = faultEntry r s) ∨
        ∃ v w, enc3 s.encEnv n s.encWork = .ok (v, w) ∧ enc3Command n s = complete v (s.commitEnc w))) := by
  by_cases h1 : n > 4096
  · left; exact ⟨h1, by unfold enc3Command; rw [if_pos h1, faultEntry_reg]⟩
  · right
    refine ⟨by omega, ?_⟩
    cases h : enc3 s.encEnv n s.encWork with
    | error r => exact .inl ⟨r, rfl, enc3Command_error _ _ _ (by omega) h⟩
    | ok x => obtain ⟨v, w⟩ := x; exact .inr ⟨v, w, rfl, enc3Command_ok _ _ _ _ (by omega) h⟩

/-- Everything `NORM` can do (R63). -/
theorem normCommand_cases (s : State) :
    (s.bitlen.toNat > 8 * s.bmSize.toNat ∧ normCommand s = s.faultedWith .badBitlen 0#32) ∨
    (s.bitlen.toNat ≤ 8 * s.bmSize.toNat ∧ normCommand s = complete 0#8 { s with bm := normalized s.bm s.bitlen.toNat }) := by
  by_cases h : s.bitlen.toNat > 8 * s.bmSize.toNat
  · left; exact ⟨h, by unfold normCommand; rw [if_pos h]; rfl⟩
  · right; exact ⟨by omega, by unfold normCommand; rw [if_neg h]⟩

/-- The region loop of `ENCODE`, from its fresh encoder over the normalised bitmap (R81). -/
def State.encodeRun (s : State) : Except Raise (Byte × EncWork) :=
  encRegions { s.encEnv with bm := normalized s.bm s.bitlen.toNat } (regionCount (nbytes s.bitlen.toNat)) (nbytes s.bitlen.toNat) 0#8
    s.freshEncoder

/-- Everything `ENCODE` can do (R81). -/
theorem encodeCommand_cases (s : State) :
    (s.bitlen.toNat > 8 * s.bmSize.toNat ∧ encodeCommand s = s.faultedWith .badBitlen 0#32) ∨
    (s.bitlen.toNat ≤ 8 * s.bmSize.toNat ∧ wcsize (nbytes s.bitlen.toNat) > s.cmSize.toNat ∧
      encodeCommand s = s.faultedWith .outTooSmall 0#32) ∨
    (s.bitlen.toNat ≤ 8 * s.bmSize.toNat ∧ wcsize (nbytes s.bitlen.toNat) ≤ s.cmSize.toNat ∧
      encodeCommand s = endEncode s (normalized s.bm s.bitlen.toNat) (s.encodeRun.map collapse)) := by
  by_cases h1 : s.bitlen.toNat > 8 * s.bmSize.toNat
  · left; exact ⟨h1, by unfold encodeCommand; simp only; rw [if_pos h1]; rfl⟩
  · right
    by_cases h2 : wcsize (nbytes s.bitlen.toNat) > s.cmSize.toNat
    · left; exact ⟨by omega, h2, by unfold encodeCommand; simp only; rw [if_neg h1, if_pos h2]; rfl⟩
    · right; exact ⟨by omega, by omega, by unfold encodeCommand; simp only; rw [if_neg h1, if_neg h2]; rfl⟩

/-- Everything `DECODE` can do (R95). -/
theorem decodeCommand_cases (s : State) :
    (s.bitlen.toNat > 8 * s.bmSize.toNat ∧ decodeCommand s = s.faultedWith .badBitlen 0#32) ∨
    (s.bitlen.toNat ≤ 8 * s.bmSize.toNat ∧ s.clen.toNat > s.cmSize.toNat ∧ decodeCommand s = s.faultedWith .badClen 0#32) ∨
    (s.bitlen.toNat ≤ 8 * s.bmSize.toNat ∧ s.clen.toNat ≤ s.cmSize.toNat ∧
      ((∃ r, decodeStream s.decEnv (nbytes s.bitlen.toNat) s.bm = .error r ∧ decodeCommand s = faultEntry r s) ∨
        ∃ w, decodeStream s.decEnv (nbytes s.bitlen.toNat) s.bm = .ok w ∧ decodeCommand s = complete 0#8 (s.commitDec w))) := by
  by_cases h1 : s.bitlen.toNat > 8 * s.bmSize.toNat
  · left; exact ⟨h1, by unfold decodeCommand; rw [if_pos h1]; rfl⟩
  · right
    by_cases h2 : s.clen.toNat > s.cmSize.toNat
    · left; exact ⟨by omega, h2, by unfold decodeCommand; rw [if_neg h1, if_pos h2]; rfl⟩
    · right
      refine ⟨by omega, by omega, ?_⟩
      cases h : decodeStream s.decEnv (nbytes s.bitlen.toNat) s.bm with
      | error r => exact .inl ⟨r, rfl, by unfold decodeCommand; rw [if_neg h1, if_neg h2, h]; rfl⟩
      | ok w => exact .inr ⟨w, rfl, by unfold decodeCommand; rw [if_neg h1, if_neg h2, h]; rfl⟩

end Sys2Proof.Machine
end

