-- ==== Sys2Proof/Laws/Whole.lean ====
section
/-! SUPPORT. The whole-buffer commands after their checks: what they can raise, keep and write (R81, R95). -/

namespace Sys2Proof.Machine

theorem encRaise_ne {z c n : Nat} {r : Raise} (h : EncRaise z c n r) : r.cause ≠ .none := by
  rcases h.1 with h | h <;> rw [h] <;> decide

theorem decRaise_ne {z c n : Nat} {r : Raise} (h : DecRaise z c n r) : r.cause ≠ .none := by
  rcases h.1 with h | h | h | h <;> rw [h] <;> decide

theorem encRegions_raises (env : EncEnv) :
    ∀ left rem any w r, Covers 4096 left rem → encRegions env left rem any w = .error r → r.cause = .bmRange ∨ r.cause = .outOverflow := by
  intro left
  induction left with
  | zero => intro rem any w r _ h; cases h
  | succ left ih =>
    intro rem any w r hcov h
    simp only [encRegions, bind, Except.bind] at h
    split at h
    · next hx => cases h; exact (enc3_raises _ _ _ _ hx).1
    · split at h
      · cases h; exact .inr rfl
      · exact ih _ _ _ _ hcov.2 h

/-- What `DECODE` can raise after its checks; `BM_RANGE` only if the bytes do not fit (R109, R115). -/
theorem decodeStream_error (env : DecEnv) (n : Nat) (bm : Memory) (r : Raise) (h : decodeStream env n bm = .error r) :
    (r.cause ∈ [Cause.corruptTruncated, .corruptZeroMask, .corruptMaskRange, .corruptTrailing] ∨
      (r.cause = .bmRange ∧ n > env.bmSize)) ∧ r.addr ≤ n := by
  unfold decodeStream at h
  split at h
  · cases h
  · simp only [bind, Except.bind] at h
    split at h
    · next hx =>
      cases h
      have hr := decRegions_raises _ _ _ _ _ (covers_regions n) hx
      refine ⟨?_, by have := hr.2.2.1; simp only at this; omega⟩
      rcases hr.1 with h | h | h | h
      · right; exact ⟨h, by have := decRegions_bmRange _ _ _ _ _ (covers_regions n) hx h; simp only at this; omega⟩
      all_goals left; simp [h]
    · next w hw =>
      split at h
      · cases h
      · cases h
        have := (decRegions_keeps _ _ _ _ _ (covers_regions n) hw).bcur
        exact ⟨.inl (by simp), by simp only at this ⊢; omega⟩

/-- What a successful `DECODE` keeps and has written (R95). -/
theorem decodeStream_keeps (env : DecEnv) (n : Nat) (bm : Memory) (w : DecWork) (h : decodeStream env n bm = .ok w) (hb : n ≤ env.bmSize) :
    ∃ w0 : DecWork, w0.bm = bm ∧ w0.bcur = 0 ∧ DecKeeps env n w0 w ∧ DecWrites n w0 w ∧ w.ctail = env.clen ∧ w0.matchBit = false := by
  unfold decodeStream at h
  split at h
  · next h0 =>
    cases h
    refine ⟨{ bm := bm, bcur := 0, ctail := 0, matchBit := false }, rfl, rfl,
      ⟨fun hw => Memory.writeBytes_wf _ _ _ hw, fun hw => Memory.writeBytes_within _ _ _ _ hw (by simp; omega),
        fun hw a ha => ?_, by simp, by simp; omega, by simp, .inl rfl⟩,
      ⟨List.replicate n 0#8, by simp, rfl, ?_⟩, h0.symm, rfl⟩
    · simp only at ha ⊢
      rw [Memory.read_writeBytes _ _ _ _ hw, if_neg (by simp; omega)]
    · exact (runAfter_of_isRun false _ (fun b hb => by rw [List.eq_of_mem_replicate hb]; rfl)).symm
  · simp only [bind, Except.bind] at h
    split at h
    · cases h
    · next w1 hw =>
      split at h
      · next hc =>
        cases h
        exact ⟨_, rfl, rfl, decRegions_keeps _ _ _ _ _ (covers_regions n) hw, decRegions_writes _ _ _ _ _ (covers_regions n) hw,
          hc, rfl⟩
      · cases h

/-- A bit length that passes the check gives a byte count inside the bitmap memory (R81). -/
theorem nbytes_le (s : State) (h : s.bitlen.toNat ≤ 8 * s.bmSize.toNat) : nbytes s.bitlen.toNat ≤ s.bmSize.toNat := by
  unfold nbytes; omega

/-- The memory that Level 0 leaves (R63, R81). -/
theorem normalized_read (bm : Memory) (bitlen x : Nat) (h : bm.wf) :
    (normalized bm bitlen).read x =
      if bitlen % 8 ≠ 0 ∧ x = bitlen / 8 then normByte (bm.read x) (bitlen % 8) else bm.read x := by
  unfold normalized sigBits boundaryOffset
  by_cases h0 : bitlen % 8 = 0
  · rw [if_pos h0, if_neg (by omega)]
  · rw [if_neg h0, Memory.read_write _ _ _ _ h]
    by_cases hx : x = bitlen / 8
    · rw [if_pos hx, if_pos ⟨h0, hx⟩, hx]
    · rw [if_neg hx, if_neg (by omega)]

theorem normalized_wf (bm : Memory) (bitlen : Nat) (h : bm.wf) : (normalized bm bitlen).wf := by
  unfold normalized
  split
  · exact h
  · exact Memory.write_wf _ _ _ h

theorem normalized_within (bm : Memory) (bitlen size : Nat) (h : bm.within size) (hb : bitlen ≤ 8 * size) :
    (normalized bm bitlen).within size := by
  unfold normalized sigBits boundaryOffset
  split
  · exact h
  · exact Memory.write_within _ _ _ _ h (by omega)

end Sys2Proof.Machine
end

