-- ==== Sys2Proof/Laws/Fill.lean ====
section
/-! SUPPORT. A decode unit with a zero mask reads nothing and fills its bytes with the run state (R89, R91, R92). -/

namespace Sys2Proof.Machine

/-- What a unit of `n` bytes with a zero mask leaves. -/
def DecWork.fill (w : DecWork) (n : Nat) : DecWork := w.restore (List.replicate n (matchByte w.matchBit)) 0 w.matchBit

theorem DecWork.fill_zero (w : DecWork) : w.fill 0 = w := by
  simp [DecWork.fill, DecWork.restore, Memory.writeBytes]

theorem DecWork.fill_bcur (w : DecWork) (n : Nat) : (w.fill n).bcur = w.bcur + n := by
  simp [DecWork.fill, DecWork.restore]

theorem DecWork.fill_fill (w : DecWork) (n k : Nat) : (w.fill n).fill k = w.fill (n + k) := by
  unfold DecWork.fill
  rw [show (w.restore (List.replicate n (matchByte w.matchBit)) 0 w.matchBit).matchBit = w.matchBit from rfl,
    DecWork.restore_restore, List.replicate_append_replicate]

/-- `Dec1` with a zero nibble. -/
theorem dec1_zero (env : DecEnv) (n : Nat) (w : DecWork) (h : n = 0 ∨ w.bcur + n ≤ env.bmSize) :
    dec1 env n 0#4 w = .ok (w.fill n) := by
  unfold dec1
  rw [if_neg (by simp [nibBeyond])]
  by_cases h0 : n = 0
  · subst h0; rw [if_pos rfl, DecWork.fill_zero]
  · rw [if_neg h0, if_neg (by omega)]
    simp [bind, Except.bind, absentBytes, DecWork.fill, DecWork.restore]

theorem decRound_zero (env : DecEnv) (n : Nat) (w : DecWork) (hn : n ≤ 64) (h : n = 0 ∨ w.bcur + n ≤ env.bmSize) :
    decRound env n 0#8 w = .ok (w.fill n) := by
  unfold decRound
  have hsum : firstChunk n + secondChunk n = n := by unfold firstChunk secondChunk; omega
  rw [pairHigh_zero, pairLow_zero, dec1_zero env _ w (by omega)]
  simp only [bind, Except.bind]
  rw [dec1_zero env _ _ (by rw [DecWork.fill_bcur]; omega), DecWork.fill_fill, hsum]

/-- The inverse block routine under a zero mask. -/
theorem unmaskedBlock_zero (env : DecEnv) (unit : Nat) (child : Nat → Byte → DecWork → Except Raise DecWork)
    (hch : ∀ n w, n ≤ unit → n = 0 ∨ w.bcur + n ≤ env.bmSize → child n 0#8 w = .ok (w.fill n)) :
    ∀ left k rem w, Covers unit left rem → rem = 0 ∨ w.bcur + rem ≤ env.bmSize →
      unmaskedBlock env unit child 0#8 left k rem w = .ok (w.fill rem) := by
  intro left
  induction left with
  | zero =>
    intro k rem w hcov _
    simp only [Covers] at hcov
    subst hcov
    rw [DecWork.fill_zero]; rfl
  | succ left ih =>
    intro k rem w hcov h
    obtain ⟨h1, hcov⟩ := hcov
    simp only [unmaskedBlock]
    rw [if_neg (by simp), hch _ w (Nat.min_le_left _ _) (by omega)]
    simp only [bind, Except.bind]
    rw [ih _ _ _ hcov (by rw [DecWork.fill_bcur]; omega), DecWork.fill_fill, show min unit rem + (rem - unit) = rem by omega]

theorem dec2_zero (env : DecEnv) (n : Nat) (w : DecWork) (h : n = 0 ∨ w.bcur + n ≤ env.bmSize) :
    dec2 env n 0#8 w = .ok (w.fill n) := by
  unfold dec2
  rw [if_neg (by simp [maskBeyond])]
  exact unmaskedBlock_zero env 64 _ (fun n w hn h => decRound_zero env n w hn h) _ _ _ _ (covers_rounds n) h

theorem dec3_zero (env : DecEnv) (n : Nat) (w : DecWork) (h : n = 0 ∨ w.bcur + n ≤ env.bmSize) :
    dec3 env n 0#8 w = .ok (w.fill n) := by
  unfold dec3
  rw [if_neg (by simp [maskBeyond])]
  exact unmaskedBlock_zero env 512 _ (fun n w _ h => dec2_zero env n w h) _ _ _ _ (covers_blocks n) h

end Sys2Proof.Machine
end

