-- ==== Sys2Proof/Laws/Corrupt.lean ====
section
/-! SUPPORT. Where a corrupt stream stops a decode unit: at the first mask byte that its parent marks (R112, R113, R114). -/

namespace Sys2Proof.Machine

theorem cmRead_truncated (env : DecEnv) (t c : Nat) (h : env.clen ≤ t) : cmRead env t c = .error ⟨.corruptTruncated, c⟩ := by
  unfold cmRead
  rw [if_pos h]

theorem cmRead_some (env : DecEnv) (t c : Nat) (h : t < env.clen) : cmRead env t c = .ok (env.cm.read t) := by
  unfold cmRead
  rw [if_neg (by omega)]

theorem markedGroup_truncated (env : DecEnv) (c s : Nat) (m : Bool) (t : Nat) (h : env.clen ≤ t) :
    markedGroup env c s m t = .error ⟨.corruptTruncated, c⟩ := by
  unfold markedGroup
  rw [cmRead_truncated env t c h]
  rfl

theorem markedGroup_zeroMask (env : DecEnv) (c s : Nat) (m : Bool) (t : Nat) (h : t < env.clen) (hz : env.cm.read t = 0x00#8) :
    markedGroup env c s m t = .error ⟨.corruptZeroMask, c⟩ := by
  unfold markedGroup
  rw [cmRead_some env t c h, hz]
  rfl

/-- The mask range test of a group finds every bit for a byte the group does not have. -/
theorem groupMaskBeyond_eq_true (gm : Byte) (s j : Nat) (hs : s ≤ j) (hj : j < 8) (h : hasChild gm j = true) :
    groupMaskBeyond gm s = true := by
  have : ∀ (gm : Byte) (s j : Fin 8), s.val ≤ j.val → hasChild gm j.val = true → groupMaskBeyond gm s.val = true := by
    decide +kernel
  exact this gm ⟨s, by omega⟩ ⟨j, hj⟩ hs h

theorem maskBeyond_eq_true (mask : Byte) (count k : Nat) (hc : count ≤ k) (hk : k < 8) (h : hasChild mask k = true) :
    maskBeyond mask count = true := by
  have : ∀ (mask : Byte) (c k : Fin 8), c.val ≤ k.val → hasChild mask k.val = true → maskBeyond mask c.val = true := by
    decide +kernel
  exact this mask ⟨count, by omega⟩ ⟨k, hk⟩ hc h

theorem nibBeyond_eq_true (nib : Nibble) (n g : Nat) (hn : n ≤ 32) (hg : groupCount n ≤ g) (h4 : g < 4) (h : hasGroup nib g = true) :
    nibBeyond nib n = true := by
  have : ∀ (nib : Nibble) (n : Fin 33) (g : Fin 4), groupCount n ≤ g.val → hasGroup nib g.val = true → nibBeyond nib n.val = true := by
    decide +kernel
  exact this nib ⟨n, by omega⟩ ⟨g, h4⟩ hg h

/-- A nibble that passes the range test and is not zero marks a group the chunk has. -/
theorem marked_of_not_nibBeyond (nib : Nibble) (n : Nat) (hn : n ≤ 32) (hb : nibBeyond nib n = false) (h0 : nib ≠ 0#4) :
    ∃ g, g < groupCount n ∧ hasGroup nib g = true := by
  have : ∀ (nib : Nibble) (n : Fin 33), nibBeyond nib n.val = false → nib ≠ 0#4 →
      ∃ g : Fin 4, g.val < groupCount n ∧ hasGroup nib g = true := by decide +kernel
  obtain ⟨g, h1, h2⟩ := this nib ⟨n, by omega⟩ hb h0
  exact ⟨g, h1, h2⟩

theorem markedGroup_maskRange (env : DecEnv) (c s j : Nat) (m : Bool) (t : Nat) (h : t < env.clen) (hs : s ≤ j) (hj : j < 8)
    (hc : hasChild (env.cm.read t) j = true) : markedGroup env c s m t = .error ⟨.corruptMaskRange, c⟩ := by
  unfold markedGroup
  rw [cmRead_some env t c h]
  simp only [bind, Except.bind]
  rw [if_neg (by intro h0; rw [h0, hasChild_zero] at hc; cases hc), groupMaskBeyond_eq_true _ s j hs hj hc]
  rfl

/-- The first marked group decides: the groups before it read nothing. -/
theorem decodeGroups_first (env : DecEnv) (c n : Nat) (nib : Nibble) (m : Bool) (t : Nat) (r : Raise) (left g : Nat)
    (hm : ∃ k, g ≤ k ∧ k < g + left ∧ hasGroup nib k = true)
    (hr : ∀ k, hasGroup nib k = true → markedGroup env c (groupSize n k) m t = .error r) :
    decodeGroups env c n nib left g m t = .error r := by
  induction left generalizing g with
  | zero => obtain ⟨k, h1, h2, _⟩ := hm; omega
  | succ left ih =>
    simp only [decodeGroups]
    by_cases hg : hasGroup nib g = true
    · rw [if_pos hg, hr g hg]; rfl
    · rw [if_neg hg]
      obtain ⟨k, h1, h2, h3⟩ := hm
      have hne : k ≠ g := by rintro rfl; exact hg h3
      simp only [bind, Except.bind, absentBytes]
      rw [ih (g + 1) ⟨k, by omega, by omega, h3⟩]

/-- A chunk whose first marked group raises. -/
theorem dec1_first (env : DecEnv) (n : Nat) (nib : Nibble) (w : DecWork) (r : Raise) (h1 : 1 ≤ n) (hn : n ≤ 32)
    (hb : w.bcur + n ≤ env.bmSize) (hnb : nibBeyond nib n = false) (h0 : nib ≠ 0#4)
    (hr : ∀ s, markedGroup env w.bcur s w.matchBit w.ctail = .error r)
    (hf : nib = fullNibble n → cmRead env w.ctail w.bcur = .error r ∨ (w.ctail < env.clen ∧ env.cm.read w.ctail ≠ 0x00#8)) :
    dec1 env n nib w = .error r := by
  have hg : decodeGroups env w.bcur n nib (groupCount n) 0 w.matchBit w.ctail = .error r := by
    obtain ⟨g, hg, hm⟩ := marked_of_not_nibBeyond nib n hn hnb h0
    exact decodeGroups_first env w.bcur n nib _ _ r _ 0 ⟨g, by omega, by omega, hm⟩ (fun k _ => hr _)
  have hc : markedChunk env w.bcur n nib w.matchBit w.ctail = .error r := by
    unfold markedChunk
    split
    · next he =>
      rcases hf he with hf | ⟨hlt, hz⟩
      · rw [hf]; rfl
      · rw [cmRead_some _ _ _ hlt]
        simp only [bind, Except.bind]
        rw [if_neg hz, hg]
    · exact hg
  unfold dec1
  rw [hnb]
  simp only [Bool.false_eq_true, if_false]
  rw [if_neg (by omega), if_neg (by omega), if_neg h0, hc]
  rfl

/-- A block or region whose first child is marked and whose mask byte raises. -/
theorem unmaskedBlock_first (env : DecEnv) (unit : Nat) (child : Nat → Byte → DecWork → Except Raise DecWork) (mask : Byte)
    (left rem : Nat) (w : DecWork) (hl : 1 ≤ left) (hm : hasChild mask 0 = true) :
    (env.clen ≤ w.ctail → unmaskedBlock env unit child mask left 0 rem w = .error ⟨.corruptTruncated, w.bcur⟩) ∧
    (w.ctail < env.clen → env.cm.read w.ctail = 0x00#8 →
      unmaskedBlock env unit child mask left 0 rem w = .error ⟨.corruptZeroMask, w.bcur⟩) := by
  obtain ⟨k, rfl⟩ : ∃ k, left = k + 1 := ⟨left - 1, by omega⟩
  simp only [unmaskedBlock]
  rw [if_pos hm]
  refine ⟨fun h => by rw [cmRead_truncated _ _ _ h]; rfl, fun h hz => by rw [cmRead_some _ _ _ h, hz]; rfl⟩

end Sys2Proof.Machine
end

