-- ==== Sys2Proof/Laws/Terms.lean ====
section
/-! SUPPORT. The terms in which the claims are stated: bytes stored, registers reached, run state and last chunk. -/

namespace Sys2Proof.Machine

/-- Writing one byte stores it (R36). -/
theorem stored_write (m : Memory) (a : Nat) (v : Byte) (h : m.wf) : m.Stored (m.write a v) a [v] := by
  refine ⟨Memory.write_wf _ _ _ h, fun x => ?_⟩
  rw [Memory.read_write _ _ _ _ h]
  by_cases hx : x = a
  · subst hx; simp
  · rw [if_neg hx, if_neg (by simp; omega)]

/-- Writing bytes stores them (R39). -/
theorem stored_writeBytes (m : Memory) (a : Nat) (vs : List Byte) (h : m.wf) : m.Stored (m.writeBytes a vs) a vs :=
  ⟨Memory.writeBytes_wf _ _ _ h, fun _ => Memory.read_writeBytes _ _ _ _ h⟩

/-- Every register stands at its offset (R13). -/
theorem regAt_offset (r : Reg) : regAt (regOffset r) = some r := by cases r <;> decide

/-- The run state after some bytes is `Next` of the last one (R69). -/
theorem runAfter_last (m : Bool) (bs : List Byte) (h : bs ≠ []) : runAfter m bs = nextBit (bs.getD (bs.length - 1) 0#8) := by
  induction bs generalizing m with
  | nil => exact absurd rfl h
  | cons b bs ih =>
    rw [runAfter_cons]
    by_cases hb : bs = []
    · subst hb; rfl
    · rw [ih _ hb]
      have := List.length_pos_iff.mpr hb
      rw [show (b :: bs).length - 1 = (bs.length - 1) + 1 by simp; omega]
      simp

theorem runAfter_read (m : Bool) (bm : Memory) (a n : Nat) (h : 1 ≤ n) :
    runAfter m (bm.readBytes a n) = nextBit (bm.read (a + n - 1)) := by
  rw [runAfter_last _ _ (by intro hc; have := congrArg List.length hc; simp at this; omega)]
  rw [Memory.readBytes_length, Memory.readBytes_getD _ _ _ _ (by omega)]
  rw [show a + (n - 1) = a + n - 1 by omega]

/-- The anti-expansion check leaves the byte-presence vector (R67). -/
theorem chunkCode_vec (m : Bool) (bs : List Byte) : (chunkCode m bs).vec = (maskedPass m bs).vec := by
  rcases chunkCode_cases m bs with ⟨he, _⟩ | ⟨_, _, he⟩ <;> rw [he]

theorem encodeGroups_vec_of_isRun (m : Bool) (g count : Nat) (bs : List Byte) (h : IsRun m bs) :
    (encodeGroups m g (groupsOf count bs)).vec = 0#32 := by
  induction count generalizing g bs with
  | zero => rfl
  | succ count ih =>
    obtain ⟨h1, h2⟩ := (isRun_split m bs 8).mp h
    rw [encodeGroups_cons, runAfter_of_isRun m _ h1]
    simp only
    rw [ih (g + 1) _ h2, encodeGroup_of_isRun m 0 _ h1]
    simp

/-- A run has no literal, so its byte-presence vector is zero (R25, R71). -/
theorem maskedPass_vec_of_isRun (m : Bool) (bs : List Byte) (h : IsRun m bs) : (maskedPass m bs).vec = 0#32 :=
  encodeGroups_vec_of_isRun m 0 _ bs h

end Sys2Proof.Machine
end

