-- ==== Sys2Proof/Laws/Literals.lean ====
section
/-! SUPPORT. The literals of a unit, counted by position (R56, R66, R69): what the byte-by-byte pass of the encoder computes, said of
the positions of the literals. -/

namespace Sys2Proof.Machine

theorem literalAt_left (m : Bool) (as bs : List Byte) (i : Nat) (h : i < as.length) : literalAt m (as ++ bs) i = literalAt m as i := by
  induction as generalizing m i with
  | nil => simp at h
  | cons a as ih =>
    cases i with
    | zero => rfl
    | succ i => rw [List.cons_append, literalAt_succ, literalAt_succ]; exact ih _ i (by simpa using h)

theorem literalAt_right (m : Bool) (as bs : List Byte) (i : Nat) :
    literalAt m (as ++ bs) (as.length + i) = literalAt (runAfter m as) bs i := by
  induction as generalizing m with
  | nil => simp
  | cons a as ih =>
    rw [List.cons_append, List.length_cons, show as.length + 1 + i = as.length + i + 1 by omega, literalAt_succ, ih]
    rfl

/-- Positions of a window of a list are positions of the window. -/
theorem literalAt_window (m : Bool) (bs : List Byte) (lo w i : Nat) (h : i < ((bs.drop lo).take w).length) :
    literalAt m bs (lo + i) = literalAt (runAfter m (bs.take lo)) ((bs.drop lo).take w) i := by
  have hl : (bs.take lo).length = lo := by simp at h ⊢; omega
  conv => lhs; rw [← List.take_append_drop lo bs, ← List.take_append_drop w (bs.drop lo)]
  conv => lhs; arg 3; rw [← hl]
  rw [literalAt_right, literalAt_left _ _ _ _ h]

theorem filter_range_add (p : Nat → Bool) (n k : Nat) :
    (List.range (n + k)).filter p = (List.range n).filter p ++ ((List.range k).filter fun i => p (n + i)).map (n + ·) := by
  rw [List.range_add, List.filter_append, List.filter_map]
  rfl

/-- The positions of a window that satisfy `p`. -/
theorem filter_window (p : Nat → Bool) (n lo w : Nat) :
    (List.range n).filter (fun i => lo ≤ i && i < lo + w && p i) =
      ((List.range (min w (n - lo))).filter fun i => p (lo + i)).map (lo + ·) := by
  by_cases hn : n ≤ lo
  · rw [show n - lo = 0 by omega]
    simp only [Nat.min_zero, List.range_zero, List.filter_nil, List.map_nil, List.filter_eq_nil_iff, List.mem_range]
    intro i hi
    simp; omega
  · obtain ⟨r, rfl⟩ : ∃ r, n = lo + r := ⟨n - lo, by omega⟩
    rw [filter_range_add, show lo + r - lo = r by omega]
    have h1 : (List.range lo).filter (fun i => lo ≤ i && i < lo + w && p i) = [] := by
      rw [List.filter_eq_nil_iff]
      intro i hi
      have := List.mem_range.mp hi
      simp; omega
    have h2 : (List.range (r - min w r)).filter (fun i => decide (lo ≤ lo + (min w r + i)) && decide (lo + (min w r + i) < lo + w) && p (lo + (min w r + i))) = [] := by
      rw [List.filter_eq_nil_iff]
      intro i hi
      have := List.mem_range.mp hi
      simp; omega
    rw [h1, List.nil_append]
    congr 1
    conv => lhs; rw [show r = min w r + (r - min w r) by omega]
    rw [filter_range_add, h2]
    simp only [List.map_nil, List.append_nil]
    refine List.filter_congr (fun i hi => ?_)
    have := List.mem_range.mp hi
    have h3 : i < w := by omega
    simp [h3]

/-- Literals of a window, by position inside it. -/
theorem literals_window (m : Bool) (bs : List Byte) (lo w : Nat) :
    (List.range bs.length).filter (fun i => lo ≤ i && i < lo + w && literalAt m bs i) =
      ((List.range ((bs.drop lo).take w).length).filter (literalAt (runAfter m (bs.take lo)) ((bs.drop lo).take w))).map (lo + ·) := by
  rw [filter_window]
  congr 1
  have hl : ((bs.drop lo).take w).length = min w (bs.length - lo) := by simp
  rw [hl]
  refine List.filter_congr (fun i hi => ?_)
  exact literalAt_window m bs lo w i (by rw [hl]; exact List.mem_range.mp hi)

theorem any_eq_filter (p : Nat → Bool) (l : List Nat) : l.any p = !(l.filter p).isEmpty := by
  induction l with
  | nil => rfl
  | cons a l ih => cases h : p a <;> simp [h, ih]

/-- Some byte of a window is a literal exactly when the window is not a run. -/
theorem literalIn_iff (m : Bool) (bs : List Byte) (lo w : Nat) :
    literalIn m bs lo (lo + w) = true ↔ ¬ IsRun (runAfter m (bs.take lo)) ((bs.drop lo).take w) := by
  unfold literalIn
  rw [any_eq_filter, literals_window, isRun_iff_no_literal]
  simp [List.filter_eq_nil_iff]

/-- A group's literals, by position (R66). -/
theorem encodeGroup_lits (m : Bool) (j : Nat) (bs : List Byte) :
    (encodeGroup m j bs).lits = ((List.range bs.length).filter (literalAt m bs)).map (fun i => bs.getD i 0#8) := by
  induction bs generalizing m j with
  | nil => rfl
  | cons b bs ih =>
    rw [List.length_cons, List.range_succ_eq_map, List.filter_cons, List.filter_map]
    have hcomp : (literalAt m (b :: bs)) ∘ Nat.succ = literalAt (nextBit b) bs := by funext i; simp
    rw [hcomp, literalAt_zero]
    by_cases hb : b = matchByte m
    · subst hb
      rw [encodeGroup_skip, ih, nextBit_matchByte]
      simp [Function.comp_def]
    · rw [encodeGroup_literal m j b bs hb]
      simp only
      rw [ih]
      simp [hb, Function.comp_def]

/-- Two byte masks with the same eight bits are equal. -/
theorem mask_ext (a b : Byte) (h : ∀ k, k < 8 → hasChild a k = hasChild b k) : a = b := by
  refine BitVec.eq_of_getLsbD_eq (fun i hi => ?_)
  have := h (7 - i) (by omega)
  rwa [hasChild_eq_getLsbD _ _ (by omega), hasChild_eq_getLsbD _ _ (by omega), show 7 - (7 - i) = i by omega] at this

theorem hasChild_foldl (l : List Nat) (hl : ∀ j ∈ l, j < 8) (acc : Byte) (k : Nat) (hk : k < 8) :
    hasChild (l.foldl (fun acc j => acc ||| childBit j) acc) k = (hasChild acc k || l.any fun j => decide (j = k)) := by
  induction l generalizing acc with
  | nil => simp
  | cons j l ih =>
    rw [List.foldl_cons, ih (fun i hi => hl i (by simp [hi])), hasChild_or _ _ k hk, hasChild_childBit j k (hl j (by simp)) hk]
    simp [Bool.or_assoc]

/-- A group's mask byte, by position (R56). -/
theorem groupMaskOf_eq (m : Bool) (bs : List Byte) (g : Nat) :
    groupMaskOf m bs g = (encodeGroup (runAfter m (bs.take (8 * g))) 0 ((bs.drop (8 * g)).take 8)).mask := by
  refine mask_ext _ _ (fun k hk => ?_)
  rw [encodeGroup_hasChild _ _ _ _ hk]
  unfold groupMaskOf
  rw [hasChild_foldl _ (fun j hj => by have := List.mem_range.mp (List.mem_filter.mp hj).1; omega) _ k hk]
  simp only [hasChild_zero, Bool.false_or, Nat.zero_le, true_and, Nat.zero_add, Nat.sub_zero]
  have h1 : (((List.range 8).filter fun j => literalIn m bs (8 * g + j) (8 * g + j + 1)).any fun j => decide (j = k)) =
      literalIn m bs (8 * g + k) (8 * g + k + 1) := by
    rw [Bool.eq_iff_iff]
    simp only [List.any_eq_true, List.mem_filter, List.mem_range, decide_eq_true_eq]
    constructor
    · rintro ⟨j, ⟨_, h⟩, rfl⟩; exact h
    · intro h; exact ⟨k, ⟨hk, h⟩, rfl⟩
  rw [h1]
  by_cases hlt : k < ((bs.drop (8 * g)).take 8).length
  · have hn : 8 * g + k < bs.length := by simp at hlt; omega
    rw [← literalAt_window m bs (8 * g) 8 k hlt]
    simp only [hlt, decide_true, Bool.true_and]
    unfold literalIn
    rw [Bool.eq_iff_iff]
    simp only [List.any_eq_true, List.mem_range, Bool.and_eq_true, decide_eq_true_eq]
    constructor
    · rintro ⟨i, _, ⟨h1, h2⟩, h⟩; rwa [show 8 * g + k = i by omega]
    · intro h; exact ⟨_, hn, ⟨by omega, by omega⟩, h⟩
  · have hn : bs.length ≤ 8 * g + k := by simp at hlt; omega
    simp only [hlt, decide_false, Bool.false_and]
    unfold literalIn
    rw [Bool.eq_false_iff]
    simp only [ne_eq, List.any_eq_true, List.mem_range, Bool.and_eq_true, decide_eq_true_eq, not_exists, not_and]
    intro i hi; omega

/-- A group's literals, by position in the chunk (R56). -/
theorem groupLiteralsOf_eq (m : Bool) (bs : List Byte) (g : Nat) :
    groupLiteralsOf m bs g = (encodeGroup (runAfter m (bs.take (8 * g))) 0 ((bs.drop (8 * g)).take 8)).lits := by
  rw [encodeGroup_lits]
  unfold groupLiteralsOf
  rw [literals_window, List.map_map]
  refine List.map_congr_left (fun i hi => ?_)
  have hlt := List.mem_range.mp (List.mem_filter.mp hi).1
  have h1 : i < 8 := by simp at hlt; omega
  simp only [Function.comp, List.getD_eq_getElem?_getD]
  rw [List.getElem?_take_of_lt h1, List.getElem?_drop]

theorem encodeGroup_mask_ne (m : Bool) (bs : List Byte) (h8 : bs.length ≤ 8) : (encodeGroup m 0 bs).mask ≠ 0#8 ↔ ¬ IsRun m bs := by
  refine not_congr ⟨fun h => ?_, encodeGroup_of_isRun m 0 bs⟩
  exact (isRun_iff_replicate m bs).mpr (encodeGroup_run m 0 bs ((encodeGroup_mask_eq_zero m 0 bs (by omega)).mp h)).1

/-- What the groups of a chunk add to the staging buffer, by position (R56, R66). -/
theorem encodeGroups_stage (m : Bool) (bs : List Byte) (count g : Nat) :
    (encodeGroups (runAfter m (bs.take (8 * g))) g (groupsOf count (bs.drop (8 * g)))).stage =
      (List.range' g count).flatMap fun g =>
        if literalIn m bs (8 * g) (8 * g + 8) then groupMaskOf m bs g :: groupLiteralsOf m bs g else [] := by
  induction count generalizing g with
  | zero => rfl
  | succ count ih =>
    rw [encodeGroups_cons, List.range'_succ, List.flatMap_cons]
    simp only
    have hra : runAfter (runAfter m (bs.take (8 * g))) ((bs.drop (8 * g)).take 8) = runAfter m (bs.take (8 * (g + 1))) := by
      rw [← runAfter_append, ← List.take_add]; rfl
    rw [hra, List.drop_drop, show 8 * g + 8 = 8 * (g + 1) by omega, ih]
    congr 1
    rw [groupMaskOf_eq, groupLiteralsOf_eq]
    unfold GroupCode.bytes
    by_cases h : literalIn m bs (8 * g) (8 * g + 8) = true
    · rw [show 8 * (g + 1) = 8 * g + 8 by omega, if_pos h,
        if_neg ((encodeGroup_mask_ne _ _ (by simp)).mpr ((literalIn_iff m bs (8 * g) 8).mp h))]
    · rw [show 8 * (g + 1) = 8 * g + 8 by omega, if_neg h, if_pos]
      exact Classical.not_not.mp (fun hm => h ((literalIn_iff m bs (8 * g) 8).mpr ((encodeGroup_mask_ne _ _ (by simp)).mp hm)))

/-- The masked pass stages the masked form (R56, R66). -/
theorem maskedPass_stage (m : Bool) (bs : List Byte) : (maskedPass m bs).stage = maskedForm m bs := by
  have := encodeGroups_stage m bs (groupCount bs.length) 0
  simp only [Nat.mul_zero, List.take_zero, List.drop_zero, runAfter_nil] at this
  unfold maskedPass maskedForm
  rw [this, List.range_eq_range']

/-- The nibble marks the groups that hold a literal (R66). -/
theorem encodeGroups_hasGroup (m : Bool) (bs : List Byte) (count g k : Nat) (h4 : g + count ≤ 4) (hk : k < 4) :
    hasGroup (encodeGroups (runAfter m (bs.take (8 * g))) g (groupsOf count (bs.drop (8 * g)))).nib k =
      (decide (g ≤ k ∧ k < g + count) && literalIn m bs (8 * k) (8 * k + 8)) := by
  induction count generalizing g with
  | zero =>
    have : decide (g ≤ k ∧ k < g + 0) = false := by rw [decide_eq_false_iff_not]; omega
    rw [this, Bool.false_and]
    exact hasGroup_zero k
  | succ count ih =>
    rw [encodeGroups_cons]
    simp only
    have hra : runAfter (runAfter m (bs.take (8 * g))) ((bs.drop (8 * g)).take 8) = runAfter m (bs.take (8 * (g + 1))) := by
      rw [← runAfter_append, ← List.take_add]; rfl
    rw [hra, List.drop_drop, show 8 * g + 8 = 8 * (g + 1) by omega, hasGroup_or _ _ k hk, ih (g + 1) (by omega)]
    have hb : hasGroup ((encodeGroup (runAfter m (bs.take (8 * g))) 0 ((bs.drop (8 * g)).take 8)).nibBit g) k =
        (decide (g = k) && literalIn m bs (8 * k) (8 * k + 8)) := by
      unfold GroupCode.nibBit
      by_cases h : literalIn m bs (8 * g) (8 * g + 8) = true
      · rw [if_neg ((encodeGroup_mask_ne _ _ (by simp)).mpr ((literalIn_iff m bs (8 * g) 8).mp h)), hasGroup_groupBit g k (by omega) hk]
        by_cases hgk : g = k
        · subst hgk; simp [h]
        · simp [hgk]
      · rw [if_pos (Classical.not_not.mp (fun hm => h ((literalIn_iff m bs (8 * g) 8).mpr ((encodeGroup_mask_ne _ _ (by simp)).mp hm)))),
          hasGroup_zero]
        by_cases hgk : g = k
        · subst hgk; simp [h]
        · simp [hgk]
    rw [hb, ← Bool.and_or_distrib_right]
    congr 1
    rw [Bool.eq_iff_iff]
    simp only [Bool.or_eq_true, decide_eq_true_eq]
    omega

theorem literalIn_beyond (m : Bool) (bs : List Byte) (lo hi : Nat) (h : bs.length ≤ lo) : literalIn m bs lo hi = false := by
  unfold literalIn
  rw [Bool.eq_false_iff]
  simp only [ne_eq, List.any_eq_true, List.mem_range, Bool.and_eq_true, decide_eq_true_eq, not_exists, not_and]
  intro i hi; omega

theorem maskedPass_hasGroup (m : Bool) (bs : List Byte) (hn : bs.length ≤ 32) (k : Nat) (hk : k < 4) :
    hasGroup (maskedPass m bs).nib k = literalIn m bs (8 * k) (8 * k + 8) := by
  have := encodeGroups_hasGroup m bs (groupCount bs.length) 0 k (by have := groupCount_le _ hn; omega) hk
  simp only [Nat.mul_zero, List.take_zero, List.drop_zero, runAfter_nil, Nat.zero_add, Nat.zero_le, true_and] at this
  unfold maskedPass
  rw [this]
  by_cases hc : k < groupCount bs.length
  · simp [hc]
  · rw [literalIn_beyond m bs _ _ (by unfold groupCount at hc; omega)]; simp

/-- The length of the masked form: a byte for each literal and one for each marked group (R67). -/
theorem encodeGroups_length (m : Bool) (bs : List Byte) (count g : Nat) (hc : bs.length - 8 * g ≤ 8 * count) :
    (encodeGroups (runAfter m (bs.take (8 * g))) g (groupsOf count (bs.drop (8 * g)))).stage.length =
      ((List.range (bs.drop (8 * g)).length).filter (literalAt (runAfter m (bs.take (8 * g))) (bs.drop (8 * g)))).length +
      ((List.range' g count).filter fun g => literalIn m bs (8 * g) (8 * g + 8)).length := by
  induction count generalizing g with
  | zero => rw [List.length_drop, show bs.length - 8 * g = 0 by omega]; rfl
  | succ count ih =>
    rw [encodeGroups_cons, List.range'_succ, List.filter_cons]
    simp only [List.length_append]
    have hra : runAfter (runAfter m (bs.take (8 * g))) ((bs.drop (8 * g)).take 8) = runAfter m (bs.take (8 * (g + 1))) := by
      rw [← runAfter_append, ← List.take_add]; rfl
    rw [hra, List.drop_drop, show 8 * g + 8 = 8 * (g + 1) by omega, ih (g + 1) (by omega)]
    have hsplit : ((List.range (bs.drop (8 * g)).length).filter (literalAt (runAfter m (bs.take (8 * g))) (bs.drop (8 * g)))).length =
        (encodeGroup (runAfter m (bs.take (8 * g))) 0 ((bs.drop (8 * g)).take 8)).lits.length +
        ((List.range (bs.drop (8 * (g + 1))).length).filter (literalAt (runAfter m (bs.take (8 * (g + 1)))) (bs.drop (8 * (g + 1))))).length := by
      generalize hxs : bs.drop (8 * g) = xs
      have hd : bs.drop (8 * (g + 1)) = xs.drop 8 := by rw [← hxs, List.drop_drop]; rfl
      rw [hxs] at hra
      rw [hd, ← hra]
      generalize runAfter m (bs.take (8 * g)) = m'
      rw [encodeGroup_lits, List.length_map]
      have hl : xs.length = (xs.take 8).length + (xs.drop 8).length := by simp; omega
      rw [hl, filter_range_add, List.length_append, List.length_map]
      congr 2
      · refine List.filter_congr (fun i hi => ?_)
        have := literalAt_left m' (xs.take 8) (xs.drop 8) i (List.mem_range.mp hi)
        rwa [List.take_append_drop] at this
      · refine List.filter_congr (fun i hi => ?_)
        have := literalAt_right m' (xs.take 8) (xs.drop 8) i
        rwa [List.take_append_drop] at this
    rw [hsplit]
    unfold GroupCode.bytes
    by_cases h : literalIn m bs (8 * g) (8 * g + 8) = true
    · rw [show 8 * (g + 1) = 8 * g + 8 by omega, h,
        if_neg ((encodeGroup_mask_ne _ _ (by simp)).mpr ((literalIn_iff m bs (8 * g) 8).mp h))]
      simp only [List.length_cons, if_true]
      omega
    · have hm : (encodeGroup (runAfter m (bs.take (8 * g))) 0 ((bs.drop (8 * g)).take 8)).mask = 0#8 :=
        Classical.not_not.mp (fun hm => h ((literalIn_iff m bs (8 * g) 8).mpr ((encodeGroup_mask_ne _ _ (by simp)).mp hm)))
      have hl := (encodeGroup_mask_eq_zero (runAfter m (bs.take (8 * g))) 0 ((bs.drop (8 * g)).take 8) (by simp)).mp hm
      rw [show 8 * (g + 1) = 8 * g + 8 by omega, if_neg h, if_pos hm, hl]
      simp

theorem maskedForm_length (m : Bool) (bs : List Byte) : (maskedForm m bs).length = literalCount m bs + markedGroupCount m bs := by
  rw [← maskedPass_stage]
  have := encodeGroups_length m bs (groupCount bs.length) 0 (by have := groupCount_covers bs.length; omega)
  simp only [Nat.mul_zero, List.take_zero, List.drop_zero, runAfter_nil] at this
  unfold maskedPass literalCount markedGroupCount
  rw [this, List.range_eq_range' (n := groupCount bs.length)]

/-- The bits of the byte-presence vector (R25, R66). -/
theorem encodeGroups_vec (m : Bool) (bs : List Byte) (count g i : Nat) (h4 : g + count ≤ 4) (hi : i < 32)
    (hc : bs.length - 8 * g ≤ 8 * count) :
    (encodeGroups (runAfter m (bs.take (8 * g))) g (groupsOf count (bs.drop (8 * g)))).vec.getLsbD (31 - i) =
      (decide (8 * g ≤ i ∧ i < bs.length) && literalAt m bs i) := by
  induction count generalizing g with
  | zero => simp [groupsOf, encodeGroups]; omega
  | succ count ih =>
    rw [encodeGroups_cons]
    simp only
    have hra : runAfter (runAfter m (bs.take (8 * g))) ((bs.drop (8 * g)).take 8) = runAfter m (bs.take (8 * (g + 1))) := by
      rw [← runAfter_append, ← List.take_add]; rfl
    rw [hra, List.drop_drop, show 8 * g + 8 = 8 * (g + 1) by omega, BitVec.getLsbD_or, ih (g + 1) (by omega) (by omega)]
    have hb : ((encodeGroup (runAfter m (bs.take (8 * g))) 0 ((bs.drop (8 * g)).take 8)).mask.setWidth 32 <<< (24 - 8 * g)).getLsbD (31 - i) =
        (decide (8 * g ≤ i ∧ i < 8 * g + 8 ∧ i < bs.length) && literalAt m bs i) := by
      rw [BitVec.getLsbD_shiftLeft, BitVec.getLsbD_setWidth]
      by_cases hw : 8 * g ≤ i ∧ i < 8 * g + 8
      · have hk : 7 - (i - 8 * g) = 31 - i - (24 - 8 * g) := by omega
        have h1 := hasChild_eq_getLsbD (encodeGroup (runAfter m (bs.take (8 * g))) 0 ((bs.drop (8 * g)).take 8)).mask (i - 8 * g) (by omega)
        rw [hk] at h1
        rw [← h1, encodeGroup_hasChild _ _ _ _ (by omega)]
        have hlen : ((bs.drop (8 * g)).take 8).length = min 8 (bs.length - 8 * g) := by simp
        by_cases hlt : i < bs.length
        · have h2 := literalAt_window m bs (8 * g) 8 (i - 8 * g) (by omega)
          rw [show 8 * g + (i - 8 * g) = i by omega] at h2
          rw [h2]
          simp only [Nat.sub_zero, Nat.zero_le, true_and, Nat.zero_add, hlen]
          have a1 : decide (31 - i < 32) = true := by simp; omega
          have a2 : decide (31 - i < 24 - 8 * g) = false := by simp; omega
          have a3 : decide (31 - i - (24 - 8 * g) < 32) = true := by simp; omega
          have a4 : decide (i - 8 * g < min 8 (bs.length - 8 * g)) = true := by simp; omega
          have a5 : decide (8 * g ≤ i ∧ i < 8 * g + 8 ∧ i < bs.length) = true := by simp; omega
          rw [a1, a2, a3, a4, a5]; simp
        · have a4 : decide (0 ≤ i - 8 * g ∧ i - 8 * g < 0 + ((bs.drop (8 * g)).take 8).length) = false := by rw [hlen]; simp; omega
          have a5 : decide (8 * g ≤ i ∧ i < 8 * g + 8 ∧ i < bs.length) = false := by simp; omega
          rw [a4, a5]; simp
      · have a5 : decide (8 * g ≤ i ∧ i < 8 * g + 8 ∧ i < bs.length) = false := by simp; omega
        rw [a5]
        by_cases hlo : i < 8 * g
        · have : 8 ≤ 31 - i - (24 - 8 * g) := by omega
          rw [BitVec.getLsbD_of_ge _ _ this]; simp
        · have a2 : decide (31 - i < 24 - 8 * g) = true := by simp; omega
          rw [a2]; simp
    rw [hb, ← Bool.and_or_distrib_right]
    congr 1
    rw [Bool.eq_iff_iff]
    simp only [Bool.or_eq_true, decide_eq_true_eq]
    omega

theorem maskedPass_vec (m : Bool) (bs : List Byte) (hn : bs.length ≤ 32) (i : Nat) (hi : i < 32) :
    (maskedPass m bs).vec.getLsbD (31 - i) = (decide (i < bs.length) && literalAt m bs i) := by
  have := encodeGroups_vec m bs (groupCount bs.length) 0 i (by have := groupCount_le _ hn; omega) hi
    (by have := groupCount_covers bs.length; omega)
  simpa [maskedPass] using this

/-- The bit of a child in its parent's mask, by the positions of the literals (R53, R54). -/
theorem childrenCode_hasChild (size : Nat) (child : Bool → List Byte → UnitCode)
    (hmb : ∀ m bs, (child m bs).matchBit = runAfter m bs)
    (hch : ∀ m bs, bs.length ≤ size → ((child m bs).mask = 0#8 ↔ IsRun m bs)) (m : Bool) (bs : List Byte)
    (left k i : Nat) (h8 : k + left ≤ 8) (hi : i < 8) :
    hasChild (childrenCode size child left k (runAfter m (bs.take (size * k))) (bs.drop (size * k))).mask i =
      (decide (k ≤ i ∧ i < k + left) && literalIn m bs (size * i) (size * i + size)) := by
  induction left generalizing k with
  | zero =>
    have : decide (k ≤ i ∧ i < k + 0) = false := by rw [decide_eq_false_iff_not]; omega
    rw [this, Bool.false_and]
    exact hasChild_zero i
  | succ left ih =>
    simp only [childrenCode]
    have hra : runAfter (runAfter m (bs.take (size * k))) ((bs.drop (size * k)).take size) = runAfter m (bs.take (size * (k + 1))) := by
      rw [← runAfter_append, ← List.take_add, Nat.mul_succ]
    rw [hmb, hra, List.drop_drop, ← Nat.mul_succ, hasChild_or _ _ i hi, UnitCode.maskBit_below _ _ _ (by omega) hi, ih (k + 1) (by omega)]
    have hb : (decide (k = i) && decide ((child (runAfter m (bs.take (size * k))) ((bs.drop (size * k)).take size)).mask ≠ 0#8)) =
        (decide (k = i) && literalIn m bs (size * i) (size * i + size)) := by
      by_cases hki : k = i
      · subst hki
        congr 1
        rw [Bool.eq_iff_iff, decide_eq_true_eq, literalIn_iff]
        exact not_congr (hch _ _ (by simp))
      · simp [hki]
    rw [hb, ← Bool.and_or_distrib_right]
    congr 1
    rw [Bool.eq_iff_iff]
    simp only [Bool.or_eq_true, decide_eq_true_eq]
    omega

theorem blockCode_hasChild (m : Bool) (bs : List Byte) (hn : bs.length ≤ 512) (k : Nat) (hk : k < 8) :
    hasChild (blockCode m bs).mask k = literalIn m bs (64 * k) (64 * k + 64) := by
  have := childrenCode_hasChild 64 roundCode roundCode_matchBit roundCode_mask_eq_zero m bs (roundCount bs.length) 0 k
    (by have := roundCount_le _ hn; omega) hk
  simp only [Nat.mul_zero, List.take_zero, List.drop_zero, runAfter_nil, Nat.zero_add, Nat.zero_le, true_and] at this
  unfold blockCode
  rw [this]
  by_cases hc : k < roundCount bs.length
  · simp [hc]
  · rw [literalIn_beyond m bs _ _ (by unfold roundCount at hc; omega)]; simp

theorem regionCode_hasChild (m : Bool) (bs : List Byte) (hn : bs.length ≤ 4096) (k : Nat) (hk : k < 8) :
    hasChild (regionCode m bs).mask k = literalIn m bs (512 * k) (512 * k + 512) := by
  have := childrenCode_hasChild 512 blockCode blockCode_matchBit blockCode_mask_eq_zero m bs (blockCount bs.length) 0 k
    (by have := blockCount_le _ hn; omega) hk
  simp only [Nat.mul_zero, List.take_zero, List.drop_zero, runAfter_nil, Nat.zero_add, Nat.zero_le, true_and] at this
  unfold regionCode
  rw [this]
  by_cases hc : k < blockCount bs.length
  · simp [hc]
  · rw [literalIn_beyond m bs _ _ (by unfold blockCount at hc; omega)]; simp

end Sys2Proof.Machine
end

