-- ==== Sys2Proof/Laws/Prefix.lean ====
section
/-! SUPPORT. A unit that has come to its child `k`: what it has done is the same unit, shorter; what is left is the loop from child
`k` on (R74, R89, R91, R92). -/

namespace Sys2Proof.Machine

/-! ### Masks of the first children -/

theorem hasChild_first (mask : Byte) (k i : Nat) (hi : i < k) (hk : k ≤ 8) : hasChild (mask &&& topBits 8 k) i = hasChild mask i := by
  have : ∀ (mask : Byte) (k : Fin 9) (i : Fin 8), i.val < k.val → hasChild (mask &&& topBits 8 k.val) i.val = hasChild mask i.val := by
    decide +kernel
  exact this mask ⟨k, by omega⟩ ⟨i, by omega⟩ hi

theorem maskBeyond_first (mask : Byte) (k : Nat) (hk : k ≤ 8) : maskBeyond (mask &&& topBits 8 k) k = false := by
  have : ∀ (mask : Byte) (k : Fin 9), maskBeyond (mask &&& topBits 8 k.val) k.val = false := by decide +kernel
  exact this mask ⟨k, by omega⟩

theorem hasGroup_first (nib : Nibble) (g i : Nat) (hi : i < g) (hg : g ≤ 4) : hasGroup (nib &&& topBits 4 g) i = hasGroup nib i := by
  have : ∀ (nib : Nibble) (g : Fin 5) (i : Fin 4), i.val < g.val → hasGroup (nib &&& topBits 4 g.val) i.val = hasGroup nib i.val := by
    decide
  exact this nib ⟨g, by omega⟩ ⟨i, by omega⟩ hi

theorem topBits_zero (w : Nat) : topBits w 0 = 0#w := by
  unfold topBits
  rw [Nat.sub_zero]
  ext i hi
  simp

/-! ### Encode units -/

theorem maskedBlock_split (env : EncEnv) (unit : Nat) (child : Nat → EncWork → Except Raise (Byte × EncWork)) (k left j rem : Nat)
    (res : Byte) (w : EncWork) :
    maskedBlock env unit child (k + left) j rem res w =
      (maskedBlock env unit child k j rem res w).bind fun x => maskedBlock env unit child left (j + k) (rem - unit * k) x.1 x.2 := by
  induction k generalizing j rem res w with
  | zero => simp [maskedBlock, Except.bind]
  | succ k ih =>
    rw [show k + 1 + left = k + left + 1 by omega]
    simp only [maskedBlock, bind, Except.bind]
    have e1 : j + 1 + k = j + (k + 1) := by omega
    have e2 : rem - unit - unit * k = rem - unit * (k + 1) := by rw [Nat.mul_succ]; omega
    split
    · rfl
    · split
      · rw [ih, e1, e2]; rfl
      · split
        · rfl
        · rw [ih, e1, e2]; rfl

theorem maskedBlock_short (env : EncEnv) (unit : Nat) (child : Nat → EncWork → Except Raise (Byte × EncWork)) (k j rem rem' : Nat)
    (res : Byte) (w : EncWork) (h : unit * k ≤ rem) (h' : unit * k ≤ rem') :
    maskedBlock env unit child k j rem res w = maskedBlock env unit child k j rem' res w := by
  induction k generalizing j rem rem' res w with
  | zero => rfl
  | succ k ih =>
    rw [Nat.mul_succ] at h h'
    simp only [maskedBlock]
    rw [show min unit rem = unit by omega, show min unit rem' = unit by omega]
    simp only [ih _ (rem - unit) (rem' - unit) _ _ (by omega) (by omega)]

/-- The first `k` children of a unit done, the loop goes on at child `k`. -/
theorem maskedBlock_resume (env : EncEnv) (unit : Nat) (child : Nat → EncWork → Except Raise (Byte × EncWork)) (count k n : Nat)
    (w w' : EncWork) (v : Byte) (hk : k ≤ count) (hn : unit * k ≤ n)
    (h : maskedBlock env unit child k 0 (unit * k) 0#8 w = .ok (v, w')) :
    maskedBlock env unit child count 0 n 0#8 w = maskedBlock env unit child (count - k) k (n - unit * k) v w' := by
  rw [show count = k + (count - k) by omega, maskedBlock_split,
    maskedBlock_short env unit child k 0 n (unit * k) 0#8 w hn (Nat.le_refl _), h, show k + (count - k) - k = count - k by omega]
  simp [Except.bind]

/-- A child that raises makes its unit raise. -/
theorem maskedBlock_child (env : EncEnv) (unit : Nat) (child : Nat → EncWork → Except Raise (Byte × EncWork)) (left k rem : Nat)
    (res : Byte) (w : EncWork) (r : Raise) (hl : 1 ≤ left) (h : child (min unit rem) { w with ctail := w.ctail + 1 } = .error r) :
    maskedBlock env unit child left k rem res w = .error r := by
  obtain ⟨l, rfl⟩ : ∃ l, left = l + 1 := ⟨left - 1, by omega⟩
  simp only [maskedBlock, h, bind, Except.bind]

theorem enc2_child (env : EncEnv) (n k : Nat) (w w' : EncWork) (v : Byte) (r : Raise) (hk : 64 * k < n)
    (h : enc2 env (64 * k) w = .ok (v, w')) (hr : encRound env (min 64 (n - 64 * k)) { w' with ctail := w'.ctail + 1 } = .error r) :
    enc2 env n w = .error r := by
  unfold enc2 at h ⊢
  rw [show roundCount (64 * k) = k by unfold roundCount; omega] at h
  rw [maskedBlock_resume env 64 _ _ k n w w' v (by unfold roundCount; omega) (by omega) h]
  exact maskedBlock_child _ _ _ _ _ _ _ _ _ (by unfold roundCount; omega) hr

theorem enc3_child (env : EncEnv) (n k : Nat) (w w' : EncWork) (v : Byte) (r : Raise) (hk : 512 * k < n)
    (h : enc3 env (512 * k) w = .ok (v, w')) (hr : enc2 env (min 512 (n - 512 * k)) { w' with ctail := w'.ctail + 1 } = .error r) :
    enc3 env n w = .error r := by
  unfold enc3 at h ⊢
  rw [show blockCount (512 * k) = k by unfold blockCount; omega] at h
  rw [maskedBlock_resume env 512 _ _ k n w w' v (by unfold blockCount; omega) (by omega) h]
  exact maskedBlock_child _ _ _ _ _ _ _ _ _ (by unfold blockCount; omega) hr

theorem encRound_first (env : EncEnv) (rem : Nat) (w : EncWork) (r : Raise) (h : enc1 env (firstChunk rem) w = .error r) :
    encRound env rem w = .error r := by
  simp only [encRound, h, bind, Except.bind]

/-- A block whose first chunk raises. -/
theorem enc2_first (env : EncEnv) (n : Nat) (w : EncWork) (r : Raise) (h1 : 1 ≤ n)
    (h : enc1 env (min 32 n) { w with ctail := w.ctail + 1 } = .error r) : enc2 env n w = .error r := by
  have hf : firstChunk (min 64 (n - 64 * 0)) = min 32 n := by unfold firstChunk; omega
  exact enc2_child env n 0 w w 0#8 r (by omega) rfl (encRound_first _ _ _ _ (by rw [hf]; exact h))

/-- A region whose first chunk raises. -/
theorem enc3_first (env : EncEnv) (n : Nat) (w : EncWork) (r : Raise) (h1 : 1 ≤ n)
    (h : enc1 env (min 32 n) { w with ctail := w.ctail + 2 } = .error r) : enc3 env n w = .error r := by
  have hm : min 32 (min 512 (n - 512 * 0)) = min 32 n := by omega
  exact enc3_child env n 0 w w 0#8 r (by omega) rfl (enc2_first _ _ _ _ (by omega) (by rw [hm]; exact h))

theorem encRound_second (env : EncEnv) (rem : Nat) (w w1 : EncWork) (v : Nibble) (r : Raise)
    (h : enc1 env (firstChunk rem) w = .ok (v, w1)) (hr : enc1 env (secondChunk rem) w1 = .error r) :
    encRound env rem w = .error r := by
  simp only [encRound, h, hr, bind, Except.bind]

/-! ### Decode units -/

theorem unmaskedBlock_split (env : DecEnv) (unit : Nat) (child : Nat → Byte → DecWork → Except Raise DecWork) (mask : Byte)
    (k left j rem : Nat) (w : DecWork) :
    unmaskedBlock env unit child mask (k + left) j rem w =
      (unmaskedBlock env unit child mask k j rem w).bind fun w' => unmaskedBlock env unit child mask left (j + k) (rem - unit * k) w' := by
  induction k generalizing j rem w with
  | zero => simp [unmaskedBlock, Except.bind]
  | succ k ih =>
    rw [show k + 1 + left = k + left + 1 by omega]
    have e1 : j + 1 + k = j + (k + 1) := by omega
    have e2 : rem - unit - unit * k = rem - unit * (k + 1) := by rw [Nat.mul_succ]; omega
    simp only [unmaskedBlock]
    by_cases hm : hasChild mask j = true
    · rw [if_pos hm, if_pos hm]
      cases hv : cmRead env w.ctail w.bcur with
      | error r => rfl
      | ok v =>
        simp only [bind, Except.bind]
        by_cases hz : v = 0x00#8
        · rw [if_pos hz, if_pos hz]
        · rw [if_neg hz, if_neg hz]
          cases hc : child (min unit rem) v { w with ctail := w.ctail + 1 } with
          | error r => rfl
          | ok w' => simp only; rw [ih, e1, e2]; rfl
    · rw [if_neg hm, if_neg hm]
      simp only [bind, Except.bind]
      cases hc : child (min unit rem) 0x00#8 w with
      | error r => rfl
      | ok w' => simp only; rw [ih, e1, e2]; rfl

/-- The first `k` children do not depend on the mask bits of the others nor on the bytes after them. -/
theorem unmaskedBlock_short (env : DecEnv) (unit : Nat) (child : Nat → Byte → DecWork → Except Raise DecWork) (mask mask' : Byte)
    (k j rem rem' : Nat) (w : DecWork) (h : unit * k ≤ rem) (h' : unit * k ≤ rem')
    (hm : ∀ i, j ≤ i → i < j + k → hasChild mask i = hasChild mask' i) :
    unmaskedBlock env unit child mask k j rem w = unmaskedBlock env unit child mask' k j rem' w := by
  induction k generalizing j rem rem' w with
  | zero => rfl
  | succ k ih =>
    rw [Nat.mul_succ] at h h'
    simp only [unmaskedBlock]
    rw [show min unit rem = unit by omega, show min unit rem' = unit by omega, hm j (Nat.le_refl _) (by omega)]
    simp only [ih (j + 1) (rem - unit) (rem' - unit) _ (by omega) (by omega) (fun i h1 h2 => hm i (by omega) (by omega))]

theorem unmaskedBlock_resume (env : DecEnv) (unit : Nat) (child : Nat → Byte → DecWork → Except Raise DecWork) (mask : Byte)
    (count k n : Nat) (w w' : DecWork) (hk : k ≤ count) (h8 : k ≤ 8) (hn : unit * k ≤ n)
    (h : unmaskedBlock env unit child (mask &&& topBits 8 k) k 0 (unit * k) w = .ok w') :
    unmaskedBlock env unit child mask count 0 n w = unmaskedBlock env unit child mask (count - k) k (n - unit * k) w' := by
  rw [show count = k + (count - k) by omega, unmaskedBlock_split,
    ← unmaskedBlock_short env unit child (mask &&& topBits 8 k) mask k 0 (unit * k) n w (Nat.le_refl _) hn
      (fun i _ hi => hasChild_first mask k i (by omega) h8), h, show k + (count - k) - k = count - k by omega]
  simp [Except.bind]

/-- What a unit raises at a child: for the child's mask byte, or what the child raises. -/
theorem unmaskedBlock_child (env : DecEnv) (unit : Nat) (child : Nat → Byte → DecWork → Except Raise DecWork) (mask : Byte)
    (left k rem : Nat) (w : DecWork) (hl : 1 ≤ left) :
    (hasChild mask k = true → env.clen ≤ w.ctail →
      unmaskedBlock env unit child mask left k rem w = .error ⟨.corruptTruncated, w.bcur⟩) ∧
    (hasChild mask k = true → w.ctail < env.clen → env.cm.read w.ctail = 0x00#8 →
      unmaskedBlock env unit child mask left k rem w = .error ⟨.corruptZeroMask, w.bcur⟩) ∧
    (hasChild mask k = true → w.ctail < env.clen → env.cm.read w.ctail ≠ 0x00#8 → ∀ r,
      child (min unit rem) (env.cm.read w.ctail) { w with ctail := w.ctail + 1 } = .error r →
      unmaskedBlock env unit child mask left k rem w = .error r) ∧
    (hasChild mask k = false → ∀ r, child (min unit rem) 0x00#8 w = .error r →
      unmaskedBlock env unit child mask left k rem w = .error r) := by
  obtain ⟨l, rfl⟩ : ∃ l, left = l + 1 := ⟨left - 1, by omega⟩
  simp only [unmaskedBlock]
  refine ⟨fun hm h => ?_, fun hm h hz => ?_, fun hm h hz r hr => ?_, fun hm r hr => ?_⟩
  · rw [if_pos hm, cmRead_truncated _ _ _ h]; rfl
  · rw [if_pos hm, cmRead_some _ _ _ h, hz]; rfl
  · rw [if_pos hm, cmRead_some _ _ _ h]
    simp only [bind, Except.bind]
    rw [if_neg hz, hr]
  · rw [if_neg (by simp [hm]), hr]; rfl

/-- A block that has come to round `k`. -/
theorem dec2_resume (env : DecEnv) (n k : Nat) (mask : Byte) (w w' : DecWork) (hn : n ≤ 512) (hb : maskBeyond mask (roundCount n) = false)
    (hk : k < roundCount n) (h : dec2 env (64 * k) (mask &&& topBits 8 k) w = .ok w') :
    dec2 env n mask w = unmaskedBlock env 64 (decRound env) mask (roundCount n - k) k (n - 64 * k) w' := by
  have h8 := roundCount_le n hn
  have hr : roundCount (64 * k) = k := by unfold roundCount; omega
  unfold dec2 at h ⊢
  rw [hr, maskBeyond_first mask k (by omega)] at h
  rw [hb]
  simp only [Bool.false_eq_true, if_false] at h ⊢
  exact unmaskedBlock_resume env 64 _ mask _ k n w w' (by omega) (by omega) (by unfold roundCount at hk; omega) h

/-- A region that has come to block `k`. -/
theorem dec3_resume (env : DecEnv) (n k : Nat) (mask : Byte) (w w' : DecWork) (hn : n ≤ 4096) (hb : maskBeyond mask (blockCount n) = false)
    (hk : k < blockCount n) (h : dec3 env (512 * k) (mask &&& topBits 8 k) w = .ok w') :
    dec3 env n mask w = unmaskedBlock env 512 (dec2 env) mask (blockCount n - k) k (n - 512 * k) w' := by
  have h8 := blockCount_le n hn
  have hr : blockCount (512 * k) = k := by unfold blockCount; omega
  unfold dec3 at h ⊢
  rw [hr, maskBeyond_first mask k (by omega)] at h
  rw [hb]
  simp only [Bool.false_eq_true, if_false] at h ⊢
  exact unmaskedBlock_resume env 512 _ mask _ k n w w' (by omega) (by omega) (by unfold blockCount at hk; omega) h

theorem decRound_first (env : DecEnv) (rem : Nat) (p : Byte) (w : DecWork) (r : Raise)
    (h : dec1 env (firstChunk rem) (pairHigh p) w = .error r) : decRound env rem p w = .error r := by
  simp only [decRound, h, bind, Except.bind]

theorem decRound_second (env : DecEnv) (rem : Nat) (p : Byte) (w w1 : DecWork) (r : Raise)
    (h : dec1 env (firstChunk rem) (pairHigh p) w = .ok w1) (hr : dec1 env (secondChunk rem) (pairLow p) w1 = .error r) :
    decRound env rem p w = .error r := by
  simp only [decRound, h, hr, bind, Except.bind]

/-! ### The groups of a chunk -/

/-- Group `g` of a chunk: read from the stream if it is marked, else the run state (R89). -/
def groupRun (env : DecEnv) (c n : Nat) (nib : Nibble) (g : Nat) (m : Bool) (t : Nat) : Except Raise DecRun :=
  if hasGroup nib g then markedGroup env c (groupSize n g) m t else .ok (absentBytes (groupSize n g) m t)

theorem decodeGroups_succ (env : DecEnv) (c n : Nat) (nib : Nibble) (left g : Nat) (m : Bool) (t : Nat) :
    decodeGroups env c n nib (left + 1) g m t =
      (groupRun env c n nib g m t).bind fun r =>
        (decodeGroups env c n nib left (g + 1) r.matchBit r.ctail).map fun rs => { rs with bytes := r.bytes ++ rs.bytes } := by
  simp only [decodeGroups, groupRun, bind]
  split <;> rfl

/-- The bytes are not looked at by what follows: `k` groups, then the others. -/
theorem decodeGroups_split (env : DecEnv) (c n : Nat) (nib : Nibble) (k left g : Nat) (m : Bool) (t : Nat) (r : DecRun)
    (h : decodeGroups env c n nib k g m t = .ok r) (e : Raise)
    (he : decodeGroups env c n nib left (g + k) r.matchBit r.ctail = .error e) :
    decodeGroups env c n nib (k + left) g m t = .error e := by
  induction k generalizing g m t r with
  | zero => cases h; rw [Nat.zero_add]; exact he
  | succ k ih =>
    rw [show k + 1 + left = k + left + 1 by omega]
    rw [decodeGroups_succ] at h ⊢
    cases hx : groupRun env c n nib g m t with
    | error e' => rw [hx] at h; cases h
    | ok r1 =>
      rw [hx] at h
      simp only [Except.bind] at h ⊢
      cases h2 : decodeGroups env c n nib k (g + 1) r1.matchBit r1.ctail with
      | error e' => rw [h2] at h; cases h
      | ok rs =>
        rw [h2] at h
        cases h
        rw [ih (g + 1) r1.matchBit r1.ctail rs h2 (by rw [show g + 1 + k = g + (k + 1) by omega]; exact he)]
        rfl

theorem decodeGroups_short (env : DecEnv) (c n n' : Nat) (nib nib' : Nibble) (k g : Nat) (m : Bool) (t : Nat) (h : 8 * (g + k) ≤ n)
    (h' : 8 * (g + k) ≤ n') (hm : ∀ i, g ≤ i → i < g + k → hasGroup nib i = hasGroup nib' i) :
    decodeGroups env c n nib k g m t = decodeGroups env c n' nib' k g m t := by
  induction k generalizing g m t with
  | zero => rfl
  | succ k ih =>
    simp only [decodeGroups]
    rw [show groupSize n g = groupSize n' g by unfold groupSize; omega, hm g (Nat.le_refl _) (by omega)]
    simp only [ih (g + 1) _ _ (by omega) (by omega) (fun i h1 h2 => hm i (by omega) (by omega))]

theorem decodeGroups_unmarked (env : DecEnv) (c n k g : Nat) (m : Bool) (t : Nat) :
    ∃ r, decodeGroups env c n 0#4 k g m t = .ok r ∧ r.matchBit = m ∧ r.ctail = t := by
  induction k generalizing g with
  | zero => exact ⟨_, rfl, rfl, rfl⟩
  | succ k ih =>
    obtain ⟨r, e, e1, e2⟩ := ih (g + 1)
    simp only [decodeGroups, hasGroup_zero, Bool.false_eq_true, if_false, bind, Except.bind, absentBytes, e]
    exact ⟨_, rfl, e1, e2⟩

/-- The first `g` groups as a chunk of their own, in masked form. -/
theorem dec1_groups (env : DecEnv) (g : Nat) (nib : Nibble) (w w' : DecWork) (h : dec1 env (8 * g) nib w = .ok w')
    (h0 : nib ≠ 0#4 → env.cm.read w.ctail ≠ 0x00#8) :
    ∃ r, decodeGroups env w.bcur (8 * g) nib g 0 w.matchBit w.ctail = .ok r ∧ r.matchBit = w'.matchBit ∧ r.ctail = w'.ctail := by
  unfold dec1 at h
  split at h
  · cases h
  · split at h
    · cases h
      obtain rfl : g = 0 := by omega
      exact ⟨_, rfl, rfl, rfl⟩
    · split at h
      · cases h
      · by_cases hz : nib = 0#4
        · rw [if_pos hz] at h
          cases h
          subst hz
          exact decodeGroups_unmarked env w.bcur (8 * g) g 0 w.matchBit w.ctail
        · rw [if_neg hz] at h
          cases hc : markedChunk env w.bcur (8 * g) nib w.matchBit w.ctail with
          | error r => rw [hc] at h; cases h
          | ok r =>
            rw [hc] at h
            cases h
            refine ⟨r, ?_, rfl, rfl⟩
            unfold markedChunk at hc
            rw [show groupCount (8 * g) = g by unfold groupCount; omega] at hc
            split at hc
            · simp only [bind, Except.bind] at hc
              split at hc
              · cases hc
              · next b hb =>
                rw [if_neg (by rw [(cmRead_ok hb).2]; exact h0 hz)] at hc
                exact hc
            · exact hc

/-- A chunk that has come to its marked group `g`, in masked form: it raises what that group raises, unless it is the marker. -/
theorem dec1_group (env : DecEnv) (n g : Nat) (nib : Nibble) (w w' : DecWork) (r : Raise) (h1 : 1 ≤ n) (hn : n ≤ 32)
    (hnb : nibBeyond nib n = false) (hb : w.bcur + n ≤ env.bmSize) (hg : hasGroup nib g = true) (hgc : g < groupCount n)
    (hp : dec1 env (8 * g) (nib &&& topBits 4 g) w = .ok w')
    (h0 : nib &&& topBits 4 g ≠ 0#4 → env.cm.read w.ctail ≠ 0x00#8)
    (hr : markedGroup env w.bcur (groupSize n g) w'.matchBit w'.ctail = .error r)
    (hz : ¬ (g = 0 ∧ nib = fullNibble n) ∨ (w'.ctail < env.clen → env.cm.read w'.ctail ≠ 0x00#8)) :
    dec1 env n nib w = .error r := by
  have h4 := groupCount_le n hn
  have h8 : 8 * g < n := by unfold groupCount at hgc; omega
  have hgn : g < 4 := by omega
  have hne : nib ≠ 0#4 := by rintro rfl; simp at hg
  have hfirst : ∀ i, i < g → hasGroup (nib &&& topBits 4 g) i = hasGroup nib i := fun i hi => hasGroup_first nib g i hi (by omega)
  -- the groups before group `g`
  have hpre : ∃ r0, decodeGroups env w.bcur n nib g 0 w.matchBit w.ctail = .ok r0 ∧ r0.matchBit = w'.matchBit ∧ r0.ctail = w'.ctail := by
    rw [decodeGroups_short env w.bcur n (8 * g) nib (nib &&& topBits 4 g) g 0 _ _ (by omega) (by omega) (fun i _ hi => (hfirst i (by omega)).symm)]
    exact dec1_groups env g _ w w' hp h0
  obtain ⟨r0, hr0, hm0, ht0⟩ := hpre
  have hgroups : decodeGroups env w.bcur n nib (groupCount n) 0 w.matchBit w.ctail = .error r := by
    rw [show groupCount n = g + (groupCount n - g) by omega]
    refine decodeGroups_split env _ _ _ g _ 0 _ _ r0 hr0 r ?_
    obtain ⟨l, hl⟩ : ∃ l, groupCount n - g = l + 1 := ⟨groupCount n - g - 1, by omega⟩
    rw [hl, Nat.zero_add]
    simp only [decodeGroups, hg, if_true, hm0, ht0, hr, bind, Except.bind]
  have hc : markedChunk env w.bcur n nib w.matchBit w.ctail = .error r := by
    unfold markedChunk
    split
    · next hfull =>
      -- every group is marked, so the first byte decides between the marker and the masked form
      by_cases hlt : w.ctail < env.clen
      · rw [cmRead_some _ _ _ hlt]
        simp only [bind, Except.bind]
        rw [if_neg ?_, hgroups]
        by_cases hg0 : g = 0
        · subst hg0
          have : w' = w := by
            have : dec1 env (8 * 0) (nib &&& topBits 4 0) w = .ok w := by
              rw [topBits_zero]; simp [dec1, nibBeyond]
            rw [this] at hp; cases hp; rfl
          subst this
          rcases hz with hz | hz
          · exact absurd ⟨rfl, hfull⟩ hz
          · exact hz hlt
        · refine h0 ?_
          intro hzero
          have := hfirst 0 (by omega)
          rw [hzero, hfull, fullNibble_hasGroup n 0 hn (by omega)] at this
          simp at this
          omega
      · rw [cmRead_truncated _ _ _ (by omega)]
        have hg0 : g = 0 ∨ 1 ≤ g := by omega
        rcases hg0 with hg0 | hg0
        · subst hg0
          have hw : w' = w := by
            have : dec1 env (8 * 0) (nib &&& topBits 4 0) w = .ok w := by
              rw [topBits_zero]; simp [dec1, nibBeyond]
            rw [this] at hp; cases hp; rfl
          subst hw
          rw [markedGroup_truncated _ _ _ _ _ (by omega)] at hr
          cases hr
          rfl
        · -- group 0 is marked, so the groups before `g` have read the first byte
          exfalso
          obtain ⟨l, rfl⟩ : ∃ l, g = l + 1 := ⟨g - 1, by omega⟩
          simp only [decodeGroups] at hr0
          rw [if_pos (by rw [hfull, fullNibble_hasGroup n 0 hn (by omega)]; simp; omega), markedGroup_truncated _ _ _ _ _ (by omega)] at hr0
          cases hr0
    · exact hgroups
  unfold dec1
  rw [hnb]
  simp only [Bool.false_eq_true, if_false]
  rw [if_neg (by omega), if_neg (by omega), if_neg hne, hc]
  rfl

/-- A group that promises more literals than the stream holds before `CLEN` (R88, R112). -/
theorem decodeGroup_short (env : DecEnv) (c : Nat) (gm : Byte) (left j : Nat) (m : Bool) (t : Nat)
    (h : t + (List.range' j left).countP (hasChild gm) > env.clen) (ht : t ≤ env.clen) :
    decodeGroup env c gm left j m t = .error ⟨.corruptTruncated, c⟩ := by
  induction left generalizing j m t with
  | zero => simp at h; omega
  | succ left ih =>
    rw [List.range'_succ, List.countP_cons] at h
    simp only [decodeGroup]
    by_cases hj : hasChild gm j = true
    · rw [if_pos hj]
      rw [hj] at h
      by_cases hlt : t < env.clen
      · rw [cmRead_some _ _ _ hlt]
        simp only [bind, Except.bind]
        rw [ih (j + 1) _ (t + 1) (by simp at h; omega) (by omega)]
      · rw [cmRead_truncated _ _ _ (by omega)]; rfl
    · rw [if_neg hj]
      simp only [bind, Except.bind]
      rw [ih (j + 1) m t (by simp [hj] at h; omega) ht]

end Sys2Proof.Machine
end

