-- ==== Sys2Proof/Laws/Loose.lean ====
section
/-! SUPPORT. A masked chunk that marks more bytes than the encoder would decodes to its bytes all the same (R60, R96). -/

namespace Sys2Proof.Machine

/-- A marked byte has its mask bit, no other has. -/
theorem hasChild_markMask (k : Nat) (marks : List Bool) (i : Nat) (hk : k + marks.length ≤ 8) (hi : i < 8) :
    hasChild (markMask k marks) i = (decide (k ≤ i) && marks.getD (i - k) false) := by
  induction marks generalizing k with
  | nil => simp [markMask]
  | cons mark marks ih =>
    simp only [List.length_cons] at hk
    rw [markMask, hasChild_or _ _ _ hi, ih (k + 1) (by omega)]
    by_cases h : k = i
    · subst h
      have : ¬ k + 1 ≤ k := by omega
      cases mark <;> simp [hasChild_childBit k k (by omega) hi]
    · by_cases h2 : k ≤ i
      · have h3 : k + 1 ≤ i := by omega
        obtain ⟨d, hd⟩ : ∃ d, i - k = d + 1 := ⟨i - k - 1, by omega⟩
        rw [hd, show i - (k + 1) = d by omega]
        cases mark <;> simp [hasChild_childBit k i (by omega) hi, h, h2, h3]
      · have h3 : ¬ k + 1 ≤ i := by omega
        cases mark <;> simp [hasChild_childBit k i (by omega) hi, h, h2, h3]

/-- One group whose marked bytes stand in the stream. -/
theorem decodeGroup_loose (env : DecEnv) (c : Nat) (gm : Byte) (m : Bool) (marks : List Bool) (bs : List Byte) (j t : Nat)
    (hl : marks.length = bs.length)
    (hg : ∀ i, i < bs.length → hasChild gm (j + i) = marks.getD i false)
    (hq : ∀ i, i < bs.length → marks.getD i false = false → bs.getD i 0#8 = matchByte (runAfter m (bs.take i)))
    (hs : StreamAt env t (markedBytes marks bs)) :
    decodeGroup env c gm bs.length j m t =
      .ok { bytes := bs, matchBit := runAfter m bs, ctail := t + (markedBytes marks bs).length } := by
  induction bs generalizing marks m j t with
  | nil => cases marks with
    | nil => rfl
    | cons => simp at hl
  | cons b bs ih => cases marks with
    | nil => simp at hl
    | cons mark marks =>
      have hg0 := hg 0 (by simp)
      simp only [Nat.add_zero, List.getD_cons_zero] at hg0
      have hgr : ∀ i, i < bs.length → hasChild gm (j + 1 + i) = marks.getD i false := fun i hi => by
        have := hg (i + 1) (by simpa using hi)
        rwa [List.getD_cons_succ, show j + (i + 1) = j + 1 + i by omega] at this
      have hqr : ∀ i, i < bs.length → marks.getD i false = false →
          bs.getD i 0#8 = matchByte (runAfter (nextBit b) (bs.take i)) :=
        fun i hi h => by
          have := hq (i + 1) (by simpa using hi) (by simpa using h)
          rwa [List.getD_cons_succ, List.take_succ_cons, runAfter_cons] at this
      simp only [List.length_cons, decodeGroup, hg0]
      cases mark with
      | true =>
        simp only [markedBytes, if_true] at hs ⊢
        obtain ⟨hr, hs'⟩ := hs.cons c
        rw [hr]
        simp only [bind, Except.bind]
        rw [ih (nextBit b) marks (j + 1) (t + 1) (by simpa using hl) hgr hqr hs']
        simp only [runAfter_cons, List.length_cons]
        rw [show ∀ x : Nat, t + 1 + x = t + (x + 1) by intro x; omega]
      | false =>
        have hb := hq 0 (by simp) (by simp)
        simp only [List.getD_cons_zero, List.take_zero] at hb
        have hb : b = matchByte m := hb
        simp only [markedBytes, Bool.false_eq_true, if_false] at hs ⊢
        have hn : nextBit b = m := by rw [hb, nextBit_matchByte]
        rw [hn] at hqr
        rw [ih m marks (j + 1) t (by simpa using hl) hgr hqr hs]
        simp [bind, Except.bind, runAfter_cons, hb, nextBit_matchByte]

/-- A group without a marked byte continues the run. -/
theorem isRun_of_unmarked (m : Bool) (bs : List Byte)
    (h : ∀ i, i < bs.length → bs.getD i 0#8 = matchByte (runAfter m (bs.take i))) : IsRun m bs := by
  induction bs with
  | nil => intro b hb; cases hb
  | cons b bs ih =>
    have h0 := h 0 (by simp)
    simp only [List.getD_cons_zero, List.take_zero] at h0
    have h0 : b = matchByte m := h0
    have := ih (fun i hi => by
      have := h (i + 1) (by simpa using hi)
      rwa [List.getD_cons_succ, List.take_succ_cons, runAfter_cons, h0, nextBit_matchByte] at this)
    intro x hx
    rcases List.mem_cons.mp hx with rfl | hx
    · exact h0
    · exact this x hx

/-- The groups from `g` on: the nibble has bits of those groups alone, and the decoder gives the bytes back. -/
theorem decodeGroups_loose (env : DecEnv) (c n : Nat) (nib : Nibble) :
    ∀ (left g : Nat) (m : Bool) (t : Nat) (marks : List Bool) (bs : List Byte), marks.length = bs.length →
      bs.length = n - 8 * g → bs.length ≤ 8 * left → g + left ≤ 4 →
      (∀ k, g ≤ k → k < 4 → hasGroup nib k = hasGroup (looseChunk left g marks bs).1 k) →
      (∀ i, i < bs.length → marks.getD i false = false → bs.getD i 0#8 = matchByte (runAfter m (bs.take i))) →
      StreamAt env t (looseChunk left g marks bs).2 →
      (∀ k, k < g → hasGroup (looseChunk left g marks bs).1 k = false) ∧
      (∀ k, g + left ≤ k → k < 4 → hasGroup (looseChunk left g marks bs).1 k = false) ∧
      ((looseChunk left g marks bs).1 ≠ 0#4 → ∃ b rest, (looseChunk left g marks bs).2 = b :: rest ∧ b ≠ 0#8) ∧
      ((looseChunk left g marks bs).1 = 0#4 → (looseChunk left g marks bs).2 = []) ∧
      decodeGroups env c n nib left g m t =
        .ok { bytes := bs, matchBit := runAfter m bs, ctail := t + (looseChunk left g marks bs).2.length } := by
  intro left
  induction left with
  | zero =>
    intro g m t marks bs _ _ h8 _ _ _ _
    have : bs = [] := List.eq_nil_of_length_eq_zero (by omega)
    subst this
    exact ⟨fun _ _ => by simp [looseChunk], fun _ _ _ => by simp [looseChunk], fun h => absurd rfl h, fun _ => rfl, rfl⟩
  | succ left ih =>
    intro g m t marks bs hl hn h8 h4 hnib hq hs
    have hl8 : (marks.take 8).length = (bs.take 8).length := by simp [hl]
    have hlen8 : (bs.take 8).length ≤ 8 := by simp
    have hsz : groupSize n g = (bs.take 8).length := by simp only [groupSize, List.length_take]; omega
    have hq8 : ∀ i, i < (bs.take 8).length → (marks.take 8).getD i false = false →
        (bs.take 8).getD i 0#8 = matchByte (runAfter m ((bs.take 8).take i)) := by
      intro i hi h
      simp only [List.length_take] at hi
      have hi8 : i < 8 := by omega
      have := hq i (by omega) (by simpa [List.getD_eq_getElem?_getD, List.getElem?_take, hi8] using h)
      rw [List.take_take, show min i 8 = i by omega]
      simpa [List.getD_eq_getElem?_getD, List.getElem?_take, hi8] using this
    have hqr : ∀ i, i < (bs.drop 8).length → (marks.drop 8).getD i false = false →
        (bs.drop 8).getD i 0#8 = matchByte (runAfter (runAfter m (bs.take 8)) ((bs.drop 8).take i)) := by
      intro i hi h
      simp only [List.length_drop] at hi
      have := hq (8 + i) (by omega) (by simpa [List.getD_eq_getElem?_getD, List.getElem?_drop] using h)
      rw [← runAfter_append, ← List.take_add]
      simpa [List.getD_eq_getElem?_getD, List.getElem?_drop] using this
    have hlr : (marks.drop 8).length = (bs.drop 8).length := by simp [hl]
    have hnr : (bs.drop 8).length = n - 8 * (g + 1) := by simp; omega
    have h8r : (bs.drop 8).length ≤ 8 * left := by simp; omega
    have hmask : ∀ i, i < 8 → hasChild (markMask 0 (marks.take 8)) i = (marks.take 8).getD i false := by
      intro i hi
      rw [hasChild_markMask 0 _ i (by omega) hi]
      simp
    by_cases hgm : markMask 0 (marks.take 8) = 0#8
    · have hlc : looseChunk (left + 1) g marks bs = looseChunk left (g + 1) (marks.drop 8) (bs.drop 8) := by
        simp only [looseChunk, hgm, if_true]
      rw [hlc] at hs ⊢
      have hrun : IsRun m (bs.take 8) := isRun_of_unmarked m _ (fun i hi => hq8 i hi (by rw [← hmask i (by omega), hgm]; simp))
      have hra := runAfter_of_isRun m _ hrun
      obtain ⟨i1, i2, i3, i4, i5⟩ := ih (g + 1) (runAfter m (bs.take 8)) t (marks.drop 8) (bs.drop 8) hlr hnr h8r (by omega)
        (fun k h1 h2 => by rw [hnib k (by omega) h2, hlc]) hqr hs
      refine ⟨fun k hk => i1 k (by omega), fun k h1 h2 => i2 k (by omega) h2, i3, i4, ?_⟩
      have hng : hasGroup nib g = false := by rw [hnib g (Nat.le_refl _) (by omega), hlc]; exact i1 g (by omega)
      rw [decodeGroups_succ, groupRun, hng]
      simp only [Bool.false_eq_true, if_false, Except.bind, absentBytes]
      rw [hra] at i5
      rw [i5, hsz, ← (isRun_iff_replicate m _).mp hrun]
      simp only [Except.map, List.take_append_drop]
      rw [show runAfter m bs = runAfter m (bs.take 8 ++ bs.drop 8) by rw [List.take_append_drop], runAfter_append, hra]
    · have hlc1 : (looseChunk (left + 1) g marks bs).1 =
        groupBit g ||| (looseChunk left (g + 1) (marks.drop 8) (bs.drop 8)).1 := by
        simp only [looseChunk, hgm, if_false]
      have hlc2 : (looseChunk (left + 1) g marks bs).2 =
          markMask 0 (marks.take 8) :: (markedBytes (marks.take 8) (bs.take 8) ++
            (looseChunk left (g + 1) (marks.drop 8) (bs.drop 8)).2) := by
        simp only [looseChunk, hgm, if_false]
      rw [hlc2] at hs
      obtain ⟨hr, hs'⟩ := hs.cons c
      obtain ⟨hs1, hs2⟩ := hs'.append
      obtain ⟨i1, i2, i3, i4, i5⟩ := ih (g + 1) (runAfter m (bs.take 8)) (t + 1 + (markedBytes (marks.take 8) (bs.take 8)).length)
          (marks.drop 8) (bs.drop 8) hlr hnr h8r (by omega)
        (fun k h1 h2 => by
          rw [hnib k (by omega) h2, hlc1, hasGroup_or _ _ k h2, hasGroup_groupBit g k (by omega) h2]
          have : ¬ g = k := by omega
          simp [this]) hqr hs2
      have hbit : ∀ k, k < 4 → hasGroup (looseChunk (left + 1) g marks bs).1 k =
          (decide (g = k) || hasGroup (looseChunk left (g + 1) (marks.drop 8) (bs.drop 8)).1 k) := by
        intro k hk
        rw [hlc1, hasGroup_or _ _ k hk, hasGroup_groupBit g k (by omega) hk]
      have hne : (looseChunk (left + 1) g marks bs).1 ≠ 0#4 := by
        intro h0
        have := hbit g (by omega)
        rw [h0] at this
        simp at this
      refine ⟨fun k hk => ?_, fun k h1 h2 => ?_, fun _ => ⟨_, _, hlc2, hgm⟩, fun h => absurd h hne, ?_⟩
      · rw [hbit k (by omega), i1 k (by omega)]; simp; omega
      · rw [hbit k h2, i2 k (by omega) h2]; simp; omega
      · have hng : hasGroup nib g = true := by rw [hnib g (Nat.le_refl _) (by omega), hbit g (by omega)]; simp
        rw [decodeGroups_succ, groupRun, hng, hlc2]
        simp only [if_true]
        have hmg : markedGroup env c (groupSize n g) m t =
            .ok { bytes := bs.take 8, matchBit := runAfter m (bs.take 8),
                  ctail := t + 1 + (markedBytes (marks.take 8) (bs.take 8)).length } := by
          unfold markedGroup
          rw [hr]
          simp only [bind, Except.bind]
          rw [if_neg hgm, groupMaskBeyond_eq_false _ _ (fun k h1 h2 => ?_) (by omega), hsz]
          · simp only [Bool.false_eq_true, if_false]
            exact decodeGroup_loose env c _ m _ _ 0 (t + 1) hl8 (fun i hi => by rw [Nat.zero_add]; exact hmask i (by omega)) hq8 hs1
          · rw [hmask k h2]
            have : (marks.take 8).length ≤ k := by omega
            simp [List.getD_eq_getElem?_getD, List.getElem?_eq_none this]
        rw [hmg]
        simp only [Except.bind]
        rw [i5]
        simp only [Except.map, List.take_append_drop, List.length_cons, List.length_append]
        rw [show runAfter m bs = runAfter m (bs.take 8 ++ bs.drop 8) by rw [List.take_append_drop], runAfter_append]
        congr 2
        omega

/-- A chunk in which any bytes may be marked decodes to its bytes (R96). -/
theorem dec1_loose (env : DecEnv) (marks : List Bool) (bs : List Byte) (w : DecWork) (h1 : 1 ≤ bs.length)
    (hn : bs.length ≤ 32) (hl : marks.length = bs.length)
    (hb : w.bcur + bs.length ≤ env.bmSize)
    (hq : ∀ i, i < bs.length → marks.getD i false = false → bs.getD i 0#8 = matchByte (runAfter w.matchBit (bs.take i)))
    (hs : StreamAt env w.ctail (looseChunk (groupCount bs.length) 0 marks bs).2) :
    dec1 env bs.length (looseChunk (groupCount bs.length) 0 marks bs).1 w =
      .ok (w.restore bs (looseChunk (groupCount bs.length) 0 marks bs).2.length (runAfter w.matchBit bs)) := by
  have h4 := groupCount_le _ hn
  obtain ⟨_, i2, i3, i4, i5⟩ := decodeGroups_loose env w.bcur bs.length (looseChunk (groupCount bs.length) 0 marks bs).1
    (groupCount bs.length) 0 w.matchBit w.ctail marks bs hl
    (by omega) (groupCount_covers _) (by omega) (fun _ _ _ => rfl) hq hs
  have hnb : nibBeyond (looseChunk (groupCount bs.length) 0 marks bs).1 bs.length = false :=
    nibBeyond_eq_false _ _ (fun g h1 h2 => i2 g (by omega) h2) hn
  unfold dec1
  rw [hnb]
  simp only [Bool.false_eq_true, if_false]
  rw [if_neg (by omega), if_neg (by omega)]
  by_cases h0 : (looseChunk (groupCount bs.length) 0 marks bs).1 = 0#4
  · rw [if_pos h0, i4 h0]
    rw [h0, i4 h0] at i5
    have hz : ∀ left g, g + left ≤ 4 → bs.length - 8 * g ≤ 8 * left →
        decodeGroups env w.bcur bs.length 0#4 left g w.matchBit w.ctail =
        .ok (absentBytes (bs.length - 8 * g) w.matchBit w.ctail) := by
      intro left
      induction left with
      | zero => intro g _ h; rw [show bs.length - 8 * g = 0 by omega]; rfl
      | succ left ih =>
        intro g h h'
        rw [decodeGroups_succ, groupRun]
        simp only [hasGroup_zero, Bool.false_eq_true, if_false, Except.bind]
        rw [show (absentBytes (groupSize bs.length g) w.matchBit w.ctail).matchBit = w.matchBit from rfl,
          show (absentBytes (groupSize bs.length g) w.matchBit w.ctail).ctail = w.ctail from rfl, ih (g + 1) (by omega) (by omega)]
        simp only [Except.map, absentBytes, List.replicate_append_replicate]
        rw [show groupSize bs.length g + (bs.length - 8 * (g + 1)) = bs.length - 8 * g by unfold groupSize; omega]
    rw [hz (groupCount bs.length) 0 (by omega) (by have := groupCount_covers bs.length; omega)] at i5
    simp only [Nat.mul_zero, Nat.sub_zero] at i5
    rw [Except.ok.inj i5]
    simp [bind, Except.bind, DecWork.restore]
  · rw [if_neg h0]
    have hc : markedChunk env w.bcur bs.length (looseChunk (groupCount bs.length) 0 marks bs).1 w.matchBit w.ctail =
        .ok { bytes := bs, matchBit := runAfter w.matchBit bs,
              ctail := w.ctail + (looseChunk (groupCount bs.length) 0 marks bs).2.length } := by
      obtain ⟨b, rest, e, hbz⟩ := i3 h0
      rw [e] at hs
      obtain ⟨hr, _⟩ := hs.cons w.bcur
      unfold markedChunk
      split
      · rw [hr]
        simp only [bind, Except.bind]
        rw [if_neg hbz]
        exact i5
      · exact i5
    rw [hc]
    rfl

end Sys2Proof.Machine
end

