-- ==== Sys2Proof/Laws/Words.lean ====
section
/-! SUPPORT. The fields of the word of a command (R45, R48). -/

namespace Sys2Proof

@[simp] theorem opcField_commandWord (opc arg : BitVec 8) (len : Nat) : opcField (commandWord opc arg len) = opc := by
  have hl (i : Nat) : (BitVec.ofNat 13 len).getLsbD (24 + i) = false := BitVec.getLsbD_of_ge _ _ (by omega)
  have ha (i : Nat) (h : 8 ≤ i) : arg.getLsbD i = false := BitVec.getLsbD_of_ge _ _ h
  unfold opcField commandWord
  ext i hi
  simp only [BitVec.getElem_extractLsb', BitVec.getLsbD_or, BitVec.getLsbD_shiftLeft, BitVec.getLsbD_setWidth, hl]
  rw [ha _ (by omega), Nat.add_sub_cancel_left, BitVec.getLsbD_eq_getElem hi]
  simp [show 24 + i < 32 by omega, show i < 32 by omega]

@[simp] theorem argField_commandWord (opc arg : BitVec 8) (len : Nat) : argField (commandWord opc arg len) = arg := by
  have hl (i : Nat) : (BitVec.ofNat 13 len).getLsbD (16 + i) = false := BitVec.getLsbD_of_ge _ _ (by omega)
  unfold argField commandWord
  ext i hi
  simp only [BitVec.getElem_extractLsb', BitVec.getLsbD_or, BitVec.getLsbD_shiftLeft, BitVec.getLsbD_setWidth, hl]
  rw [show 16 + i - 16 = i by omega, BitVec.getLsbD_eq_getElem (x := arg) hi]
  simp [show 16 + i < 24 by omega, show 16 + i < 32 by omega, show i < 32 by omega]

@[simp] theorem zField_commandWord (opc arg : BitVec 8) (len : Nat) : zField (commandWord opc arg len) = 0#3 := by
  have hl (i : Nat) : (BitVec.ofNat 13 len).getLsbD (13 + i) = false := BitVec.getLsbD_of_ge _ _ (by omega)
  unfold zField commandWord
  ext i hi
  simp only [BitVec.getElem_extractLsb', BitVec.getLsbD_or, BitVec.getLsbD_shiftLeft, BitVec.getLsbD_setWidth, hl]
  simp [show 13 + i < 24 by omega, show 13 + i < 16 by omega]

@[simp] theorem lenField_commandWord (opc arg : BitVec 8) (len : Nat) : lenField (commandWord opc arg len) = len % 8192 := by
  have h : (commandWord opc arg len).extractLsb' 0 13 = BitVec.ofNat 13 len := by
    unfold commandWord
    ext i hi
    simp only [BitVec.getElem_extractLsb', BitVec.getLsbD_or, BitVec.getLsbD_shiftLeft, BitVec.getLsbD_setWidth]
    simp [show i < 24 by omega, show i < 16 by omega, show i < 32 by omega]
    simp [BitVec.getLsbD_eq_getElem hi]
  unfold lenField
  rw [h, BitVec.toNat_ofNat]

/-- Bits 23:20 and 19:16 of a word whose `ARG` is a nibble (R47). -/
@[simp] theorem argHighField_eq (w : Word) : argHighField w = (argField w).extractLsb' 4 4 := by
  unfold argHighField argField
  ext i hi
  simp only [BitVec.getElem_extractLsb', BitVec.getLsbD_extractLsb']
  simp [show 4 + i < 8 by omega, ← Nat.add_assoc]

@[simp] theorem nibField_eq (w : Word) : nibField w = (argField w).extractLsb' 0 4 := by
  unfold nibField argField
  ext i hi
  simp only [BitVec.getElem_extractLsb', BitVec.getLsbD_extractLsb']
  simp [show i < 8 by omega]

theorem nibble_as_arg (nib : Nibble) :
    (nib.setWidth 8).extractLsb' 4 4 = 0#4 ∧ (nib.setWidth 8).extractLsb' 0 4 = nib := by
  revert nib; decide

/-! ### A word from its fields -/

theorem commandWord_fields (w : Word) (hz : zField w = 0#3) : commandWord (opcField w) (argField w) (lenField w) = w := by
  have hz' (i : Nat) (h1 : 13 ≤ i) (h2 : i < 16) : w.getLsbD i = false := by
    have := congrArg (fun x => x.getLsbD (i - 13)) hz
    simp only [zField, BitVec.getLsbD_extractLsb', BitVec.getLsbD_zero] at this
    simpa [show i - 13 < 3 by omega, show 13 + (i - 13) = i by omega] using this
  unfold commandWord opcField argField lenField
  apply BitVec.eq_of_getLsbD_eq
  intro i hi
  simp only [BitVec.getLsbD_or, BitVec.getLsbD_shiftLeft, BitVec.getLsbD_setWidth, BitVec.getLsbD_extractLsb', BitVec.ofNat_toNat]
  by_cases h1 : i < 13
  · simp [h1, hi, show i < 16 by omega, show i < 24 by omega]
  · by_cases h2 : i < 16
    · have := hz' i (by omega) h2; simp [h1, h2, hi, show i < 24 by omega]; rwa [BitVec.getLsbD_eq_getElem hi] at this
    · by_cases h3 : i < 24
      · simp [h1, h2, h3, hi, show i - 16 < 32 by omega, show i - 16 < 8 by omega, show 16 + (i - 16) = i by omega]
      · simp [h1, h2, h3, hi, show i - 24 < 32 by omega, show i - 24 < 8 by omega, show 24 + (i - 24) = i by omega, show ¬ (i - 16 < 8) by omega]

theorem arg_of_nib (w : Word) (h : argHighField w = 0#4) : (nibField w).setWidth 8 = argField w := by
  simp only [argHighField_eq, nibField_eq] at h ⊢
  revert h
  generalize argField w = a
  revert a; decide +kernel

theorem decodeBare_some {w : Word} {j i : Instr} (h : decodeBare w j = some i) :
    i = j ∧ argField w = 0#8 ∧ zField w = 0#3 ∧ lenField w = 0 := by
  unfold decodeBare at h
  split at h
  · next hc => exact ⟨(Option.some.inj h).symm, hc⟩
  · cases h

theorem decodeLen_some {w : Word} {mk : Nat → Instr} {i : Instr} (h : decodeLen w mk = some i) :
    i = mk (lenField w) ∧ argField w = 0#8 ∧ zField w = 0#3 := by
  unfold decodeLen at h
  split at h
  · next hc => exact ⟨(Option.some.inj h).symm, hc⟩
  · cases h

theorem decodeLenNib_some {w : Word} {mk : Nat → Nibble → Instr} {i : Instr} (h : decodeLenNib w mk = some i) :
    i = mk (lenField w) (nibField w) ∧ argHighField w = 0#4 ∧ zField w = 0#3 := by
  unfold decodeLenNib at h
  split at h
  · next hc => exact ⟨(Option.some.inj h).symm, hc⟩
  · cases h

theorem decodeLenMask_some {w : Word} {mk : Nat → Byte → Instr} {i : Instr} (h : decodeLenMask w mk = some i) :
    i = mk (lenField w) (argField w) ∧ zField w = 0#3 := by
  unfold decodeLenMask at h
  split at h
  · next hc => exact ⟨(Option.some.inj h).symm, hc⟩
  · cases h

theorem lenField_lt (w : Word) : lenField w < 8192 := (w.extractLsb' 0 13).isLt

theorem bare_back {w : Word} {opc : BitVec 8} (ho : opcField w = opc) (ha : argField w = 0#8) (hz : zField w = 0#3)
    (hl : lenField w = 0) : commandWord opc 0#8 0 = w := by
  rw [← ho, ← ha, ← hl]; exact commandWord_fields w hz

theorem len_back {w : Word} {opc : BitVec 8} (ho : opcField w = opc) (ha : argField w = 0#8) (hz : zField w = 0#3) :
    commandWord opc 0#8 (lenField w) = w := by
  rw [← ho, ← ha]; exact commandWord_fields w hz

theorem mask_back {w : Word} {opc : BitVec 8} (ho : opcField w = opc) (hz : zField w = 0#3) :
    commandWord opc (argField w) (lenField w) = w := by
  rw [← ho]; exact commandWord_fields w hz

/-! ### Fields of a masked word -/

theorem opcField_and (w m : Word) : opcField (w &&& m) = opcField w &&& opcField m := by
  unfold opcField; exact BitVec.extractLsb'_and

theorem argField_and (w m : Word) : argField (w &&& m) = argField w &&& argField m := by
  unfold argField; exact BitVec.extractLsb'_and

theorem argHighField_and (w m : Word) : argHighField (w &&& m) = argHighField w &&& argHighField m := by
  unfold argHighField; exact BitVec.extractLsb'_and

theorem zField_and (w m : Word) : zField (w &&& m) = zField w &&& zField m := by
  unfold zField; exact BitVec.extractLsb'_and

theorem lenBits_and (w m : Word) : (w &&& m).extractLsb' 0 13 = w.extractLsb' 0 13 &&& m.extractLsb' 0 13 := BitVec.extractLsb'_and

end Sys2Proof
end

