-- ==== Sys2Proof/Laws/PerInstr.lean ====
section
/-! SUPPORT. Per command: its word is the one its row of the opcode map selects (R48): `(w & mask) == match`. -/

namespace Sys2Proof.Laws.SelectedByItsRow

/-- Column `mask` of R48. -/
def rowMask : Instr → Word
  | .nop => 0xFFFFFFFF#32
  | .init => 0xFFFFFFFF#32
  | .srst => 0xFFFFFFFF#32
  | .norm => 0xFFFFFFFF#32
  | .enc1 _ => 0xFFFFE000#32
  | .enc2 _ => 0xFFFFE000#32
  | .enc3 _ => 0xFFFFE000#32
  | .encode => 0xFFFFFFFF#32
  | .dec1 _ _ => 0xFFF0E000#32
  | .dec2 _ _ => 0xFF00E000#32
  | .dec3 _ _ => 0xFF00E000#32
  | .decode => 0xFFFFFFFF#32

/-- Column `match` of R48. -/
def rowMatch : Instr → Word
  | .nop => 0x00000000#32
  | .init => 0x01000000#32
  | .srst => 0x02000000#32
  | .norm => 0x08000000#32
  | .enc1 _ => 0x10000000#32
  | .enc2 _ => 0x11000000#32
  | .enc3 _ => 0x12000000#32
  | .encode => 0x13000000#32
  | .dec1 _ _ => 0x20000000#32
  | .dec2 _ _ => 0x21000000#32
  | .dec3 _ _ => 0x22000000#32
  | .decode => 0x23000000#32

/-- The word of the command is selected by the command's own row. -/
abbrev Statement (i : Instr) : Prop := encode i &&& rowMask i = rowMatch i

/-- A mask keeps the bits of a word that it has. -/
theorem masked_word (opc arg : BitVec 8) (len : Nat) (mask out : Word)
    (hlen : ∀ i, i < 13 → mask.getLsbD i = false)
    (h : ((opc.setWidth 32 <<< 24) ||| (arg.setWidth 32 <<< 16)) &&& mask = out) : commandWord opc arg len &&& mask = out := by
  subst h
  unfold commandWord
  ext i hi
  simp only [BitVec.getElem_and, BitVec.getElem_or]
  by_cases h13 : i < 13
  · have := hlen i h13
    rw [BitVec.getLsbD_eq_getElem hi] at this
    simp [this]
  · have : (BitVec.ofNat 13 len).getLsbD i = false := BitVec.getLsbD_of_ge _ _ (by omega)
    simp [this]

theorem nop : Statement .nop := by decide
theorem init : Statement .init := by decide
theorem srst : Statement .srst := by decide
theorem norm : Statement .norm := by decide
theorem enc1 (len : Nat) : Statement (.enc1 len) :=
  masked_word 0x10#8 0#8 len 0xFFFFE000#32 0x10000000#32 (by decide) (by decide)
theorem enc2 (len : Nat) : Statement (.enc2 len) :=
  masked_word 0x11#8 0#8 len 0xFFFFE000#32 0x11000000#32 (by decide) (by decide)
theorem enc3 (len : Nat) : Statement (.enc3 len) :=
  masked_word 0x12#8 0#8 len 0xFFFFE000#32 0x12000000#32 (by decide) (by decide)
theorem encode : Statement .encode := by decide
theorem dec1 (len : Nat) (nib : Nibble) : Statement (.dec1 len nib) :=
  masked_word 0x20#8 (nib.setWidth 8) len 0xFFF0E000#32 0x20000000#32 (by decide) (by revert nib; decide)
theorem dec2 (len : Nat) (mask : Byte) : Statement (.dec2 len mask) :=
  masked_word 0x21#8 mask len 0xFF00E000#32 0x21000000#32 (by decide) (by revert mask; decide +kernel)
theorem dec3 (len : Nat) (mask : Byte) : Statement (.dec3 len mask) :=
  masked_word 0x22#8 mask len 0xFF00E000#32 0x22000000#32 (by decide) (by revert mask; decide +kernel)
theorem decode : Statement .decode := by decide

end Sys2Proof.Laws.SelectedByItsRow
end

