-- ==== Sys2Proof/Laws/OpcodeMap.lean ====
section
/-! SUPPORT. The rows of the opcode map: what a selected row says of a word (R48). -/

namespace Sys2Proof.Machine

theorem selects_fields (w : Word) (row : Word × Word) (hm : row ∈ opcodeRows) (h : selects w row = true) :
    opcField w = opcField row.2 := by
  have h : w &&& row.1 = row.2 := by simpa [selects] using h
  have hf := congrArg opcField h
  rw [opcField_and] at hf
  have key : opcodeRows.all (fun r => opcField r.1 == 0xFF#8) = true := by decide
  have hr : opcField row.1 = 0xFF#8 := by simpa using List.all_eq_true.mp key row hm
  rw [hr] at hf
  rw [← hf]
  exact (BitVec.and_allOnes (w := 8)).symm

theorem rows_pairwise : opcodeRows.Pairwise (fun a b => opcField a.2 ≠ opcField b.2) := by decide

theorem rowOf_mem (i : Instr) : (Laws.SelectedByItsRow.rowMask i, Laws.SelectedByItsRow.rowMatch i) ∈ opcodeRows := by
  cases i <;> simp [Laws.SelectedByItsRow.rowMask, Laws.SelectedByItsRow.rowMatch, opcodeRows]

theorem selected (i : Instr) : Laws.SelectedByItsRow.Statement i := by
  cases i
  · exact Laws.SelectedByItsRow.nop
  · exact Laws.SelectedByItsRow.init
  · exact Laws.SelectedByItsRow.srst
  · exact Laws.SelectedByItsRow.norm
  · exact Laws.SelectedByItsRow.enc1 _
  · exact Laws.SelectedByItsRow.enc2 _
  · exact Laws.SelectedByItsRow.enc3 _
  · exact Laws.SelectedByItsRow.encode
  · exact Laws.SelectedByItsRow.dec1 _ _
  · exact Laws.SelectedByItsRow.dec2 _ _
  · exact Laws.SelectedByItsRow.dec3 _ _
  · exact Laws.SelectedByItsRow.decode

theorem ones8 (a : BitVec 8) : a &&& 0xFF#8 = a := BitVec.and_allOnes (w := 8)
theorem ones4 (a : BitVec 4) : a &&& 0xF#4 = a := BitVec.and_allOnes (w := 4)
theorem ones3 (a : BitVec 3) : a &&& 7#3 = a := BitVec.and_allOnes (w := 3)
theorem ones13 (a : BitVec 13) : a &&& 8191#13 = a := BitVec.and_allOnes (w := 13)

theorem bare_sel (w v : Word) (h : w &&& 0xFFFFFFFF#32 = v) : w = v := by
  rw [← h]; exact (BitVec.and_allOnes (w := 32)).symm

theorem len_sel (w v : Word) (h : w &&& 0xFFFFE000#32 = v) : opcField w = opcField v ∧ argField w = argField v ∧ zField w = zField v := by
  subst h
  simp only [opcField_and, argField_and, zField_and]
  exact ⟨(ones8 _).symm, (ones8 _).symm, (ones3 _).symm⟩

theorem nib_sel (w v : Word) (h : w &&& 0xFFF0E000#32 = v) : opcField w = opcField v ∧ argHighField w = argHighField v ∧ zField w = zField v := by
  subst h
  simp only [opcField_and, argHighField_and, zField_and]
  exact ⟨(ones8 _).symm, (ones4 _).symm, (ones3 _).symm⟩

theorem mask_sel (w v : Word) (h : w &&& 0xFF00E000#32 = v) : opcField w = opcField v ∧ zField w = zField v := by
  subst h
  simp only [opcField_and, zField_and]
  exact ⟨(ones8 _).symm, (ones3 _).symm⟩

theorem selects_decodes (w : Word) (row : Word × Word) (hm : row ∈ opcodeRows) (h : selects w row = true) : decode w ≠ none := by
  have h : w &&& row.1 = row.2 := by simpa [selects] using h
  simp only [opcodeRows, List.mem_append, List.mem_cons, List.not_mem_nil, or_false] at hm
  rcases hm with (rfl | rfl | rfl | rfl | rfl | rfl) | rfl | rfl | rfl | rfl | rfl | rfl
  · rw [bare_sel _ _ h]; decide
  · rw [bare_sel _ _ h]; decide
  · rw [bare_sel _ _ h]; decide
  · rw [bare_sel _ _ h]; decide
  · obtain ⟨h1, h2, h3⟩ := len_sel _ _ h
    unfold decode decodeLen
    rw [h1, h2, h3]; simp [opcField, argField, zField]
  · obtain ⟨h1, h2, h3⟩ := len_sel _ _ h
    unfold decode decodeLen
    rw [h1, h2, h3]; simp [opcField, argField, zField]
  · obtain ⟨h1, h2, h3⟩ := len_sel _ _ h
    unfold decode decodeLen
    rw [h1, h2, h3]; simp [opcField, argField, zField]
  · rw [bare_sel _ _ h]; decide
  · obtain ⟨h1, h2, h3⟩ := nib_sel _ _ h
    unfold decode decodeLenNib
    rw [h1, h2, h3]; simp [opcField, argField, zField]
  · obtain ⟨h1, h3⟩ := mask_sel _ _ h
    unfold decode decodeLenMask
    rw [h1, h3]; simp [opcField, argField, zField]
  · obtain ⟨h1, h3⟩ := mask_sel _ _ h
    unfold decode decodeLenMask
    rw [h1, h3]; simp [opcField, argField, zField]
  · rw [bare_sel _ _ h]; decide

end Sys2Proof.Machine
end

