-- ==== Sys2Proof/Laws/WholeDecode.lean ====
section
/-! SUPPORT. `DECODE` after its checks, by what its region loop answers; the loop over zero `M3` bytes and over the code of a buffer
(R95, R96). -/

namespace Sys2Proof.Machine

theorem decodeStream_empty (env : DecEnv) (n : Nat) (bm : Memory) (h0 : env.clen = 0) :
    decodeStream env n bm =
      .ok { bm := bm.writeBytes 0 (List.replicate n 0x00#8), bcur := n, ctail := 0, matchBit := false } := by
  unfold decodeStream
  rw [if_pos h0]

theorem decodeStream_ok (env : DecEnv) (n : Nat) (bm : Memory) (w : DecWork) (h0 : env.clen ≠ 0)
    (h : decRegions env (regionCount n) n { bm := bm, bcur := 0, ctail := 0, matchBit := false } = .ok w)
    (hc : w.ctail = env.clen) : decodeStream env n bm = .ok w := by
  unfold decodeStream
  rw [if_neg h0, h]
  simp only [bind, Except.bind]
  rw [if_pos hc]

theorem decodeStream_trailing (env : DecEnv) (n : Nat) (bm : Memory) (w : DecWork) (h0 : env.clen ≠ 0)
    (h : decRegions env (regionCount n) n { bm := bm, bcur := 0, ctail := 0, matchBit := false } = .ok w)
    (hc : w.ctail ≠ env.clen) : decodeStream env n bm = .error ⟨.corruptTrailing, w.bcur⟩ := by
  unfold decodeStream
  rw [if_neg h0, h]
  simp only [bind, Except.bind]
  rw [if_neg hc]

theorem decodeStream_raises (env : DecEnv) (n : Nat) (bm : Memory) (r : Raise) (h0 : env.clen ≠ 0)
    (h : decRegions env (regionCount n) n { bm := bm, bcur := 0, ctail := 0, matchBit := false } = .error r) :
    decodeStream env n bm = .error r := by
  unfold decodeStream
  rw [if_neg h0, h]
  rfl

theorem decodeCommand_ok (s : State) (w : DecWork) (h1 : s.bitlen.toNat ≤ 8 * s.bmSize.toNat) (h2 : s.clen.toNat ≤ s.cmSize.toNat)
    (h : decodeStream s.decEnv (nbytes s.bitlen.toNat) s.bm = .ok w) : decodeCommand s = complete 0#8 (s.commitDec w) := by
  unfold decodeCommand
  rw [if_neg (by omega), if_neg (by omega), h]; rfl

theorem decodeCommand_error (s : State) (r : Raise) (h1 : s.bitlen.toNat ≤ 8 * s.bmSize.toNat) (h2 : s.clen.toNat ≤ s.cmSize.toNat)
    (h : decodeStream s.decEnv (nbytes s.bitlen.toNat) s.bm = .error r) : decodeCommand s = faultEntry r s := by
  unfold decodeCommand
  rw [if_neg (by omega), if_neg (by omega), h]; rfl

/-- The region loop over `left` zero `M3` bytes of the `total` regions the bytes need (R96): it fills those regions, and goes on. -/
theorem decRegions_zero (env : DecEnv) (left more rem : Nat) (w : DecWork) (hcov : Covers 4096 (left + more) rem)
    (h : rem = 0 ∨ w.bcur + rem ≤ env.bmSize) (hc : w.ctail + left ≤ env.clen)
    (hz : ∀ a, w.ctail ≤ a → a < w.ctail + left → env.cm.read a = 0#8) :
    decRegions env (left + more) rem w =
      decRegions env more (rem - 4096 * left)
        (w.restore (List.replicate (min (4096 * left) rem) (matchByte w.matchBit)) left w.matchBit) := by
  induction left generalizing rem w with
  | zero => simp [DecWork.restore, Memory.writeBytes]
  | succ left ih =>
    rw [show left + 1 + more = left + more + 1 by omega] at hcov ⊢
    obtain ⟨h1, hcov⟩ := hcov
    simp only [decRegions, cmRead]
    rw [if_neg (by omega), hz _ (by omega) (by omega)]
    simp only [bind, Except.bind]
    rw [dec3_zero _ _ _ (by simp only; omega)]
    simp only
    rw [ih _ _ hcov (by rw [DecWork.fill_bcur]; simp only; omega) (by simp only [DecWork.fill, DecWork.restore]; omega)
      (fun a h1 h2 => hz a (by simp only [DecWork.fill, DecWork.restore] at h1; omega)
        (by simp only [DecWork.fill, DecWork.restore] at h2; omega))]
    unfold DecWork.fill
    rw [show ∀ k, (({ w with ctail := w.ctail + 1 } : DecWork).restore k 0 w.matchBit).matchBit = w.matchBit from fun _ => rfl,
      DecWork.restore_restore, List.replicate_append_replicate, show rem - 4096 - 4096 * left = rem - 4096 * (left + 1) by omega,
      show min 4096 rem + min (4096 * left) (rem - 4096) = min (4096 * (left + 1)) rem by omega]
    simp [DecWork.restore, Nat.add_assoc, Nat.add_comm 1]

/-- The region loop over the code of a whole buffer (R95, R98). -/
theorem decRegions_buffer (env : DecEnv) (bs : List Byte) (bm : Memory) (hb : bs.length ≤ env.bmSize)
    (hs : StreamAt env 0 (bufferCode bs).bytes) :
    decRegions env (regionCount bs.length) bs.length { bm := bm, bcur := 0, ctail := 0, matchBit := false } =
      .ok { bm := bm.writeBytes 0 bs, bcur := bs.length, ctail := (bufferCode bs).bytes.length, matchBit := runAfter false bs } := by
  rw [decRegions_inverts env (regionCount bs.length) bs { bm := bm, bcur := 0, ctail := 0, matchBit := false } (covers_regions _)
    (by simpa using hb) hs, ← bufferCode_matchBit]
  simp [DecWork.restore, bufferCode]

/-- A buffer with output has a code that is not empty (R52). -/
theorem bufferCode_bytes_pos (bs : List Byte) (h : (bufferCode bs).mask ≠ 0#8) : 0 < (bufferCode bs).bytes.length := by
  have hne : bs ≠ [] := by rintro rfl; exact h rfl
  have hlp := List.length_pos_iff.mpr hne
  obtain ⟨k, hk⟩ := Nat.exists_eq_succ_of_ne_zero (show regionCount bs.length ≠ 0 by unfold regionCount; omega)
  unfold bufferCode
  rw [hk]
  simp [regionsCode]

/-- `DECODE` of a code memory that holds exactly the stream of a buffer (R95, R98). -/
theorem decodeStream_buffer (env : DecEnv) (bs : List Byte) (bm : Memory) (hb : bs.length ≤ env.bmSize)
    (hl : env.clen = (bufferStream bs).length) (hs : env.cm.readBytes 0 (bufferStream bs).length = bufferStream bs) :
    decodeStream env bs.length bm =
      .ok { bm := bm.writeBytes 0 bs, bcur := bs.length, ctail := env.clen, matchBit := runAfter false bs } := by
  unfold bufferStream at hs hl
  by_cases h0 : (bufferCode bs).mask = 0#8
  · have hz : IsRun false bs := (bufferCode_mask_eq_zero bs).mp h0
    rw [if_pos h0] at hl
    rw [decodeStream_empty _ _ _ hl, runAfter_of_isRun _ _ hz, hl,
      show List.replicate bs.length 0#8 = bs from ((isRun_iff_replicate false bs).mp hz).symm]
    rfl
  · rw [if_neg h0] at hs hl
    have hpos := bufferCode_bytes_pos bs h0
    rw [hl]
    exact decodeStream_ok env _ bm _ (by omega) (decRegions_buffer env bs bm hb ⟨by omega, hs⟩) hl.symm

end Sys2Proof.Machine
end

