-- ==== Sys2Proof/Laws/Reach.lean ====
section
/-! SUPPORT. A command raises what the unit it has come to raises (`Reaches.raises`); what a unit command that succeeds hands on. -/

namespace Sys2Proof.Machine

theorem faultedWith_inj {s : State} {c c' : Cause} {a a' : Word} (h : s.faultedWith c a = s.faultedWith c' a') : c = c' ∧ a = a' :=
  ⟨congrArg State.cause h, congrArg State.faddr h⟩

/-- A completed command has recorded no fault. -/
theorem complete_ne_faulted {res : Byte} {t u : State} {c : Cause} {a : Word} (ht : t.fault = false)
    (h : complete res t = u.faultedWith c a) : False := by
  have : t.fault = true := congrArg State.fault h
  rw [ht] at this
  cases this

/-! ### What a unit command that succeeds hands on -/

/-- A decode unit command that succeeds leaves what its unit leaves: no register has lost a bit. -/
theorem decUnit_succeeds (size len : Nat) (unit : DecEnv → DecWork → Except Raise DecWork) (u v : State)
    (hk : ∀ w, unit u.decEnv u.decWork = .ok w → DecKeeps u.decEnv len u.decWork w)
    (h : decUnit size len unit u = v) (hv : v.fault = false) :
    len ≤ size ∧ u.clen.toNat ≤ u.cmSize.toNat ∧ u.fault = false ∧
      ∃ w, unit u.decEnv u.decWork = .ok w ∧ v = complete 0#8 (u.commitDec w) ∧ v.decEnv = u.decEnv ∧ v.decWork = w := by
  rcases decUnit_cases size len unit u with ⟨_, he⟩ | ⟨_, _, he⟩ | ⟨hl, hc, ⟨r, _, he⟩ | ⟨w, hw, he⟩⟩
  · rw [he] at h; subst h; cases hv
  · rw [he] at h; subst h; cases hv
  · rw [he] at h; subst h; cases hv
  · rw [he] at h
    subst h
    refine ⟨hl, hc, hv, w, hw, rfl, rfl, ?_⟩
    have k := hk w hw
    have h1 := u.bmSize.isLt
    have h2 := u.clen.isLt
    have h3 := u.bcur.isLt
    have h4 := u.ctail.isLt
    have hb := k.bcur
    have hi := k.inside
    have hs := k.stream
    simp only [State.decEnv, State.decWork] at hb hi hs
    unfold State.decWork complete State.completed State.commitDec
    simp only [BitVec.toNat_ofNat]
    rw [Nat.mod_eq_of_lt (by omega), Nat.mod_eq_of_lt (by omega)]

theorem not_faulted {i : Instr} {u v : State} (hi : i ≠ .srst) (h : exec i u = .next v) (hv : v.fault = false) : u.fault = false := by
  by_contra hc
  have hc : u.fault = true := by simpa using hc
  rw [exec_ignored i u hc hi] at h
  cases h
  rw [hc] at hv
  cases hv

theorem dec1_succeeds {n : Nat} {nib : Nibble} {u v : State} (h : Succeeds (.dec1 n nib) u v) :
    n ≤ 32 ∧ u.clen.toNat ≤ u.cmSize.toNat ∧ u.fault = false ∧
      ∃ w, dec1 u.decEnv n nib u.decWork = .ok w ∧ v = complete 0#8 (u.commitDec w) ∧ v.decEnv = u.decEnv ∧ v.decWork = w := by
  obtain ⟨h1, h2⟩ := h
  rw [exec_dec1 _ _ _ (not_faulted (by simp) h1 h2)] at h1
  exact decUnit_succeeds 32 n _ u v (fun w => dec1_keeps _ _ _ _ w) (Host.Outcome.next.inj h1) h2

theorem dec2_succeeds {n : Nat} {mask : Byte} {u v : State} (h : Succeeds (.dec2 n mask) u v) :
    n ≤ 512 ∧ u.clen.toNat ≤ u.cmSize.toNat ∧ u.fault = false ∧
      ∃ w, dec2 u.decEnv n mask u.decWork = .ok w ∧ v = complete 0#8 (u.commitDec w) ∧ v.decEnv = u.decEnv ∧ v.decWork = w := by
  obtain ⟨h1, h2⟩ := h
  rw [exec_dec2 _ _ _ (not_faulted (by simp) h1 h2)] at h1
  exact decUnit_succeeds 512 n _ u v (fun w => dec2_keeps _ _ _ _ w) (Host.Outcome.next.inj h1) h2

theorem dec3_succeeds {n : Nat} {mask : Byte} {u v : State} (h : Succeeds (.dec3 n mask) u v) :
    n ≤ 4096 ∧ u.clen.toNat ≤ u.cmSize.toNat ∧ u.fault = false ∧
      ∃ w, dec3 u.decEnv n mask u.decWork = .ok w ∧ v = complete 0#8 (u.commitDec w) ∧ v.decEnv = u.decEnv ∧ v.decWork = w := by
  obtain ⟨h1, h2⟩ := h
  rw [exec_dec3 _ _ _ (not_faulted (by simp) h1 h2)] at h1
  exact decUnit_succeeds 4096 n _ u v (fun w => dec3_keeps _ _ _ _ w) (Host.Outcome.next.inj h1) h2

/-- The working copy after a commit of an encode unit that kept its cursors in range. -/
theorem encWork_commit (u : State) (n : Nat) (res : Byte) (w : EncWork) (k : EncKeeps u.encEnv n u.encWork w) :
    (complete res (u.commitEnc w)).encWork = w := by
  have h1 := u.bmSize.isLt
  have h2 := u.cmSize.isLt
  have h3 := u.bcur.isLt
  have h4 := u.ctail.isLt
  have hb := k.bcur
  have hi := k.inside
  have hr := k.room
  simp only [State.encEnv, State.encWork] at hb hi hr
  unfold State.encWork complete State.completed State.commitEnc
  simp only [BitVec.toNat_ofNat]
  rw [Nat.mod_eq_of_lt (by omega), Nat.mod_eq_of_lt (by omega)]

theorem enc1_succeeds {n : Nat} {u v : State} (h1 : 1 ≤ n) (h : Succeeds (.enc1 n) u v) :
    u.fault = false ∧ ∃ x w, enc1 u.encEnv n u.encWork = .ok (x, w) ∧ v.encEnv = u.encEnv ∧ v.encWork = w := by
  obtain ⟨he, hv⟩ := h
  have hf := not_faulted (by simp) he hv
  rw [exec_enc1 _ _ hf] at he
  have he := Host.Outcome.next.inj he
  rcases enc1Command_cases n u with ⟨_, hc⟩ | ⟨h0, _⟩ | ⟨_, _, ⟨r, _, hc⟩ | ⟨x, w, hw, hc⟩⟩
  · rw [hc] at he; subst he; cases hv
  · omega
  · rw [hc] at he; subst he; cases hv
  · rw [hc] at he; subst he
    exact ⟨hf, x, w, hw, rfl, encWork_commit u n _ w (enc1_keeps _ _ _ _ _ hw)⟩

theorem enc2_succeeds {n : Nat} {u v : State} (h : Succeeds (.enc2 n) u v) :
    n ≤ 512 ∧ u.fault = false ∧ ∃ x w, enc2 u.encEnv n u.encWork = .ok (x, w) ∧ v.encEnv = u.encEnv ∧ v.encWork = w := by
  obtain ⟨he, hv⟩ := h
  have hf := not_faulted (by simp) he hv
  rw [exec_enc2 _ _ hf] at he
  have he := Host.Outcome.next.inj he
  rcases enc2Command_cases n u with ⟨_, hc⟩ | ⟨hn, ⟨r, _, hc⟩ | ⟨x, w, hw, hc⟩⟩
  · rw [hc] at he; subst he; cases hv
  · rw [hc] at he; subst he; cases hv
  · rw [hc] at he; subst he
    exact ⟨hn, hf, x, w, hw, rfl, encWork_commit u n _ w (enc2_keeps _ _ _ _ _ hw)⟩

theorem enc3_succeeds {n : Nat} {u v : State} (h : Succeeds (.enc3 n) u v) :
    n ≤ 4096 ∧ u.fault = false ∧ ∃ x w, enc3 u.encEnv n u.encWork = .ok (x, w) ∧ v.encEnv = u.encEnv ∧ v.encWork = w := by
  obtain ⟨he, hv⟩ := h
  have hf := not_faulted (by simp) he hv
  rw [exec_enc3 _ _ hf] at he
  have he := Host.Outcome.next.inj he
  rcases enc3Command_cases n u with ⟨_, hc⟩ | ⟨hn, ⟨r, _, hc⟩ | ⟨x, w, hw, hc⟩⟩
  · rw [hc] at he; subst he; cases hv
  · rw [hc] at he; subst he; cases hv
  · rw [hc] at he; subst he
    exact ⟨hn, hf, x, w, hw, rfl, encWork_commit u n _ w (enc3_keeps _ _ _ _ _ hw)⟩

/-! ### What a unit command that faults has raised -/

/-- The unit command `j` at `u` raises `r`. -/
def Raises (j : Instr) (u : State) (r : Raise) : Prop := exec j u = .next (faultEntry r u)

/-- A decode unit command past its two checks faults exactly as its unit does. -/
theorem decUnit_raise (size len : Nat) (unit : DecEnv → DecWork → Except Raise DecWork) (u : State) (c : Cause) (a : Word)
    (hl : len ≤ size) (hc : u.clen.toNat ≤ u.cmSize.toNat) (hf : u.fault = false) (h : decUnit size len unit u = u.faultedWith c a) :
    ∃ r, unit u.decEnv u.decWork = .error r ∧ c = r.cause ∧ a = BitVec.ofNat 32 r.addr := by
  rcases decUnit_cases size len unit u with ⟨h1, _⟩ | ⟨_, h1, _⟩ | ⟨_, _, ⟨r, hr, he⟩ | ⟨w, _, he⟩⟩
  · omega
  · omega
  · rw [he, faultEntry_eq] at h
    obtain ⟨h1, h2⟩ := faultedWith_inj h
    exact ⟨r, hr, h1.symm, h2.symm⟩
  · rw [he] at h
    exact (complete_ne_faulted (by exact hf) h).elim

/-- The working copy with the read cursor past a mask byte that is there. -/
theorem decWork_next (v : State) (h : v.ctail.toNat < v.clen.toNat) :
    v.pastByte.decWork = { v.decWork with ctail := v.decWork.ctail + 1 } := by
  have := v.clen.isLt
  unfold State.decWork State.pastByte
  simp only [BitVec.toNat_add, BitVec.toNat_ofNat]
  rw [Nat.mod_eq_of_lt (by omega)]

theorem encWork_next (v : State) (h : v.ctail.toNat + 1 < 2 ^ 32) :
    v.pastByte.encWork = { v.encWork with ctail := v.encWork.ctail + 1 } := by
  unfold State.encWork State.pastByte
  simp only [BitVec.toNat_add, BitVec.toNat_ofNat]
  rw [Nat.mod_eq_of_lt (by omega)]

/-! ### The loops, at a child -/

/-- A block at its round `k`: what it raises there, and what it raises if the round does. -/
theorem roundStart_raises {n k : Nat} {mask : Byte} {u v : State} (h : RoundStart n mask u k v) :
    u.fault = false ∧ n ≤ 512 ∧ u.clen.toNat ≤ u.cmSize.toNat ∧ v.decEnv = u.decEnv ∧ v.fault = false ∧ v.cmSize = u.cmSize ∧
    (hasChild mask k = true → v.clen.toNat ≤ v.ctail.toNat → dec2 u.decEnv n mask u.decWork = .error ⟨.corruptTruncated, v.bcur.toNat⟩) ∧
    (hasChild mask k = true → v.ctail.toNat < v.clen.toNat → v.cm.read v.ctail.toNat = 0x00#8 →
      dec2 u.decEnv n mask u.decWork = .error ⟨.corruptZeroMask, v.bcur.toNat⟩) ∧
    ∀ r, v.maskThere (hasChild mask k) →
      decRound v.decEnv (n - 64 * k) (v.childMask (hasChild mask k)) (v.afterMask (hasChild mask k)).decWork = .error r →
      dec2 u.decEnv n mask u.decWork = .error r := by
  obtain ⟨hn, hb, hk, hs⟩ := h
  obtain ⟨_, hc, hf, w, hw, hv, he, hd⟩ := dec2_succeeds hs
  have hres := dec2_resume u.decEnv n k mask u.decWork w hn hb hk hw
  obtain ⟨c1, c2, c3, c4⟩ := unmaskedBlock_child u.decEnv 64 (decRound u.decEnv) mask (roundCount n - k) k (n - 64 * k) w (by omega)
  rw [hres]
  rw [← he, ← hd] at *
  refine ⟨hf, hn, hc, rfl, hs.2, by rw [hv]; rfl, fun hm hl => c1 hm hl, fun hm hl hz => c2 hm hl hz, fun r ht hr => ?_⟩
  have hcongr : ∀ p w', decRound v.decEnv (n - 64 * k) p w' = .error r → decRound v.decEnv (min 64 (n - 64 * k)) p w' = .error r := by
    intro p w' h
    simp only [decRound, firstChunk, secondChunk] at h ⊢
    rw [show min 32 (min 64 (n - 64 * k)) = min 32 (n - 64 * k) by omega,
      show min 32 (min 64 (n - 64 * k) - 32) = min 32 (n - 64 * k - 32) by omega]
    exact h
  have hr := hcongr _ _ hr
  cases hm : hasChild mask k with
  | true =>
    obtain ⟨hl, hz⟩ := ht hm
    rw [hm] at hr
    simp only [State.childMask, State.afterMask, if_true] at hr
    rw [decWork_next v hl] at hr
    exact c3 hm hl hz r hr
  | false =>
    rw [hm] at hr
    simp only [State.childMask, State.afterMask, Bool.false_eq_true, if_false] at hr
    exact c4 hm r hr

/-- A region at its block `k`. -/
theorem blockStart_raises {n k : Nat} {mask : Byte} {u v : State} (h : BlockStart n mask u k v) :
    u.fault = false ∧ n ≤ 4096 ∧ u.clen.toNat ≤ u.cmSize.toNat ∧ v.decEnv = u.decEnv ∧ v.fault = false ∧ v.cmSize = u.cmSize ∧
    (hasChild mask k = true → v.clen.toNat ≤ v.ctail.toNat → dec3 u.decEnv n mask u.decWork = .error ⟨.corruptTruncated, v.bcur.toNat⟩) ∧
    (hasChild mask k = true → v.ctail.toNat < v.clen.toNat → v.cm.read v.ctail.toNat = 0x00#8 →
      dec3 u.decEnv n mask u.decWork = .error ⟨.corruptZeroMask, v.bcur.toNat⟩) ∧
    ∀ r, v.maskThere (hasChild mask k) →
      dec2 v.decEnv (min 512 (n - 512 * k)) (v.childMask (hasChild mask k)) (v.afterMask (hasChild mask k)).decWork = .error r →
      dec3 u.decEnv n mask u.decWork = .error r := by
  obtain ⟨hn, hb, hk, hs⟩ := h
  obtain ⟨_, hc, hf, w, hw, hv, he, hd⟩ := dec3_succeeds hs
  have hres := dec3_resume u.decEnv n k mask u.decWork w hn hb hk hw
  obtain ⟨c1, c2, c3, c4⟩ := unmaskedBlock_child u.decEnv 512 (dec2 u.decEnv) mask (blockCount n - k) k (n - 512 * k) w (by omega)
  rw [hres]
  rw [← he, ← hd] at *
  refine ⟨hf, hn, hc, rfl, hs.2, by rw [hv]; rfl, fun hm hl => c1 hm hl, fun hm hl hz => c2 hm hl hz, fun r ht hr => ?_⟩
  cases hm : hasChild mask k with
  | true =>
    obtain ⟨hl, hz⟩ := ht hm
    rw [hm] at hr
    simp only [State.childMask, State.afterMask, if_true] at hr
    rw [decWork_next v hl] at hr
    exact c3 hm hl hz r hr
  | false =>
    rw [hm] at hr
    simp only [State.childMask, State.afterMask, Bool.false_eq_true, if_false] at hr
    exact c4 hm r hr

/-- `DECODE` at its region `q`: its checks have passed and what is left is the loop from there (R95). -/
theorem regionStart_rest {s v : State} {q : Nat} (hf : s.fault = false) (h : RegionStart s q v)
    (hq : q < regionCount (nbytes s.bitlen.toNat)) :
    s.bitlen.toNat ≤ 8 * s.bmSize.toNat ∧ s.clen.toNat ≤ s.cmSize.toNat ∧ s.clen ≠ 0#32 ∧ v.fault = false ∧ v.cmSize = s.cmSize ∧
    v.decEnv = s.decEnv ∧
    decRegions s.decEnv (regionCount (nbytes s.bitlen.toNat)) (nbytes s.bitlen.toNat)
        { bm := s.bm, bcur := 0, ctail := 0, matchBit := false } =
      decRegions s.decEnv (regionCount (nbytes s.bitlen.toNat) - q) (nbytes s.bitlen.toNat - 4096 * q) v.decWork := by
  induction q generalizing v with
  | zero =>
    obtain ⟨h1, h2, h3, rfl⟩ := h
    exact ⟨h1, h2, h3, hf, rfl, rfl, rfl⟩
  | succ q ih =>
    obtain ⟨v', h', hl, hs⟩ := h
    obtain ⟨h1, h2, h3, h4, h5, h6, h7⟩ := ih h' (by omega)
    obtain ⟨_, _, _, w, hw, hv, he, hd⟩ := dec3_succeeds hs
    refine ⟨h1, h2, h3, hs.2, by rw [hv]; exact h5, by rw [he]; exact h6, ?_⟩
    rw [h7, show regionCount (nbytes s.bitlen.toNat) - q = regionCount (nbytes s.bitlen.toNat) - (q + 1) + 1 by omega]
    have hfull : min 4096 (nbytes s.bitlen.toNat - 4096 * q) = 4096 := by unfold regionCount at hq; omega
    have hrd : cmRead s.decEnv v'.decWork.ctail v'.decWork.bcur = .ok (v'.cm.read v'.ctail.toNat) := by
      rw [← h6]; exact cmRead_some v'.decEnv _ _ hl
    rw [decWork_next v' hl, show v'.pastByte.decEnv = v'.decEnv from rfl, h6] at hw
    simp only [decRegions, hrd, hfull, bind, Except.bind]
    rw [hw, hd, show nbytes s.bitlen.toNat - 4096 * q - 4096 = nbytes s.bitlen.toNat - 4096 * (q + 1) by omega]

theorem decode_raise (s : State) (r : Raise) (hf : s.fault = false) (h1 : s.bitlen.toNat ≤ 8 * s.bmSize.toNat)
    (h2 : s.clen.toNat ≤ s.cmSize.toNat) (h3 : s.clen ≠ 0#32)
    (h : decRegions s.decEnv (regionCount (nbytes s.bitlen.toNat)) (nbytes s.bitlen.toNat)
      { bm := s.bm, bcur := 0, ctail := 0, matchBit := false } = .error r) : Raises .decode s r := by
  unfold Raises
  rw [exec_decode _ hf, decodeCommand_error s r h1 h2 (decodeStream_raises _ _ _ _ (fun h0 => h3 (by
    apply BitVec.eq_of_toNat_eq; simpa [State.decEnv] using h0)) h)]

/-! ### A command raises what a unit it has come to raises -/

theorem dec1_raise {u : State} {n : Nat} {nib : Nibble} {r : Raise} (hf : u.fault = false) (hn : n ≤ 32) (hc : u.clen.toNat ≤ u.cmSize.toNat)
    (h : dec1 u.decEnv n nib u.decWork = .error r) : Raises (.dec1 n nib) u r := by
  unfold Raises
  rw [exec_dec1 _ _ _ hf, dec1Command, decUnit_error 32 n _ u r hn hc h]

theorem dec2_raise {u : State} {n : Nat} {mask : Byte} {r : Raise} (hf : u.fault = false) (hn : n ≤ 512) (hc : u.clen.toNat ≤ u.cmSize.toNat)
    (h : dec2 u.decEnv n mask u.decWork = .error r) : Raises (.dec2 n mask) u r := by
  unfold Raises
  rw [exec_dec2 _ _ _ hf, dec2Command, decUnit_error 512 n _ u r hn hc h]

theorem dec3_raise {u : State} {n : Nat} {mask : Byte} {r : Raise} (hf : u.fault = false) (hn : n ≤ 4096) (hc : u.clen.toNat ≤ u.cmSize.toNat)
    (h : dec3 u.decEnv n mask u.decWork = .error r) : Raises (.dec3 n mask) u r := by
  unfold Raises
  rw [exec_dec3 _ _ _ hf, dec3Command, decUnit_error 4096 n _ u r hn hc h]

theorem enc1_raise {u : State} {n : Nat} {r : Raise} (hf : u.fault = false) (h1 : 1 ≤ n) (hn : n ≤ 32)
    (h : enc1 u.encEnv n u.encWork = .error r) : Raises (.enc1 n) u r := by
  unfold Raises
  rw [exec_enc1 _ _ hf, enc1Command_error n u r hn h1 h]

theorem enc2_raise {u : State} {n : Nat} {r : Raise} (hf : u.fault = false) (hn : n ≤ 512)
    (h : enc2 u.encEnv n u.encWork = .error r) : Raises (.enc2 n) u r := by
  unfold Raises
  rw [exec_enc2 _ _ hf, enc2Command_error n u r hn h]

theorem enc3_raise {u : State} {n : Nat} {r : Raise} (hf : u.fault = false) (hn : n ≤ 4096)
    (h : enc3 u.encEnv n u.encWork = .error r) : Raises (.enc3 n) u r := by
  unfold Raises
  rw [exec_enc3 _ _ hf, enc3Command_error n u r hn h]

/-- The recorded fault is all that a raise leaves. -/
theorem fault_of_raise {i : Instr} {s : State} {r : Raise} {c : Cause} {a : Word} (h : Raises i s r) (hc : c = r.cause)
    (ha : a = BitVec.ofNat 32 r.addr) : exec i s = .next (s.faultedWith c a) := by
  unfold Raises at h
  rw [h, faultEntry_eq, hc, ha]

/-- What the unit it has come to raises, the command raises (R11, R118). -/
theorem Reaches.raises {i j : Instr} {s u : State} (h : Reaches i s j u) (hf : s.fault = false) :
    u.fault = false ∧ ∀ c a, exec j u = .next (u.faultedWith c a) → exec i s = .next (s.faultedWith c a) := by
  induction h with
  | self => exact ⟨hf, fun _ _ h => h⟩
  | @region q v hi hr hq hl =>
    obtain ⟨h1, h2, h3, h4, h5, h6, h7⟩ := regionStart_rest hf hr hq
    refine ⟨h4, fun c a h => ?_⟩
    rw [exec_dec3 _ _ v.pastByte h4] at h
    have hclen : v.clen.toNat = s.clen.toNat := congrArg DecEnv.clen h6
    obtain ⟨r, hr, hc, ha⟩ := decUnit_raise 4096 _ _ v.pastByte c a (Nat.min_le_left _ _)
      (by show v.clen.toNat ≤ v.cmSize.toNat; rw [hclen, h5]; exact h2) h4 (Host.Outcome.next.inj h)
    rw [decWork_next v hl] at hr
    subst hi
    refine fault_of_raise (decode_raise s r hf h1 h2 h3 ?_) hc ha
    rw [h7]
    obtain ⟨l, hl'⟩ : ∃ l, regionCount (nbytes s.bitlen.toNat) - q = l + 1 := ⟨regionCount (nbytes s.bitlen.toNat) - q - 1, by omega⟩
    have hrd : cmRead s.decEnv v.decWork.ctail v.decWork.bcur = .ok (v.cm.read v.ctail.toNat) := by
      rw [← h6]; exact cmRead_some v.decEnv _ _ hl
    rw [show v.pastByte.decEnv = v.decEnv from rfl, h6] at hr
    rw [hl']
    simp only [decRegions, hrd, bind, Except.bind]
    rw [hr]
  | @block n k mask u v _ hb ht ih =>
    obtain ⟨h1, h2, h3, h4, h5, h6, _, _, h9⟩ := blockStart_raises hb
    have hf' : (v.afterMask (hasChild mask k)).fault = false := by unfold State.afterMask; split <;> exact h5
    have he : (v.afterMask (hasChild mask k)).decEnv = v.decEnv := by unfold State.afterMask; split <;> rfl
    have hc' : (v.afterMask (hasChild mask k)).clen.toNat ≤ (v.afterMask (hasChild mask k)).cmSize.toNat := by
      have e1 : v.clen.toNat = u.clen.toNat := congrArg DecEnv.clen h4
      unfold State.afterMask; split <;> (show v.clen.toNat ≤ v.cmSize.toNat; rw [e1, h6]; exact h3)
    refine ⟨hf', fun c a h => ?_⟩
    rw [exec_dec2 _ _ _ hf'] at h
    obtain ⟨r, hr, hc, ha⟩ := decUnit_raise 512 _ _ _ c a (Nat.min_le_left _ _) hc' hf' (Host.Outcome.next.inj h)
    rw [he] at hr
    exact ih.2 c a (fault_of_raise (dec3_raise h1 h2 h3 (h9 r ht hr)) hc ha)
  | @chunk1 n k mask u v _ hb ht ih =>
    obtain ⟨h1, h2, h3, h4, h5, h6, _, _, h9⟩ := roundStart_raises hb
    have hf' : (v.afterMask (hasChild mask k)).fault = false := by unfold State.afterMask; split <;> exact h5
    have he : (v.afterMask (hasChild mask k)).decEnv = v.decEnv := by unfold State.afterMask; split <;> rfl
    have hc' : (v.afterMask (hasChild mask k)).clen.toNat ≤ (v.afterMask (hasChild mask k)).cmSize.toNat := by
      have e1 : v.clen.toNat = u.clen.toNat := congrArg DecEnv.clen h4
      unfold State.afterMask; split <;> (show v.clen.toNat ≤ v.cmSize.toNat; rw [e1, h6]; exact h3)
    refine ⟨hf', fun c a h => ?_⟩
    rw [exec_dec1 _ _ _ hf'] at h
    obtain ⟨r, hr, hc, ha⟩ := decUnit_raise 32 _ _ _ c a (by unfold firstChunk; omega) hc' hf' (Host.Outcome.next.inj h)
    rw [he] at hr
    exact ih.2 c a (fault_of_raise (dec2_raise h1 h2 h3 (h9 r ht (decRound_first _ _ _ _ _ hr))) hc ha)
  | @chunk2 n k mask u v w _ hb ht hs ih =>
    obtain ⟨h1, h2, h3, h4, h5, h6, _, _, h9⟩ := roundStart_raises hb
    have he : (v.afterMask (hasChild mask k)).decEnv = v.decEnv := by unfold State.afterMask; split <;> rfl
    obtain ⟨_, hcc, _, x, hx, hw, hwe, hwd⟩ := dec1_succeeds hs
    refine ⟨hs.2, fun c a h => ?_⟩
    rw [exec_dec1 _ _ _ hs.2] at h
    obtain ⟨r, hr, hc, ha⟩ := decUnit_raise 32 _ _ _ c a (by unfold secondChunk; omega)
      (by rw [hw]; exact hcc) hs.2 (Host.Outcome.next.inj h)
    rw [hwe, he, hwd] at hr
    rw [he] at hx
    exact ih.2 c a (fault_of_raise (dec2_raise h1 h2 h3 (h9 r ht (decRound_second _ _ _ _ _ _ hx hr))) hc ha)
  | @encBlock n k u v _ hn hk hs ht ih =>
    obtain ⟨_, h1, x, w, hw, he, hd⟩ := enc3_succeeds hs
    refine ⟨hs.2, fun c a h => ?_⟩
    rw [exec_enc2 _ v.pastByte hs.2] at h
    rcases enc2Command_cases (min 512 (n - 512 * k)) v.pastByte with ⟨hgt, _⟩ | ⟨_, ⟨r, hr, hc⟩ | ⟨_, _, _, hc⟩⟩
    · omega
    · rw [hc, faultEntry_eq] at h
      obtain ⟨e1, e2⟩ := faultedWith_inj (Host.Outcome.next.inj h)
      rw [encWork_next v ht, show v.pastByte.encEnv = v.encEnv from rfl, he, hd] at hr
      exact ih.2 c a (fault_of_raise (enc3_raise h1 hn (enc3_child _ n k _ w x r hk hw hr)) e1.symm e2.symm)
    · rw [hc] at h
      exact (complete_ne_faulted (by exact hs.2) (Host.Outcome.next.inj h)).elim
  | @encChunk1 n k u v _ hn hk hs ht ih =>
    obtain ⟨_, h1, x, w, hw, he, hd⟩ := enc2_succeeds hs
    refine ⟨hs.2, fun c a h => ?_⟩
    rw [exec_enc1 _ v.pastByte hs.2] at h
    rcases enc1Command_cases (firstChunk (n - 64 * k)) v.pastByte with ⟨hgt, _⟩ | ⟨h0, _⟩ | ⟨_, _, ⟨r, hr, hc⟩ | ⟨_, _, _, hc⟩⟩
    · unfold firstChunk at hgt; omega
    · unfold firstChunk at h0; omega
    · rw [hc, faultEntry_eq] at h
      obtain ⟨e1, e2⟩ := faultedWith_inj (Host.Outcome.next.inj h)
      rw [encWork_next v ht, show v.pastByte.encEnv = v.encEnv from rfl, he, hd] at hr
      have hmin : firstChunk (min 64 (n - 64 * k)) = firstChunk (n - 64 * k) := by unfold firstChunk; omega
      rw [← hmin] at hr
      exact ih.2 c a (fault_of_raise (enc2_raise h1 hn (enc2_child _ n k _ w x r hk hw (encRound_first _ _ _ _ hr))) e1.symm e2.symm)
    · rw [hc] at h
      exact (complete_ne_faulted (by exact hs.2) (Host.Outcome.next.inj h)).elim
  | @encChunk2 n k u v w1 _ hn hk hs ht hs1 ih =>
    obtain ⟨_, h1, x, w, hw, he, hd⟩ := enc2_succeeds hs
    obtain ⟨_, y, w2, hw2, he2, hd2⟩ := enc1_succeeds (by omega) hs1
    refine ⟨hs1.2, fun c a h => ?_⟩
    rw [exec_enc1 _ _ hs1.2] at h
    rcases enc1Command_cases (secondChunk (n - 64 * k)) w1 with ⟨hgt, _⟩ | ⟨h0, _⟩ | ⟨_, _, ⟨r, hr, hc⟩ | ⟨_, _, _, hc⟩⟩
    · unfold secondChunk at hgt; omega
    · unfold secondChunk at h0; omega
    · rw [hc, faultEntry_eq] at h
      obtain ⟨e1, e2⟩ := faultedWith_inj (Host.Outcome.next.inj h)
      rw [encWork_next v ht, show v.pastByte.encEnv = v.encEnv from rfl, he, hd] at hw2
      rw [he2, hd2, show v.pastByte.encEnv = v.encEnv from rfl, he] at hr
      have hmin : firstChunk (min 64 (n - 64 * k)) = 32 := by unfold firstChunk; omega
      have hmin2 : secondChunk (min 64 (n - 64 * k)) = secondChunk (n - 64 * k) := by unfold secondChunk; omega
      rw [← hmin2] at hr
      refine ih.2 c a (fault_of_raise (enc2_raise h1 hn (enc2_child _ n k _ w x r (by omega) hw
        (encRound_second _ _ _ w2 y r (by rw [hmin]; exact hw2) hr))) e1.symm e2.symm)
    · rw [hc] at h
      exact (complete_ne_faulted (by exact hs1.2) (Host.Outcome.next.inj h)).elim

/-- A chunk that raises, wherever in a decode command it stands. -/
theorem Reaches.chunk_raises {i : Instr} {s u : State} {n : Nat} {nib : Nibble} {c : Cause} (h : Reaches i s (.dec1 n nib) u)
    (hf : s.fault = false) (hn : n ≤ 32) (hc : u.clen.toNat ≤ u.cmSize.toNat)
    (hd : dec1 u.decEnv n nib u.decWork = .error ⟨c, u.bcur.toNat⟩) : exec i s = .next (s.faultedWith c u.bcur) := by
  obtain ⟨hu, hl⟩ := h.raises hf
  exact hl _ _ (fault_of_raise (dec1_raise hu hn hc hd) rfl (by simp))

/-- A group that raises, wherever in a decode command it stands. -/
theorem Reaches.group_raises {i : Instr} {s u v : State} {n g : Nat} {nib : Nibble} {c : Cause} (h : Reaches i s (.dec1 n nib) u)
    (hf : s.fault = false) (hg : GroupStart n nib u g v)
    (hr : markedGroup v.decEnv u.bcur.toNat (groupSize n g) v.matchBit v.ctail.toNat = .error ⟨c, u.bcur.toNat⟩)
    (hz : ¬ (g = 0 ∧ nib = fullNibble n) ∨ (v.ctail.toNat < v.clen.toNat → v.cm.read v.ctail.toNat ≠ 0x00#8)) :
    exec i s = .next (s.faultedWith c u.bcur) := by
  obtain ⟨h1, hn, hb, hbm, hm, hgc, hs, h0⟩ := hg
  obtain ⟨_, hc, _, w, hw, hv, he, hd⟩ := dec1_succeeds hs
  refine h.chunk_raises hf hn hc ?_
  rw [← hd] at hw
  rw [he] at hr
  have hz : ¬ (g = 0 ∧ nib = fullNibble n) ∨ (v.decWork.ctail < v.decEnv.clen → v.decEnv.cm.read v.decWork.ctail ≠ 0x00#8) := hz
  rw [he] at hz
  exact dec1_group u.decEnv n g nib u.decWork v.decWork _ h1 hn hb hbm hm hgc hw h0 hr hz

end Sys2Proof.Machine
end

