-- ==== Sys2Proof/Machine/Script.lean ====
section
/-! DEFINITION. The host script notation of R50 and the pseudo-commands of R51, as agendas of host moves. -/

namespace Sys2Proof.Machine

/-- `RESET` (R50). -/
def scriptReset : List Event := [.host .reset]

/-- `WR <REG>, <value>` (R50). -/
def scriptWr (r : Reg) (v : Word) : List Event := [.host (.writeReg .word (regOffset r) v)]

/-- `RD <REG>` (R50). -/
def scriptRd (r : Reg) : List Event := [.host (.readReg .word (regOffset r))]

/-- `LDBM <offset>, <b0> <b1> ...` (R50). -/
def scriptLdbm : Nat → List Byte → List Event
  | _, [] => []
  | a, v :: vs => .host (.writeBM a v) :: scriptLdbm (a + 1) vs

/-- `LDCM <offset>, <b0> <b1> ...` (R50). -/
def scriptLdcm : Nat → List Byte → List Event
  | _, [] => []
  | a, v :: vs => .host (.writeCM a v) :: scriptLdcm (a + 1) vs

/-- `FILLBM <offset>, <count>, <byte>` (R50). -/
def scriptFillbm (a count : Nat) (v : Byte) : List Event := scriptLdbm a (List.replicate count v)

/-- Reads `BM[a .. a + count - 1]` (R51). -/
def scriptReadBM (a count : Nat) : List Event := (List.range count).map (fun k => .host (.readBM (a + k)))

/-- Reads `CM[a .. a + count - 1]` (R51). -/
def scriptReadCM (a count : Nat) : List Event := (List.range count).map (fun k => .host (.readCM (a + k)))

/-- `<MNEMONIC> ...` (R50): the write of `CMD`, then polling. The poll that ends the wait stands for all of them: the block's
turn, then one read of `STATUS` (log 15). -/
def scriptCommand (i : Instr) : List Event :=
  scriptWr .cmd (encode i) ++ [.block] ++ scriptRd .status

/-- `ENC1` without operand means `ENC1 #32` (R51). -/
def scriptEnc1 : List Event := scriptCommand (.enc1 32)

/-- `ENC2` without operand means `ENC2 #512` (R51). -/
def scriptEnc2 : List Event := scriptCommand (.enc2 512)

/-- `ENC3` without operand means `ENC3 #4096` (R51). -/
def scriptEnc3 : List Event := scriptCommand (.enc3 4096)

/-- `DEC1 #<mask>` with one operand means the full length (R51). -/
def scriptDec1 (nib : Nibble) : List Event := scriptCommand (.dec1 32 nib)

/-- `DEC2 #<mask>` with one operand means the full length (R51). -/
def scriptDec2 (mask : Byte) : List Event := scriptCommand (.dec2 512 mask)

/-- `DEC3 #<mask>` with one operand means the full length (R51). -/
def scriptDec3 (mask : Byte) : List Event := scriptCommand (.dec3 4096 mask)

/-- `encode(bits, bitLength)` up to the read of `CLEN` (R51); the host then reads `CM[0 .. CLEN-1]` with `scriptReadCM`. -/
def scriptEncodeCall (bits : List Byte) (bitLength : Word) : List Event :=
  scriptLdbm 0 bits ++ scriptWr .bitlen bitLength ++ scriptCommand .encode ++ scriptRd .clen

/-- `decode(encoded, bitLength)` (R51). -/
def scriptDecodeCall (encoded : List Byte) (bitLength : Word) : List Event :=
  scriptLdcm 0 encoded ++ scriptWr .clen (BitVec.ofNat 32 encoded.length) ++ scriptWr .bitlen bitLength ++
    scriptCommand .decode ++ scriptReadBM 0 (nbytes bitLength.toNat)

/-- `worstCaseOutputSize(inputLength)` (R51). -/
def scriptWorstCase (inputLength : Nat) : List Event :=
  scriptWr .bitlen (BitVec.ofNat 32 (8 * inputLength)) ++ scriptRd .wcsz

end Sys2Proof.Machine
end

