-- ==== Sys2Proof/Tests/Slice0.lean ====
section
/-! SUPPORT. Tests: words of the encodings, one-step vectors of spec/95_test_vectors.md (the row is named in each comment), and for
every claim with hypotheses a witness that meets them. -/

namespace Sys2Proof.Tests

open Sys2Proof Sys2Proof.Machine

/-! ### Ill-formed commands are refused (R45: `LEN` is 13 bits) -/

theorem test_illformed_enc1 : Instr.wellFormed (.enc1 8192) = false := by decide
theorem test_illformed_enc2 : Instr.wellFormed (.enc2 8192) = false := by decide
theorem test_illformed_enc3 : Instr.wellFormed (.enc3 8192) = false := by decide
theorem test_illformed_dec1 : Instr.wellFormed (.dec1 8192 0x8#4) = false := by decide
theorem test_illformed_dec2 : Instr.wellFormed (.dec2 8192 0x80#8) = false := by decide
theorem test_illformed_dec3 : Instr.wellFormed (.dec3 8192 0x80#8) = false := by decide

/-! ### The word of every command, bit by bit: `OPC` `ARG` `Z` `LEN` (R45, R48) -/

theorem test_decode_nop : decode 0b00000000_00000000_000_0000000000000#32 = some .nop := by decide
theorem test_decode_init : decode 0b00000001_00000000_000_0000000000000#32 = some .init := by decide
theorem test_decode_srst : decode 0b00000010_00000000_000_0000000000000#32 = some .srst := by decide
theorem test_decode_norm : decode 0b00001000_00000000_000_0000000000000#32 = some .norm := by decide
theorem test_decode_enc1 : decode 0b00010000_00000000_000_0000000100000#32 = some (.enc1 32) := by decide
theorem test_decode_enc2 : decode 0b00010001_00000000_000_0001000000000#32 = some (.enc2 512) := by decide
theorem test_decode_enc3 : decode 0b00010010_00000000_000_1000000000000#32 = some (.enc3 4096) := by decide
theorem test_decode_encode : decode 0b00010011_00000000_000_0000000000000#32 = some .encode := by decide
theorem test_decode_dec1 : decode 0b00100000_00001000_000_0000000100000#32 = some (.dec1 32 0x8#4) := by decide
theorem test_decode_dec2 : decode 0b00100001_11000000_000_0000001100100#32 = some (.dec2 100 0xC0#8) := by decide
theorem test_decode_dec3 : decode 0b00100010_01000000_000_1000000000000#32 = some (.dec3 4096 0x40#8) := by decide
theorem test_decode_decode : decode 0b00100011_00000000_000_0000000000000#32 = some .decode := by decide

/-- K4 to K10: illegal words. -/
theorem test_illegal_words :
    [0x03000000#32, 0xFF000000#32, 0x00000001#32, 0x13000020#32, 0x10002020#32, 0x10010020#32, 0x20100020#32].map decode =
      [none, none, none, none, none, none, none] := by decide

/-- K12: `ENC3 #8191` is a legal word. -/
theorem test_longest_length : decode 0x12001FFF#32 = some (.enc3 8191) := by decide

/-- Words with `LEN` in the last bits above a table row's `nbits` read as 0. -/
theorem test_table_word : decodeTableWord 32 0x21C00064 = some (.dec2 100 0xC0#8) ∧ decodeTableWord 8 0x21C00064 = none := by decide

/-! ### One-step vectors -/

/-- A block of 64-byte memories, idle after reset, with the given bytes from offset 0. -/
def box (bits code : List Byte) : State :=
  { State.reset with
    bmSize := 64#32, cmSize := 64#32, bm := Memory.writeBytes [] 0 bits, cm := Memory.writeBytes [] 0 code,
    clen := BitVec.ofNat 32 code.length }

/-- A block of 8192-byte memories. -/
def bigBox (bits code : List Byte) : State := { box bits code with bmSize := 8192#32, cmSize := 8708#32 }

/-- What the vectors show of the state a command leaves: `STATUS`, `RESULT`, `L1MASK`, `CTAIL`, `BCUR`, `MATCH`. -/
def shown (i : Instr) (s : State) : Option (Word × Byte × Word × Word × Word × Bool) :=
  (nextState (exec i s)).map fun t => (t.statusWord, t.result, t.l1mask, t.ctail, t.bcur, t.matchBit)

/-- What the vectors show of a fault: `STATUS`, `CAUSE`, `FADDR`, and that nothing else changed. -/
def faulted (i : Instr) (s : State) (c : Cause) (a : Word) : Prop := nextState (exec i s) = some (s.faultedWith c a)

/-- The first `n` bytes of `CM` after a command. -/
def code (i : Instr) (s : State) (n : Nat) : Option (List Byte) := (nextState (exec i s)).map fun t => t.cm.readBytes 0 n

/-- The first `n` bytes of `BM` after a command. -/
def bits (i : Instr) (s : State) (n : Nat) : Option (List Byte) := (nextState (exec i s)).map fun t => t.bm.readBytes 0 n

/-- The state before K2 and K3, with some memory contents. -/
def usedBox : State :=
  { box [0x12#8] [0x34#8] with
    matchBit := true, bcur := 64#32, ctail := 9#32, l1mask := 0x80000000#32, bitlen := 800#32, clen := 5#32, done := true }

/-- `b` `n` times. -/
def rep (b : Byte) (n : Nat) : List Byte := List.replicate n b

/-- K1. -/
theorem test_nop : shown .nop { box [] [] with result := 0x8#8, done := true, matchBit := true, bcur := 32#32, ctail := 2#32 } =
    some (0x2#32, 0x0#8, 0#32, 2#32, 32#32, true) := by decide
/-- H11. -/
theorem test_nop_faulted : nextState (exec .nop ((box [] []).faultedWith .badLen 3#32)) = some ((box [] []).faultedWith .badLen 3#32) := by
  decide
/-- K2. -/
theorem test_init : nextState (exec .init usedBox) = some { box [0x12#8] [0x34#8] with bitlen := 800#32, clen := 5#32, done := true } := by
  decide
/-- K3. -/
theorem test_srst : nextState (exec .srst usedBox) = some { box [0x12#8] [0x34#8] with clen := 0#32 } := by decide
/-- H13. -/
theorem test_srst_faulted : nextState (exec .srst ((box [] []).faultedWith .corruptTruncated 3#32)) = some (box [] []) := by decide
/-- N2. -/
theorem test_norm : bits .norm { box [0x00#8, 0x00#8, 0x00#8, 0x00#8, 0xA3#8] [] with bitlen := 37#32 } 5 =
    some [0x00#8, 0x00#8, 0x00#8, 0x00#8, 0xA0#8] := by decide +kernel
/-- N14: the boundary byte is the last byte of `BM`. -/
theorem test_norm_last : (nextState (exec .norm { box (rep 0#8 63 ++ [0x18#8]) [] with bitlen := 509#32 })).map (fun t => t.bm.read 63) =
    some 0x1F#8 := by decide +kernel
/-- E11: both transitions inside one group. -/
theorem test_enc1 : shown (.enc1 32) (box ([0xFF#8, 0xFF#8, 0xFE#8, 0x00#8, 0x00#8, 0x01#8] ++ rep 0xFF#8 26) []) =
      some (0x2#32, 0x8#8, 0xA4000000#32, 4#32, 32#32, true) ∧
    code (.enc1 32) (box ([0xFF#8, 0xFF#8, 0xFE#8, 0x00#8, 0x00#8, 0x01#8] ++ rep 0xFF#8 26) []) 4 =
      some [0xA4#8, 0xFF#8, 0xFE#8, 0x01#8] := by decide +kernel
/-- E18: the fallback of a partial chunk forces the nibble. -/
theorem test_enc1_fallback : shown (.enc1 25) (box (rep 0xAA#8 24 ++ [0x00#8]) []) =
      some (0x2#32, 0xF#8, 0xFFFFFF00#32, 26#32, 25#32, false) ∧
    code (.enc1 25) (box (rep 0xAA#8 24 ++ [0x00#8]) []) 26 = some (0x00#8 :: (rep 0xAA#8 24 ++ [0x00#8])) := by decide +kernel
/-- A8, on two rounds. -/
theorem test_enc2 : shown (.enc2 96) (bigBox (rep 0x00#8 16 ++ rep 0xFF#8 48 ++ rep 0x00#8 31 ++ [0x01#8]) []) =
      some (0x2#32, 0xC0#8, 0x80000001#32, 8#32, 96#32, true) ∧
    code (.enc2 96) (bigBox (rep 0x00#8 16 ++ rep 0xFF#8 48 ++ rep 0x00#8 31 ++ [0x01#8]) []) 8 =
      some [0x20#8, 0x80#8, 0xFF#8, 0x90#8, 0x80#8, 0x00#8, 0x01#8, 0x01#8] := by decide +kernel
/-- A10: a later chunk overflows, and the whole command is undone. -/
theorem test_enc2_overflow : faulted (.enc2 64) { box (rep 0x00#8 32 ++ rep 0xFF#8 32) [] with cmSize := 2#32 } .outOverflow 32#32 := by
  unfold faulted; decide +kernel
/-- B4: a partial second block. -/
theorem test_enc3 : shown (.enc3 513) (bigBox (rep 0x00#8 512 ++ [0xFF#8]) []) = some (0x2#32, 0x40#8, 0x80000000#32, 4#32, 513#32, true) ∧
    code (.enc3 513) (bigBox (rep 0x00#8 512 ++ [0xFF#8]) []) 4 = some [0x80#8, 0x80#8, 0x00#8, 0xFF#8] := by decide +kernel
/-- T4, program P1. -/
theorem test_encode : shown .encode { box [0x00#8, 0x00#8, 0xFF#8, 0xFF#8, 0xAB#8] [] with bitlen := 37#32 } =
      some (0x2#32, 0x80#8, 0x28000000#32, 6#32, 5#32, true) ∧
    code .encode { box [0x00#8, 0x00#8, 0xFF#8, 0xFF#8, 0xAB#8] [] with bitlen := 37#32 } 6 =
      some [0x80#8, 0x80#8, 0x80#8, 0x28#8, 0xFF#8, 0xAF#8] := by decide +kernel
/-- T8: the boundary byte joins the run and the second chunk is free. -/
theorem test_encode_tail : shown .encode { box (rep 0xFF#8 32 ++ [0xF7#8]) [] with bitlen := 260#32 } =
    some (0x2#32, 0x80#8, 0#32, 5#32, 33#32, true) := by decide +kernel
/-- D3: every present group is marked, but the first byte is no marker. -/
theorem test_dec1 : shown (.dec1 5 0x8#4) (box [] [0x28#8, 0xFF#8, 0xAF#8]) = some (0x2#32, 0x0#8, 0#32, 3#32, 5#32, true) ∧
    bits (.dec1 5 0x8#4) (box [] [0x28#8, 0xFF#8, 0xAF#8]) 5 = some [0x00#8, 0x00#8, 0xFF#8, 0xFF#8, 0xAF#8] := by decide +kernel
/-- D7: the marker under `FullNibble(9)`. -/
theorem test_dec1_fallback : bits (.dec1 9 0xC#4) (box [] (0x00#8 :: rep 0xAA#8 9)) 10 = some (rep 0xAA#8 9 ++ [0x00#8]) := by
  decide +kernel
/-- F2. -/
theorem test_dec2 : shown (.dec2 33 0x80#8) (box [] [0x08#8, 0x00#8, 0x01#8]) = some (0x2#32, 0x0#8, 0#32, 3#32, 33#32, true) ∧
    bits (.dec2 33 0x80#8) (box [] [0x08#8, 0x00#8, 0x01#8]) 34 = some (rep 0x00#8 32 ++ [0x01#8, 0x00#8]) := by decide +kernel
/-- F6: a fault deep inside the command, and every write undone. -/
theorem test_dec2_truncated : faulted (.dec2 512 0x40#8) (bigBox [0x55#8] [0x80#8, 0x03#8, 0x01#8]) .corruptTruncated 64#32 := by
  unfold faulted; decide +kernel
/-- The inverse of B4. -/
theorem test_dec3 : shown (.dec3 513 0x40#8) (bigBox [] [0x80#8, 0x80#8, 0x00#8, 0xFF#8]) =
      some (0x2#32, 0x0#8, 0#32, 4#32, 513#32, true) ∧
    (nextState (exec (.dec3 513 0x40#8) (bigBox [] [0x80#8, 0x80#8, 0x00#8, 0xFF#8]))).map (fun t => t.bm) = some [(512, 0xFF#8)] := by
  decide +kernel
/-- G2. -/
theorem test_decode : bits .decode { box [] [0x80#8, 0x80#8, 0x80#8, 0x28#8, 0xFF#8, 0xAF#8] with bitlen := 37#32 } 6 =
    some [0x00#8, 0x00#8, 0xFF#8, 0xFF#8, 0xAF#8, 0x00#8] := by decide +kernel
/-- X12: the low nibble of a pair byte without a second chunk. -/
theorem test_decode_range : faulted .decode { box [] [0x80#8, 0x80#8, 0x88#8, 0x80#8, 0xFF#8, 0x80#8, 0xFF#8] with bitlen := 256#32 }
    .corruptMaskRange 32#32 := by unfold faulted; decide +kernel

/-! ### Register and memory windows -/

/-- H2, H3. -/
theorem test_match_write :
    (nextState (hostMove (.writeReg .word 0x20#8 0x1#32) (box [] []))).map (readReg .matchByte) = some 0xFF#32 ∧
    (nextState (hostMove (.writeReg .word 0x20#8 0xFE#32) (box [] []))).map (readReg .matchByte) = some 0x00#32 := by decide
/-- H5, H6. -/
theorem test_wcsz : readReg .wcsz { box [] [] with bitlen := 129#32 } = 23#32 ∧
    readReg .wcsz { box [] [] with bitlen := 32768#32 } = 4356#32 := by decide
/-- K6 through the block: accept, then the fault. -/
theorem test_illegal_run : ((nextState (step { box [] [] with agenda := [.host (.writeReg .word 0x00#8 0x00000001#32), .block] })).bind
      fun t => nextState (step t)) = some ((box [] []).faultedWith .illegalCmd 0#32) := by decide
/-- The script of P1 (R50): the command line is a write of `CMD`, the block's turn and a read of `STATUS`. -/
theorem test_script_line : scriptCommand .encode =
    [.host (.writeReg .word 0x00#8 0x13000000#32), .block, .host (.readReg .word 0x04#8)] := by decide

/-! ### Witnesses: for every claim with hypotheses, states and operands that meet them, at the ends of their ranges -/

/-- The block with `ENC1 #32` in execution. -/
def busyBox : State := { box [] [] with command := some 0x10000020#32 }

/-- The block in the fault state. -/
def faultBox : State := (box [] []).faultedWith .badLen 3#32

theorem next_of (i : Instr) (s t : State) (h : nextState (exec i s) = some t) : exec i s = .next t := by
  cases he : exec i s <;> rw [he] at h <;> simp_all [nextState]

/-- The state a command leaves. -/
def after (i : Instr) (s : State) : State := (nextState (exec i s)).getD s

theorem succeeds_after {i : Instr} {s : State} (h : (nextState (exec i s)).any (fun t => !t.fault) = true) : Succeeds i s (after i s) := by
  cases he : exec i s <;> rw [he] at h <;> simp_all [nextState, after, Succeeds]

/-- `DECODE` at its first region, with the length and the mask of the region written out. -/
theorem at_region {s : State} {n : Nat} {mask : Byte} (h : s.bitlen.toNat ≤ 8 * s.bmSize.toNat ∧ s.clen.toNat ≤ s.cmSize.toNat ∧
      s.clen ≠ 0#32 ∧ 0 < regionCount (nbytes s.bitlen.toNat) ∧ 0 < s.clen.toNat ∧ min 4096 (nbytes s.bitlen.toNat) = n ∧ s.cm.read 0 = mask) :
    Reaches .decode s (.dec3 n mask) { s with matchBit := false, bcur := 0#32, ctail := 1#32 } := by
  obtain ⟨h1, h2, h3, h4, h5, rfl, rfl⟩ := h
  exact .region (q := 0) (v := { s with matchBit := false, bcur := 0#32, ctail := 0#32 }) rfl ⟨h1, h2, h3, rfl⟩ h4 h5

/-- The first block of a region that marks it, with the length and the mask of the block written out. -/
theorem at_block {i : Instr} {s u : State} {n m : Nat} {mask b : Byte} (hu : Reaches i s (.dec3 n mask) u)
    (h : n ≤ 4096 ∧ maskBeyond mask (blockCount n) = false ∧ 0 < blockCount n ∧
      (nextState (exec (.dec3 0 (mask &&& topBits 8 0)) u)).any (fun t => !t.fault) = true ∧
      (after (.dec3 0 (mask &&& topBits 8 0)) u).ctail.toNat < (after (.dec3 0 (mask &&& topBits 8 0)) u).clen.toNat ∧
      b ≠ 0x00#8 ∧ hasChild mask 0 = true ∧ min 512 n = m ∧
      (after (.dec3 0 (mask &&& topBits 8 0)) u).cm.read (after (.dec3 0 (mask &&& topBits 8 0)) u).ctail.toNat = b) :
    Reaches i s (.dec2 m b) (after (.dec3 0 (mask &&& topBits 8 0)) u).pastByte := by
  obtain ⟨h1, h2, h3, h4, h5, h6, h7, rfl, rfl⟩ := h
  have := Reaches.block (k := 0) hu ⟨h1, h2, h3, succeeds_after h4⟩ (fun _ => ⟨h5, h6⟩)
  simpa [h7, State.childMask, State.afterMask] using this

/-- The first chunk of round `k` of a block that marks it, with the length and the nibble of the chunk written out. -/
theorem at_chunk1 {i : Instr} {s u : State} {n m : Nat} {mask : Byte} {nib : Nibble} (k : Nat) (hu : Reaches i s (.dec2 n mask) u)
    (h : n ≤ 512 ∧ maskBeyond mask (roundCount n) = false ∧ k < roundCount n ∧
      (nextState (exec (.dec2 (64 * k) (mask &&& topBits 8 k)) u)).any (fun t => !t.fault) = true ∧ hasChild mask k = true ∧
      (after (.dec2 (64 * k) (mask &&& topBits 8 k)) u).ctail.toNat < (after (.dec2 (64 * k) (mask &&& topBits 8 k)) u).clen.toNat ∧
      nib ≠ 0#4 ∧ firstChunk (n - 64 * k) = m ∧
      pairHigh ((after (.dec2 (64 * k) (mask &&& topBits 8 k)) u).cm.read (after (.dec2 (64 * k) (mask &&& topBits 8 k)) u).ctail.toNat) = nib) :
    Reaches i s (.dec1 m nib) (after (.dec2 (64 * k) (mask &&& topBits 8 k)) u).pastByte := by
  obtain ⟨h1, h2, h3, h4, h5, h6, h7, rfl, rfl⟩ := h
  have := Reaches.chunk1 hu ⟨h1, h2, h3, succeeds_after h4⟩ (fun _ => ⟨h6, fun h0 => h7 (by rw [h0]; decide)⟩)
  simpa [h5, State.childMask, State.afterMask] using this

/-- The second chunk of round 0 after its first one, both nibbles written out. -/
theorem at_chunk2 {i : Instr} {s u : State} {n m m' : Nat} {mask b : Byte} {nib nib' : Nibble} (hu : Reaches i s (.dec2 n mask) u)
    (h : n ≤ 512 ∧ maskBeyond mask (roundCount n) = false ∧ 0 < roundCount n ∧
      (nextState (exec (.dec2 0 (mask &&& topBits 8 0)) u)).any (fun t => !t.fault) = true ∧ hasChild mask 0 = true ∧
      (after (.dec2 0 (mask &&& topBits 8 0)) u).ctail.toNat < (after (.dec2 0 (mask &&& topBits 8 0)) u).clen.toNat ∧ b ≠ 0#8 ∧
      (after (.dec2 0 (mask &&& topBits 8 0)) u).cm.read (after (.dec2 0 (mask &&& topBits 8 0)) u).ctail.toNat = b ∧
      firstChunk n = m ∧ secondChunk n = m' ∧ pairHigh b = nib ∧ pairLow b = nib' ∧
      (nextState (exec (.dec1 m nib) (after (.dec2 0 (mask &&& topBits 8 0)) u).pastByte)).any (fun t => !t.fault) = true) :
    Reaches i s (.dec1 m' nib') (after (.dec1 m nib) (after (.dec2 0 (mask &&& topBits 8 0)) u).pastByte) := by
  obtain ⟨h1, h2, h3, h4, h5, h6, h7, rfl, rfl, rfl, rfl, rfl, h8⟩ := h
  have := Reaches.chunk2 (k := 0) hu ⟨h1, h2, h3, succeeds_after h4⟩ (fun _ => ⟨h6, h7⟩)
    (by simpa [h5, State.childMask, State.afterMask] using succeeds_after h8)
  simpa [h5, State.childMask, State.afterMask] using this

theorem witness_ResetRegisterValues : 63 < (box [] []).bmSize.toNat ∧ 63 < (box [] []).cmSize.toNat := by decide

theorem witness_DecodeInvertsEncode : Instr.wellFormed (.dec2 8191 0xFF#8) = true ∧ Instr.wellFormed (.dec1 0 0xF#4) = true ∧
    Instr.wellFormed .decode = true := by decide

theorem witness_EncodeInvertsDecode : decode 0x22FF1FFF#32 = some (.dec3 8191 0xFF#8) ∧ decode 0x00000000#32 = some .nop := by decide

theorem witness_StepRunsDecodedInstruction :
    busyBox.command = some 0x10000020#32 ∧ decode 0x10000020#32 = some (.enc1 32) ∧ busyBox.agenda = [] ∧
    ({ busyBox with agenda := [.block] } : State).agenda = .block :: [] ∧ decodeTableWord 32 0x13000000 = some .encode := by decide

theorem witness_CommandRegister :
    ((box [] []).command = none ∧ (box [] []).fault = false) ∧
    (faultBox.command = none ∧ faultBox.fault = true ∧ (0x00000000#32 : Word) ≠ 0x02000000#32) ∧
    (busyBox.command = some 0x10000020#32 ∧ busyBox.fault = false ∧ (0x10000020#32 : Word) ≠ 0x02000000#32) := by decide

/-- A host write of the command word `w` (R21). -/
def issues (w : Word) : Event := .host (.writeReg .word 0x00#8 w)

/-- R129: a run with a command that succeeded ends well, `SRST` too; one without a command, or with the command still in execution,
does not. -/
theorem test_endsWell : (box [0x80#8] []).endsWell [issues 0x10000001#32, .block] = true ∧
    faultBox.endsWell [issues 0x02000000#32] = true ∧ (box [] []).endsWell [] = false ∧
    (box [] []).endsWell [issues 0x10000001#32] = false := by decide +kernel

/-- R129, R123: a run whose last command faulted, or was abandoned by a reset, does not end well, though `FAULT = 0` then; an ignored
write is no command. -/
theorem test_endsWell_not : (box [] []).endsWell [issues 0x10000021#32, .block] = false ∧
    (box [] []).endsWell [issues 0x10000021#32, .block, .host .reset] = false ∧
    (box [] []).endsWell [issues 0x10000001#32, .host .reset] = false ∧
    (box [] []).endsWell [issues 0x10000021#32, .block, .host .reset, issues 0x00000000#32, .block] = true ∧
    faultBox.endsWell [issues 0x00000000#32, .block] = false := by decide +kernel

/-- R129: the pass of program P1 is complete after `ENCODE`, not before. -/
theorem test_encodePassComplete :
    let s : State := { box [0x00#8, 0x00#8, 0xFF#8, 0xFF#8, 0xAB#8] [] with bitlen := 37#32 }
    s.encodePassComplete = false ∧ (after .encode s).encodePassComplete = true := by decide +kernel

theorem witness_IllegalWordFaults : (box [] []).command = none ∧ (box [] []).fault = false ∧
    (∀ row ∈ opcodeRows, selects 0x10002020#32 row = false) ∧ (∀ row ∈ opcodeRows, selects 0xFFFFFFFF#32 row = false) :=
  ⟨rfl, rfl, fun row h => by simpa using (List.all_eq_true.mp (by decide : opcodeRows.all (fun r => !selects 0x10002020#32 r) = true)) row h,
    fun row h => by simpa using (List.all_eq_true.mp (by decide : opcodeRows.all (fun r => !selects 0xFFFFFFFF#32 r) = true)) row h⟩

theorem witness_BusyProtocol :
    busyBox.busy = true ∧ HostMove.writeBM 63 0xFF#8 ≠ .reset ∧ hostMove (.writeBM 63 0xFF#8) busyBox = .next busyBox ∧
    63 < busyBox.bmSize.toNat ∧ 63 < busyBox.cmSize.toNat ∧ Reg.cmsize ≠ .status := by
  refine ⟨rfl, by decide, rfl, by decide, by decide, by decide⟩

/-- The access forms meet at the last register 0x34, at 0x36, at 0x38 and at a sub-word access of a register's own offset. -/
theorem witness_RegisterWindow :
    (box [] []).command = none ∧ (box [] []).fault = false ∧ regOffset .cmsize = 0x34#8 ∧
    (0x36#8 : BitVec 8).toNat % 4 ≠ 0 ∧ 0x38 ≤ (0x38#8 : BitVec 8).toNat ∧ 0x38 ≤ (0xFC#8 : BitVec 8).toNat ∧ Width.byte ≠ .word ∧
    Width.half ≠ .word ∧ faultBox.command = none ∧ Reg.bitlen ≠ .cmd ∧ faultBox.fault = true ∧
    Reg.cmsize ∈ [Reg.status, .cause, .faddr, .result, .l1mask, .wcsz, .bmsize, .cmsize] := by decide

theorem witness_MatchRegister : (box [] []).command = none ∧ (box [] []).fault = false := by decide

theorem witness_StatusRegister : (3 ≤ 3 ∧ 3 ≤ 31) ∧ (8 ≤ 8 ∧ 8 ≤ 31) := by decide

theorem witness_WorstCaseRegister : hostMove .reset (box [] []) = .next (hardwareReset (box [] [])) ∧ (box [] []).command = none :=
  ⟨rfl, rfl⟩

theorem witness_MemoryWindows : (box [0x12#8] [0x34#8]).command = none ∧ (box [0x12#8] [0x34#8]).bm.wf ∧ (box [0x12#8] [0x34#8]).cm.wf ∧
    63 < (box [0x12#8] [0x34#8]).bmSize.toNat ∧ 63 < (box [0x12#8] [0x34#8]).cmSize.toNat ∧
    (box [0x12#8] [0x34#8]).bmSize.toNat ≤ 64 ∧ (box [0x12#8] [0x34#8]).cmSize.toNat ≤ 64 := by decide

theorem witness_ReadsAndIdleChangeNothing :
    hostMove (.readReg .word 0x2C#8) (box [] []) = .next ((box [] []).returned 4#32) ∧
    hostMove (.readBM 63) (box [] []) = .next ((box [] []).returned 0#32) ∧
    hostMove (.readCM 63) (box [] []) = .next ((box [] []).returned 0#32) ∧ (box [] []).command = none := ⟨rfl, rfl, rfl, rfl⟩

theorem witness_StepKeepsInvariant : (box [0x12#8] [0x34#8]).Inv ∧ step (box [0x12#8] [0x34#8]) = .next (box [0x12#8] [0x34#8]) :=
  ⟨by decide, rfl⟩

theorem witness_ParametersNeverChange : step (box [] []) = .next (box [] []) ∧ (box [] []).command = none := ⟨rfl, rfl⟩

theorem witness_StepStopsOnlyOutsideWindows : step { box [] [] with agenda := [.host (.readBM 64)] } = .fault .outsideWindow := rfl

theorem witness_FaultIsSticky : faultBox.command = none ∧ faultBox.fault = true ∧ step faultBox = .next faultBox := ⟨rfl, rfl, rfl⟩

theorem witness_FaultStateExits : faultBox.fault = true ∧ Instr.encode ≠ .srst ∧ faultBox.command = none ∧ Reg.ctail ≠ .cmd := by decide

theorem witness_CommandCompletesOrFaults : Instr.enc1 33 ≠ .srst ∧ (box [] []).fault = false := by decide

theorem witness_CausesOfEachCommand : (box [] []).fault = false ∧ (box [] []).cm.wf ∧
    exec (.enc1 33) (box [] []) = .next ((box [] []).faultedWith .badLen 0#32) ∧
    exec (.dec1 33 0x8#4) (box [] []) = .next ((box [] []).faultedWith .badLen 0#32) ∧
    exec .norm { box [] [] with bitlen := 513#32 } = .next ({ box [] [] with bitlen := 513#32 }.faultedWith .badBitlen 0#32) ∧
    exec .encode { box [] [] with bitlen := 449#32 } = .next ({ box [] [] with bitlen := 449#32 }.faultedWith .outTooSmall 0#32) ∧
    exec .decode { box [] [0x00#8] with bitlen := 0#32 } = .next ({ box [] [0x00#8] with bitlen := 0#32 }.faultedWith .corruptTrailing 0#32) :=
  ⟨rfl, by decide, next_of _ _ _ (by decide), next_of _ _ _ (by decide), next_of _ _ _ (by decide), next_of _ _ _ (by decide),
    next_of _ _ _ (by decide)⟩

theorem witness_NopCompletes : (box [] []).command = none ∧ (box [] []).fault = false ∧ faultBox.fault = true ∧
    faultBox.command = none := by decide

theorem witness_InitCompletes : usedBox.fault = false := by decide

theorem witness_SrstCompletes : exec .srst usedBox = .next (resetRegs usedBox) ∧ faultBox.fault = true ∧ Instr.nop ≠ .srst ∧
    faultBox.command = none ∧ hostMove .reset faultBox = .next (hardwareReset faultBox) ∧ (hardwareReset faultBox).fault = false ∧
    hostMove (.writeReg .word 0x00#8 0x02000000#32) faultBox = .next (resetRegs faultBox) ∧ (resetRegs faultBox).fault = false :=
  ⟨rfl, rfl, by decide, rfl, rfl, rfl, rfl, rfl⟩

theorem witness_NormByteFillsPadBits : (1 ≤ 1 ∧ 1 ≤ 7) ∧ (1 ≤ 7 ∧ 7 ≤ 7) ∧
    (∀ k, k < 8 → 8 - 1 ≤ k → (0xFF#8 : Byte).getLsbD k = (0x80#8 : Byte).getLsbD k) ∧
    (∀ k, k < 8 → 8 - 7 ≤ k → (0xFE#8 : Byte).getLsbD k = (0xFE#8 : Byte).getLsbD 7) := by decide

theorem witness_NormCompletes : (box [0x12#8] []).fault = false ∧ (box [0x12#8] []).bm.wf ∧
    (513#32 : Word).toNat > 8 * (box [] []).bmSize.toNat ∧
    ((512#32 : Word).toNat ≤ 8 * (box [] []).bmSize.toNat ∧ (512#32 : Word).toNat % 8 = 0) ∧
    ((511#32 : Word).toNat ≤ 8 * (box [] []).bmSize.toNat ∧ (511#32 : Word).toNat % 8 ≠ 0) := by decide

/-- E8 keeps the masked form at 32 bytes, E9 does not at 33; one byte is the shortest chunk. -/
theorem witness_ChunkForms :
    (literalCount false (rep 0xAA#8 31 ++ [0x00#8]) + markedGroupCount false (rep 0xAA#8 31 ++ [0x00#8]) > (rep 0xAA#8 31 ++ [0x00#8]).length) ∧
    (literalCount false (rep 0x00#8 31 ++ [0x01#8]) + markedGroupCount false (rep 0x00#8 31 ++ [0x01#8]) ≤ (rep 0x00#8 31 ++ [0x01#8]).length) ∧
    (rep 0x00#8 31 ++ [0x01#8]).length = 32 ∧ 1 ≤ [(0x01#8 : Byte)].length := by decide

theorem witness_ChunkSizes : (rep 0xAA#8 32).length = 32 ∧ (rep 0xAA#8 8).length = 8 ∧ (0x01#8 : Byte) ≠ matchByte false := by decide

/-- The last 32 bytes of both memories' room: `BCUR + 32 = BM_SIZE`, and a chunk of 33 bytes that ends at `CM_SIZE` (E25). -/
def lastChunkBox : State := { box (rep 0xAA#8 64) [] with bcur := 32#32, ctail := 31#32 }

theorem witness_Enc1Completes : lastChunkBox.fault = false ∧ lastChunkBox.cm.wf ∧ lastChunkBox.bcur.toNat + 32 ≤ lastChunkBox.bmSize.toNat ∧
    lastChunkBox.ctail.toNat + (chunkCode lastChunkBox.matchBit (lastChunkBox.input 32)).stage.length = lastChunkBox.cmSize.toNat ∧
    lastChunkBox.ctail.toNat + (chunkCode lastChunkBox.matchBit (lastChunkBox.input 1)).stage.length ≤ lastChunkBox.cmSize.toNat := by
  decide +kernel

theorem witness_FreeChunk : (box [] []).fault = false ∧ (box [] []).bcur.toNat + 32 ≤ (box [] []).bmSize.toNat ∧
    (box [] []).ctail.toNat ≤ (box [] []).cmSize.toNat ∧ ∀ b ∈ (box [] []).input 32, b = matchByte (box [] []).matchBit := by decide

theorem witness_L1maskIsLastChunk :
    (∃ t, exec (.enc1 1) (box [0x01#8] []) = .next t ∧ t.fault = false) ∧ (∃ t, exec (.enc2 33) (box [0x01#8] []) = .next t ∧ t.fault = false) ∧
    (∃ t, exec (.enc3 33) (box [0x01#8] []) = .next t ∧ t.fault = false) ∧ (box [0x01#8] []).fault = false ∧
    (∃ t, exec .init usedBox = .next t) ∧ (∃ t, exec (.enc1 0) usedBox = .next t) ∧ (∃ t, exec .norm usedBox = .next t) :=
  ⟨⟨_, rfl, by decide +kernel⟩, ⟨_, rfl, by decide +kernel⟩, ⟨_, rfl, by decide +kernel⟩, rfl, ⟨_, rfl⟩, ⟨_, rfl⟩, ⟨_, rfl⟩⟩

theorem witness_MatchFollowsLastByte :
    (∃ t, exec (.enc1 1) (box [0x01#8] []) = .next t ∧ t.fault = false) ∧
    (∃ t, exec (.dec1 1 0x8#4) (box [] [0x00#8, 0x01#8]) = .next t ∧ t.fault = false) ∧
    (∃ t, exec .encode { box [0x80#8] [] with bitlen := 1#32 } = .next t ∧ t.fault = false) ∧
    (∃ t, exec .decode { box [0x80#8] [] with bitlen := 1#32 } = .next t ∧ t.fault = false) ∧ (box [0x80#8] []).bm.wf ∧
    1 ≤ (1#32 : Word).toNat :=
  ⟨⟨_, rfl, by decide +kernel⟩, ⟨_, rfl, by decide +kernel⟩, ⟨_, rfl, by decide +kernel⟩, ⟨_, rfl, by decide +kernel⟩, by decide, by decide⟩

theorem witness_MaskBitsMarkLiterals : (rep 0xAA#8 512).length ≤ 512 ∧ (rep 0xAA#8 4096).length ≤ 4096 ∧ (rep 0xAA#8 64).length ≤ 64 ∧ 7 < 8 :=
  ⟨Nat.le_of_eq List.length_replicate, Nat.le_of_eq List.length_replicate, Nat.le_of_eq List.length_replicate, by decide⟩

/-- The last block and the last region that fit, with exactly the room they may need. -/
theorem witness_Enc2Completes : ({ bigBox [] [] with bcur := 7680#32, ctail := 8172#32 } : State).bcur.toNat + 512 ≤ (bigBox [] []).bmSize.toNat ∧
    ({ bigBox [] [] with bcur := 7680#32, ctail := 8172#32 } : State).ctail.toNat + blockCap 512 = (bigBox [] []).cmSize.toNat ∧
    (bigBox [] []).fault = false ∧ (bigBox [] []).cm.wf := by decide

theorem witness_Enc3Completes : ({ bigBox [] [] with bcur := 4096#32, ctail := 4412#32 } : State).bcur.toNat + 4096 ≤ (bigBox [] []).bmSize.toNat ∧
    ({ bigBox [] [] with bcur := 4096#32, ctail := 4412#32 } : State).ctail.toNat + regionCap 4096 = (bigBox [] []).cmSize.toNat ∧
    (bigBox [] []).fault = false ∧ (bigBox [] []).cm.wf := by decide

theorem witness_EncodeUnitFrame : lastChunkBox.fault = false ∧ lastChunkBox.cm.wf ∧
    (∃ t, exec (.enc1 32) lastChunkBox = .next t ∧ t.fault = false) ∧ (∃ t, exec (.enc2 16) lastChunkBox = .next t ∧ t.fault = false) ∧
    (∃ t, exec (.enc3 16) lastChunkBox = .next t ∧ t.fault = false) :=
  ⟨rfl, by decide, ⟨_, rfl, by decide +kernel⟩, ⟨_, rfl, by decide +kernel⟩, ⟨_, rfl, by decide +kernel⟩⟩

/-- The longest bitmap a 64-byte code memory takes: `WCSIZE(56) = 64`. -/
def fullBox : State := { box (rep 0xAA#8 56) [0x12#8] with bitlen := 445#32 }

theorem witness_EncodeCompletes : fullBox.fault = false ∧ fullBox.bm.wf ∧ fullBox.cm.wf ∧ fullBox.bitlen.toNat ≤ 8 * fullBox.bmSize.toNat ∧
    wcsize (nbytes fullBox.bitlen.toNat) = fullBox.cmSize.toNat := by decide +kernel

theorem witness_StreamLengthBound : (∃ t, exec .encode { box [0x80#8] [] with bitlen := 1#32 } = .next t ∧ t.fault = false) ∧
    (box [0x80#8] []).fault = false ∧ (box [0x80#8] []).bm.wf ∧ (box [0x80#8] []).cm.wf :=
  ⟨⟨_, rfl, by decide +kernel⟩, rfl, by decide, by decide⟩

theorem witness_StreamCollapses : (box [] []).fault = false ∧ (box [] []).bm.wf ∧ (box [] []).cm.wf ∧
    ({ box [] [] with bitlen := 448#32 } : State).bitlen.toNat ≤ 8 * (box [] []).bmSize.toNat ∧
    wcsize (nbytes (448#32 : Word).toNat) = (box [] []).cmSize.toNat ∧ (∀ b ∈ ({ box [] [] with bitlen := 448#32 } : State).bitmap, b = 0x00#8) ∧
    ¬ ∀ b ∈ fullBox.bitmap, b = 0x00#8 := by decide +kernel

/-- Two blocks that agree on the 37 significant bits alone (N1, N6). -/
def padBox (b c : Byte) (m : Bool) : State := { box [0x00#8, 0x00#8, 0xFF#8, 0xFF#8, b, c] [c] with bitlen := 37#32, matchBit := m, ctail := 9#32 }

theorem witness_EncodeDependsOnBitmapOnly :
    let s := padBox 0xAB#8 0x00#8 false
    let s' := padBox 0xA8#8 0x5A#8 true
    s.fault = false ∧ s'.fault = false ∧ s.bm.wf ∧ s'.bm.wf ∧ s.cm.wf ∧ s'.cm.wf ∧ s'.bitlen = s.bitlen ∧
    s.bitlen.toNat ≤ 8 * s.bmSize.toNat ∧ s.bitlen.toNat ≤ 8 * s'.bmSize.toNat ∧ wcsize (nbytes s.bitlen.toNat) ≤ s.cmSize.toNat ∧
    wcsize (nbytes s.bitlen.toNat) ≤ s'.cmSize.toNat ∧
    (∀ i, i < s.bitlen.toNat → (s'.bm.read (i / 8)).getLsbD (7 - i % 8) = (s.bm.read (i / 8)).getLsbD (7 - i % 8)) ∧
    (∃ t, exec .encode s = .next t ∧ ∃ u, exec .encode t = .next u) ∧ ∃ t', exec .encode s' = .next t' :=
  ⟨rfl, rfl, by decide, by decide, by decide, by decide, rfl, by decide, by decide, by decide, by decide, by decide +kernel,
    ⟨_, rfl, _, rfl⟩, _, rfl⟩

/-- A decode block at the last 32 bytes of `BM`, whose stream holds `code` exactly up to `CLEN`. -/
def decBox (code : List Byte) : State := { box [] code with bcur := 32#32 }

theorem witness_Dec1Completes : (decBox (0x00#8 :: rep 0xAA#8 32)).fault = false ∧ (decBox (0x00#8 :: rep 0xAA#8 32)).bm.wf ∧
    (decBox (0x00#8 :: rep 0xAA#8 32)).clen.toNat ≤ (decBox (0x00#8 :: rep 0xAA#8 32)).cmSize.toNat ∧
    (decBox (0x00#8 :: rep 0xAA#8 32)).bcur.toNat + (rep 0xAA#8 32).length ≤ (decBox (0x00#8 :: rep 0xAA#8 32)).bmSize.toNat ∧
    (decBox (0x00#8 :: rep 0xAA#8 32)).StreamHolds (chunkCode false (rep 0xAA#8 32)).stage ∧
    ({ box [] [] with bcur := 99#32 } : State).StreamHolds (chunkCode false []).stage :=
  ⟨rfl, by decide, by decide, by decide, ⟨by decide +kernel, by decide +kernel⟩, ⟨by decide, by decide⟩⟩

/-- A fallback of 32 run bytes; G10: every byte of a chunk marked, though it is the run state. -/
theorem witness_Dec1AcceptsUnusedForms :
    let all := List.replicate 9 true
    let s := decBox (0xFF#8 :: (rep 0x00#8 8 ++ [0x80#8, 0x00#8]))
    (decBox (0x00#8 :: rep 0x00#8 32)).StreamHolds (0x00#8 :: rep 0x00#8 32) ∧
    looseChunk (groupCount (rep 0x00#8 9).length) 0 all (rep 0x00#8 9) = (0xC#4, 0xFF#8 :: (rep 0x00#8 8 ++ [0x80#8, 0x00#8])) ∧
    s.StreamHolds (looseChunk (groupCount (rep 0x00#8 9).length) 0 all (rep 0x00#8 9)).2 ∧
    (∀ i, i < (rep 0x00#8 9).length → all.getD i false = false →
      (rep 0x00#8 9).getD i 0#8 = matchByte (runAfter s.matchBit ((rep 0x00#8 9).take i))) ∧
    s.fault = false ∧ s.bm.wf ∧ s.clen.toNat ≤ s.cmSize.toNat ∧ s.bcur.toNat + (rep 0x00#8 9).length ≤ s.bmSize.toNat :=
  ⟨⟨by decide, by decide⟩, by decide, ⟨by decide, by decide⟩, by decide, by decide⟩

/-- F2 (the inverse of A5). -/
theorem witness_Dec2Completes : (box [] [0x08#8, 0x00#8, 0x01#8]).StreamHolds (blockCode false (rep 0x00#8 32 ++ [0x01#8])).bytes ∧
    (rep 0x00#8 32 ++ [0x01#8]).length ≤ 512 ∧ (box [] [0x08#8, 0x00#8, 0x01#8]).fault = false ∧ (box [] [0x08#8, 0x00#8, 0x01#8]).bm.wf ∧
    (box [] [0x08#8, 0x00#8, 0x01#8]).clen.toNat ≤ (box [] [0x08#8, 0x00#8, 0x01#8]).cmSize.toNat ∧
    (box [] [0x08#8, 0x00#8, 0x01#8]).bcur.toNat + (rep 0x00#8 32 ++ [0x01#8]).length ≤ (box [] [0x08#8, 0x00#8, 0x01#8]).bmSize.toNat ∧
    ({ box [] [] with bcur := 99#32 } : State).StreamHolds (blockCode false []).bytes :=
  ⟨⟨by decide +kernel, by decide +kernel⟩, by decide, rfl, by decide, by decide, by decide, ⟨by decide, by decide⟩⟩

theorem witness_Dec3Completes : (box [] [0x80#8, 0x08#8, 0x00#8, 0x01#8]).StreamHolds (regionCode false (rep 0x00#8 32 ++ [0x01#8])).bytes ∧
    (rep 0x00#8 32 ++ [0x01#8]).length ≤ 4096 ∧ (box [] [0x80#8, 0x08#8, 0x00#8, 0x01#8]).fault = false ∧
    (box [] [0x80#8, 0x08#8, 0x00#8, 0x01#8]).bm.wf ∧
    (box [] [0x80#8, 0x08#8, 0x00#8, 0x01#8]).clen.toNat ≤ (box [] [0x80#8, 0x08#8, 0x00#8, 0x01#8]).cmSize.toNat ∧
    (box [] [0x80#8, 0x08#8, 0x00#8, 0x01#8]).bcur.toNat + (rep 0x00#8 32 ++ [0x01#8]).length ≤ (box [] []).bmSize.toNat ∧
    ({ box [] [] with bcur := 99#32 } : State).StreamHolds (regionCode false []).bytes :=
  ⟨⟨by decide +kernel, by decide +kernel⟩, by decide, rfl, by decide, by decide, by decide, ⟨by decide, by decide⟩⟩

theorem witness_DecodeWithoutMask : (box [] []).fault = false ∧ (box [] []).bm.wf ∧ (box [] []).clen.toNat ≤ (box [] []).cmSize.toNat ∧
    (32 ≤ 32 ∧ (box [] []).bcur.toNat + 32 ≤ (box [] []).bmSize.toNat) ∧
    (512 ≤ 512 ∧ (bigBox [] []).bcur.toNat + 512 ≤ (bigBox [] []).bmSize.toNat) ∧
    (4096 ≤ 4096 ∧ (bigBox [] []).bcur.toNat + 4096 ≤ (bigBox [] []).bmSize.toNat) := by decide

/-- For `DECODE`: G10, a literal equal to the run state; G11, an unnecessary fallback. -/
theorem witness_DecodeUnitFrame : (decBox [0x80#8, 0xFF#8]).fault = false ∧ (decBox [0x80#8, 0xFF#8]).bm.wf ∧
    (∃ t, exec (.dec1 32 0x8#4) (decBox [0x80#8, 0xFF#8]) = .next t ∧ t.fault = false) ∧
    (∃ t, exec (.dec2 32 0x00#8) (decBox [0x80#8, 0xFF#8]) = .next t ∧ t.fault = false) ∧
    (∃ t, exec (.dec3 0 0x00#8) (decBox [0x80#8, 0xFF#8]) = .next t ∧ t.fault = false) ∧
    (∃ t, exec .decode { box [] [0x80#8, 0x80#8, 0x80#8, 0x80#8, 0x00#8] with bitlen := 256#32 } = .next t ∧ t.fault = false) ∧
    (∃ t, exec .decode { box [] ([0x80#8, 0x80#8, 0xF0#8, 0x00#8] ++ rep 0x00#8 31 ++ [0x01#8]) with bitlen := 256#32 } = .next t ∧
      t.fault = false) :=
  ⟨rfl, by decide, ⟨_, rfl, by decide +kernel⟩, ⟨_, rfl, by decide +kernel⟩, ⟨_, rfl, by decide +kernel⟩, ⟨_, rfl, by decide +kernel⟩,
    ⟨_, rfl, by decide +kernel⟩⟩

/-- G2; G4, with the longest `BITLEN`; G9. -/
theorem witness_DecodeCompletes :
    let s : State := { box [] [0x80#8, 0x80#8, 0x80#8, 0x28#8, 0xFF#8, 0xAF#8] with bitlen := 37#32 }
    let z : State := { box [] [0x00#8] with bitlen := 512#32 }
    (s.fault = false ∧ s.bm.wf ∧ s.bitlen.toNat ≤ 8 * s.bmSize.toNat ∧
      [(0x00#8 : Byte), 0x00#8, 0xFF#8, 0xFF#8, 0xAF#8].length = nbytes s.bitlen.toNat ∧ s.clen.toNat ≤ s.cmSize.toNat ∧
      s.clen.toNat = (bufferStream [0x00#8, 0x00#8, 0xFF#8, 0xFF#8, 0xAF#8]).length ∧
      s.cm.readBytes 0 s.clen.toNat = bufferStream [0x00#8, 0x00#8, 0xFF#8, 0xFF#8, 0xAF#8]) ∧
    (box [] []).clen = 0#32 ∧
    (z.fault = false ∧ z.bm.wf ∧ z.bitlen.toNat ≤ 8 * z.bmSize.toNat ∧ z.clen.toNat ≤ z.cmSize.toNat ∧
      z.clen.toNat = regionCount (nbytes z.bitlen.toNat) ∧ ∀ a, a < z.clen.toNat → z.cm.read a = 0x00#8) := by
  decide +kernel

theorem witness_RoundTrip : fullBox.fault = false ∧ fullBox.bm.wf ∧ fullBox.cm.wf ∧ fullBox.bitlen.toNat ≤ 8 * fullBox.bmSize.toNat ∧
    wcsize (nbytes fullBox.bitlen.toNat) ≤ fullBox.cmSize.toNat ∧ (Memory.writeBytes [] 0 [0x55#8]).wf := by decide +kernel

theorem witness_BadLenFaults : (box [] []).fault = false ∧ 33 > 32 ∧ 513 > 512 ∧ 4097 > 4096 := by decide

theorem witness_BadBitlenFaults : ({ box [] [] with bitlen := 513#32 } : State).fault = false ∧
    ({ box [] [] with bitlen := 513#32 } : State).bitlen.toNat > 8 * (box [] []).bmSize.toNat := by decide

theorem witness_OutTooSmallFaults : ({ box [] [] with bitlen := 449#32 } : State).bitlen.toNat ≤ 8 * (box [] []).bmSize.toNat ∧
    wcsize (nbytes (449#32 : Word).toNat) > (box [] []).cmSize.toNat ∧ (box [] []).fault = false := by decide

theorem witness_BadClenFaults : ({ box [] [] with clen := 65#32 } : State).clen.toNat > (box [] []).cmSize.toNat ∧ (box [] []).fault = false ∧
    (box [] []).bitlen.toNat ≤ 8 * (box [] []).bmSize.toNat ∧ 32 ≤ 32 ∧ 512 ≤ 512 ∧ 4096 ≤ 4096 := by decide

/-- A11 and its decode: the second chunk of a 64-byte block starts at the end of a 64-byte `BM`; the last 32 bytes just fit. -/
theorem witness_BmRangeFaults :
    let s : State := { box [] [] with bcur := 32#32 }
    let c : State := { box [] [] with bcur := 33#32, ctail := 0xFFFFFFFF#32 }
    (s.fault = false ∧ s.bcur.toNat + 32 ≤ s.bmSize.toNat) ∧
    (c.fault = false ∧ c.bcur.toNat + min 32 4096 > c.bmSize.toNat ∧ c.bcur.toNat + min 32 31 ≤ c.bmSize.toNat) ∧
    (∃ u, Reaches (.enc2 64) s (.enc1 32) u ∧ u.bcur = 64#32 ∧ u.bcur.toNat + 32 > u.bmSize.toNat) ∧
    ∃ u, Reaches (.dec2 64 0x00#8) s (.dec1 32 0x0#4) u ∧ u.bcur = 64#32 ∧ u.clen.toNat ≤ u.cmSize.toNat ∧ nibBeyond 0x0#4 32 = false ∧
      u.bcur.toNat + 32 > u.bmSize.toNat :=
  let s : State := { box [] [] with bcur := 32#32 }
  ⟨by decide, by decide,
    ⟨_, .encChunk2 (k := 0) .self (by decide) (by decide) (succeeds_after (by decide +kernel)) (by decide +kernel)
      (succeeds_after (by decide +kernel)), by decide +kernel⟩,
    ⟨_, .chunk2 (k := 0) .self (v := after (.dec2 0 0x00#8) s) ⟨by decide, by decide, by decide, succeeds_after (by decide +kernel)⟩
      (fun h => absurd h (by decide)) (succeeds_after (by decide +kernel)), by decide +kernel⟩⟩

/-- E25: one byte less room than the 33 staged bytes need; A10: the second chunk overflows. -/
theorem witness_OutOverflowFaults :
    let e : State := { lastChunkBox with ctail := 32#32 }
    let s : State := { box (rep 0x00#8 32 ++ rep 0xFF#8 32) [] with cmSize := 2#32 }
    let c : State := { box [] [] with bcur := 32#32, ctail := 64#32 }
    (c.fault = false ∧ c.bcur.toNat + min 32 4096 ≤ c.bmSize.toNat ∧ c.cmSize.toNat ≤ c.ctail.toNat) ∧
    (Reaches (.enc1 32) e (.enc1 32) e ∧ e.fault = false ∧ e.bcur.toNat + 32 ≤ e.bmSize.toNat ∧
      e.ctail.toNat + (chunkCode e.matchBit (e.input 32)).stage.length = e.cmSize.toNat + 1) ∧
    ∃ u, Reaches (.enc2 64) s (.enc1 32) u ∧ s.fault = false ∧ u.bcur = 32#32 ∧ u.bcur.toNat + 32 ≤ u.bmSize.toNat ∧
      u.ctail.toNat + (chunkCode u.matchBit (u.input 32)).stage.length > u.cmSize.toNat :=
  ⟨by decide, ⟨.self, by decide +kernel⟩,
    ⟨_, .encChunk2 (k := 0) .self (by decide) (by decide) (succeeds_after (by decide +kernel)) (by decide +kernel)
      (succeeds_after (by decide +kernel)), by decide +kernel⟩⟩

/-- X4: a marker with 31 raw bytes. A group mask missing after one group; D11: a missing literal; F6: one deep inside a block. The
pair byte of a second round, the `M2` byte of a second block, and the `M3` byte of a second region missing. -/
theorem witness_TruncatedStreamFaults :
    let f := box [] (0x00#8 :: rep 0xAA#8 31)
    let g := box [] [0x80#8, 0xFF#8]
    let l := box [] [0x80#8]
    let b := bigBox [0x55#8] [0x80#8, 0x03#8, 0x01#8]
    let r := bigBox [] [0x80#8, 0x80#8, 0xFF#8]
    let k := bigBox [] [0x80#8, 0x80#8, 0x80#8, 0xFF#8]
    let d : State := { bigBox [] [0x00#8] with bitlen := 32769#32 }
    (Reaches (.dec1 32 0xF#4) f (.dec1 32 (fullNibble 32)) f ∧ f.fault = false ∧ f.clen.toNat ≤ f.cmSize.toNat ∧
      f.bcur.toNat + 32 ≤ f.bmSize.toNat ∧ f.ctail.toNat < f.clen.toNat ∧ f.cm.read f.ctail.toNat = 0x00#8 ∧
      f.ctail.toNat + 1 + 32 > f.clen.toNat) ∧
    (∃ v, GroupStart 32 0xC#4 g 1 v ∧ v.clen.toNat ≤ v.ctail.toNat) ∧
    (∃ v, GroupStart 32 0x8#4 l 0 v ∧ v.ctail.toNat < v.clen.toNat ∧ v.cm.read v.ctail.toNat ≠ 0x00#8 ∧
      groupMaskBeyond (v.cm.read v.ctail.toNat) (groupSize 32 0) = false ∧
      v.ctail.toNat + 1 + markCount (v.cm.read v.ctail.toNat) > v.clen.toNat) ∧
    (∃ u v, Reaches (.dec2 512 0x40#8) b (.dec1 32 0x8#4) u ∧ GroupStart 32 0x8#4 u 0 v ∧ u.bcur = 64#32 ∧
      v.ctail.toNat < v.clen.toNat ∧ v.cm.read v.ctail.toNat ≠ 0x00#8 ∧ groupMaskBeyond (v.cm.read v.ctail.toNat) (groupSize 32 0) = false ∧
      v.ctail.toNat + 1 + markCount (v.cm.read v.ctail.toNat) > v.clen.toNat) ∧
    (∃ v, RoundStart 128 0xC0#8 r 1 v ∧ hasChild 0xC0#8 1 = true ∧ v.clen.toNat ≤ v.ctail.toNat ∧ v.bcur = 64#32) ∧
    (∃ v, BlockStart 1024 0xC0#8 k 1 v ∧ v.clen.toNat ≤ v.ctail.toNat ∧ v.bcur = 512#32) ∧
    ∃ v, RegionStart d 1 v ∧ d.fault = false ∧ 1 < regionCount (nbytes d.bitlen.toNat) ∧ v.clen.toNat ≤ v.ctail.toNat ∧ v.bcur = 4096#32 :=
  let b := bigBox [0x55#8] [0x80#8, 0x03#8, 0x01#8]
  ⟨⟨.self, by decide +kernel⟩,
    ⟨_, ⟨by decide, by decide, by decide, by decide, by decide, by decide, succeeds_after (by decide +kernel), by decide⟩, by decide +kernel⟩,
    ⟨_, ⟨by decide, by decide, by decide, by decide, by decide, by decide, succeeds_after (by decide +kernel), by decide⟩, by decide +kernel⟩,
    ⟨_, _, at_chunk1 1 (.self (i := .dec2 512 0x40#8) (s := b)) (by decide +kernel),
      ⟨by decide, by decide, by decide, by decide +kernel, by decide, by decide, succeeds_after (by decide +kernel), by decide⟩,
      by decide +kernel⟩,
    ⟨_, ⟨by decide, by decide, by decide, succeeds_after (by decide +kernel)⟩, by decide +kernel⟩,
    ⟨_, ⟨by decide, by decide, by decide, succeeds_after (by decide +kernel)⟩, by decide +kernel⟩,
    ⟨_, ⟨_, ⟨by decide, by decide, by decide, rfl⟩, by decide, succeeds_after (by decide +kernel)⟩, by decide +kernel⟩⟩

/-- X8: the mask of a second group, in `DECODE`; the pair byte of a second round and the `M2` byte of a second block. -/
theorem witness_ZeroMaskFaults :
    let s : State := { box [] [0x80#8, 0x80#8, 0xC0#8, 0x80#8, 0xFF#8, 0x00#8] with bitlen := 256#32 }
    let r := bigBox [] [0x80#8, 0x80#8, 0xFF#8, 0x00#8]
    let k := bigBox [] [0x80#8, 0x80#8, 0x80#8, 0xFF#8, 0x00#8]
    (∃ u v, s.fault = false ∧ Reaches .decode s (.dec1 32 0xC#4) u ∧ GroupStart 32 0xC#4 u 1 v ∧ ¬ (1 = 0 ∧ (0xC#4 : Nibble) = fullNibble 32) ∧
      v.ctail.toNat < v.clen.toNat ∧ v.cm.read v.ctail.toNat = 0x00#8) ∧
    (∃ v, RoundStart 128 0xC0#8 r 1 v ∧ hasChild 0xC0#8 1 = true ∧ v.ctail.toNat < v.clen.toNat ∧ v.cm.read v.ctail.toNat = 0x00#8) ∧
    ∃ v, BlockStart 1024 0xC0#8 k 1 v ∧ v.ctail.toNat < v.clen.toNat ∧ v.cm.read v.ctail.toNat = 0x00#8 :=
  let s : State := { box [] [0x80#8, 0x80#8, 0xC0#8, 0x80#8, 0xFF#8, 0x00#8] with bitlen := 256#32 }
  have h1 : Reaches .decode s (.dec1 32 0xC#4) _ :=
    at_chunk1 0 (at_block (at_region (n := 32) (mask := 0x80#8) (by decide)) (m := 32) (b := 0x80#8) (by decide +kernel)) (by decide +kernel)
  ⟨⟨_, _, rfl, h1,
      ⟨by decide, by decide, by decide, by decide +kernel, by decide, by decide, succeeds_after (by decide +kernel),
        fun _ => by decide +kernel⟩, by decide +kernel⟩,
    ⟨_, ⟨by decide, by decide, by decide, succeeds_after (by decide +kernel)⟩, by decide +kernel⟩,
    ⟨_, ⟨by decide, by decide, by decide, succeeds_after (by decide +kernel)⟩, by decide +kernel⟩⟩

/-- X12: a low pair nibble without a second chunk; the short last group of 12 bytes at the first byte it does not have; X11 and X10:
an `M2` and an `M3` bit of the stream. -/
theorem witness_MaskRangeFaults :
    let p : State := { box [] [0x80#8, 0x80#8, 0x88#8, 0x80#8, 0xFF#8, 0x80#8, 0xFF#8] with bitlen := 256#32 }
    let g := box [] [0x80#8, 0xFF#8, 0x08#8]
    let m2 : State := { box [] [0x80#8, 0x40#8, 0x80#8, 0x80#8, 0xFF#8] with bitlen := 256#32 }
    let m3 : State := { box [] [0x40#8, 0x80#8, 0x80#8, 0x80#8, 0xFF#8] with bitlen := 256#32 }
    (∃ u, p.fault = false ∧ Reaches .decode p (.dec1 0 0x8#4) u ∧ u.bcur = 32#32 ∧ u.clen.toNat ≤ u.cmSize.toNat ∧ groupCount 0 ≤ 0 ∧
      hasGroup 0x8#4 0 = true) ∧
    (∃ v, g.fault = false ∧ GroupStart 12 0xC#4 g 1 v ∧ v.ctail.toNat < v.clen.toNat ∧ groupSize 12 1 ≤ 4 ∧
      hasChild (v.cm.read v.ctail.toNat) 4 = true) ∧
    (∃ u, m2.fault = false ∧ Reaches .decode m2 (.dec2 32 0x40#8) u ∧ u.clen.toNat ≤ u.cmSize.toNat ∧ roundCount 32 ≤ 1 ∧
      hasChild 0x40#8 1 = true) ∧
    ∃ u, m3.fault = false ∧ Reaches .decode m3 (.dec3 32 0x40#8) u ∧ u.clen.toNat ≤ u.cmSize.toNat ∧ blockCount 32 ≤ 1 :=
  let p : State := { box [] [0x80#8, 0x80#8, 0x88#8, 0x80#8, 0xFF#8, 0x80#8, 0xFF#8] with bitlen := 256#32 }
  have h2 := at_block (at_region (s := p) (n := 32) (mask := 0x80#8) (by decide)) (m := 32) (b := 0x80#8) (by decide +kernel)
  have h1 : Reaches .decode p (.dec1 0 0x8#4) _ := at_chunk2 (m := 32) (b := 0x88#8) (nib := 0x8#4) h2 (by decide +kernel)
  let m2 : State := { box [] [0x80#8, 0x40#8, 0x80#8, 0x80#8, 0xFF#8] with bitlen := 256#32 }
  have k2 : Reaches .decode m2 (.dec2 32 0x40#8) _ := at_block (at_region (n := 32) (mask := 0x80#8) (by decide)) (by decide +kernel)
  ⟨⟨_, rfl, h1, by decide +kernel⟩,
    ⟨_, rfl, ⟨by decide, by decide, by decide, by decide, by decide, by decide, succeeds_after (by decide +kernel), fun _ => by decide⟩,
      by decide +kernel⟩,
    ⟨_, rfl, k2, by decide +kernel⟩,
    ⟨_, rfl, at_region (by decide), by decide +kernel⟩⟩

/-- X9; X15. -/
theorem witness_TrailingBytesFault :
    let s : State := { box [] [0x80#8, 0x80#8, 0x80#8, 0x80#8, 0xFF#8, 0x00#8] with bitlen := 256#32 }
    (s.fault = false ∧ s.bitlen.toNat ≤ 8 * s.bmSize.toNat ∧ (rep 0xFF#8 32).length = nbytes s.bitlen.toNat ∧ s.clen.toNat ≤ s.cmSize.toNat ∧
      (bufferStream (rep 0xFF#8 32)).length < s.clen.toNat ∧ bufferStream (rep 0xFF#8 32) ≠ [] ∧
      s.cm.readBytes 0 (bufferStream (rep 0xFF#8 32)).length = bufferStream (rep 0xFF#8 32)) ∧
    (box [] [0x00#8]).bitlen = 0#32 ∧ (box [] [0x00#8]).clen ≠ 0#32 := by decide +kernel

end Sys2Proof.Tests
end

section
/-! SUPPORT. What a step does at the block's turn, and the invariant of the machine: each operation keeps it, then each command, each
host move and every step (R5, R20, R22, R23, R29, R30). -/

namespace Sys2Proof.Machine

/-! ### The block's turn (R7, R21) -/

theorem step_of_agenda_nil {s : State} (h : s.agenda = []) : step s = blockTurn s := by
  unfold step nextEvent; rw [h]

theorem step_of_agenda_cons {s : State} {e : Event} {rest : List Event} (h : s.agenda = e :: rest) :
    step s = event e { s with agenda := rest } := by
  unfold step nextEvent; rw [h]

theorem blockTurn_idle {s : State} (h : s.command = none) : blockTurn s = .next s := by
  unfold blockTurn; rw [h]

theorem blockTurn_busy {s : State} {w : Word} (h : s.command = some w) : blockTurn s = runWord w s := by
  unfold blockTurn; rw [h]

theorem runWord_command {w : Word} {i : Instr} (s : State) (h : decode w = some i) : runWord w s = exec i s := by
  unfold runWord; rw [h]

theorem blockTurn_command {s : State} {w : Word} {i : Instr} (hw : s.command = some w) (hi : decode w = some i) :
    blockTurn s = exec i s := by
  rw [blockTurn_busy hw, runWord_command s hi]

theorem runWord_illegal {w : Word} (s : State) (h : decode w = none) : runWord w s = illegalCommand s := by
  unfold runWord; rw [h]

/-! ### The operations keep the invariant -/

/-- Fault entry with a cause that names a fault (R118). -/
theorem faultEntry_inv {s : State} {r : Raise} (h : s.Inv) (hr : r.cause ≠ .none) : (faultEntry r s).Inv := by
  obtain ⟨hp, hm, -, -⟩ := h
  exact ⟨hp, hm, by simp [State.flagsOk, State.busy], by simpa [State.causeOk] using hr⟩

theorem faultedWith_inv {s : State} (c : Cause) (a : Word) (h : s.Inv) (hc : c ≠ .none) : (s.faultedWith c a).Inv := by
  rw [← faultEntry_reg]; exact faultEntry_inv h hc

/-- Completion: `BUSY` and `DONE` change, so the flags of `u` need not be exclusive, but `FAULT` must be 0 (R20, R21). -/
theorem complete_inv (v : Byte) {u : State} (hp : u.paramsOk) (hm : u.memoriesOk) (hf : u.fault = false) (hc : u.causeOk) :
    (complete v u).Inv :=
  ⟨hp, hm, by simp [State.flagsOk, State.busy, hf], hc⟩

/-- Completion of an encode unit that has kept the code memory (R31). -/
theorem complete_commitEnc_inv (v : Byte) {s : State} {w : EncWork} {n : Nat} (h : s.Inv) (hf : s.fault = false)
    (hk : EncKeeps s.encEnv n s.encWork w) : (complete v (s.commitEnc w)).Inv := by
  obtain ⟨hp, ⟨hbw, hbs, hcw, hcs⟩, -, hc⟩ := h
  exact complete_inv v hp ⟨hbw, hbs, hk.wf hcw, hk.within hcs⟩ hf hc

/-- Completion of a decode command that has kept the bitmap memory (R31). -/
theorem complete_commitDec_inv (v : Byte) {s : State} {w0 w : DecWork} {n : Nat} (h : s.Inv) (hf : s.fault = false)
    (hbm : w0.bm = s.bm) (hk : DecKeeps s.decEnv n w0 w) : (complete v (s.commitDec w)).Inv := by
  obtain ⟨hp, ⟨hbw, hbs, hcw, hcs⟩, -, hc⟩ := h
  rw [← hbm] at hbw hbs
  exact complete_inv v hp ⟨hk.wf hbw, hk.within hbs, hcw, hcs⟩ hf hc

/-- Soft reset (R101). -/
theorem resetRegs_inv {s : State} (h : s.Inv) : (resetRegs s).Inv := by
  obtain ⟨hp, hm, -, -⟩ := h
  exact ⟨hp, hm, by simp [State.flagsOk, State.busy], by simp [State.causeOk]⟩

/-- Hardware reset, whatever bytes it leaves (R123; log 3). -/
theorem hardwareReset_inv {s : State} (h : s.Inv) : (hardwareReset s).Inv := by
  obtain ⟨hp, -, hfl, hc⟩ := resetRegs_inv h
  exact ⟨hp, ⟨Memory.ofBytes_wf _ _ _, Memory.ofBytes_within _ _, Memory.ofBytes_wf _ _ _, Memory.ofBytes_within _ _⟩, hfl, hc⟩

/-- Acceptance of a word, which happens only while `FAULT = 0` (R21). -/
theorem accept_inv {s : State} (w : Word) (h : s.Inv) (hf : s.fault = false) : (s.accept w).Inv := by
  obtain ⟨hp, hm, -, hc⟩ := h
  exact ⟨hp, hm, by simp [State.flagsOk, hf], hc⟩

/-- The fault guard: the effect of a command counts only while `FAULT = 0` (R119). -/
theorem unlessFaulted_inv {s t u : State} (h : s.Inv) (ht : s.fault = false → t.Inv) (hu : unlessFaulted s t = .next u) : u.Inv := by
  cases hf : s.fault with
  | true => rw [unlessFaulted_faulted s t hf] at hu; cases hu; exact h
  | false => rw [unlessFaulted_ok s t hf] at hu; cases hu; exact ht hf

/-! ### The commands keep the invariant -/

/-- The collapse of the stream moves the tail cursor alone (R83). -/
theorem collapse_cm (x : Byte × EncWork) : (collapse x).2.cm = x.2.cm := by
  unfold collapse; split <;> rfl

section
variable {s : State} (h : s.Inv) (hf : s.fault = false)
include h hf

theorem normCommand_inv : (normCommand s).Inv := by
  rcases normCommand_cases s with ⟨-, he⟩ | ⟨hb, he⟩ <;> rw [he]
  · exact faultedWith_inv _ _ h (by decide)
  · obtain ⟨hp, ⟨hbw, hbs, hcm⟩, -, hc⟩ := h
    exact complete_inv _ hp ⟨normalized_wf _ _ hbw, normalized_within _ _ _ hbs hb, hcm⟩ hf hc

theorem enc1Command_inv (n : Nat) : (enc1Command n s).Inv := by
  rcases enc1Command_cases n s with ⟨-, he⟩ | ⟨-, he⟩ | ⟨-, -, ⟨r, hr, he⟩ | ⟨v, w, hw, he⟩⟩ <;> rw [he]
  · exact faultedWith_inv _ _ h (by decide)
  · obtain ⟨hp, hm, -, hc⟩ := h
    exact complete_inv _ hp hm hf hc
  · refine faultEntry_inv h ?_
    rcases (enc1_raises _ _ _ _ hr).1 with hc | hc <;> simp [hc]
  · exact complete_commitEnc_inv _ h hf (enc1_keeps _ _ _ _ _ hw)

theorem enc2Command_inv (n : Nat) : (enc2Command n s).Inv := by
  rcases enc2Command_cases n s with ⟨-, he⟩ | ⟨-, ⟨r, hr, he⟩ | ⟨v, w, hw, he⟩⟩ <;> rw [he]
  · exact faultedWith_inv _ _ h (by decide)
  · exact faultEntry_inv h (encRaise_ne (enc2_raises _ _ _ _ hr))
  · exact complete_commitEnc_inv _ h hf (enc2_keeps _ _ _ _ _ hw)

theorem enc3Command_inv (n : Nat) : (enc3Command n s).Inv := by
  rcases enc3Command_cases n s with ⟨-, he⟩ | ⟨-, ⟨r, hr, he⟩ | ⟨v, w, hw, he⟩⟩ <;> rw [he]
  · exact faultedWith_inv _ _ h (by decide)
  · exact faultEntry_inv h (encRaise_ne (enc3_raises _ _ _ _ hr))
  · exact complete_commitEnc_inv _ h hf (enc3_keeps _ _ _ _ _ hw)

theorem encodeCommand_inv : (encodeCommand s).Inv := by
  rcases encodeCommand_cases s with ⟨-, he⟩ | ⟨-, -, he⟩ | ⟨hb, -, he⟩ <;> rw [he]
  · exact faultedWith_inv _ _ h (by decide)
  · exact faultedWith_inv _ _ h (by decide)
  · cases hrun : s.encodeRun with
    | error r =>
      refine faultEntry_inv h ?_
      rcases encRegions_raises _ _ _ _ _ _ (covers_regions _) hrun with hc | hc <;> simp [hc]
    | ok x =>
      have hk := encRegions_keeps _ _ _ _ _ x.1 x.2 (covers_regions _) hrun
      obtain ⟨hp, ⟨hbw, hbs, hcw, hcs⟩, -, hc⟩ := h
      have hcm : (collapse x).2.cm.wf ∧ (collapse x).2.cm.within s.cmSize.toNat := by
        rw [collapse_cm]; exact ⟨hk.wf hcw, hk.within hcs⟩
      exact complete_inv _ hp ⟨normalized_wf _ _ hbw, normalized_within _ _ _ hbs hb, hcm⟩ hf hc

/-- A decode unit command, for any unit that raises a cause and keeps the bitmap memory (R90, R93, R94). -/
theorem decUnit_inv (size n : Nat) {unit : DecEnv → DecWork → Except Raise DecWork}
    (hr : ∀ r, unit s.decEnv s.decWork = .error r → r.cause ≠ .none)
    (hk : ∀ w, unit s.decEnv s.decWork = .ok w → DecKeeps s.decEnv n s.decWork w) : (decUnit size n unit s).Inv := by
  rcases decUnit_cases size n unit s with ⟨-, he⟩ | ⟨-, -, he⟩ | ⟨-, -, ⟨r, hu, he⟩ | ⟨w, hu, he⟩⟩ <;> rw [he]
  · exact faultedWith_inv _ _ h (by decide)
  · exact faultedWith_inv _ _ h (by decide)
  · exact faultEntry_inv h (hr r hu)
  · exact complete_commitDec_inv _ h hf rfl (hk w hu)

theorem dec1Command_inv (n : Nat) (nib : Nibble) : (dec1Command n nib s).Inv :=
  decUnit_inv h hf 32 n (fun _ hr => decRaise_ne (dec1_raises _ _ _ _ _ hr).1) (fun _ hw => dec1_keeps _ _ _ _ _ hw)

theorem dec2Command_inv (n : Nat) (mask : Byte) : (dec2Command n mask s).Inv :=
  decUnit_inv h hf 512 n (fun _ hr => decRaise_ne (dec2_raises _ _ _ _ _ hr)) (fun _ hw => dec2_keeps _ _ _ _ _ hw)

theorem dec3Command_inv (n : Nat) (mask : Byte) : (dec3Command n mask s).Inv :=
  decUnit_inv h hf 4096 n (fun _ hr => decRaise_ne (dec3_raises _ _ _ _ _ hr)) (fun _ hw => dec3_keeps _ _ _ _ _ hw)

theorem decodeCommand_inv : (decodeCommand s).Inv := by
  rcases decodeCommand_cases s with ⟨-, he⟩ | ⟨-, -, he⟩ | ⟨hb, -, ⟨r, hr, he⟩ | ⟨w, hw, he⟩⟩ <;> rw [he]
  · exact faultedWith_inv _ _ h (by decide)
  · exact faultedWith_inv _ _ h (by decide)
  · refine faultEntry_inv h ?_
    rcases (decodeStream_error _ _ _ _ hr).1 with hc | ⟨hc, -⟩
    · intro h0; rw [h0] at hc; simp at hc
    · simp [hc]
  · obtain ⟨w0, hbm, -, hk, -⟩ := decodeStream_keeps _ _ _ _ hw (nbytes_le s hb)
    exact complete_commitDec_inv _ h hf hbm hk

end

theorem exec_inv {i : Instr} {s t : State} (h : s.Inv) (ht : exec i s = .next t) : t.Inv := by
  cases i with
  | nop =>
    refine unlessFaulted_inv h (fun hf => ?_) ht
    obtain ⟨hp, hm, -, hc⟩ := h
    exact complete_inv _ hp hm hf hc
  | init =>
    refine unlessFaulted_inv h (fun hf => ?_) ht
    obtain ⟨hp, hm, -, hc⟩ := h
    exact complete_inv _ hp hm hf hc
  | srst => rw [exec_srst] at ht; cases ht; exact resetRegs_inv h
  | norm => exact unlessFaulted_inv h (normCommand_inv h) ht
  | enc1 len => exact unlessFaulted_inv h (fun hf => enc1Command_inv h hf len) ht
  | enc2 len => exact unlessFaulted_inv h (fun hf => enc2Command_inv h hf len) ht
  | enc3 len => exact unlessFaulted_inv h (fun hf => enc3Command_inv h hf len) ht
  | encode => exact unlessFaulted_inv h (encodeCommand_inv h) ht
  | dec1 len nib => exact unlessFaulted_inv h (fun hf => dec1Command_inv h hf len nib) ht
  | dec2 len mask => exact unlessFaulted_inv h (fun hf => dec2Command_inv h hf len mask) ht
  | dec3 len mask => exact unlessFaulted_inv h (fun hf => dec3Command_inv h hf len mask) ht
  | decode => exact unlessFaulted_inv h (decodeCommand_inv h) ht

theorem illegalCommand_inv {s t : State} (h : s.Inv) (ht : illegalCommand s = .next t) : t.Inv :=
  unlessFaulted_inv h (fun _ => faultEntry_inv h (by decide)) ht

theorem blockTurn_inv {s t : State} (h : s.Inv) (ht : blockTurn s = .next t) : t.Inv := by
  cases hc : s.command with
  | none => rw [blockTurn_idle hc] at ht; cases ht; exact h
  | some w =>
    rw [blockTurn_busy hc] at ht
    cases hw : decode w with
    | none => rw [runWord_illegal s hw] at ht; exact illegalCommand_inv h ht
    | some i => rw [runWord_command s hw] at ht; exact exec_inv h ht

/-! ### The host's moves keep the invariant -/

theorem issue_inv {s t : State} {w : Word} (h : s.Inv) (ht : issue w s = .next t) : t.Inv := by
  unfold issue at ht
  split at ht
  · split at ht
    · exact exec_inv (i := .srst) h ht
    · cases ht; exact h
  · next hf => cases ht; exact accept_inv w h (by simpa using hf)

/-- The five registers a host writes are named by no clause of the invariant (R28). -/
theorem writeData_inv {s : State} (r : Reg) (w : Word) (h : s.Inv) : (writeData r w s).Inv := by
  unfold writeData
  split
  · exact h
  · cases r <;> exact h

theorem hostWriteReg_inv {width : Width} {off : BitVec 8} {w : Word} {s t : State} (h : s.Inv)
    (ht : hostWriteReg width off w s = .next t) : t.Inv := by
  unfold hostWriteReg at ht
  split at ht
  · cases ht; exact h
  · split at ht
    · cases ht; exact h
    · exact issue_inv h ht
    · cases ht; exact writeData_inv _ w h

/-- A read changes the two fields of the model's own alone (R38; log 12). -/
theorem hostReadReg_inv {s : State} (width : Width) (off : BitVec 8) (h : s.Inv) : (hostReadReg width off s).Inv := by
  unfold hostReadReg
  split
  · split <;> exact h
  · split <;> exact h

theorem writeBM_inv {s : State} {a : Nat} (v : Byte) (h : s.Inv) (ha : a < s.bmSize.toNat) :
    State.Inv { s with bm := s.bm.write a v } := by
  obtain ⟨hp, ⟨hbw, hbs, hcm⟩, hfl, hc⟩ := h
  exact ⟨hp, ⟨Memory.write_wf _ _ _ hbw, Memory.write_within _ _ _ _ hbs ha, hcm⟩, hfl, hc⟩

theorem writeCM_inv {s : State} {a : Nat} (v : Byte) (h : s.Inv) (ha : a < s.cmSize.toNat) :
    State.Inv { s with cm := s.cm.write a v } := by
  obtain ⟨hp, ⟨hbw, hbs, hcw, hcs⟩, hfl, hc⟩ := h
  exact ⟨hp, ⟨hbw, hbs, Memory.write_wf _ _ _ hcw, Memory.write_within _ _ _ _ hcs ha⟩, hfl, hc⟩

theorem hostMove_inv {m : HostMove} {s t : State} (h : s.Inv) (ht : hostMove m s = .next t) : t.Inv := by
  unfold hostMove at ht
  cases m with
  | writeBM a v =>
    simp only at ht
    split at ht
    · cases ht
    · next ha => cases ht; split; exacts [h, writeBM_inv v h (Nat.lt_of_not_le ha)]
  | readBM a =>
    simp only at ht
    split at ht
    · cases ht
    · cases ht; split <;> exact h
  | writeCM a v =>
    simp only at ht
    split at ht
    · cases ht
    · next ha => cases ht; split; exacts [h, writeCM_inv v h (Nat.lt_of_not_le ha)]
  | readCM a =>
    simp only at ht
    split at ht
    · cases ht
    · cases ht; split <;> exact h
  | writeReg width off w => exact hostWriteReg_inv h ht
  | readReg width off => cases ht; exact hostReadReg_inv width off h
  | reset => cases ht; exact hardwareReset_inv h

theorem event_inv {e : Event} {s t : State} (h : s.Inv) (ht : event e s = .next t) : t.Inv := by
  cases e with
  | host m => exact hostMove_inv h ht
  | block => exact blockTurn_inv h ht

theorem step_inv {s t : State} (h : s.Inv) (ht : step s = .next t) : t.Inv := by
  cases ha : s.agenda with
  | nil => rw [step_of_agenda_nil ha] at ht; exact blockTurn_inv h ht
  | cons e rest =>
    have hs : State.Inv { s with agenda := rest } := h
    rw [step_of_agenda_cons ha] at ht; exact event_inv hs ht

end Sys2Proof.Machine
end

section
/-! The obligations of 00_scope.md: what a step runs and what it keeps. -/

open Sys2Proof Sys2Proof.Machine

/-- Settles O7: the next event is the turn of the block, and the word in execution decodes to `i`. -/
theorem stepRunsDecodedInstruction : Obligations.StepRunsDecodedInstruction := by
  unfold Obligations.StepRunsDecodedInstruction
  refine ⟨fun s w i rest hw hi => ⟨fun ha => ?_, fun ha => ?_⟩, fun s nbits w i hi => ?_⟩
  · exact (step_of_agenda_nil ha).trans (blockTurn_command hw hi)
  · exact (step_of_agenda_cons ha).trans (blockTurn_command (s := { s with agenda := rest }) hw hi)
  · exact (step_of_agenda_cons (State.withCommand_agenda s (tableWord nbits w))).trans (blockTurn_command (s := s.accept _) rfl hi)

/-- Settles O17: the invariant is kept by each operation, so by each command and host move, so by the next event. -/
theorem stepKeepsInvariant : Obligations.StepKeepsInvariant := by
  unfold Obligations.StepKeepsInvariant
  exact fun s t h ht => step_inv h ht

end

section
/-! SUPPORT. The words of the commands: a word that decodes is the word of its command (R48, R49). -/

namespace Sys2Proof
variable {w : Word} {i : Instr} {opc : BitVec 8}

theorem encode_of_decodeBare {j : Instr} (hj : encode j = commandWord opc 0#8 0) (ho : opcField w = opc)
    (h : decodeBare w j = some i) : encode i = w := by
  obtain ⟨rfl, ha, hz, hl⟩ := decodeBare_some h
  exact hj.trans (bare_back ho ha hz hl)

theorem encode_of_decodeLen {mk : Nat → Instr} (hj : ∀ n, encode (mk n) = commandWord opc 0#8 n) (ho : opcField w = opc)
    (h : decodeLen w mk = some i) : encode i = w := by
  obtain ⟨rfl, ha, hz⟩ := decodeLen_some h
  exact (hj _).trans (len_back ho ha hz)

theorem encode_of_decodeLenNib {mk : Nat → Nibble → Instr}
    (hj : ∀ n nib, encode (mk n nib) = commandWord opc (nib.setWidth 8) n) (ho : opcField w = opc)
    (h : decodeLenNib w mk = some i) : encode i = w := by
  obtain ⟨rfl, ha, hz⟩ := decodeLenNib_some h
  rw [hj, arg_of_nib w ha]
  exact mask_back ho hz

theorem encode_of_decodeLenMask {mk : Nat → Byte → Instr} (hj : ∀ n mask, encode (mk n mask) = commandWord opc mask n)
    (ho : opcField w = opc) (h : decodeLenMask w mk = some i) : encode i = w := by
  obtain ⟨rfl, hz⟩ := decodeLenMask_some h
  exact (hj _ _).trans (mask_back ho hz)

/-- A word that decodes is the word of its command: each row of the opcode map fixes `OPC` and the bits that must be 0 (R48, R49). -/
theorem encode_of_decode (h : decode w = some i) : encode i = w := by
  unfold decode at h
  obtain ⟨ho, h⟩ | ⟨-, h⟩ := ite_eq_iff.mp h
  · exact encode_of_decodeBare rfl ho h
  obtain ⟨ho, h⟩ | ⟨-, h⟩ := ite_eq_iff.mp h
  · exact encode_of_decodeBare rfl ho h
  obtain ⟨ho, h⟩ | ⟨-, h⟩ := ite_eq_iff.mp h
  · exact encode_of_decodeBare rfl ho h
  obtain ⟨ho, h⟩ | ⟨-, h⟩ := ite_eq_iff.mp h
  · exact encode_of_decodeBare rfl ho h
  obtain ⟨ho, h⟩ | ⟨-, h⟩ := ite_eq_iff.mp h
  · exact encode_of_decodeLen (fun _ => rfl) ho h
  obtain ⟨ho, h⟩ | ⟨-, h⟩ := ite_eq_iff.mp h
  · exact encode_of_decodeLen (fun _ => rfl) ho h
  obtain ⟨ho, h⟩ | ⟨-, h⟩ := ite_eq_iff.mp h
  · exact encode_of_decodeLen (fun _ => rfl) ho h
  obtain ⟨ho, h⟩ | ⟨-, h⟩ := ite_eq_iff.mp h
  · exact encode_of_decodeBare rfl ho h
  obtain ⟨ho, h⟩ | ⟨-, h⟩ := ite_eq_iff.mp h
  · exact encode_of_decodeLenNib (fun _ _ => rfl) ho h
  obtain ⟨ho, h⟩ | ⟨-, h⟩ := ite_eq_iff.mp h
  · exact encode_of_decodeLenMask (fun _ _ => rfl) ho h
  obtain ⟨ho, h⟩ | ⟨-, h⟩ := ite_eq_iff.mp h
  · exact encode_of_decodeLenMask (fun _ _ => rfl) ho h
  obtain ⟨ho, h⟩ | ⟨-, h⟩ := ite_eq_iff.mp h
  · exact encode_of_decodeBare rfl ho h
  · cases h

theorem encode_srst : encode .srst = 0x02000000#32 := by decide

/-- One word alone is `SRST` (R48). -/
theorem decode_eq_srst (w : Word) : decode w = some .srst ↔ w = 0x02000000#32 :=
  ⟨fun h => (encode_of_decode h).symm.trans encode_srst, by rintro rfl; decide⟩
end Sys2Proof
end

section
/-! SUPPORT. How a command ends, said once for all of them: by fault entry or by completion, with the parameters, `BITLEN` and the
host's side as before (R20, R21, R27, R118). -/

namespace Sys2Proof.Machine

/-- A command begun at `s` has ended in `t`: by fault entry, or by completion, and then it has written at most the memories, `CLEN`,
`BCUR`, `CTAIL`, `MATCH`, `RESULT` and `L1MASK` (R21, R118). -/
def State.EndsIn (s t : State) : Prop :=
  (∃ r, t = faultEntry r s) ∨
  t = { s with command := none, done := true, bm := t.bm, cm := t.cm, clen := t.clen, bcur := t.bcur, ctail := t.ctail,
               matchBit := t.matchBit, result := t.result, l1mask := t.l1mask }

theorem faultEntry_endsIn (r : Raise) (s : State) : s.EndsIn (faultEntry r s) := .inl ⟨r, rfl⟩

theorem endEnc_endsIn (s : State) : ∀ r, s.EndsIn (endEnc s r)
  | .error r => faultEntry_endsIn r s
  | .ok _ => .inr rfl

theorem endDec_endsIn (s : State) : ∀ r, s.EndsIn (endDec s r)
  | .error r => faultEntry_endsIn r s
  | .ok _ => .inr rfl

theorem endEncode_endsIn (s : State) (bm : Memory) : ∀ r, s.EndsIn (endEncode s bm r)
  | .error r => faultEntry_endsIn r s
  | .ok _ => .inr rfl

theorem decUnit_endsIn (size len : Nat) (unit : DecEnv → DecWork → Except Raise DecWork) (s : State) :
    s.EndsIn (decUnit size len unit s) := by
  unfold decUnit
  split_ifs
  exacts [faultEntry_endsIn _ s, faultEntry_endsIn _ s, endDec_endsIn s _]

/-- Every command but `SRST` issued while `FAULT = 0`. -/
theorem exec_endsIn {i : Instr} {s t : State} (hi : i ≠ .srst) (hf : s.fault = false) (h : exec i s = .next t) : s.EndsIn t := by
  have of_eq {u : State} (hu : exec i s = .next u) (he : s.EndsIn u) : s.EndsIn t := by
    rw [hu] at h; cases h; exact he
  cases i with
  | srst => exact absurd rfl hi
  | nop => exact of_eq (exec_nop s hf) (.inr rfl)
  | init => exact of_eq (exec_init s hf) (.inr rfl)
  | norm =>
    refine of_eq (exec_norm s hf) ?_
    unfold normCommand
    split_ifs
    exacts [faultEntry_endsIn _ s, .inr rfl]
  | enc1 len =>
    refine of_eq (exec_enc1 len s hf) ?_
    unfold enc1Command
    split_ifs
    exacts [faultEntry_endsIn _ s, .inr rfl, endEnc_endsIn s _]
  | enc2 len =>
    refine of_eq (exec_enc2 len s hf) ?_
    unfold enc2Command
    split_ifs
    exacts [faultEntry_endsIn _ s, endEnc_endsIn s _]
  | enc3 len =>
    refine of_eq (exec_enc3 len s hf) ?_
    unfold enc3Command
    split_ifs
    exacts [faultEntry_endsIn _ s, endEnc_endsIn s _]
  | encode =>
    refine of_eq (exec_encode s hf) ?_
    unfold encodeCommand
    simp only
    split_ifs
    exacts [faultEntry_endsIn _ s, faultEntry_endsIn _ s, endEncode_endsIn s _ _]
  | dec1 len nib => exact of_eq (exec_dec1 len nib s hf) (decUnit_endsIn _ _ _ s)
  | dec2 len mask => exact of_eq (exec_dec2 len mask s hf) (decUnit_endsIn _ _ _ s)
  | dec3 len mask => exact of_eq (exec_dec3 len mask s hf) (decUnit_endsIn _ _ _ s)
  | decode =>
    refine of_eq (exec_decode s hf) ?_
    unfold decodeCommand
    split_ifs
    exacts [faultEntry_endsIn _ s, faultEntry_endsIn _ s, endDec_endsIn s _]

/-- A command that has ended is idle, and `DONE` says that it has not faulted (R20, R21). -/
theorem State.EndsIn.flags {s t : State} (h : s.EndsIn t) (hf : s.fault = false) : t.command = none ∧ t.done = !t.fault := by
  rcases h with ⟨r, rfl⟩ | h
  · exact ⟨rfl, rfl⟩
  · rw [h]; exact ⟨rfl, by simp [hf]⟩

/-! ### The parameters (R5, R27) -/

/-- `t` has the two parameters of `s`. -/
def State.SameParams (s t : State) : Prop := t.bmSize = s.bmSize ∧ t.cmSize = s.cmSize

theorem State.EndsIn.sameParams {s t : State} (h : s.EndsIn t) : s.SameParams t := by
  rcases h with ⟨r, rfl⟩ | h
  · exact ⟨rfl, rfl⟩
  · rw [h]; exact ⟨rfl, rfl⟩

theorem exec_sameParams {i : Instr} {s t : State} (h : exec i s = .next t) : s.SameParams t := by
  by_cases hi : i = .srst
  · subst hi; cases h; exact ⟨rfl, rfl⟩
  cases hf : s.fault with
  | true => rw [exec_ignored i s hf hi] at h; cases h; exact ⟨rfl, rfl⟩
  | false => exact (exec_endsIn hi hf h).sameParams

theorem blockTurn_sameParams {s t : State} (h : blockTurn s = .next t) : s.SameParams t := by
  cases hc : s.command with
  | none => rw [blockTurn_idle hc] at h; cases h; exact ⟨rfl, rfl⟩
  | some w =>
    rw [blockTurn_busy hc] at h
    cases hw : decode w with
    | some i => rw [runWord_command s hw] at h; exact exec_sameParams h
    | none =>
      rw [runWord_illegal s hw] at h
      unfold illegalCommand unlessFaulted at h
      cases h
      split <;> exact ⟨rfl, rfl⟩

end Sys2Proof.Machine
end

section
/-! SUPPORT. What the host's moves do while the block is idle: the register window by the register an access reaches (R28, R33, R37),
and what every host move keeps (R27, R119). -/

namespace Sys2Proof.Machine

/-! ### The register an access reaches -/

theorem regReached_offset (r : Reg) : regReached .word (regOffset r) = some r := regAt_offset r

theorem regAt_eq_none {off : BitVec 8} (h : off.toNat % 4 ≠ 0 ∨ 0x38 ≤ off.toNat) : regAt off = none := by
  revert off; decide

theorem regAt_eq_cmd {off : BitVec 8} (h : regAt off = some .cmd) : off = 0x00#8 := by
  revert off; decide

/-- Sub-word, misaligned and reserved accesses reach no register (R28, R37). -/
theorem regReached_eq_none {width : Width} {off : BitVec 8} (h : width ≠ .word ∨ off.toNat % 4 ≠ 0 ∨ 0x38 ≤ off.toNat) :
    regReached width off = none := by
  cases width with
  | byte => rfl
  | half => rfl
  | word => exact regAt_eq_none (h.resolve_left (fun hw => hw rfl))

theorem regReached_eq_cmd {width : Width} {off : BitVec 8} (h : regReached width off = some .cmd) :
    width = .word ∧ off = 0x00#8 := by
  cases width with
  | byte => cases h
  | half => cases h
  | word => exact ⟨rfl, regAt_eq_cmd h⟩

/-! ### Reads and writes of the window while the block is idle -/

section
variable {s : State} {width : Width} {off : BitVec 8} {w : Word} (hs : s.command = none)
include hs

theorem busy_of_idle : s.busy = false := by simp [State.busy, hs]

theorem hostWriteReg_none (hr : regReached width off = none) : hostWriteReg width off w s = .next s := by
  simp [hostWriteReg, busy_of_idle hs, hr]

theorem hostWriteReg_cmd (hr : regReached width off = some .cmd) : hostWriteReg width off w s = issue w s := by
  simp [hostWriteReg, busy_of_idle hs, hr]

theorem hostWriteReg_data {r : Reg} (hr : regReached width off = some r) (hc : r ≠ .cmd) :
    hostWriteReg width off w s = .next (writeData r w s) := by
  unfold hostWriteReg
  rw [busy_of_idle hs, hr]
  cases r with
  | cmd => exact absurd rfl hc
  | _ => rfl

theorem hostReadReg_none (hr : regReached width off = none) : hostReadReg width off s = s.returned 0#32 := by
  simp [hostReadReg, busy_of_idle hs, hr]

theorem hostReadReg_some {r : Reg} (hr : regReached width off = some r) : hostReadReg width off s = s.returned (readReg r s) := by
  simp [hostReadReg, busy_of_idle hs, hr]

/-- A whole-word read at a register's offset (R37). -/
theorem hostMove_readReg (r : Reg) : hostMove (.readReg .word (regOffset r)) s = .next (s.returned (readReg r s)) :=
  congrArg Host.Outcome.next (hostReadReg_some hs (regReached_offset r))

/-- A whole-word write at a data register's offset (R28, R37). -/
theorem hostMove_writeReg (r : Reg) (hc : r ≠ .cmd) :
    hostMove (.writeReg .word (regOffset r) w) s = .next (writeData r w s) :=
  hostWriteReg_data hs (regReached_offset r) hc

/-- A write of the command word (R21). -/
theorem hostMove_writeCmd : hostMove (.writeReg .word 0x00#8 w) s = issue w s :=
  hostWriteReg_cmd (width := .word) (off := 0x00#8) hs rfl

end

theorem writeData_faulted (r : Reg) (w : Word) {s : State} (h : s.fault = true) : writeData r w s = s := by simp [writeData, h]

/-- The registers no host write reaches (R28). -/
theorem writeData_readOnly {r : Reg} (w : Word) (s : State)
    (h : r ∈ [.status, .cause, .faddr, .result, .l1mask, .wcsz, .bmsize, .cmsize]) : writeData r w s = s := by
  unfold writeData
  split
  · rfl
  · simp only [List.mem_cons, List.not_mem_nil, or_false] at h
    rcases h with rfl | rfl | rfl | rfl | rfl | rfl | rfl | rfl <;> rfl

/-- A whole-word write at the offset of a read-only register is ignored (R28). -/
theorem hostMove_writeReadOnly {s : State} (hs : s.command = none) (w : Word) {r : Reg}
    (h : r ∈ [.status, .cause, .faddr, .result, .l1mask, .wcsz, .bmsize, .cmsize]) :
    hostMove (.writeReg .word (regOffset r) w) s = .next s := by
  have hc : r ≠ .cmd := by rintro rfl; exact absurd h (by decide)
  rw [hostMove_writeReg hs r hc, writeData_readOnly w s h]

section
variable (w : Word) {s : State} (h : s.fault = false)
include h

theorem writeData_bitlen : writeData .bitlen w s = { s with bitlen := w } := by simp [writeData, h]
theorem writeData_clen : writeData .clen w s = { s with clen := w } := by simp [writeData, h]
theorem writeData_bcur : writeData .bcur w s = { s with bcur := w } := by simp [writeData, h]
theorem writeData_ctail : writeData .ctail w s = { s with ctail := w } := by simp [writeData, h]
theorem writeData_matchByte : writeData .matchByte w s = { s with matchBit := w.getLsbD 0 } := by simp [writeData, h]

end

/-- A host write of `MATCH` (R18). -/
theorem hostMove_writeMatch {s : State} (hs : s.command = none) (w : Word) (hf : s.fault = false) :
    hostMove (.writeReg .word 0x20#8 w) s = .next { s with matchBit := w.getLsbD 0 } :=
  (hostMove_writeReg hs .matchByte (by decide)).trans (congrArg _ (writeData_matchByte w hf))

/-- What `issue` does, by `FAULT` and the word (R21, R119). -/
theorem issue_ok (w : Word) {s : State} (h : s.fault = false) : issue w s = .next (s.accept w) := by simp [issue, h]

theorem issue_ignored {w : Word} {s : State} (h : s.fault = true) (hw : w ≠ 0x02000000#32) : issue w s = .next s := by
  simp [issue, h, decode_eq_srst, hw]

theorem issue_srst {s : State} (h : s.fault = true) : issue 0x02000000#32 s = exec .srst s := by
  simp [issue, h, decode_eq_srst]; rfl

/-! ### What a host move keeps -/

/-- `t` differs from `s` in the memories and in what the host reads, at most. -/
def State.SameRegs (s t : State) : Prop := t = { s with bm := t.bm, cm := t.cm, hostData := t.hostData, fresh := t.fresh }

theorem State.SameRegs.sameParams {s t : State} (h : s.SameRegs t) : s.SameParams t := by
  unfold State.SameRegs at h
  rw [h]; exact ⟨rfl, rfl⟩

theorem hostReadReg_sameRegs (width : Width) (off : BitVec 8) (s : State) : s.SameRegs (hostReadReg width off s) := by
  unfold hostReadReg
  split
  · split <;> rfl
  · split <;> rfl

/-- An access to a memory window that is a move of the block (R34). -/
theorem inside_next {size a : Nat} {u t : State}
    (h : (if size ≤ a then .fault .outsideWindow else .next u : Host.Outcome State Fault Refusal) = .next t) : u = t := by
  split at h
  · cases h
  · cases h; rfl

/-- Only a register write and a hardware reset can change a register (R34, R38). -/
theorem hostMove_cases {m : HostMove} {s t : State} (h : hostMove m s = .next t) :
    (∃ width off w, m = .writeReg width off w) ∨ m = .reset ∨ s.SameRegs t := by
  cases m with
  | writeReg width off w => exact .inl ⟨width, off, w, rfl⟩
  | reset => exact .inr (.inl rfl)
  | readReg width off => cases h; exact .inr (.inr (hostReadReg_sameRegs width off s))
  | writeBM a v => obtain rfl := inside_next h; right; right; split <;> rfl
  | readBM a => obtain rfl := inside_next h; right; right; split <;> rfl
  | writeCM a v => obtain rfl := inside_next h; right; right; split <;> rfl
  | readCM a => obtain rfl := inside_next h; right; right; split <;> rfl

theorem writeData_sameParams (r : Reg) (w : Word) (s : State) : s.SameParams (writeData r w s) := by
  unfold writeData
  split
  · exact ⟨rfl, rfl⟩
  · cases r <;> exact ⟨rfl, rfl⟩

theorem issue_sameParams {w : Word} {s t : State} (h : issue w s = .next t) : s.SameParams t := by
  unfold issue at h
  split at h
  · split at h
    · exact exec_sameParams (i := .srst) h
    · cases h; exact ⟨rfl, rfl⟩
  · cases h; exact ⟨rfl, rfl⟩

theorem hostWriteReg_sameParams {width : Width} {off : BitVec 8} {w : Word} {s t : State}
    (h : hostWriteReg width off w s = .next t) : s.SameParams t := by
  unfold hostWriteReg at h
  split at h
  · cases h; exact ⟨rfl, rfl⟩
  · split at h
    · cases h; exact ⟨rfl, rfl⟩
    · exact issue_sameParams h
    · cases h; exact writeData_sameParams _ w s

theorem hostMove_sameParams {m : HostMove} {s t : State} (h : hostMove m s = .next t) : s.SameParams t := by
  obtain ⟨width, off, w, rfl⟩ | rfl | hr := hostMove_cases h
  · exact hostWriteReg_sameParams h
  · cases h; exact ⟨rfl, rfl⟩
  · exact hr.sameParams

theorem event_sameParams {e : Event} {s t : State} (h : event e s = .next t) : s.SameParams t := by
  cases e with
  | host m => exact hostMove_sameParams h
  | block => exact blockTurn_sameParams h

/-- No step changes a parameter (R27). -/
theorem step_sameParams {s t : State} (h : step s = .next t) : s.SameParams t := by
  cases ha : s.agenda with
  | nil => rw [step_of_agenda_nil ha] at h; exact blockTurn_sameParams h
  | cons e rest => rw [step_of_agenda_cons ha] at h; exact event_sameParams (s := { s with agenda := rest }) h

/-! ### The fault state (R20, R119) -/

/-- A register write in the fault state is ignored, but for the word of `SRST` (R101, R119). -/
theorem hostWriteReg_faulted {width : Width} {off : BitVec 8} {w : Word} {s : State} (hs : s.command = none) (hf : s.fault = true) :
    (width = .word ∧ off = 0x00#8 ∧ w = 0x02000000#32) ∨ hostWriteReg width off w s = .next s := by
  cases hr : regReached width off with
  | none => exact .inr (hostWriteReg_none hs hr)
  | some r =>
    by_cases hc : r = .cmd
    · subst hc
      by_cases hw : w = 0x02000000#32
      · exact .inl ⟨(regReached_eq_cmd hr).1, (regReached_eq_cmd hr).2, hw⟩
      · exact .inr (by rw [hostWriteReg_cmd hs hr, issue_ignored hf hw])
    · exact .inr (by rw [hostWriteReg_data hs hr hc, writeData_faulted r w hf])

/-- The host moves that leave the fault state: hardware reset, and a write of the word of `SRST` (R101, R119). -/
theorem hostMove_faulted {m : HostMove} {s t : State} (hs : s.command = none) (hf : s.fault = true) (h : hostMove m s = .next t) :
    m = .reset ∨ m = .writeReg .word 0x00#8 0x02000000#32 ∨ s.SameRegs t := by
  obtain ⟨width, off, w, rfl⟩ | rfl | hr := hostMove_cases h
  · obtain ⟨rfl, rfl, rfl⟩ | hw := hostWriteReg_faulted (width := width) (off := off) (w := w) hs hf
    · exact .inr (.inl rfl)
    · cases hw.symm.trans h; exact .inr (.inr rfl)
  · exact .inl rfl
  · exact .inr (.inr hr)

end Sys2Proof.Machine
end

section
/-! SUPPORT. The frame of a unit command that succeeds, in the terms of the claims (R25, R30, R39, R40). -/

namespace Sys2Proof.Machine

/-! ### Encode units -/

/-- An encode unit begun at `s` has ended in `t` with the code `bytes` of its `n` bytes standing in `CM` from `CTAIL` upward, the result
`res`, and nothing else changed but the registers of an encode unit (R66, R74). -/
def State.EncodedIn (s : State) (n : Nat) (res : Byte) (bytes : List Byte) (t : State) : Prop :=
  s.ctail.toNat + bytes.length ≤ s.cmSize.toNat ∧ s.cm.Stored t.cm s.ctail.toNat bytes ∧
  t = { s with command := none, done := true, result := res, cm := t.cm, bcur := BitVec.ofNat 32 (s.bcur.toNat + n),
               ctail := BitVec.ofNat 32 (s.ctail.toNat + bytes.length), matchBit := runAfter s.matchBit (s.input n),
               l1mask := lastVector s.l1mask s.matchBit (s.input n) }

/-- The commit of an encode unit that has emitted `bytes` (R31). -/
theorem commitEnc_encodedIn {n : Nat} {s : State} {w : EncWork} {bytes : List Byte} {m : Bool} {vec : Word} (res : Byte) (h1 : 1 ≤ n)
    (hwf : s.cm.wf) (hk : EncKeeps s.encEnv n s.encWork w) (hr : RunsOver s.encEnv n s.encWork w)
    (he : w = s.encWork.emit n bytes m vec) : s.EncodedIn n res bytes (complete res (s.commitEnc w)) := by
  obtain ⟨hm, hv⟩ := hr
  have hroom := hk.room
  subst he
  refine ⟨?_, stored_writeBytes _ _ _ hwf, ?_⟩
  · simp only [EncWork.emit, State.encWork_ctail, State.encEnv_cmSize] at hroom
    omega
  · simp only [EncWork.emit] at hm hv
    simp only [complete, State.completed, State.commitEnc, EncWork.emit, hm, hv]
    rfl

section
variable {n : Nat} {s t : State} (hf : s.fault = false) (ht : t.fault = false)
include hf ht

theorem exec_enc1_ok (h1 : 1 ≤ n) (h : exec (.enc1 n) s = .next t) :
    n ≤ 32 ∧ ∃ v w, enc1 s.encEnv n s.encWork = .ok (v, w) ∧ t = complete (v.setWidth 8) (s.commitEnc w) := by
  rw [exec_enc1 n s hf] at h
  cases h
  rcases enc1Command_cases n s with ⟨-, he⟩ | ⟨h0, -⟩ | ⟨-, hn, ⟨r, -, he⟩ | ⟨v, w, hw, he⟩⟩
  · rw [he] at ht; cases ht
  · omega
  · rw [he] at ht; cases ht
  · exact ⟨hn, v, w, hw, he⟩

theorem exec_enc2_ok (h : exec (.enc2 n) s = .next t) :
    n ≤ 512 ∧ ∃ v w, enc2 s.encEnv n s.encWork = .ok (v, w) ∧ t = complete v (s.commitEnc w) := by
  rw [exec_enc2 n s hf] at h
  cases h
  rcases enc2Command_cases n s with ⟨-, he⟩ | ⟨hn, ⟨r, -, he⟩ | ⟨v, w, hw, he⟩⟩
  · rw [he] at ht; cases ht
  · rw [he] at ht; cases ht
  · exact ⟨hn, v, w, hw, he⟩

theorem exec_enc3_ok (h : exec (.enc3 n) s = .next t) :
    n ≤ 4096 ∧ ∃ v w, enc3 s.encEnv n s.encWork = .ok (v, w) ∧ t = complete v (s.commitEnc w) := by
  rw [exec_enc3 n s hf] at h
  cases h
  rcases enc3Command_cases n s with ⟨-, he⟩ | ⟨hn, ⟨r, -, he⟩ | ⟨v, w, hw, he⟩⟩
  · rw [he] at ht; cases ht
  · rw [he] at ht; cases ht
  · exact ⟨hn, v, w, hw, he⟩

variable (h1 : 1 ≤ n)
include h1

/-- `L1MASK` after any encode unit that succeeds (R25, R77). -/
theorem encodeUnit_l1mask
    (h : exec (.enc1 n) s = .next t ∨ exec (.enc2 n) s = .next t ∨ exec (.enc3 n) s = .next t) :
    t.l1mask = lastVector s.l1mask s.matchBit (s.input n) := by
  rcases h with h | h | h
  · obtain ⟨hn, v, w, hw, rfl⟩ := exec_enc1_ok hf ht h1 h
    exact (enc1_runsOver _ _ _ _ _ hn hw).2
  · obtain ⟨-, v, w, hw, rfl⟩ := exec_enc2_ok hf ht h
    exact (enc2_runsOver _ _ _ _ _ hw).2
  · obtain ⟨-, v, w, hw, rfl⟩ := exec_enc3_ok hf ht h
    exact (enc3_runsOver _ _ _ _ _ hw).2

variable (hwf : s.cm.wf)
include hwf

theorem exec_enc1_encodedIn (h : exec (.enc1 n) s = .next t) :
    s.EncodedIn n ((chunkCode s.matchBit (s.input n)).nib.setWidth 8) (chunkCode s.matchBit (s.input n)).stage t := by
  obtain ⟨hn, v, w, hw, rfl⟩ := exec_enc1_ok hf ht h1 h
  obtain ⟨rfl, he⟩ := enc1_emits _ _ _ _ _ h1 hw
  exact commitEnc_encodedIn _ h1 hwf (enc1_keeps _ _ _ _ _ hw) (enc1_runsOver _ _ _ _ _ hn hw) he

theorem exec_enc2_encodedIn (h : exec (.enc2 n) s = .next t) :
    s.EncodedIn n (blockCode s.matchBit (s.input n)).mask (blockCode s.matchBit (s.input n)).bytes t := by
  obtain ⟨hn, v, w, hw, rfl⟩ := exec_enc2_ok hf ht h
  obtain ⟨rfl, he⟩ := enc2_emits _ _ _ _ _ h1 hn hwf hw
  exact commitEnc_encodedIn _ h1 hwf (enc2_keeps _ _ _ _ _ hw) (enc2_runsOver _ _ _ _ _ hw) he

theorem exec_enc3_encodedIn (h : exec (.enc3 n) s = .next t) :
    s.EncodedIn n (regionCode s.matchBit (s.input n)).mask (regionCode s.matchBit (s.input n)).bytes t := by
  obtain ⟨hn, v, w, hw, rfl⟩ := exec_enc3_ok hf ht h
  obtain ⟨rfl, he⟩ := enc3_emits _ _ _ _ _ h1 hn hwf hw
  exact commitEnc_encodedIn _ h1 hwf (enc3_keeps _ _ _ _ _ hw) (enc3_runsOver _ _ _ _ _ hw) he

end

/-- A position past the first `k` bytes is a position of the rest, with the run state after those bytes (R69). -/
theorem literalAt_drop (m : Bool) {bs : List Byte} {k : Nat} (hk : k ≤ bs.length) (i : Nat) :
    literalAt m bs (k + i) = literalAt (runAfter m (bs.take k)) (bs.drop k) i := by
  have h := literalAt_right m (bs.take k) (bs.drop k) i
  rwa [List.take_append_drop, List.length_take, Nat.min_eq_left hk] at h

/-- Bit `31 - i` of the last chunk's presence vector marks byte `i` of that chunk as a literal (R25, R69). -/
theorem lastVector_getLsbD (old : Word) (m : Bool) {bs : List Byte} (hb : bs ≠ []) {i : Nat} (hi : i < 32) :
    (lastVector old m bs).getLsbD (31 - i) =
      (decide (lastChunkStart bs.length + i < bs.length) && literalAt m bs (lastChunkStart bs.length + i)) := by
  have hpos := List.length_pos_iff.mpr hb
  have hle : lastChunkStart bs.length ≤ bs.length ∧ bs.length - lastChunkStart bs.length ≤ 32 := by unfold lastChunkStart; omega
  have hin : i < bs.length - lastChunkStart bs.length ↔ lastChunkStart bs.length + i < bs.length := by omega
  simp only [lastVector, if_neg hb]
  rw [maskedPass_vec _ _ (by simpa using hle.2) i hi, literalAt_drop m hle.1, List.length_drop, decide_eq_decide.mpr hin]

/-! ### Commands that leave `L1MASK` -/

theorem enc2_zero (env : EncEnv) (w : EncWork) : enc2 env 0 w = .ok (0#8, w) := rfl

theorem enc3_zero (env : EncEnv) (w : EncWork) : enc3 env 0 w = .ok (0#8, w) := rfl

/-- A unit without a byte has no chunk, so `L1MASK` stays (R77). -/
theorem enc2Command_zero_l1mask (s : State) : (enc2Command 0 s).l1mask = s.l1mask := by
  rw [enc2Command_ok 0 s _ _ (Nat.zero_le _) (enc2_zero _ _)]; rfl

theorem enc3Command_zero_l1mask (s : State) : (enc3Command 0 s).l1mask = s.l1mask := by
  rw [enc3Command_ok 0 s _ _ (Nat.zero_le _) (enc3_zero _ _)]; rfl

theorem endDec_l1mask (s : State) : ∀ r, (endDec s r).l1mask = s.l1mask
  | .error _ => rfl
  | .ok _ => rfl

theorem decUnit_l1mask (size len : Nat) (unit : DecEnv → DecWork → Except Raise DecWork) (s : State) :
    (decUnit size len unit s).l1mask = s.l1mask := by
  unfold decUnit
  split_ifs
  exacts [rfl, rfl, endDec_l1mask s _]

theorem decodeCommand_l1mask (s : State) : (decodeCommand s).l1mask = s.l1mask := by
  unfold decodeCommand
  split_ifs
  exacts [rfl, rfl, endDec_l1mask s _]

theorem normCommand_l1mask (s : State) : (normCommand s).l1mask = s.l1mask := by
  unfold normCommand
  split_ifs <;> rfl

/-- A command whose effect keeps `L1MASK` keeps it whether or not it is ignored (R119). -/
theorem unlessFaulted_l1mask {s t u : State} (h : unlessFaulted s t = .next u) (ht : t.l1mask = s.l1mask) : u.l1mask = s.l1mask := by
  cases hf : s.fault with
  | true => rw [unlessFaulted_faulted s t hf] at h; cases h; rfl
  | false => rw [unlessFaulted_ok s t hf] at h; cases h; exact ht

/-! ### Decode units -/

/-- A decode unit begun at `s` has ended in `t` with some `n` bytes stored in `BM` from `BCUR` upward and its read cursor at or below
`CLEN` unless it began above, and nothing else changed but the registers of a decode unit (R39, R89). -/
def State.DecodedIn (s : State) (n : Nat) (t : State) : Prop :=
  ∃ (bs : List Byte) (c : Nat), bs.length = n ∧ s.bm.Stored t.bm s.bcur.toNat bs ∧
    (n = 0 ∨ s.bcur.toNat + n ≤ s.bmSize.toNat) ∧ s.ctail.toNat ≤ c ∧ (c = s.ctail.toNat ∨ c ≤ s.clen.toNat) ∧
    t = { s with command := none, done := true, result := 0#8, bm := t.bm, bcur := BitVec.ofNat 32 (s.bcur.toNat + n),
                 ctail := BitVec.ofNat 32 c, matchBit := runAfter s.matchBit bs }

/-- The commit of a decode unit (R31). -/
theorem commitDec_decodedIn {n : Nat} {s : State} {w : DecWork} (hwf : s.bm.wf) (hk : DecKeeps s.decEnv n s.decWork w)
    (hw : DecWrites n s.decWork w) : s.DecodedIn n (complete 0#8 (s.commitDec w)) := by
  obtain ⟨bs, hlen, hbm, hm⟩ := hw
  have hb := hk.bcur
  simp only [State.decWork_bm, State.decWork_bcur, State.decWork_matchBit] at hb hm hbm
  refine ⟨bs, w.ctail, hlen, ?_, hk.inside, hk.tail, hk.stream, ?_⟩
  · rw [complete_bm, State.commitDec_bm, hbm]; exact stored_writeBytes _ _ _ hwf
  · simp only [complete, State.completed, State.commitDec, hb, hm]

theorem Succeeds.decodedIn {n : Nat} {nib : Nibble} {mask : Byte} {s t : State} (hwf : s.bm.wf)
    (h : Succeeds (.dec1 n nib) s t ∨ Succeeds (.dec2 n mask) s t ∨ Succeeds (.dec3 n mask) s t) : s.DecodedIn n t := by
  rcases h with h | h | h
  · obtain ⟨-, -, -, w, hw, rfl, -⟩ := dec1_succeeds h
    exact commitDec_decodedIn hwf (dec1_keeps _ _ _ _ _ hw) (dec1_writes _ _ _ _ _ hw)
  · obtain ⟨-, -, -, w, hw, rfl, -⟩ := dec2_succeeds h
    exact commitDec_decodedIn hwf (dec2_keeps _ _ _ _ _ hw) (dec2_writes _ _ _ _ _ hw)
  · obtain ⟨-, -, -, w, hw, rfl, -⟩ := dec3_succeeds h
    exact commitDec_decodedIn hwf (dec3_keeps _ _ _ _ _ hw) (dec3_writes _ _ _ _ _ hw)

/-- A `DECODE` that succeeds has passed its two checks and committed its run (R95). -/
theorem exec_decode_ok {s t : State} (hf : s.fault = false) (ht : t.fault = false) (h : exec .decode s = .next t) :
    s.bitlen.toNat ≤ 8 * s.bmSize.toNat ∧ s.clen.toNat ≤ s.cmSize.toNat ∧
      ∃ w, decodeStream s.decEnv (nbytes s.bitlen.toNat) s.bm = .ok w ∧ t = complete 0#8 (s.commitDec w) := by
  rw [exec_decode s hf] at h
  cases h
  rcases decodeCommand_cases s with ⟨-, he⟩ | ⟨-, -, he⟩ | ⟨hb, hc, ⟨r, -, he⟩ | ⟨w, hw, he⟩⟩
  · rw [he] at ht; cases ht
  · rw [he] at ht; cases ht
  · rw [he] at ht; cases ht
  · exact ⟨hb, hc, w, hw, he⟩

/-- The frame of a `DECODE` that succeeds (R39, R95). -/
theorem exec_decode_frame {s t : State} (hf : s.fault = false) (ht : t.fault = false) (hwf : s.bm.wf) (h : exec .decode s = .next t) :
    ∃ bs : List Byte, bs.length = nbytes s.bitlen.toNat ∧ bs.length ≤ s.bmSize.toNat ∧ s.clen.toNat ≤ s.cmSize.toNat ∧
      s.bm.Stored t.bm 0 bs ∧
      t = { s with command := none, done := true, result := 0#8, bm := t.bm, bcur := BitVec.ofNat 32 bs.length,
                   ctail := s.clen, matchBit := runAfter false bs } := by
  obtain ⟨hb, hc, w, hw, rfl⟩ := exec_decode_ok hf ht h
  obtain ⟨w0, hbm0, hb0, hk, ⟨bs, hlen, hbm, hm⟩, htail, hm0⟩ := decodeStream_keeps _ _ _ _ hw (nbytes_le s hb)
  have hcur := hk.bcur
  rw [hb0, Nat.zero_add, ← hlen] at hcur
  rw [hbm0, hb0] at hbm
  rw [hm0] at hm
  refine ⟨bs, hlen, hlen ▸ nbytes_le s hb, hc, ?_, ?_⟩
  · rw [complete_bm, State.commitDec_bm, hbm]; exact stored_writeBytes _ _ _ hwf
  · simp only [complete, State.completed, State.commitDec, hcur, htail, hm, State.decEnv_clen, BitVec.ofNat_toNat, BitVec.setWidth_eq]

end Sys2Proof.Machine
end

section
/-! SUPPORT. The end of a command and of a run of up to three events (R21, R123, R129), and the bits of `STATUS` (R20). -/

namespace Sys2Proof.Machine

/-! ### The end of a command (R21) -/

/-- The block's turn on any word but `SRST` ends the command (R21, R49). -/
theorem blockTurn_endsIn {s : State} {w : Word} (hw : s.command = some w) (hf : s.fault = false) (hne : decode w ≠ some .srst) :
    ∃ t, blockTurn s = .next t ∧ s.EndsIn t := by
  rw [blockTurn_busy hw]
  cases hd : decode w with
  | none => exact ⟨_, (runWord_illegal s hd).trans (unlessFaulted_ok s _ hf), faultEntry_endsIn _ s⟩
  | some i =>
    obtain ⟨t, ht⟩ := exec_next i s
    exact ⟨t, (runWord_command s hd).trans ht, exec_endsIn (fun h => hne (hd.trans (congrArg some h))) hf ht⟩

/-- After the block's turn the command, `SRST` or not, is over and has succeeded exactly when it did not fault (R129). -/
theorem blockTurn_over {s : State} {w : Word} (hw : s.command = some w) (hf : s.fault = false) :
    ∃ t, blockTurn s = .next t ∧ t.commandEnd w = .over (!t.fault) := by
  by_cases hd : decode w = some .srst
  · refine ⟨_, (blockTurn_command hw hd).trans (exec_srst s), ?_⟩
    simp [State.commandEnd, State.succeeded, State.busy, State.statusWord, hd]
  · obtain ⟨t, ht, he⟩ := blockTurn_endsIn hw hf hd
    obtain ⟨hc, hdone⟩ := he.flags hf
    exact ⟨t, ht, by simp [State.commandEnd, State.succeeded, State.busy, hd, hc, hdone]⟩

/-! ### The end of a run (R129) -/

theorem runFrom_cons {e : Event} {s t : State} {last : LastCommand} (es : List Event) (h : event e s = .next t) :
    runFrom (e :: es) { state := s, last := last } = runFrom es { state := t, last := lastAfter s t e last } := by
  simp only [runFrom, h]

theorem endsWell_of_runFrom {s : State} {es : List Event} {r : Run} (h : runFrom es s.begun = some r) :
    s.endsWell es = (r.last == .over true && !r.state.fault) := by
  simp only [State.endsWell, h]

/-- A run that starts with an accepted write of `CMD` goes on with the command in execution (R21). -/
theorem runFrom_writeCmd {s : State} (w : Word) (es : List Event) (hs : s.command = none) (hf : s.fault = false) :
    runFrom (.host (.writeReg .word 0x00#8 w) :: es) s.begun = runFrom es { state := s.accept w, last := .running w } := by
  have he : event (.host (.writeReg .word 0x00#8 w)) s = .next (s.accept w) := (hostMove_writeCmd hs).trans (issue_ok w hf)
  have hst : s.started (.host (.writeReg .word 0x00#8 w)) = some w := by
    simp [State.started, busy_of_idle hs, hf, regReached, regAt]
  rw [State.begun, runFrom_cons es he]
  simp [lastAfter, hst, State.commandEnd, State.busy]

/-- The block's turn ends the last command of the run. -/
theorem runFrom_block {s t : State} {w : Word} {b : Bool} (es : List Event) (ht : blockTurn s = .next t)
    (he : t.commandEnd w = .over b) :
    runFrom (.block :: es) { state := s, last := .running w } = runFrom es { state := t, last := .over b } := by
  have hev : event .block s = .next t := ht
  rw [runFrom_cons es hev]
  simp [lastAfter, State.started, he]

/-- A hardware reset abandons the command in execution (R123; log 17). -/
theorem runFrom_reset_running (s : State) (w : Word) (es : List Event) :
    runFrom (.host .reset :: es) { state := s, last := .running w } = runFrom es { state := hardwareReset s, last := .over false } := by
  rw [runFrom_cons es (t := hardwareReset s) rfl]
  simp [lastAfter, State.started]

/-- A hardware reset leaves what a command that is over has come to. -/
theorem runFrom_reset_over (s : State) (b : Bool) (es : List Event) :
    runFrom (.host .reset :: es) { state := s, last := .over b } = runFrom es { state := hardwareReset s, last := .over b } := by
  rw [runFrom_cons es (t := hardwareReset s) rfl]
  simp [lastAfter, State.started]

section
variable {s : State} (hs : s.command = none)
include hs

theorem endsWell_nil : s.endsWell [] = false := by
  simp [State.endsWell, runFrom, State.begun, hs]

variable (w : Word) (hf : s.fault = false)
include hf

theorem endsWell_running : s.endsWell [.host (.writeReg .word 0x00#8 w)] = false := by
  rw [endsWell_of_runFrom (runFrom_writeCmd w [] hs hf)]; rfl

theorem endsWell_abandoned : s.endsWell [.host (.writeReg .word 0x00#8 w), .host .reset] = false := by
  rw [endsWell_of_runFrom ((runFrom_writeCmd w _ hs hf).trans (runFrom_reset_running _ w []))]; rfl

theorem endsWell_over {t : State} {b : Bool} (ht : blockTurn (s.accept w) = .next t) (he : t.commandEnd w = .over b) :
    s.endsWell [.host (.writeReg .word 0x00#8 w), .block] = (b && !t.fault) ∧
    s.endsWell [.host (.writeReg .word 0x00#8 w), .block, .host .reset] = b := by
  constructor
  · rw [endsWell_of_runFrom ((runFrom_writeCmd w _ hs hf).trans (runFrom_block [] ht he))]
    cases b <;> rfl
  · rw [endsWell_of_runFrom ((runFrom_writeCmd w _ hs hf).trans ((runFrom_block _ ht he).trans (runFrom_reset_over t b [])))]
    cases b <;> rfl

end

/-! ### The bits of `STATUS` (R20) -/

/-- A flag that stands at bit `j`. -/
theorem flag_getLsbD (b : Bool) {j : Nat} (hj : j < 32) (k : Nat) :
    (if b then BitVec.twoPow 32 j else 0#32).getLsbD k = (decide (j = k) && b) := by
  cases b <;> simp [BitVec.getLsbD_twoPow, hj]

theorem statusWord_getLsbD (s : State) (k : Nat) :
    s.statusWord.getLsbD k = (decide (0 = k) && s.busy || decide (1 = k) && s.done || decide (2 = k) && s.fault) := by
  have h : s.statusWord = (if s.busy then BitVec.twoPow 32 0 else 0#32) ||| (if s.done then BitVec.twoPow 32 1 else 0#32) |||
      (if s.fault then BitVec.twoPow 32 2 else 0#32) := rfl
  rw [h, BitVec.getLsbD_or, BitVec.getLsbD_or, flag_getLsbD _ (by omega), flag_getLsbD _ (by omega), flag_getLsbD _ (by omega)]

/-- Bits 31:8 of a byte-wide register read 0 (R22, R24). -/
theorem setWidth_byte_getLsbD (v : Byte) {k : Nat} (hk : 8 ≤ k) : (v.setWidth 32).getLsbD k = false := by
  rw [BitVec.getLsbD_setWidth, BitVec.getLsbD_of_ge v k hk, Bool.and_false]

theorem causeCode_toNat_le (c : Cause) : (causeCode c).toNat ≤ 11 := by cases c <;> decide

/-! ### What a reset leaves (R32) -/

theorem readReg_resetRegs (r : Reg) (s : State) : readReg r (resetRegs s) = resetColumn s r := by
  cases r with
  | status => simp [readReg, resetColumn, State.statusWord, State.busy]
  | wcsz => simp [readReg, resetColumn, nbytes, wcsize]
  | _ => rfl

theorem readReg_hardwareReset (r : Reg) (s : State) : readReg r (hardwareReset s) = resetColumn s r := by
  rw [← readReg_resetRegs]; cases r <;> rfl

theorem readReg_reset (r : Reg) : readReg r State.reset = resetColumn State.reset r := by cases r <;> rfl

theorem readReg_matchByte (s : State) : readReg .matchByte s = if s.matchBit then 0xFF#32 else 0x00#32 := by
  cases h : s.matchBit <;> simp [readReg, matchByte, h]

/-- A byte inside a memory built from `f`. -/
theorem read_ofBytes_inside (f : Nat → Byte) {size a : Nat} (h : a < size) : (Memory.ofBytes f 0 size).read a = f a := by
  rw [Memory.read_ofBytes, if_pos (by omega)]

/-- The worst-case size never wraps (R26): `BITLEN` is below 2^32. -/
theorem readReg_wcsz_toNat (s : State) : (readReg .wcsz s).toNat = wcsize (nbytes s.bitlen.toNat) := by
  have hlt := s.bitlen.isLt
  refine (BitVec.toNat_ofNat _ 32).trans (Nat.mod_eq_of_lt ?_)
  unfold wcsize nbytes
  omega

end Sys2Proof.Machine
end

section
/-! The obligations of 10_state.md: the registers, the parameters, the fault state, and what each command has changed. -/

open Sys2Proof Sys2Proof.Machine

/-- Settles O18: no operation writes a parameter; the two offsets reach registers that a write leaves. -/
theorem parametersNeverChange : Obligations.ParametersNeverChange := by
  unfold Obligations.ParametersNeverChange
  exact ⟨fun s t h => step_sameParams h, fun s => ⟨rfl, rfl⟩, fun s w hs =>
    ⟨hostMove_writeReadOnly (r := .bmsize) hs w (by decide), hostMove_writeReadOnly (r := .cmsize) hs w (by decide),
      hostMove_readReg hs .bmsize, hostMove_readReg hs .cmsize⟩⟩

/-- Settles O20: an idle block's turn changes nothing, and `hostMove_faulted` says what a host move does. -/
theorem faultIsSticky : Obligations.FaultIsSticky := by
  unfold Obligations.FaultIsSticky
  intro s t hs hf h
  cases ha : s.agenda with
  | nil =>
    rw [step_of_agenda_nil ha, blockTurn_idle hs] at h
    cases h
    exact .inr (.inr rfl)
  | cons e rest =>
    rw [step_of_agenda_cons ha] at h
    cases e with
    | block =>
      cases (blockTurn_idle (s := { s with agenda := rest }) hs).symm.trans h
      exact .inr (.inr rfl)
    | host m =>
      obtain rfl | rfl | hr := hostMove_faulted (s := { s with agenda := rest }) hs hf h
      · exact .inl ⟨rest, rfl⟩
      · exact .inr (.inl ⟨rest, rfl⟩)
      · right; right
        unfold State.SameRegs at hr
        rw [hr]

/-- Settles O33: the presence vector of the last chunk, bit by bit; every other command writes 0 or nothing. -/
theorem l1maskIsLastChunk : Obligations.L1maskIsLastChunk := by
  unfold Obligations.L1maskIsLastChunk
  refine ⟨fun n s t h1 hf ht h i hi => ?_, fun s t hf h => ?_, fun n nib mask s t h => ?_⟩
  · have hlen : (s.input n).length = n := Memory.readBytes_length _ _ _
    have hne : s.input n ≠ [] := List.ne_nil_of_length_pos (by omega)
    rw [encodeUnit_l1mask hf ht h1 h, lastVector_getLsbD _ _ hne hi, hlen]
  · rcases h with h | h
    · rw [exec_init s hf] at h; cases h; rfl
    · rw [exec_enc1 0 s hf] at h; cases h; rfl
  · rcases h with h | h | h | h | h | h | h | h
    · exact unlessFaulted_l1mask h rfl
    · exact unlessFaulted_l1mask h (normCommand_l1mask s)
    · exact unlessFaulted_l1mask h (enc2Command_zero_l1mask s)
    · exact unlessFaulted_l1mask h (enc3Command_zero_l1mask s)
    · exact unlessFaulted_l1mask h (decUnit_l1mask _ _ _ s)
    · exact unlessFaulted_l1mask h (decUnit_l1mask _ _ _ s)
    · exact unlessFaulted_l1mask h (decUnit_l1mask _ _ _ s)
    · exact unlessFaulted_l1mask h (decodeCommand_l1mask s)

/-- Settles O38: a unit that succeeds has emitted its code (`enc1_emits` and its kin), whatever room it had. -/
theorem encodeUnitFrame : Obligations.EncodeUnitFrame := by
  unfold Obligations.EncodeUnitFrame
  exact fun n s t h1 hf ht hwf =>
    ⟨exec_enc1_encodedIn hf ht h1 hwf, exec_enc2_encodedIn hf ht h1 hwf, exec_enc3_encodedIn hf ht h1 hwf⟩

/-- Settles O48: what a decode unit that succeeds keeps and has written, put together at its commit. -/
theorem decodeUnitFrame : Obligations.DecodeUnitFrame := by
  unfold Obligations.DecodeUnitFrame
  refine ⟨fun n nib mask s t hf ht hwf h => ?_, fun s t hf ht hwf h => exec_decode_frame hf ht hwf h⟩
  exact Succeeds.decodedIn (nib := nib) (mask := mask) hwf (h.imp (⟨·, ht⟩) (Or.imp (⟨·, ht⟩) (⟨·, ht⟩)))

/-- Settles O1: register by register; the memories after a hardware reset are built from the free values. -/
theorem resetRegisterValues : Obligations.ResetRegisterValues := by
  unfold Obligations.ResetRegisterValues
  exact fun s => ⟨hardwareReset s, resetRegs s, rfl, exec_srst s, fun r => ⟨readReg_hardwareReset r s, readReg_resetRegs r s⟩,
    rfl, rfl, rfl, rfl, rfl, rfl, fun a ha => read_ofBytes_inside _ ha, fun a ha => read_ofBytes_inside _ ha⟩

/-- Settles O2: the state after reset has the test configuration's sizes, empty memories and no flag set. -/
theorem resetSatisfiesInvariant : Obligations.ResetSatisfiesInvariant := by
  unfold Obligations.ResetSatisfiesInvariant
  refine ⟨⟨by decide, ?_, by decide, by decide⟩, rfl, rfl, readReg_reset⟩
  have hwf : Memory.wf [] := ⟨.nil, by simp⟩
  have hin (size : Nat) : Memory.within [] size := by simp
  exact ⟨hwf, hin _, hwf, hin _⟩

/-- Settles O8: a write of `CMD` by `FAULT` and the word, then the run event by event. -/
theorem commandRegister : Obligations.CommandRegister := by
  unfold Obligations.CommandRegister
  refine ⟨fun s w hs hf => (hostMove_writeCmd hs).trans (issue_ok w hf),
    fun s w hs hf hw => (hostMove_writeCmd hs).trans (issue_ignored hf hw),
    fun s hs hf => (hostMove_writeCmd hs).trans (issue_srst hf), fun s => rfl, fun s w hw hf hne => ?_,
    fun s hs => endsWell_nil hs, fun s w hs hf => ⟨endsWell_running hs w hf, endsWell_abandoned hs w hf, ?_⟩⟩
  · obtain ⟨t, ht, he⟩ := blockTurn_endsIn hw hf (mt (decode_eq_srst w).mp hne)
    exact ⟨t, ht, he.flags hf⟩
  · obtain ⟨t, ht, he⟩ := blockTurn_over (s := s.accept w) (w := w) rfl hf
    obtain ⟨h1, h2⟩ := endsWell_over hs w hf ht he
    exact ⟨t, ht, h1.trans (Bool.and_self _), h2⟩

/-- Settles O11: by the register an access reaches. -/
theorem registerWindow : Obligations.RegisterWindow := by
  unfold Obligations.RegisterWindow
  refine ⟨fun s r hs => hostMove_readReg hs r, fun s width off w hs h => ?_, fun s w hs hf => ?_,
    fun s r w hs hc h => h.elim (fun hf => ?_) (hostMove_writeReadOnly hs w)⟩
  · have hr := regReached_eq_none h
    exact ⟨hostWriteReg_none hs hr, congrArg Host.Outcome.next (hostReadReg_none hs hr)⟩
  · exact ⟨(hostMove_writeReg hs .bitlen (by decide)).trans (congrArg _ (writeData_bitlen w hf)),
      (hostMove_writeReg hs .clen (by decide)).trans (congrArg _ (writeData_clen w hf)),
      (hostMove_writeReg hs .bcur (by decide)).trans (congrArg _ (writeData_bcur w hf)),
      (hostMove_writeReg hs .ctail (by decide)).trans (congrArg _ (writeData_ctail w hf)),
      hostMove_writeMatch hs w hf⟩
  · rw [hostMove_writeReg hs r hc, writeData_faulted r w hf]

/-- Settles O12: `MATCH` has one bit of storage. -/
theorem matchRegister : Obligations.MatchRegister := by
  unfold Obligations.MatchRegister
  exact ⟨readReg_matchByte, fun s v hs hf => ⟨_, hostMove_writeMatch hs v hf, readReg_matchByte _⟩⟩

/-- Settles O13: the three flags by position, and the widths of the two code registers. -/
theorem statusRegister : Obligations.StatusRegister := by
  unfold Obligations.StatusRegister
  refine fun s => ⟨?_, ?_, ?_, fun k hk => ?_, fun k hk => ⟨setWidth_byte_getLsbD _ hk, setWidth_byte_getLsbD _ hk⟩, ?_⟩
  · exact (statusWord_getLsbD s 0).trans (by simp [State.busy])
  · exact (statusWord_getLsbD s 1).trans (by simp)
  · exact (statusWord_getLsbD s 2).trans (by simp)
  · refine (statusWord_getLsbD s k).trans ?_
    simp [show ¬ 0 = k by omega, show ¬ 1 = k by omega, show ¬ 2 = k by omega]
  · refine Nat.le_trans (Nat.le_of_eq ?_) (causeCode_toNat_le s.cause)
    exact BitVec.toNat_setWidth_of_le (by omega)

/-- Settles O14: the formula does not wrap, and `BITLEN` is 0 after a hardware reset. -/
theorem worstCaseRegister : Obligations.WorstCaseRegister := by
  unfold Obligations.WorstCaseRegister
  refine ⟨readReg_wcsz_toNat, fun s w hs =>
    ⟨hostMove_readReg hs .wcsz, hostMove_writeReadOnly (r := .wcsz) hs w (by decide)⟩, fun s t h => ?_⟩
  cases h; exact readReg_hardwareReset .wcsz s

end

section
/-! SUPPORT. The host's accesses to the memory windows: what one does inside its memory and beyond it (R34, R36, R119), what a read
leaves (R38), and that nothing else stops a step (R118). -/

namespace Sys2Proof.Machine

/-! ### One byte of a memory (R34, R36) -/

section
variable {s : State} {a : Nat} (hs : s.command = none)
include hs

theorem hostMove_readBM (h : a < s.bmSize.toNat) : hostMove (.readBM a) s = .next (s.returned ((s.bm.read a).setWidth 32)) := by
  simp [hostMove, busy_of_idle hs, h]

theorem hostMove_readCM (h : a < s.cmSize.toNat) : hostMove (.readCM a) s = .next (s.returned ((s.cm.read a).setWidth 32)) := by
  simp [hostMove, busy_of_idle hs, h]

theorem hostMove_writeBM (v : Byte) (h : a < s.bmSize.toNat) :
    hostMove (.writeBM a v) s = .next { s with bm := s.bm.write a v } := by
  simp [hostMove, busy_of_idle hs, h]

theorem hostMove_writeCM (v : Byte) (h : a < s.cmSize.toNat) :
    hostMove (.writeCM a v) s = .next { s with cm := s.cm.write a v } := by
  simp [hostMove, busy_of_idle hs, h]

end

/-- The move `m` addresses a byte at or beyond its memory's size (R34, U14). -/
def HostMove.Outside (m : HostMove) (s : State) : Prop :=
  ∃ (a : Nat) (v : Byte), (s.bmSize.toNat ≤ a ∧ (m = .readBM a ∨ m = .writeBM a v)) ∨
    (s.cmSize.toNat ≤ a ∧ (m = .readCM a ∨ m = .writeCM a v))

/-- Such a move stops the model, busy or not (log 9). -/
theorem hostMove_outside {m : HostMove} {s : State} (h : m.Outside s) : hostMove m s = .fault .outsideWindow := by
  obtain ⟨a, v, ⟨ha, rfl | rfl⟩ | ⟨ha, rfl | rfl⟩⟩ := h <;> exact if_pos ha

/-! ### A read (R38) -/

/-- `t` differs from `s` in what the host reads, at most. -/
def State.SameButRead (s t : State) : Prop := t = { s with hostData := t.hostData, fresh := t.fresh }

theorem State.returned_sameButRead (s : State) (v : Word) : s.SameButRead (s.returned v) := rfl

theorem State.returnedFree_sameButRead (s : State) : s.SameButRead s.returnedFree := rfl

theorem hostReadReg_sameButRead (width : Width) (off : BitVec 8) (s : State) : s.SameButRead (hostReadReg width off s) := by
  unfold hostReadReg
  split
  · split
    · exact s.returned_sameButRead _
    · exact s.returnedFree_sameButRead
  · split <;> exact s.returned_sameButRead _

/-- A read of a memory byte, a free one while the block is busy (R126). -/
theorem memoryRead_sameButRead {size a : Nat} {b : Byte} {s t : State}
    (h : (if size ≤ a then .fault .outsideWindow else .next (if s.busy then s.returnedFree else s.returned (b.setWidth 32)) :
      Host.Outcome State Fault Refusal) = .next t) : s.SameButRead t := by
  obtain rfl := inside_next h
  split
  · exact s.returnedFree_sameButRead
  · exact s.returned_sameButRead _

/-! ### What has a next state -/

theorem blockTurn_next (s : State) : ∃ t, blockTurn s = .next t := by
  cases hc : s.command with
  | none => exact ⟨s, blockTurn_idle hc⟩
  | some w =>
    rw [blockTurn_busy hc]
    cases hw : decode w with
    | none => exact ⟨_, runWord_illegal s hw⟩
    | some i => rw [runWord_command s hw]; exact exec_next i s

theorem issue_next (w : Word) (s : State) : ∃ t, issue w s = .next t := by
  unfold issue
  split
  · split
    · exact exec_next .srst s
    · exact ⟨_, rfl⟩
  · exact ⟨_, rfl⟩

theorem hostWriteReg_next (width : Width) (off : BitVec 8) (w : Word) (s : State) : ∃ t, hostWriteReg width off w s = .next t := by
  unfold hostWriteReg
  split
  · exact ⟨_, rfl⟩
  · split
    · exact ⟨_, rfl⟩
    · exact issue_next w s
    · exact ⟨_, rfl⟩

/-- An access to a memory window has a next state inside the memory (R34). -/
theorem inside_or_beyond (size a : Nat) (u : State) :
    (∃ t, (if size ≤ a then .fault .outsideWindow else .next u : Host.Outcome State Fault Refusal) = .next t) ∨ size ≤ a :=
  (Nat.lt_or_ge a size).imp_left fun h => ⟨u, if_neg (Nat.not_le_of_lt h)⟩

/-- A host move has a next state, or it lies outside its window. -/
theorem hostMove_next_or_outside (m : HostMove) (s : State) : (∃ t, hostMove m s = .next t) ∨ m.Outside s := by
  cases m with
  | readBM a => exact (inside_or_beyond s.bmSize.toNat a _).imp_right fun h => ⟨a, 0#8, .inl ⟨h, .inl rfl⟩⟩
  | writeBM a v => exact (inside_or_beyond s.bmSize.toNat a _).imp_right fun h => ⟨a, v, .inl ⟨h, .inr rfl⟩⟩
  | readCM a => exact (inside_or_beyond s.cmSize.toNat a _).imp_right fun h => ⟨a, 0#8, .inr ⟨h, .inl rfl⟩⟩
  | writeCM a v => exact (inside_or_beyond s.cmSize.toNat a _).imp_right fun h => ⟨a, v, .inr ⟨h, .inr rfl⟩⟩
  | writeReg width off w => exact .inl (hostWriteReg_next width off w s)
  | readReg width off => exact .inl ⟨_, rfl⟩
  | reset => exact .inl ⟨_, rfl⟩

/-- A step has a next state, or the host's move at the head of the agenda lies outside its window. -/
theorem step_next_or_outside (s : State) :
    (∃ t, step s = .next t) ∨ ∃ m rest, s.agenda = .host m :: rest ∧ m.Outside { s with agenda := rest } := by
  cases ha : s.agenda with
  | nil => rw [step_of_agenda_nil ha]; exact .inl (blockTurn_next s)
  | cons e rest =>
    rw [step_of_agenda_cons ha]
    cases e with
    | block => exact .inl (blockTurn_next _)
    | host m => exact (hostMove_next_or_outside m _).imp_right fun h => ⟨m, rest, rfl, h⟩

end Sys2Proof.Machine
end

section
/-! SUPPORT. A chunk that runs past the bitmap memory or overflows the code memory, and the unit commands it stands in (R40, R108,
R109). -/

namespace Sys2Proof.Machine

/-! ### One chunk -/

theorem enc1_beyond (env : EncEnv) {n : Nat} {w : EncWork} (h1 : 1 ≤ n) (hb : w.bcur + n > env.bmSize) :
    enc1 env n w = .error ⟨.bmRange, w.bcur⟩ := by
  unfold enc1
  rw [if_neg (by omega), if_pos hb]

theorem enc1_overflows (env : EncEnv) {n : Nat} {w : EncWork} (h1 : 1 ≤ n) (hb : w.bcur + n ≤ env.bmSize)
    (hr : w.ctail + (chunkCode w.matchBit (env.bm.readBytes w.bcur n)).stage.length > env.cmSize) :
    enc1 env n w = .error ⟨.outOverflow, w.bcur⟩ :=
  (enc1_eq env n w h1 hb).trans (if_pos hr)

theorem dec1_beyond (env : DecEnv) {n : Nat} {nib : Nibble} {w : DecWork} (h1 : 1 ≤ n) (hn : nibBeyond nib n = false)
    (hb : w.bcur + n > env.bmSize) : dec1 env n nib w = .error ⟨.bmRange, w.bcur⟩ := by
  unfold dec1
  rw [if_neg (by simp [hn]), if_neg (by omega), if_pos hb]

/-! ### The commands it stands in -/

/-- A chunk to encode that raises, wherever in an encode command it stands. -/
theorem Reaches.encChunk_raises {i : Instr} {s u : State} {n : Nat} {c : Cause} (h : Reaches i s (.enc1 n) u) (hf : s.fault = false)
    (h1 : 1 ≤ n) (hn : n ≤ 32) (he : enc1 u.encEnv n u.encWork = .error ⟨c, u.bcur.toNat⟩) :
    exec i s = .next (s.faultedWith c u.bcur) := by
  obtain ⟨hu, hl⟩ := h.raises hf
  exact hl _ _ (fault_of_raise (enc1_raise hu h1 hn he) rfl (by simp))

/-- `ENC2` and `ENC3` raise what their first chunk raises, if it does so however many bytes are reserved before it; the reserves are
one byte and two (R74). -/
theorem encUnits_raise_first {s : State} {n : Nat} {c : Cause} (hf : s.fault = false) (h1 : 1 ≤ n)
    (he : ∀ k, 1 ≤ k → enc1 s.encEnv (min 32 n) { s.encWork with ctail := s.encWork.ctail + k } = .error ⟨c, s.bcur.toNat⟩) :
    (n ≤ 512 → exec (.enc2 n) s = .next (s.faultedWith c s.bcur)) ∧
    (n ≤ 4096 → exec (.enc3 n) s = .next (s.faultedWith c s.bcur)) :=
  ⟨fun hn => fault_of_raise (enc2_raise hf hn (enc2_first _ _ _ _ h1 (he 1 (by omega)))) rfl (by simp),
    fun hn => fault_of_raise (enc3_raise hf hn (enc3_first _ _ _ _ h1 (he 2 (by omega)))) rfl (by simp)⟩

/-! ### Where a `BM_RANGE` comes from (R109) -/

/-- Some of the `n` bytes from `BCUR` on lie past `BM_SIZE`. -/
def State.PastBitmap (s : State) (n : Nat) : Prop := 1 ≤ n ∧ s.bcur.toNat + n > s.bmSize.toNat

theorem enc2_raises_pos {env : EncEnv} {n : Nat} {w : EncWork} {r : Raise} (h : enc2 env n w = .error r) : 1 ≤ n := by
  refine Nat.pos_of_ne_zero fun h0 => ?_
  rw [h0, enc2_zero] at h
  cases h

theorem enc3_raises_pos {env : EncEnv} {n : Nat} {w : EncWork} {r : Raise} (h : enc3 env n w = .error r) : 1 ≤ n := by
  refine Nat.pos_of_ne_zero fun h0 => ?_
  rw [h0, enc3_zero] at h
  cases h

/-- A block over no bytes can only find its mask out of range (R114). -/
theorem dec2_bmRange_pos {env : DecEnv} {n : Nat} {mask : Byte} {w : DecWork} {r : Raise} (h : dec2 env n mask w = .error r)
    (hc : r.cause = .bmRange) : 1 ≤ n := by
  refine Nat.pos_of_ne_zero fun h0 => ?_
  subst h0
  unfold dec2 at h
  split at h
  · cases h; cases hc
  · cases h

theorem dec3_bmRange_pos {env : DecEnv} {n : Nat} {mask : Byte} {w : DecWork} {r : Raise} (h : dec3 env n mask w = .error r)
    (hc : r.cause = .bmRange) : 1 ≤ n := by
  refine Nat.pos_of_ne_zero fun h0 => ?_
  subst h0
  unfold dec3 at h
  split at h
  · cases h; cases hc
  · cases h

/-- A fault entry records the cause raised. -/
theorem cause_of_faultEntry {r : Raise} {s u : State} {c : Cause} {a : Word} (h : faultEntry r s = u.faultedWith c a) : r.cause = c :=
  congrArg State.cause h

section
variable {s : State} {n : Nat} {a : Word} (hf : s.fault = false)
include hf

theorem enc1_pastBitmap (h : exec (.enc1 n) s = .next (s.faultedWith .bmRange a)) : s.PastBitmap n := by
  rw [exec_enc1 n s hf] at h
  have h := Host.Outcome.next.inj h
  rcases enc1Command_cases n s with ⟨_, he⟩ | ⟨_, he⟩ | ⟨h1, _, ⟨r, hr, he⟩ | ⟨v, w, _, he⟩⟩
  · cases (faultedWith_inj (he.symm.trans h)).1
  · exact (complete_ne_faulted (by exact hf) (he.symm.trans h)).elim
  · exact enc1_bmRange _ _ _ _ hr (cause_of_faultEntry (he.symm.trans h))
  · exact (complete_ne_faulted (by exact hf) (he.symm.trans h)).elim

theorem enc2_pastBitmap (h : exec (.enc2 n) s = .next (s.faultedWith .bmRange a)) : s.PastBitmap n := by
  rw [exec_enc2 n s hf] at h
  have h := Host.Outcome.next.inj h
  rcases enc2Command_cases n s with ⟨_, he⟩ | ⟨_, ⟨r, hr, he⟩ | ⟨v, w, _, he⟩⟩
  · cases (faultedWith_inj (he.symm.trans h)).1
  · exact ⟨enc2_raises_pos hr, enc2_bmRange _ _ _ _ hr (cause_of_faultEntry (he.symm.trans h))⟩
  · exact (complete_ne_faulted (by exact hf) (he.symm.trans h)).elim

theorem enc3_pastBitmap (h : exec (.enc3 n) s = .next (s.faultedWith .bmRange a)) : s.PastBitmap n := by
  rw [exec_enc3 n s hf] at h
  have h := Host.Outcome.next.inj h
  rcases enc3Command_cases n s with ⟨_, he⟩ | ⟨_, ⟨r, hr, he⟩ | ⟨v, w, _, he⟩⟩
  · cases (faultedWith_inj (he.symm.trans h)).1
  · exact ⟨enc3_raises_pos hr, enc3_bmRange _ _ _ _ hr (cause_of_faultEntry (he.symm.trans h))⟩
  · exact (complete_ne_faulted (by exact hf) (he.symm.trans h)).elim

/-- The unit of a decode command is what raises `BM_RANGE`: its two checks name other causes. -/
theorem decUnit_pastBitmap {size : Nat} {unit : DecEnv → DecWork → Except Raise DecWork}
    (hu : ∀ r, unit s.decEnv s.decWork = .error r → r.cause = .bmRange → s.PastBitmap n)
    (h : decUnit size n unit s = s.faultedWith .bmRange a) : s.PastBitmap n := by
  rcases decUnit_cases size n unit s with ⟨_, he⟩ | ⟨_, _, he⟩ | ⟨_, _, ⟨r, hr, he⟩ | ⟨w, _, he⟩⟩
  · cases (faultedWith_inj (he.symm.trans h)).1
  · cases (faultedWith_inj (he.symm.trans h)).1
  · exact hu r hr (cause_of_faultEntry (he.symm.trans h))
  · exact (complete_ne_faulted (by exact hf) (he.symm.trans h)).elim

theorem dec1_pastBitmap {nib : Nibble} (h : exec (.dec1 n nib) s = .next (s.faultedWith .bmRange a)) : s.PastBitmap n := by
  rw [exec_dec1 n nib s hf] at h
  exact decUnit_pastBitmap hf (fun r hr hc => dec1_bmRange s.decEnv n nib s.decWork r hr hc) (Host.Outcome.next.inj h)

theorem dec2_pastBitmap {mask : Byte} (h : exec (.dec2 n mask) s = .next (s.faultedWith .bmRange a)) : s.PastBitmap n := by
  rw [exec_dec2 n mask s hf] at h
  exact decUnit_pastBitmap hf (fun r hr hc => ⟨dec2_bmRange_pos hr hc, dec2_bmRange _ _ _ _ r hr hc⟩) (Host.Outcome.next.inj h)

theorem dec3_pastBitmap {mask : Byte} (h : exec (.dec3 n mask) s = .next (s.faultedWith .bmRange a)) : s.PastBitmap n := by
  rw [exec_dec3 n mask s hf] at h
  exact decUnit_pastBitmap hf (fun r hr hc => ⟨dec3_bmRange_pos hr hc, dec3_bmRange _ _ _ _ r hr hc⟩) (Host.Outcome.next.inj h)

end

end Sys2Proof.Machine
end

section
/-! The obligations of 20_memory.md: the memory windows, reads, and the two range faults. -/

open Sys2Proof Sys2Proof.Machine

/-- Settles O19: every turn of the block and every host move inside its window has a next state. -/
theorem stepStopsOnlyOutsideWindows : Obligations.StepStopsOnlyOutsideWindows := by
  unfold Obligations.StepStopsOnlyOutsideWindows
  refine fun s => (step_next_or_outside s).imp_right fun ⟨m, rest, ha, hm⟩ =>
    ⟨(step_of_agenda_cons ha).trans (hostMove_outside hm), ?_⟩
  obtain ⟨a, v, h⟩ := hm
  refine ⟨a, v, rest, h.imp (And.imp_right (Or.imp ?_ ?_)) (And.imp_right (Or.imp ?_ ?_))⟩ <;> (rintro rfl; exact ha)

/-- Settles O55: a chunk past the memory raises at its start, so does the command; the other way by the unit that raised. -/
theorem bmRangeFaults : Obligations.BmRangeFaults := by
  unfold Obligations.BmRangeFaults
  refine ⟨fun i s u n hf h h1 hn hb => h.encChunk_raises hf h1 hn (enc1_beyond _ h1 hb),
    fun i s u n nib hf h h1 hn hc hnib hb => h.chunk_raises hf hn hc (dec1_beyond _ h1 hnib hb),
    fun s n hf h1 hb => encUnits_raise_first hf h1 fun k _ => enc1_beyond _ (by omega) hb,
    fun s n nib mask a hf hn i hi h => ?_⟩
  have hin : ¬ s.PastBitmap n := by unfold State.PastBitmap; omega
  simp only [List.mem_cons, List.not_mem_nil, or_false] at hi
  obtain rfl | rfl | rfl | rfl | rfl | rfl := hi
  · exact hin (enc1_pastBitmap hf h)
  · exact hin (enc2_pastBitmap hf h)
  · exact hin (enc3_pastBitmap hf h)
  · exact hin (dec1_pastBitmap hf h)
  · exact hin (dec2_pastBitmap hf h)
  · exact hin (dec3_pastBitmap hf h)

/-- Settles O56: an overflowing chunk raises at its start; with `CTAIL` at `CM_SIZE` one reserved byte is already too many. -/
theorem outOverflowFaults : Obligations.OutOverflowFaults := by
  unfold Obligations.OutOverflowFaults
  refine ⟨fun i s u n hf h h1 hn hb hr => h.encChunk_raises hf h1 hn (enc1_overflows _ h1 hb hr), fun s n hf h1 hb hc =>
    encUnits_raise_first hf h1 fun k hk => enc1_overflows _ (by omega) hb ?_⟩
  have hk : s.cmSize.toNat < s.ctail.toNat + k := by omega
  exact Nat.lt_of_lt_of_le hk (Nat.le_add_right _ _)

/-- Settles O15: inside the size one byte is stored or read, beyond it the model stops. -/
theorem memoryWindows : Obligations.MemoryWindows := by
  unfold Obligations.MemoryWindows
  exact fun s a v hs hbm hcm =>
    ⟨fun h => ⟨hostMove_readBM hs h, _, stored_write _ a v hbm, hostMove_writeBM hs v h⟩,
      fun h => ⟨hostMove_readCM hs h, _, stored_write _ a v hcm, hostMove_writeCM hs v h⟩,
      fun h => ⟨hostMove_outside ⟨a, v, .inl ⟨h, .inl rfl⟩⟩, hostMove_outside ⟨a, v, .inl ⟨h, .inr rfl⟩⟩⟩,
      fun h => ⟨hostMove_outside ⟨a, v, .inr ⟨h, .inl rfl⟩⟩, hostMove_outside ⟨a, v, .inr ⟨h, .inr rfl⟩⟩⟩⟩

/-- Settles O16: a read leaves `SameButRead`; an idle block's turn leaves the state. -/
theorem readsAndIdleChangeNothing : Obligations.ReadsAndIdleChangeNothing := by
  unfold Obligations.ReadsAndIdleChangeNothing
  refine ⟨fun s t width off h => ?_, fun s t a h => ?_, fun s => blockTurn_idle⟩
  · cases h; exact hostReadReg_sameButRead width off s
  · exact h.elim memoryRead_sameButRead memoryRead_sameButRead

end

section
/-! SUPPORT. The other way round: the word of a command decodes to that command exactly when its length fits the field; the rows of the
opcode map that select a word (R45 to R49). -/

namespace Sys2Proof

/-! ### The operand forms on the word of a command (R46, R47) -/

section
variable (opc : BitVec 8) (len : Nat)

@[simp] theorem decodeBare_commandWord (i : Instr) : decodeBare (commandWord opc 0#8 0) i = some i := by
  simp [decodeBare]

@[simp] theorem decodeLen_commandWord (mk : Nat → Instr) : decodeLen (commandWord opc 0#8 len) mk = some (mk (len % 8192)) := by
  simp [decodeLen]

@[simp] theorem decodeLenNib_commandWord (nib : Nibble) (mk : Nat → Nibble → Instr) :
    decodeLenNib (commandWord opc (nib.setWidth 8) len) mk = some (mk (len % 8192) nib) := by
  obtain ⟨hhigh, hlow⟩ := nibble_as_arg nib
  simp [decodeLenNib, hhigh, hlow]

@[simp] theorem decodeLenMask_commandWord (mask : Byte) (mk : Nat → Byte → Instr) :
    decodeLenMask (commandWord opc mask len) mk = some (mk (len % 8192) mask) := by
  simp [decodeLenMask]

end

/-- `OPC` selects the command's own arm of the decoder, and the arm reads every operand back but the part of a length beyond its field
(R45, R48). -/
theorem decode_encode_iff (i : Instr) : decode (encode i) = some i ↔ i.wellFormed = true := by
  cases i with
  | nop => exact iff_of_true (decodeBare_commandWord 0x00#8 .nop) rfl
  | init => exact iff_of_true (decodeBare_commandWord 0x01#8 .init) rfl
  | srst => exact iff_of_true (decodeBare_commandWord 0x02#8 .srst) rfl
  | norm => exact iff_of_true (decodeBare_commandWord 0x08#8 .norm) rfl
  | enc1 len => simp [encode, decode, Instr.wellFormed, lenFits]
  | enc2 len => simp [encode, decode, Instr.wellFormed, lenFits]
  | enc3 len => simp [encode, decode, Instr.wellFormed, lenFits]
  | encode => exact iff_of_true (decodeBare_commandWord 0x13#8 .encode) rfl
  | dec1 len nib => simp [encode, decode, Instr.wellFormed, lenFits]
  | dec2 len mask => simp [encode, decode, Instr.wellFormed, lenFits]
  | dec3 len mask => simp [encode, decode, Instr.wellFormed, lenFits]
  | decode => exact iff_of_true (decodeBare_commandWord 0x23#8 .decode) rfl

theorem wellFormed_of_decode {w : Word} {i : Instr} (h : decode w = some i) : i.wellFormed = true :=
  (decode_encode_iff i).mp ((congrArg decode (encode_of_decode h)).trans h)

/-! ### The rows that select a word (R48, R49) -/

namespace Machine

/-- Two rows that select the same word have its `OPC` in common, and no two rows have one in common. -/
theorem selected_rows_length_le_one (w : Word) : (opcodeRows.filter (selects w)).length ≤ 1 := by
  have hp := rows_pairwise.filter (selects w)
  have hopc (row : Word × Word) (hr : row ∈ opcodeRows.filter (selects w)) : opcField w = opcField row.2 :=
    selects_fields w row (List.mem_filter.mp hr).1 (List.mem_filter.mp hr).2
  generalize opcodeRows.filter (selects w) = rows at hp hopc
  match rows with
  | [] => simp
  | [_] => simp
  | a :: b :: _ =>
    have hne := List.rel_of_pairwise_cons hp (List.mem_cons_self (a := b))
    exact absurd ((hopc a (by simp)).symm.trans (hopc b (by simp))) hne

/-- The row of a command selects the word that decodes to it. -/
theorem exists_row_of_decode {w : Word} {i : Instr} (h : decode w = some i) : ∃ row ∈ opcodeRows, selects w row = true := by
  refine ⟨_, rowOf_mem i, ?_⟩
  rw [selects, beq_iff_eq, ← encode_of_decode h]
  exact selected i

theorem decode_eq_none_iff (w : Word) : decode w = none ↔ ∀ row ∈ opcodeRows, selects w row = false := by
  refine ⟨fun h row hm => Bool.eq_false_iff.mpr fun hs => selects_decodes w row hm hs h, fun h => ?_⟩
  refine Option.eq_none_iff_forall_ne_some.mpr fun i hi => ?_
  obtain ⟨row, hm, hs⟩ := exists_row_of_decode hi
  simp [h row hm] at hs

end Machine
end Sys2Proof
end

section
/-! SUPPORT. The code stream: the masks of a round by the literals of its chunks, the length of the stream of any buffer (R55, R61), and
what `ENCODE` leaves in `CLEN` (R81). -/

namespace Sys2Proof.Machine

/-! ### The pair byte (R55) -/

theorem pairHigh_roundCode_ne_zero (m : Bool) (bs : List Byte) :
    pairHigh (roundCode m bs).mask ≠ 0#4 ↔ literalIn m bs 0 32 = true := by
  simp only [roundCode, pairHigh_pairByte]
  exact (not_congr (chunkCode_nib_eq_zero m _ (by simp))).trans (literalIn_iff m bs 0 32).symm

theorem pairLow_roundCode_ne_zero (m : Bool) {bs : List Byte} (hn : bs.length ≤ 64) :
    pairLow (roundCode m bs).mask ≠ 0#4 ↔ literalIn m bs 32 64 = true := by
  have hl : (bs.drop 32).length ≤ 32 := by simp; omega
  have hlit := literalIn_iff m bs 32 32
  rw [List.take_of_length_le hl] at hlit
  simp only [roundCode, pairLow_pairByte, chunkCode_matchBit]
  exact (not_congr (chunkCode_nib_eq_zero _ _ hl)).trans hlit.symm

/-! ### The length of a stream (R61) -/

/-- Every buffer is what some bitmap memory holds, and there the encoder writes its code within the worst case. -/
theorem bufferCode_length_le (bs : List Byte) : (bufferCode bs).bytes.length ≤ bufferCap bs.length := by
  have hwf : Memory.wf [] := ⟨.nil, by simp⟩
  have h := (encBuffer_encodes { bm := Memory.writeBytes [] 0 bs, bmSize := bs.length, cmSize := wcsize bs.length } bs.length
    { cm := [], bcur := 0, ctail := 0, matchBit := false, l1mask := 0#32 } rfl rfl rfl hwf (Nat.le_refl _) (Nat.le_refl _)).2
  simpa only [Memory.readBytes_writeBytes _ _ _ hwf] using h

theorem bufferStream_length_le (bs : List Byte) : (bufferStream bs).length ≤ bufferCap bs.length := by
  unfold bufferStream
  split_ifs
  · exact Nat.zero_le _
  · exact bufferCode_length_le bs

theorem bufferCap_le (n : Nat) : bufferCap n ≤ n + (n + 15) / 16 + 3 := by unfold bufferCap; omega

theorem lt_wcsize (n : Nat) : n + (n + 15) / 16 + 3 < wcsize n := Nat.lt_succ_self _

/-! ### What `ENCODE` leaves (R81, R83) -/

theorem State.bitmap_length (s : State) : s.bitmap.length = nbytes s.bitlen.toNat := Memory.readBytes_length _ _ _

/-- The region loop of an `ENCODE` whose two checks pass writes the code of the normalised bitmap (R81, R85). -/
theorem encodeRun_emits {s : State} (hcm : s.cm.wf) (hb : s.bitlen.toNat ≤ 8 * s.bmSize.toNat)
    (hw : wcsize (nbytes s.bitlen.toNat) ≤ s.cmSize.toNat) :
    ∃ vec, s.encodeRun = .ok ((bufferCode s.bitmap).mask,
      s.freshEncoder.emit (nbytes s.bitlen.toNat) (bufferCode s.bitmap).bytes (bufferCode s.bitmap).matchBit vec) :=
  (encBuffer_encodes { s.encEnv with bm := normalized s.bm s.bitlen.toNat } _ s.freshEncoder rfl rfl rfl hcm (nbytes_le s hb) hw).1

/-- The collapse leaves the cursor at the length of the stream (R83). -/
theorem collapse_bufferCode_ctail {w : EncWork} {n : Nat} {m : Bool} {vec : Word} (bs : List Byte) (h0 : w.ctail = 0) :
    (collapse ((bufferCode bs).mask, w.emit n (bufferCode bs).bytes m vec)).2.ctail = (bufferStream bs).length := by
  unfold collapse bufferStream
  split_ifs
  · rfl
  · simp [EncWork.emit, h0]

/-- An `ENCODE` that succeeds has passed its two checks and committed its run (R81). -/
theorem exec_encode_ok {s t : State} (hf : s.fault = false) (ht : t.fault = false) (h : exec .encode s = .next t) :
    s.bitlen.toNat ≤ 8 * s.bmSize.toNat ∧ wcsize (nbytes s.bitlen.toNat) ≤ s.cmSize.toNat ∧
      t = endEncode s (normalized s.bm s.bitlen.toNat) (s.encodeRun.map collapse) := by
  rw [exec_encode s hf] at h
  cases h
  rcases encodeCommand_cases s with ⟨-, he⟩ | ⟨-, -, he⟩ | h
  · rw [he] at ht; cases ht
  · rw [he] at ht; cases ht
  · exact h

theorem exec_encode_clen {s t : State} (hf : s.fault = false) (ht : t.fault = false) (hcm : s.cm.wf) (h : exec .encode s = .next t) :
    t.clen.toNat = (bufferStream s.bitmap).length := by
  obtain ⟨hb, hw, rfl⟩ := exec_encode_ok hf ht h
  obtain ⟨vec, hrun⟩ := encodeRun_emits hcm hb hw
  have hlt : (bufferStream s.bitmap).length < 2 ^ 32 := by
    have h1 := bufferStream_length_le s.bitmap
    have h2 := bufferCap_lt_wcsize s.bitmap.length
    have h3 := s.cmSize.isLt
    rw [s.bitmap_length] at h1 h2
    omega
  have hclen : (endEncode s (normalized s.bm s.bitlen.toNat) (s.encodeRun.map collapse)).clen =
      BitVec.ofNat 32 (bufferStream s.bitmap).length := by
    rw [hrun, ← collapse_bufferCode_ctail s.bitmap (State.freshEncoder_ctail s)]
    rfl
  rw [hclen, BitVec.toNat_ofNat, Nat.mod_eq_of_lt hlt]

/-! ### The forms of a chunk (R56, R57, R67) -/

/-- The masked form is kept as long as it is not longer than the chunk. -/
theorem chunkCode_of_fits {m : Bool} {bs : List Byte} (h : (maskedForm m bs).length ≤ bs.length) : chunkCode m bs = maskedPass m bs := by
  rcases chunkCode_cases m bs with ⟨he, -⟩ | ⟨-, hl, -⟩
  · exact he
  · rw [maskedPass_stage] at hl; omega

/-- A masked form longer than the chunk is not empty, so the fallback stands for it. -/
theorem chunkCode_of_longer {m : Bool} {bs : List Byte} (hn : bs.length ≤ 32) (h : bs.length < (maskedForm m bs).length) :
    (chunkCode m bs).stage = 0x00#8 :: bs ∧ (chunkCode m bs).nib = fullNibble bs.length := by
  rw [← maskedPass_stage] at h
  rcases chunkCode_cases m bs with ⟨-, h0 | hl⟩ | ⟨-, -, he⟩
  · rw [(maskedPass_stage_nil m bs hn).mp h0] at h; cases h
  · omega
  · rw [he]; exact ⟨rfl, rfl⟩

end Sys2Proof.Machine
end

section
/-! SUPPORT. A decode unit command whose unit gives back some bytes, and the fallback chunk as such a unit (R57, R89, R90). -/

namespace Sys2Proof.Machine

theorem State.StreamHolds.streamAt {s : State} {bytes : List Byte} (h : s.StreamHolds bytes) :
    StreamAt s.decEnv s.decWork.ctail bytes := h

/-- A chunk behind the marker decodes to its raw bytes, whatever they are (R57, R89). -/
theorem dec1_fallback {env : DecEnv} {bs : List Byte} {w : DecWork} (h1 : 1 ≤ bs.length) (hn : bs.length ≤ 32)
    (hb : w.bcur + bs.length ≤ env.bmSize) (hs : StreamAt env w.ctail (0x00#8 :: bs)) :
    dec1 env bs.length (fullNibble bs.length) w = .ok (w.restore bs (bs.length + 1) (runAfter w.matchBit bs)) := by
  have hnib : nibBeyond (fullNibble bs.length) bs.length = false :=
    nibBeyond_eq_false _ _ (fun g hg h4 => by rw [fullNibble_hasGroup _ g hn h4]; simpa using hg) hn
  obtain ⟨hmark, hraw⟩ := hs.cons w.bcur
  have hchunk : markedChunk env w.bcur bs.length (fullNibble bs.length) w.matchBit w.ctail =
      .ok { bytes := bs, matchBit := runAfter w.matchBit bs, ctail := w.ctail + (bs.length + 1) } := by
    unfold markedChunk fallbackChunk
    rw [if_pos rfl, hmark]
    simp only [bind, Except.bind, if_true]
    rw [if_neg (Nat.not_lt.mpr hraw.1)]
    simp only [readBytes_of_streamAt hraw, Nat.add_assoc, Nat.add_comm 1]
  unfold dec1
  rw [hnib, if_neg (by simp), if_neg (by omega), if_neg (by omega), if_neg (fullNibble_ne_zero _ h1 hn), hchunk]
  rfl

/-- `DEC1` completes when its chunk gives back `bs` from `k` bytes of the stream: it stores `bs`, moves both cursors and the run state, and
changes nothing else (R39, R89, R90). -/
theorem exec_dec1_restores {k : Nat} {nib : Nibble} {s : State} {bs : List Byte} (hn : bs.length ≤ 32) (hf : s.fault = false)
    (hc : s.clen.toNat ≤ s.cmSize.toNat) (hwf : s.bm.wf)
    (h : dec1 s.decEnv bs.length nib s.decWork = .ok (s.decWork.restore bs k (runAfter s.matchBit bs))) :
    ∃ bm' : Memory, s.bm.Stored bm' s.bcur.toNat bs ∧
      exec (.dec1 bs.length nib) s = .next { s with
        command := none, done := true, result := 0#8, bm := bm', bcur := BitVec.ofNat 32 (s.bcur.toNat + bs.length),
        ctail := BitVec.ofNat 32 (s.ctail.toNat + k), matchBit := runAfter s.matchBit bs } := by
  refine ⟨_, stored_writeBytes _ _ bs hwf, (exec_dec1 _ _ s hf).trans (congrArg _ ?_)⟩
  exact decUnit_ok 32 _ (fun env w => dec1 env bs.length nib w) s _ hn hc h

end Sys2Proof.Machine
end

section
/-! The obligations of 30_encoding.md: the command words, and the code stream. -/

open Sys2Proof Sys2Proof.Machine

/-- Settles O3: each operand form of the decoder reads back what the word of the command holds. -/
theorem decodeInvertsEncode : Obligations.DecodeInvertsEncode := by
  unfold Obligations.DecodeInvertsEncode
  exact fun i h => (decode_encode_iff i).mpr h

/-- Settles O4: each row of the opcode map fixes every bit of the word that is not an operand. -/
theorem encodeInvertsDecode : Obligations.EncodeInvertsDecode := by
  unfold Obligations.EncodeInvertsDecode
  exact fun _ _ h => ⟨encode_of_decode h, wellFormed_of_decode h⟩

/-- Settles O5: the rows differ in `OPC`, and a word decodes exactly when the row of some command selects it. -/
theorem opcodeMapIsExact : Obligations.OpcodeMapIsExact := by
  unfold Obligations.OpcodeMapIsExact
  exact ⟨selected_rows_length_le_one, decode_eq_none_iff⟩

/-- Settles O6: the decoder runs on the seventeen fixed words. -/
theorem exampleWordsDecode : Obligations.ExampleWordsDecode := by
  unfold Obligations.ExampleWordsDecode
  decide

/-- Settles O29: the masked pass stages the masked form, and the check on its length chooses between the two. -/
theorem chunkForms : Obligations.ChunkForms := by
  unfold Obligations.ChunkForms
  refine fun m bs _ hn => ⟨maskedForm_length m bs, fun h => ?_, fun h => ?_⟩
  · rw [← maskedForm_length] at h
    rw [chunkCode_of_fits h]
    exact ⟨maskedPass_stage m bs, maskedPass_hasGroup m bs hn⟩
  · rw [← maskedForm_length] at h
    exact chunkCode_of_longer hn h

/-- Settles O35: a child has a mask bit when it is not a run of its run state, and it is one when it holds no literal. -/
theorem maskBitsMarkLiterals : Obligations.MaskBitsMarkLiterals := by
  unfold Obligations.MaskBitsMarkLiterals
  exact ⟨fun m bs k hn hk => blockCode_hasChild m bs hn k hk, fun m bs k hn hk => regionCode_hasChild m bs hn k hk,
    fun m bs hn => ⟨pairHigh_roundCode_ne_zero m bs, pairLow_roundCode_ne_zero m hn⟩⟩

/-- Settles O41: what the encoder writes stays within the worst case, which is below `WCSIZE`. -/
theorem streamLengthBound : Obligations.StreamLengthBound := by
  unfold Obligations.StreamLengthBound
  refine ⟨fun bs => ⟨bufferStream_length_le bs, bufferCap_le _, lt_wcsize _⟩, fun s t hf ht _ hcm h => ?_, by decide⟩
  have hclen := exec_encode_clen hf ht hcm h
  refine ⟨hclen, s.bitmap_length, ?_⟩
  rw [hclen, ← s.bitmap_length]
  exact Nat.lt_of_le_of_lt (bufferStream_length_le _) (bufferCap_lt_wcsize _)

/-- Settles O44: both forms decode to the bytes (`dec1_fallback`, `dec1_loose`), and the command commits what its unit gives back. -/
theorem dec1AcceptsUnusedForms : Obligations.Dec1AcceptsUnusedForms := by
  unfold Obligations.Dec1AcceptsUnusedForms
  exact ⟨fun bs s h1 hn hf hwf hc hb hs => exec_dec1_restores hn hf hc hwf (dec1_fallback h1 hn hb hs.streamAt),
    fun marks bs s h1 hn hl hf hwf hc hb hq hs =>
      exec_dec1_restores hn hf hc hwf (dec1_loose _ marks bs _ h1 hn hl hb hq hs.streamAt)⟩

end

section
/-! SUPPORT. `NormByte` bit by bit, and `NORM` by its two checks (R62 to R64). -/

namespace Sys2Proof.Machine

/-! ### `NormByte` (R62, R64) -/

/-- The pad mask has the `8 - sig` low-order bits. -/
theorem padMask_getLsbD (sig k : Nat) : (0xFF#8 >>> sig).getLsbD k = decide (sig + k < 8) := by
  rw [BitVec.getLsbD_ushiftRight, show 0xFF#8 = BitVec.allOnes 8 from rfl, BitVec.getLsbD_allOnes]

/-- The test of `NormByte` reads the last significant bit. -/
theorem lastBit_eq_one_iff (b : Byte) (n : Nat) : (b >>> n) &&& 1#8 = 1#8 ↔ b.getLsbD n = true := by
  rw [BitVec.and_one_eq_setWidth_ofBool_getLsbD, BitVec.getLsbD_ushiftRight, Nat.add_zero]
  cases b.getLsbD n <;> decide

/-- A bit of `NormByte` is the byte's own bit down to the last significant one, and that one below it. -/
theorem normByte_getLsbD (b : Byte) (sig : Nat) {k : Nat} (hk : k < 8) :
    (normByte b sig).getLsbD k = b.getLsbD (max k (8 - sig)) := by
  have hset : (b ||| 0xFF#8 >>> sig).getLsbD k = (b.getLsbD k || decide (sig + k < 8)) := by
    rw [BitVec.getLsbD_or, padMask_getLsbD]
  have hclear : (b &&& ~~~(0xFF#8 >>> sig)).getLsbD k = (b.getLsbD k && !decide (sig + k < 8)) := by
    rw [BitVec.getLsbD_and, BitVec.getLsbD_not, padMask_getLsbD, decide_eq_true hk, Bool.true_and]
  simp only [normByte, lastBit_eq_one_iff, apply_ite (BitVec.getLsbD · k), hset, hclear]
  by_cases hpad : sig + k < 8
  · rw [Nat.max_eq_right (by omega)]
    simp [hpad]
  · rw [Nat.max_eq_left (by omega)]
    simp [hpad]

/-- `NormByte` depends on the significant bits alone. -/
theorem normByte_congr {b b' : Byte} {sig : Nat} (h1 : 1 ≤ sig)
    (h : ∀ k, 8 - sig ≤ k → k < 8 → b'.getLsbD k = b.getLsbD k) : normByte b' sig = normByte b sig := by
  refine BitVec.eq_of_getLsbD_eq fun k hk => ?_
  rw [normByte_getLsbD _ _ hk, normByte_getLsbD _ _ hk]
  exact h _ (Nat.le_max_right _ _) (by omega)

/-- `NormByte` keeps the significant bits, so a second pass changes nothing. -/
theorem normByte_idem (b : Byte) {sig : Nat} (h1 : 1 ≤ sig) : normByte (normByte b sig) sig = normByte b sig :=
  normByte_congr h1 fun k hsig hk => by rw [normByte_getLsbD _ _ hk, Nat.max_eq_left hsig]

/-- The run state after a normalised byte is its last significant bit (R69). -/
theorem nextBit_normByte (b : Byte) (sig : Nat) : nextBit (normByte b sig) = b.getLsbD (8 - sig) := by
  rw [nextBit, normByte_getLsbD b sig (by decide), Nat.zero_max]

theorem matchByte_getLsbD (m : Bool) {k : Nat} (hk : k < 8) : (matchByte m).getLsbD k = m := by
  cases m
  · exact BitVec.getLsbD_zero
  · exact (BitVec.getLsbD_allOnes (v := 8)).trans (decide_eq_true hk)

/-- A byte with equal significant bits is normalised to the match byte of their value, so it can continue a run. -/
theorem normByte_of_equal_bits {b : Byte} {sig : Nat} (h1 : 1 ≤ sig)
    (h : ∀ k, 8 - sig ≤ k → k < 8 → b.getLsbD k = b.getLsbD 7) : normByte b sig = matchByte (b.getLsbD 7) := by
  refine BitVec.eq_of_getLsbD_eq fun k hk => ?_
  rw [normByte_getLsbD _ _ hk, matchByte_getLsbD _ hk]
  exact h _ (Nat.le_max_right _ _) (by omega)

theorem matchByte_eq_zero_or_ones (m : Bool) : matchByte m = 0x00#8 ∨ matchByte m = 0xFF#8 := by
  cases m
  · exact .inl rfl
  · exact .inr rfl

/-! ### `NORM` (R63) -/

theorem normalized_of_aligned (bm : Memory) {bitlen : Nat} (h : bitlen % 8 = 0) : normalized bm bitlen = bm := if_pos h

/-- With a partial last byte Level 0 stores the normalised boundary byte and nothing else. -/
theorem stored_normalized {bm : Memory} {bitlen : Nat} (hwf : bm.wf) (h : bitlen % 8 ≠ 0) :
    bm.Stored (normalized bm bitlen) (bitlen / 8) [normByte (bm.read (bitlen / 8)) (bitlen % 8)] := by
  rw [show normalized bm bitlen = bm.write (bitlen / 8) _ from if_neg h]
  exact stored_write _ _ _ hwf

theorem exec_norm_of_bitlen_gt {s : State} (hf : s.fault = false) (h : s.bitlen.toNat > 8 * s.bmSize.toNat) :
    exec .norm s = .next (s.faultedWith .badBitlen 0#32) := by
  rw [exec_norm s hf]
  exact congrArg _ (if_pos h)

theorem exec_norm_of_bitlen_le {s : State} (hf : s.fault = false) (h : s.bitlen.toNat ≤ 8 * s.bmSize.toNat) :
    exec .norm s = .next (complete 0#8 { s with bm := normalized s.bm s.bitlen.toNat }) := by
  rw [exec_norm s hf]
  exact congrArg _ (if_neg (Nat.not_lt.mpr h))

end Sys2Proof.Machine
end

section
/-! The obligations of 40_level0_normalizer.md: `NormByte` and `NORM`. -/

open Sys2Proof Sys2Proof.Machine

/-- Settles O27: bit by bit, `NormByte` reads significant bits alone, and below the last of them only that one. -/
theorem normByteFillsPadBits : Obligations.NormByteFillsPadBits := by
  unfold Obligations.NormByteFillsPadBits
  refine fun b sig h1 _ => ⟨fun k hk => normByte_getLsbD b sig hk, normByte_idem b h1, fun b' h => normByte_congr h1 h,
    nextBit_normByte b sig, fun h => ?_⟩
  rw [normByte_of_equal_bits h1 h]
  exact matchByte_eq_zero_or_ones _

/-- Settles O28: by the check on `BITLEN`, then by whether the last byte is partial; a partial byte within the check begins inside `BM`. -/
theorem normCompletes : Obligations.NormCompletes := by
  unfold Obligations.NormCompletes
  refine ⟨(decode_encode_iff .norm).mpr rfl, fun s hf hwf => ⟨exec_norm_of_bitlen_gt hf, fun hle haligned => ?_, fun hle hpartial => ?_⟩⟩
  · rw [exec_norm_of_bitlen_le hf hle, normalized_of_aligned _ haligned]
    rfl
  · exact ⟨by omega, _, stored_normalized hwf hpartial, exec_norm_of_bitlen_le hf hle⟩

end

section
/-! SUPPORT. The size of a chunk's code by its literals and marked groups (R67, R73), `ENC1` where there is room (R66, R72), and where a
command over at least one byte leaves `BCUR` and the run state (R16, R69). -/

namespace Sys2Proof.Machine

/-! ### The size of a chunk's code (R67, R73) -/

theorem literalCount_le (m : Bool) (bs : List Byte) : literalCount m bs ≤ bs.length := by
  simpa [literalCount] using List.length_filter_le (literalAt m bs) (List.range bs.length)

theorem markedGroupCount_le (m : Bool) (bs : List Byte) : markedGroupCount m bs ≤ groupCount bs.length := by
  simpa [markedGroupCount] using
    List.length_filter_le (fun g => literalIn m bs (8 * g) (8 * g + 8)) (List.range (groupCount bs.length))

/-- Some group is marked exactly when some byte is a literal. -/
theorem markedGroupCount_eq_zero_iff (m : Bool) (bs : List Byte) : markedGroupCount m bs = 0 ↔ literalCount m bs = 0 := by
  constructor
  · intro h
    have hnil : maskedForm m bs = [] := by
      simp only [markedGroupCount, List.length_eq_zero_iff, List.filter_eq_nil_iff] at h
      simp only [maskedForm, List.flatMap_eq_nil_iff]
      exact fun g hg => if_neg (h g hg)
    have hlen := maskedForm_length m bs
    rw [hnil, h] at hlen
    exact hlen.symm
  · intro h
    simp only [literalCount, List.length_eq_zero_iff, List.filter_eq_nil_iff] at h
    simp only [markedGroupCount, List.length_eq_zero_iff, List.filter_eq_nil_iff, literalIn, List.any_eq_true, Bool.and_eq_true]
    rintro g - ⟨i, hi, -, hlit⟩
    exact h i hi hlit

/-- The masked form never has exactly one byte: a literal stands behind the mask of its group (R73). -/
theorem maskedForm_length_ne_one (m : Bool) (bs : List Byte) : (maskedForm m bs).length ≠ 1 := by
  have hlen := maskedForm_length m bs
  have hzero := markedGroupCount_eq_zero_iff m bs
  omega

theorem chunkCode_stage_length_cases (m : Bool) {bs : List Byte} (hn : bs.length ≤ 32) :
    (chunkCode m bs).stage.length = 0 ∨
    (2 ≤ (chunkCode m bs).stage.length ∧ (chunkCode m bs).stage.length ≤ bs.length) ∨
    (chunkCode m bs).stage.length = bs.length + 1 := by
  rcases Nat.lt_or_ge bs.length (maskedForm m bs).length with h | h
  · rw [(chunkCode_of_longer hn h).1]
    exact .inr (.inr List.length_cons)
  · rw [chunkCode_of_fits h, maskedPass_stage]
    have hne := maskedForm_length_ne_one m bs
    omega

/-- The fallback stands exactly for a masked form longer than the chunk (R67). -/
theorem chunkCode_stage_eq_fallback_iff (m : Bool) {bs : List Byte} (hn : bs.length ≤ 32) :
    (chunkCode m bs).stage = 0x00#8 :: bs ↔ bs.length < literalCount m bs + markedGroupCount m bs := by
  rw [← maskedForm_length]
  refine ⟨fun h => Nat.lt_of_not_le fun hle => ?_, fun h => (chunkCode_of_longer hn h).1⟩
  rw [chunkCode_of_fits hle, maskedPass_stage] at h
  rw [h, List.length_cons] at hle
  omega

/-- A chunk of one group has at most one mask byte, so only literals alone can make its masked form too long (R73). -/
theorem fallback_iff_all_literals (m : Bool) {bs : List Byte} (h1 : 1 ≤ bs.length) (h8 : bs.length ≤ 8) :
    (chunkCode m bs).stage = 0x00#8 :: bs ↔ literalCount m bs = bs.length := by
  rw [chunkCode_stage_eq_fallback_iff m (by omega)]
  have hlit := literalCount_le m bs
  have hgroup : markedGroupCount m bs ≤ 1 := (markedGroupCount_le m bs).trans (by unfold groupCount; omega)
  have hzero := markedGroupCount_eq_zero_iff m bs
  omega

/-! ### `ENC1` where there is room (R66, R72) -/

/-- `ENC1` over bytes inside the bitmap whose chunk fits commits that chunk. -/
theorem exec_enc1_of_room {n : Nat} {s : State} (h1 : 1 ≤ n) (hn : n ≤ 32) (hf : s.fault = false)
    (hb : s.bcur.toNat + n ≤ s.bmSize.toNat)
    (hc : s.ctail.toNat + (chunkCode s.matchBit (s.input n)).stage.length ≤ s.cmSize.toNat) :
    exec (.enc1 n) s = .next (complete ((chunkCode s.matchBit (s.input n)).nib.setWidth 8) (s.commitEnc
      (s.encWork.emit n (chunkCode s.matchBit (s.input n)).stage (runAfter s.matchBit (s.input n))
        (maskedPass s.matchBit (s.input n)).vec))) := by
  rw [exec_enc1 n s hf, ← chunkCode_matchBit, ← chunkCode_vec]
  refine congrArg _ (enc1Command_ok n s _ _ hn h1 ?_)
  exact (enc1_eq s.encEnv n s.encWork h1 hb).trans (if_neg (Nat.not_lt.mpr hc))

/-! ### `BCUR` and the run state after a command (R16, R69) -/

/-- `BCUR` is `c`, and the run state is `Next` of the byte before it. -/
def State.StandsAfter (t : State) (c : Nat) : Prop :=
  t.bcur.toNat = c ∧ t.matchBit = nextBit (t.bm.read (t.bcur.toNat - 1))

/-- The run state after bytes that stand stored in a memory is `Next` of the last one. -/
theorem Memory.Stored.runAfter_eq {bm bm' : Memory} {a : Nat} {bs : List Byte} (h : bm.Stored bm' a bs) (m : Bool)
    (h1 : 1 ≤ bs.length) : runAfter m bs = nextBit (bm'.read (a + bs.length - 1)) := by
  rw [runAfter_last m bs (List.ne_nil_of_length_pos h1), h.2, if_pos (by omega), show a + bs.length - 1 - a = bs.length - 1 by omega]

section
variable {n : Nat} {s t : State} (h1 : 1 ≤ n)
include h1

/-- An encode unit that `t` has committed. -/
theorem standsAfter_of_encode (henv : t.encEnv = s.encEnv) (hk : EncKeeps s.encEnv n s.encWork t.encWork)
    (hr : RunsOver s.encEnv n s.encWork t.encWork) : t.StandsAfter (s.bcur.toNat + n) := by
  have hbcur : t.bcur.toNat = s.bcur.toNat + n := hk.bcur
  have hbm : t.bm = s.bm := congrArg EncEnv.bm henv
  refine ⟨hbcur, ?_⟩
  rw [hbcur, hbm]
  exact hr.1.trans (runAfter_read _ _ _ _ h1)

/-- An encode unit command that succeeds. -/
theorem Succeeds.standsAfter_encode (h : Succeeds (.enc1 n) s t ∨ Succeeds (.enc2 n) s t ∨ Succeeds (.enc3 n) s t) :
    t.StandsAfter (s.bcur.toNat + n) := by
  rcases h with h | h | h
  · obtain ⟨hf, v, w, hw, henv, rfl⟩ := enc1_succeeds h1 h
    obtain ⟨hn, -⟩ := exec_enc1_ok hf h.2 h1 h.1
    exact standsAfter_of_encode h1 henv (enc1_keeps _ _ _ _ _ hw) (enc1_runsOver _ _ _ _ _ hn hw)
  · obtain ⟨-, -, v, w, hw, henv, rfl⟩ := enc2_succeeds h
    exact standsAfter_of_encode h1 henv (enc2_keeps _ _ _ _ _ hw) (enc2_runsOver _ _ _ _ _ hw)
  · obtain ⟨-, -, v, w, hw, henv, rfl⟩ := enc3_succeeds h
    exact standsAfter_of_encode h1 henv (enc3_keeps _ _ _ _ _ hw) (enc3_runsOver _ _ _ _ _ hw)

/-- A decode unit that has ended in `t`. -/
theorem State.DecodedIn.standsAfter (h : s.DecodedIn n t) : t.StandsAfter (s.bcur.toNat + n) := by
  obtain ⟨bs, c, rfl, hst, hin, -, -, ht⟩ := h
  have hbcur : t.bcur.toNat = s.bcur.toNat + bs.length := by
    rw [ht]
    exact Nat.mod_eq_of_lt (by have := s.bmSize.isLt; omega)
  refine ⟨hbcur, ?_⟩
  rw [hbcur, ← hst.runAfter_eq s.matchBit h1, ht]

end

theorem nbytes_pos {bitlen : Nat} (h : 1 ≤ bitlen) : 1 ≤ nbytes bitlen := by unfold nbytes; omega

theorem collapse_bcur (x : Byte × EncWork) : (collapse x).2.bcur = x.2.bcur := by
  unfold collapse; split <;> rfl

theorem collapse_matchBit (x : Byte × EncWork) : (collapse x).2.matchBit = x.2.matchBit := by
  unfold collapse; split <;> rfl

/-- An `ENCODE` that has not faulted has committed its collapsed run over the normalised bitmap (R81, R83). -/
theorem exec_encode_committed {s t : State} (hf : s.fault = false) (ht : t.fault = false) (h : exec .encode s = .next t) :
    s.bitlen.toNat ≤ 8 * s.bmSize.toNat ∧ ∃ x, s.encodeRun = .ok x ∧
      t = complete (collapse x).1
        (({ s with bm := normalized s.bm s.bitlen.toNat } : State).commitEnc (collapse x).2).takeLength := by
  obtain ⟨hb, -, he⟩ := exec_encode_ok hf ht h
  cases hx : s.encodeRun with
  | error r => rw [he, hx] at ht; cases ht
  | ok x => rw [hx] at he; exact ⟨hb, x, rfl, he⟩

theorem standsAfter_of_exec_encode {s t : State} (h1 : 1 ≤ s.bitlen.toNat) (hf : s.fault = false) (ht : t.fault = false)
    (h : exec .encode s = .next t) : t.StandsAfter (nbytes s.bitlen.toNat) := by
  obtain ⟨hb, ⟨v, w⟩, hx, he⟩ := exec_encode_committed hf ht h
  have hcur := (encRegions_keeps _ _ _ _ _ _ _ (covers_regions _) hx).bcur
  have hrun := (encRegions_runsOver _ _ _ _ _ _ _ (covers_regions _) hx).1
  rw [State.freshEncoder_bcur, Nat.zero_add] at hcur
  rw [State.freshEncoder_bcur, runAfter_read _ _ _ _ (nbytes_pos h1), Nat.zero_add] at hrun
  have hbcur : t.bcur.toNat = nbytes s.bitlen.toNat := by
    rw [he, complete_bcur, State.takeLength_bcur, State.commitEnc_bcur, collapse_bcur, hcur]
    exact Nat.mod_eq_of_lt (Nat.lt_of_le_of_lt (nbytes_le s hb) s.bmSize.isLt)
  refine ⟨hbcur, ?_⟩
  rw [hbcur, he]
  exact (collapse_matchBit _).trans hrun

theorem standsAfter_of_exec_decode {s t : State} (h1 : 1 ≤ s.bitlen.toNat) (hf : s.fault = false) (ht : t.fault = false)
    (hwf : s.bm.wf) (h : exec .decode s = .next t) : t.StandsAfter (nbytes s.bitlen.toNat) := by
  obtain ⟨bs, hlen, hin, -, hst, he⟩ := exec_decode_frame hf ht hwf h
  have hbcur : t.bcur.toNat = bs.length := by
    rw [he]
    exact Nat.mod_eq_of_lt (Nat.lt_of_le_of_lt hin s.bmSize.isLt)
  have hpos : 1 ≤ bs.length := hlen ▸ nbytes_pos h1
  have hrun := hst.runAfter_eq false hpos
  rw [Nat.zero_add] at hrun
  rw [← hlen]
  refine ⟨hbcur, ?_⟩
  rw [hbcur, ← hrun, he]

end Sys2Proof.Machine
end

section
/-! The obligations of 41_level1_encoder.md: the sizes of a chunk, `ENC1`, and the run state. -/

open Sys2Proof Sys2Proof.Machine

/-- Settles O30: the masked form has a byte for each literal and each marked group, and is kept unless it is longer than the chunk. -/
theorem chunkSizes : Obligations.ChunkSizes := by
  unfold Obligations.ChunkSizes
  refine ⟨fun m bs _ hn => chunkCode_stage_length_cases m hn, fun m bs h1 h8 => fallback_iff_all_literals m h1 h8, fun m b hb => ?_⟩
  have hlit : literalCount m [b] = 1 := by simp [literalCount, List.filter_cons, hb]
  exact (fallback_iff_all_literals m (bs := [b]) (Nat.le_refl 1) (by simp)).mpr hlit

/-- Settles O31: where there is room the command commits the chunk's code; the run state of the bytes is `Next` of the last one. -/
theorem enc1Completes : Obligations.Enc1Completes := by
  unfold Obligations.Enc1Completes
  refine ⟨fun s hf => exec_enc1 0 s hf, fun n s h1 hn hf hwf hb hc => ⟨_, stored_writeBytes _ _ _ hwf, ?_⟩⟩
  have hrun : runAfter s.matchBit (s.input n) = nextBit (s.bm.read (s.bcur.toNat + n - 1)) := runAfter_read _ _ _ _ h1
  rw [exec_enc1_of_room h1 hn hf hb hc, hrun]
  rfl

/-- Settles O32: a run has no literal, so its code is empty, its vector is zero and it leaves the run state. -/
theorem freeChunk : Obligations.FreeChunk := by
  unfold Obligations.FreeChunk
  intro n s h1 hn hf hb hc hrun
  have hlen : (s.input n).length ≤ 32 := (Memory.readBytes_length _ _ _).trans_le hn
  have hnib := (chunkCode_nib_eq_zero s.matchBit _ hlen).mpr hrun
  have hstage := (chunkCode_stage_nil s.matchBit _ hlen).mp hnib
  rw [exec_enc1_of_room h1 hn hf hb (by rw [hstage]; exact hc), hnib, hstage, runAfter_of_isRun _ _ hrun,
    maskedPass_vec_of_isRun _ _ hrun]
  simp [complete, State.completed, State.commitEnc, EncWork.emit, Memory.writeBytes]

/-- Settles O34: the bytes an encode command has read, or a decode command has stored, end just before `BCUR`. -/
theorem matchFollowsLastByte : Obligations.MatchFollowsLastByte := by
  unfold Obligations.MatchFollowsLastByte
  refine ⟨fun n nib mask s t h1 _ ht hwf h => ?_, fun s t h1 hf ht hwf h => ?_⟩
  · rcases h with h | h | h | h
    · exact Succeeds.standsAfter_encode h1 (.inl ⟨h, ht⟩)
    · exact Succeeds.standsAfter_encode h1 (.inr (.inl ⟨h, ht⟩))
    · exact Succeeds.standsAfter_encode h1 (.inr (.inr ⟨h, ht⟩))
    · exact State.DecodedIn.standsAfter h1
        (Succeeds.decodedIn (nib := nib) (mask := mask) hwf (h.imp (⟨·, ht⟩) (Or.imp (⟨·, ht⟩) (⟨·, ht⟩))))
  · rcases h with h | h
    · exact standsAfter_of_exec_encode h1 hf ht h
    · exact standsAfter_of_exec_decode h1 hf ht hwf h

end

section
/-! SUPPORT. `ENC2` and `ENC3` where there is room: the state that an encode unit leaves by its code, and the two commands over no byte
(R74, R77, R79). -/

namespace Sys2Proof.Machine

/-- `s` after an encode unit over `n` bytes with the result `res` and the code `bytes` (R66, R74). -/
def State.encoded (s : State) (n : Nat) (res : Byte) (bytes : List Byte) : State :=
  { s with
    command := none, done := true, result := res, cm := s.cm.writeBytes s.ctail.toNat bytes,
    bcur := BitVec.ofNat 32 (s.bcur.toNat + n), ctail := BitVec.ofNat 32 (s.ctail.toNat + bytes.length),
    matchBit := runAfter s.matchBit (s.input n), l1mask := lastVector s.l1mask s.matchBit (s.input n) }

/-- The commit of what a unit has emitted (R31): its run state and presence vector are those of its bytes (R25, R69). -/
theorem complete_commitEnc_emit {n : Nat} {s : State} {bytes : List Byte} {m : Bool} {vec : Word} (res : Byte)
    (hr : RunsOver s.encEnv n s.encWork (s.encWork.emit n bytes m vec)) :
    complete res (s.commitEnc (s.encWork.emit n bytes m vec)) = s.encoded n res bytes := by
  obtain ⟨hm, hv⟩ : m = runAfter s.matchBit (s.input n) ∧ vec = lastVector s.l1mask s.matchBit (s.input n) := hr
  rw [hm, hv]
  rfl

/-- `ENC2` over bytes inside the bitmap, with room for the largest code of their number (R77). -/
theorem exec_enc2_of_room {n : Nat} {s : State} (hn : n ≤ 512) (hf : s.fault = false) (hwf : s.cm.wf)
    (hb : s.bcur.toNat + n ≤ s.bmSize.toNat) (hc : s.ctail.toNat + blockCap n ≤ s.cmSize.toNat) :
    exec (.enc2 n) s = .next
      (s.encoded n (blockCode s.matchBit (s.input n)).mask (blockCode s.matchBit (s.input n)).bytes) := by
  obtain ⟨⟨vec, hw⟩, -⟩ := enc2_encodes' s.encEnv n s.encWork hn hwf hb hc
  rw [exec_enc2 n s hf, enc2Command_ok n s _ _ hn hw, complete_commitEnc_emit _ (enc2_runsOver _ _ _ _ _ hw)]
  rfl

/-- `ENC3` over bytes inside the bitmap, with room for the largest code of their number (R79). -/
theorem exec_enc3_of_room {n : Nat} {s : State} (hn : n ≤ 4096) (hf : s.fault = false) (hwf : s.cm.wf)
    (hb : s.bcur.toNat + n ≤ s.bmSize.toNat) (hc : s.ctail.toNat + regionCap n ≤ s.cmSize.toNat) :
    exec (.enc3 n) s = .next
      (s.encoded n (regionCode s.matchBit (s.input n)).mask (regionCode s.matchBit (s.input n)).bytes) := by
  obtain ⟨⟨vec, hw⟩, -⟩ := enc3_encodes' s.encEnv n s.encWork hn hwf hb hc
  rw [exec_enc3 n s hf, enc3Command_ok n s _ _ hn hw, complete_commitEnc_emit _ (enc3_runsOver _ _ _ _ _ hw)]
  rfl

/-- The commit of a unit that has done nothing. -/
@[simp] theorem State.commitEnc_encWork (s : State) : s.commitEnc s.encWork = s := by
  simp [State.commitEnc, State.encWork]

/-- `ENC2` over no byte has no round to run, so it needs neither room nor a canonical code memory (R77). -/
theorem exec_enc2_zero {s : State} (hf : s.fault = false) : exec (.enc2 0) s = .next (complete 0#8 s) := by
  rw [exec_enc2 0 s hf, enc2Command_ok 0 s _ _ (Nat.zero_le _) (enc2_zero _ _), State.commitEnc_encWork]

/-- `ENC3` over no byte has no block to run, so it needs neither room nor a canonical code memory (R79). -/
theorem exec_enc3_zero {s : State} (hf : s.fault = false) : exec (.enc3 0) s = .next (complete 0#8 s) := by
  rw [exec_enc3 0 s hf, enc3Command_ok 0 s _ _ (Nat.zero_le _) (enc3_zero _ _), State.commitEnc_encWork]

end Sys2Proof.Machine
end

section
/-! The obligations of 42_level2_level3_aggregators.md: `ENC2` and `ENC3` where there is room. -/

open Sys2Proof Sys2Proof.Machine

/-- Settles O36: where there is room for the largest code the command commits the block's code, and its run state and vector are those
of the block's bytes. -/
theorem enc2Completes : Obligations.Enc2Completes := by
  unfold Obligations.Enc2Completes
  exact ⟨fun s hf => exec_enc2_zero hf,
    fun n s hn hf hwf hb hc => ⟨_, stored_writeBytes _ _ _ hwf, exec_enc2_of_room hn hf hwf hb hc⟩⟩

/-- Settles O37: as for a block, with the region's code. -/
theorem enc3Completes : Obligations.Enc3Completes := by
  unfold Obligations.Enc3Completes
  exact ⟨fun s hf => exec_enc3_zero hf,
    fun n s hn hf hwf hb hc => ⟨_, stored_writeBytes _ _ _ hwf, exec_enc3_of_room hn hf hwf hb hc⟩⟩

end

section
/-! SUPPORT. `ENCODE` after its two checks: the state it leaves as a function of the normalised bitmap, the collapse of a stream, and
which bits of the bitmap memory the normalised bitmap depends on (R62, R81 to R84). -/

namespace Sys2Proof.Machine

/-! ### The collapse (R52, R83) -/

theorem regionCode_bytes_nil (m : Bool) {bs : List Byte} (hn : bs.length ≤ 4096) (h : (regionCode m bs).mask = 0#8) :
    (regionCode m bs).bytes = [] :=
  childrenCode_bytes_nil _ _ _ _ _ _ (by have := blockCount_le _ hn; omega) h

/-- Regions without any output leave their zero `M3` bytes alone (R82). -/
theorem regionsCode_bytes_of_mask_eq_zero (left : Nat) (m : Bool) (bs : List Byte) (h : (regionsCode left m bs).mask = 0#8) :
    (regionsCode left m bs).bytes = List.replicate left 0#8 := by
  induction left generalizing m bs with
  | zero => rfl
  | succ left ih =>
    simp only [regionsCode, byte_or_eq_zero] at h ⊢
    obtain ⟨hregion, hrest⟩ := h
    rw [hregion, regionCode_bytes_nil m (by simp) hregion, ih _ _ hrest]
    rfl

theorem bufferStream_eq_nil_iff (bs : List Byte) : bufferStream bs = [] ↔ ∀ b ∈ bs, b = 0#8 := by
  rw [← bufferCode_mask_eq_zero]
  refine ⟨fun h => ?_, fun h => if_pos h⟩
  by_contra hmask
  have hpos := bufferCode_bytes_pos bs hmask
  rw [bufferStream, if_neg hmask] at h
  rw [h] at hpos
  exact absurd hpos (Nat.lt_irrefl 0)

/-- The collapse moves the cursor to the end of the stream and nothing else. -/
theorem collapse_bufferCode (w : EncWork) (n : Nat) (m : Bool) (vec : Word) (bs : List Byte) (h0 : w.ctail = 0) :
    collapse ((bufferCode bs).mask, w.emit n (bufferCode bs).bytes m vec) =
      ((bufferCode bs).mask, { w.emit n (bufferCode bs).bytes m vec with ctail := (bufferStream bs).length }) := by
  rw [← collapse_bufferCode_ctail (n := n) (m := m) (vec := vec) bs h0]
  unfold collapse
  split <;> rfl

/-! ### What `ENCODE` leaves (R81) -/

/-- `s` after an `ENCODE` whose two checks pass. -/
def State.encodedBuffer (s : State) : State :=
  { s with
    command := none, done := true, result := (bufferCode s.bitmap).mask, bm := normalized s.bm s.bitlen.toNat,
    cm := s.cm.writeBytes 0 (bufferCode s.bitmap).bytes, bcur := BitVec.ofNat 32 (nbytes s.bitlen.toNat),
    ctail := BitVec.ofNat 32 (bufferStream s.bitmap).length, clen := BitVec.ofNat 32 (bufferStream s.bitmap).length,
    matchBit := runAfter false s.bitmap, l1mask := lastVector 0#32 false s.bitmap }

@[simp] theorem State.encodedBuffer_cm (s : State) :
    s.encodedBuffer.cm = s.cm.writeBytes 0 (bufferCode s.bitmap).bytes := rfl

theorem encodedBuffer_cm_wf {s : State} (hcm : s.cm.wf) : s.encodedBuffer.cm.wf := Memory.writeBytes_wf _ _ _ hcm

/-- The code memory begins with the stream, collapsed or not. -/
theorem encodedBuffer_holds_stream {s : State} (hcm : s.cm.wf) :
    s.encodedBuffer.cm.readBytes 0 (bufferStream s.bitmap).length = bufferStream s.bitmap := by
  unfold bufferStream
  split_ifs
  · rfl
  · exact Memory.readBytes_writeBytes _ _ _ hcm

theorem encodedBuffer_read {s : State} (hcm : s.cm.wf) {a : Nat} (ha : a < (bufferStream s.bitmap).length) :
    s.encodedBuffer.cm.read a = (bufferStream s.bitmap).getD a 0#8 := by
  have h := Memory.readBytes_getD s.encodedBuffer.cm 0 _ a ha
  rw [encodedBuffer_holds_stream hcm, Nat.zero_add] at h
  exact h.symm

/-- The zero `M3` bytes of an empty stream stand in the code memory (R82, R83). -/
theorem encodedBuffer_read_of_zero {s : State} (hcm : s.cm.wf) (hz : ∀ b ∈ s.bitmap, b = 0#8) {q : Nat}
    (hq : q < regionCount (nbytes s.bitlen.toNat)) : s.encodedBuffer.cm.read q = 0#8 := by
  have hbytes : (bufferCode s.bitmap).bytes = List.replicate (regionCount (nbytes s.bitlen.toNat)) 0#8 := by
    rw [← s.bitmap_length]
    exact regionsCode_bytes_of_mask_eq_zero _ _ _ ((bufferCode_mask_eq_zero _).mpr hz)
  rw [State.encodedBuffer_cm, Memory.read_writeBytes _ _ _ _ hcm, hbytes, if_pos (by simpa using hq)]
  simp [hq]

section
variable {s : State} (hf : s.fault = false) (hcm : s.cm.wf) (hb : s.bitlen.toNat ≤ 8 * s.bmSize.toNat)
  (hw : wcsize (nbytes s.bitlen.toNat) ≤ s.cmSize.toNat)
include hf hcm hb hw

theorem exec_encode_of_checks : exec .encode s = .next s.encodedBuffer := by
  have hpass : encodeCommand s = endEncode s (normalized s.bm s.bitlen.toNat) (s.encodeRun.map collapse) := by
    rcases encodeCommand_cases s with ⟨h, -⟩ | ⟨-, h, -⟩ | ⟨-, -, h⟩
    · omega
    · omega
    · exact h
  obtain ⟨vec, hrun⟩ := encodeRun_emits hcm hb hw
  obtain ⟨hm, rfl⟩ : (bufferCode s.bitmap).matchBit = runAfter false s.bitmap ∧ vec = lastVector 0#32 false s.bitmap :=
    encRegions_runsOver _ _ _ _ _ _ _ (covers_regions _) hrun
  rw [exec_encode s hf, hpass, hrun, hm, Except.map, collapse_bufferCode _ _ _ _ _ s.freshEncoder_ctail]
  simp only [EncWork.emit, State.freshEncoder_bcur, Nat.zero_add]
  rfl

theorem encodedBuffer_clen_toNat : s.encodedBuffer.clen.toNat = (bufferStream s.bitmap).length :=
  exec_encode_clen hf hf hcm (exec_encode_of_checks hf hcm hb hw)

theorem encodedBuffer_clen_eq_zero_iff : s.encodedBuffer.clen = 0#32 ↔ ∀ b ∈ s.bitmap, b = 0#8 := by
  rw [← bufferStream_eq_nil_iff, ← List.length_eq_zero_iff, ← encodedBuffer_clen_toNat hf hcm hb hw]
  exact BitVec.toNat_inj.symm

/-- Two states that passed the checks leave the same stream when their normalised bitmaps are the same (R84). -/
theorem encodedBuffer_stream_eq {s' : State} (hcm' : s'.cm.wf) (h : s'.bitmap = s.bitmap) :
    s'.encodedBuffer.clen = s.encodedBuffer.clen ∧
      ∀ a, a < s.encodedBuffer.clen.toNat → s'.encodedBuffer.cm.read a = s.encodedBuffer.cm.read a := by
  refine ⟨by simp only [State.encodedBuffer, h], fun a ha => ?_⟩
  rw [encodedBuffer_clen_toNat hf hcm hb hw] at ha
  rw [encodedBuffer_read hcm ha, encodedBuffer_read hcm' (h ▸ ha), h]

end

/-! ### What the normalised bitmap depends on (R62, R84) -/

/-- A byte below the byte count has significant bits only, or it is the boundary byte, of which `NormByte` reads only those. -/
theorem normalized_read_congr {bm bm' : Memory} {bitlen x : Nat} (hwf : bm.wf) (hwf' : bm'.wf) (hx : x < nbytes bitlen)
    (h : ∀ i, i < bitlen → (bm'.read (i / 8)).getLsbD (7 - i % 8) = (bm.read (i / 8)).getLsbD (7 - i % 8)) :
    (normalized bm' bitlen).read x = (normalized bm bitlen).read x := by
  have hbit : ∀ k, k < 8 → 8 * x + (7 - k) < bitlen → (bm'.read x).getLsbD k = (bm.read x).getLsbD k := by
    intro k hk hi
    have hsame := h _ hi
    rwa [show (8 * x + (7 - k)) / 8 = x by omega, show 7 - (8 * x + (7 - k)) % 8 = k by omega] at hsame
  unfold nbytes at hx
  rw [normalized_read _ _ _ hwf, normalized_read _ _ _ hwf']
  split_ifs with hboundary
  · exact normByte_congr (by omega) fun k hsig hk => hbit k hk (by omega)
  · exact BitVec.eq_of_getLsbD_eq fun k hk => hbit k hk (by omega)

theorem State.bitmap_congr {s s' : State} (hwf : s.bm.wf) (hwf' : s'.bm.wf) (hlen : s'.bitlen = s.bitlen)
    (h : ∀ i, i < s.bitlen.toNat → (s'.bm.read (i / 8)).getLsbD (7 - i % 8) = (s.bm.read (i / 8)).getLsbD (7 - i % 8)) :
    s'.bitmap = s.bitmap := by
  unfold State.bitmap
  rw [hlen]
  exact Memory.readBytes_congr _ _ _ _ fun x _ hx => normalized_read_congr hwf hwf' (by omega) h

/-- A normalised bitmap memory is left as it is. -/
theorem normalized_idem {bm : Memory} (hwf : bm.wf) (bitlen : Nat) :
    normalized (normalized bm bitlen) bitlen = normalized bm bitlen := by
  have hn := normalized_wf bm bitlen hwf
  refine Memory.ext_of_read _ _ (normalized_wf _ _ hn) hn fun x => ?_
  rw [normalized_read _ _ _ hn, normalized_read _ _ _ hwf]
  split_ifs with hboundary
  · exact normByte_idem _ (by omega)
  · rfl

theorem encodedBuffer_bitmap {s : State} (hwf : s.bm.wf) : s.encodedBuffer.bitmap = s.bitmap :=
  congrArg (Memory.readBytes · 0 (nbytes s.bitlen.toNat)) (normalized_idem hwf s.bitlen.toNat)

end Sys2Proof.Machine
end

section
/-! The obligations of 43_top_level_encode.md: `ENCODE`, the empty stream, and what the stream depends on. -/

open Sys2Proof Sys2Proof.Machine

/-- Settles O39: with the worst case's room the region loop cannot fault, and it commits the code of the normalised bitmap. -/
theorem encodeCompletes : Obligations.EncodeCompletes := by
  unfold Obligations.EncodeCompletes
  exact fun s hf hbm hcm hb hw => ⟨_, _, normalized_wf _ _ hbm, fun x => normalized_read _ _ x hbm, rfl, stored_writeBytes _ _ _ hcm,
    encodedBuffer_holds_stream hcm, exec_encode_of_checks hf hcm hb hw⟩

/-- Settles O40: the OR of the `M3` bytes is zero exactly for a bitmap of zero bytes, and the code is then those `M3` bytes alone. -/
theorem streamCollapses : Obligations.StreamCollapses := by
  unfold Obligations.StreamCollapses
  intro s hf _ hcm hb hw
  have hclen := encodedBuffer_clen_eq_zero_iff hf hcm hb hw
  exact ⟨_, exec_encode_of_checks hf hcm hb hw, hf, hclen, bufferCode_mask_eq_zero _,
    fun hz => ⟨hclen.mpr hz, fun q hq => encodedBuffer_read_of_zero hcm hz hq⟩⟩

/-- Settles O42: what `ENCODE` leaves is a function of the normalised bitmap, which the significant bits decide and which a second
`ENCODE` finds again. -/
theorem encodeDependsOnBitmapOnly : Obligations.EncodeDependsOnBitmapOnly := by
  unfold Obligations.EncodeDependsOnBitmapOnly
  refine ⟨fun s hf _ hcm hb hw => ⟨_, exec_encode_of_checks hf hcm hb hw, rfl, hf⟩,
    fun s s' t t' hf hf' hbm hbm' hcm hcm' hlen hb hb' hw hw' hbits ht ht' => ?_, fun s t u hf hbm hcm hb hw ht hu => ?_⟩
  · rw [exec_encode_of_checks hf hcm hb hw] at ht
    rw [exec_encode_of_checks hf' hcm' (hlen ▸ hb') (hlen ▸ hw')] at ht'
    cases ht
    cases ht'
    have hbitmap := State.bitmap_congr hbm hbm' hlen hbits
    obtain ⟨hclen, hread⟩ := encodedBuffer_stream_eq hf hcm hb hw hcm' hbitmap
    refine ⟨hclen, ?_, ?_, ?_, ?_, hclen, hread⟩ <;> simp only [State.encodedBuffer, hbitmap, hlen]
  · rw [exec_encode_of_checks hf hcm hb hw] at ht
    cases ht
    have hcm' := encodedBuffer_cm_wf hcm
    rw [exec_encode_of_checks (s := s.encodedBuffer) hf hcm' hb hw] at hu
    cases hu
    exact encodedBuffer_stream_eq hf hcm hb hw hcm' (encodedBuffer_bitmap hbm)

end

section
/-! SUPPORT. What a decode command leaves when its run gives back some bytes: a unit by the code of its bytes or by a zero mask, then
`DECODE` by its stream (R89 to R96). -/

namespace Sys2Proof.Machine

/-! ### The unit commands -/

/-- `s` after a decode unit command that has given back `bs` from `k` bytes of the stream (R39, R89). -/
def State.restored (s : State) (bs : List Byte) (k : Nat) : State :=
  { s with
    command := none, done := true, result := 0#8, bm := s.bm.writeBytes s.bcur.toNat bs,
    bcur := BitVec.ofNat 32 (s.bcur.toNat + bs.length), ctail := BitVec.ofNat 32 (s.ctail.toNat + k),
    matchBit := runAfter s.matchBit bs }

theorem decUnit_restored {size k : Nat} {unit : DecEnv → DecWork → Except Raise DecWork} {s : State} {bs : List Byte}
    (hn : bs.length ≤ size) (hc : s.clen.toNat ≤ s.cmSize.toNat)
    (h : unit s.decEnv s.decWork = .ok (s.decWork.restore bs k (runAfter s.matchBit bs))) :
    decUnit size bs.length unit s = s.restored bs k :=
  decUnit_ok size _ unit s _ hn hc h

/-- `s` after a decode unit command over `n` bytes with a zero mask: the read cursor and the run state stay (R89). -/
def State.filled (s : State) (n : Nat) : State :=
  { s with
    command := none, done := true, result := 0#8,
    bm := s.bm.writeBytes s.bcur.toNat (List.replicate n (matchByte s.matchBit)), bcur := BitVec.ofNat 32 (s.bcur.toNat + n) }

theorem decUnit_filled {size n : Nat} {unit : DecEnv → DecWork → Except Raise DecWork} {s : State} (hn : n ≤ size)
    (hc : s.clen.toNat ≤ s.cmSize.toNat) (h : unit s.decEnv s.decWork = .ok (s.decWork.fill n)) :
    decUnit size n unit s = s.filled n := by
  rw [decUnit_ok size n unit s _ hn hc h]
  simp [complete, State.completed, State.commitDec, DecWork.fill, DecWork.restore, State.filled]

/-! ### The code of any bytes, or of none (R89, R91, R92)

A unit over no bytes has no code and reads nothing, so that `BCUR` may then stand anywhere. -/

theorem dec1_reads_code {env : DecEnv} {bs : List Byte} {w : DecWork} {m : Bool} (hm : w.matchBit = m) (hn : bs.length ≤ 32)
    (hb : bs = [] ∨ w.bcur + bs.length ≤ env.bmSize) (hs : StreamAt env w.ctail (chunkCode m bs).stage) :
    dec1 env bs.length (chunkCode m bs).nib w = .ok (w.restore bs (chunkCode m bs).stage.length (runAfter m bs)) := by
  subst hm
  rcases hb with rfl | hb
  · exact dec1_zero env 0 w (.inl rfl)
  · exact dec1_inverts env bs w hn hb hs

theorem dec2_reads_code {env : DecEnv} {bs : List Byte} {w : DecWork} {m : Bool} (hm : w.matchBit = m) (hn : bs.length ≤ 512)
    (hb : bs = [] ∨ w.bcur + bs.length ≤ env.bmSize) (hs : StreamAt env w.ctail (blockCode m bs).bytes) :
    dec2 env bs.length (blockCode m bs).mask w = .ok (w.restore bs (blockCode m bs).bytes.length (runAfter m bs)) := by
  subst hm
  rcases hb with rfl | hb
  · exact dec2_zero env 0 w (.inl rfl)
  · rw [← blockCode_matchBit]
    exact (dec2_inverts env bs w hn hb).2 hs

theorem dec3_reads_code {env : DecEnv} {bs : List Byte} {w : DecWork} {m : Bool} (hm : w.matchBit = m) (hn : bs.length ≤ 4096)
    (hb : bs = [] ∨ w.bcur + bs.length ≤ env.bmSize) (hs : StreamAt env w.ctail (regionCode m bs).bytes) :
    dec3 env bs.length (regionCode m bs).mask w = .ok (w.restore bs (regionCode m bs).bytes.length (runAfter m bs)) := by
  subst hm
  rcases hb with rfl | hb
  · exact dec3_zero env 0 w (.inl rfl)
  · rw [← regionCode_matchBit]
    exact (dec3_inverts env bs w hn hb).2 hs

/-! ### `DECODE` (R95, R96) -/

/-- The empty stream, and one of zero `M3` bytes alone, decode to zeros. -/
theorem decodeStream_zero {env : DecEnv} {n : Nat} (bm : Memory) (hb : n ≤ env.bmSize)
    (h : env.clen = 0 ∨ (env.clen = regionCount n ∧ ∀ a, a < env.clen → env.cm.read a = 0#8)) :
    decodeStream env n bm =
      .ok { bm := bm.writeBytes 0 (List.replicate n 0#8), bcur := n, ctail := env.clen, matchBit := false } := by
  by_cases h0 : env.clen = 0
  · rw [decodeStream_empty env n bm h0, h0]
  · obtain ⟨hc, hz⟩ := h.resolve_left h0
    refine decodeStream_ok env n bm _ h0 ?_ rfl
    have hfill := decRegions_zero env (regionCount n) 0 n { bm := bm, bcur := 0, ctail := 0, matchBit := false } (covers_regions n)
      (by simp only; omega) (by simp only; omega) (fun a _ ha => hz a (by simp only at ha; omega))
    have hall : min (4096 * regionCount n) n = n := by unfold regionCount; omega
    rw [Nat.add_zero, hall] at hfill
    rw [hfill, hc]
    simp [decRegions, DecWork.restore, matchByte]

theorem exec_decode_restores {s : State} {bs : List Byte} {m : Bool} (hf : s.fault = false) (hwf : s.bm.wf)
    (hb : s.bitlen.toNat ≤ 8 * s.bmSize.toNat) (hc : s.clen.toNat ≤ s.cmSize.toNat)
    (h : decodeStream s.decEnv (nbytes s.bitlen.toNat) s.bm =
      .ok { bm := s.bm.writeBytes 0 bs, bcur := nbytes s.bitlen.toNat, ctail := s.clen.toNat, matchBit := m }) :
    ∃ bm' : Memory, s.bm.Stored bm' 0 bs ∧ exec .decode s = .next { s with
      command := none, done := true, result := 0#8, bm := bm', bcur := BitVec.ofNat 32 (nbytes s.bitlen.toNat), ctail := s.clen,
      matchBit := m } := by
  refine ⟨_, stored_writeBytes _ _ bs hwf, ?_⟩
  rw [exec_decode s hf, decodeCommand_ok s _ hb hc h]
  simp [complete, State.completed, State.commitDec]

/-- `DECODE` of the stream of a buffer (R95, R98). -/
theorem exec_decode_buffer {s : State} {bs : List Byte} (hf : s.fault = false) (hwf : s.bm.wf)
    (hb : s.bitlen.toNat ≤ 8 * s.bmSize.toNat) (hlen : bs.length = nbytes s.bitlen.toNat) (hc : s.clen.toNat ≤ s.cmSize.toNat)
    (hclen : s.clen.toNat = (bufferStream bs).length) (hs : s.cm.readBytes 0 s.clen.toNat = bufferStream bs) :
    ∃ bm' : Memory, s.bm.Stored bm' 0 bs ∧ exec .decode s = .next { s with
      command := none, done := true, result := 0#8, bm := bm', bcur := BitVec.ofNat 32 bs.length, ctail := s.clen,
      matchBit := runAfter false bs } := by
  have hrun := decodeStream_buffer s.decEnv bs s.bm (hlen ▸ nbytes_le s hb) hclen (hclen ▸ hs)
  rw [hlen] at hrun ⊢
  exact exec_decode_restores hf hwf hb hc hrun

/-! ### `DECODE` after `ENCODE` (R98) -/

theorem Memory.Stored.read_of_lt {m m' : Memory} {bs : List Byte} {a : Nat} (h : m.Stored m' 0 bs) (ha : a < bs.length) :
    m'.read a = bs.getD a 0#8 :=
  (h.2 a).trans (if_pos ⟨Nat.zero_le a, by omega⟩)

theorem Memory.Stored.read_of_le {m m' : Memory} {bs : List Byte} {a : Nat} (h : m.Stored m' 0 bs) (ha : bs.length ≤ a) :
    m'.read a = m.read a :=
  (h.2 a).trans (if_neg (by omega))

/-- The normalised bitmap is what `ENCODE` leaves in the bitmap memory (R81). -/
theorem encodedBuffer_bm_read (s : State) {a : Nat} (ha : a < nbytes s.bitlen.toNat) : s.encodedBuffer.bm.read a = s.bitmap.getD a 0#8 := by
  have h := Memory.readBytes_getD (normalized s.bm s.bitlen.toNat) 0 _ a ha
  rw [Nat.zero_add] at h
  exact h.symm

/-- The stream of an `ENCODE` whose checks pass lies in the code memory (R85). -/
theorem bufferStream_fits {s : State} (hw : wcsize (nbytes s.bitlen.toNat) ≤ s.cmSize.toNat) :
    (bufferStream s.bitmap).length ≤ s.cmSize.toNat := by
  have hcap := bufferStream_length_le s.bitmap
  have hlt := bufferCap_lt_wcsize s.bitmap.length
  rw [s.bitmap_length] at hcap hlt
  omega

end Sys2Proof.Machine
end

section
/-! SUPPORT. Reads of the stream at or beyond `CLEN`: in a fallback chunk, in a marked group, and at a mask byte of a block, a region or
`DECODE` (R88, R112). -/

namespace Sys2Proof.Machine

/-! ### One chunk -/

theorem fullNibble_not_beyond {n : Nat} (hn : n ≤ 32) : nibBeyond (fullNibble n) n = false :=
  nibBeyond_eq_false _ _ (fun g hg h4 => by rw [fullNibble_hasGroup n g hn h4]; simpa using hg) hn

/-- The raw bytes behind a marker run past `CLEN`. -/
theorem dec1_fallback_truncated {env : DecEnv} {n : Nat} {w : DecWork} (h1 : 1 ≤ n) (hn : n ≤ 32) (hb : w.bcur + n ≤ env.bmSize)
    (ht : w.ctail < env.clen) (hm : env.cm.read w.ctail = 0x00#8) (hl : w.ctail + 1 + n > env.clen) :
    dec1 env n (fullNibble n) w = .error ⟨.corruptTruncated, w.bcur⟩ := by
  have hchunk : markedChunk env w.bcur n (fullNibble n) w.matchBit w.ctail = .error ⟨.corruptTruncated, w.bcur⟩ := by
    unfold markedChunk fallbackChunk
    rw [if_pos rfl, cmRead_some _ _ _ ht, hm, if_pos hl]
    rfl
  unfold dec1
  rw [fullNibble_not_beyond hn, if_neg (by simp), if_neg (by omega), if_neg (by omega), if_neg (fullNibble_ne_zero n h1 hn), hchunk]
  rfl

/-- A mask that passes the range test of its group promises its literals to that group's bytes. -/
theorem markCount_eq_countP {gm : Byte} {s : Nat} (hs : s ≤ 8) (h : groupMaskBeyond gm s = false) :
    markCount gm = (List.range' 0 s).countP (hasChild gm) := by
  have hbeyond : (List.range' s (8 - s)).countP (hasChild gm) = 0 := by
    rw [List.countP_eq_zero]
    intro j hj hc
    have hj := List.mem_range'_1.mp hj
    rw [groupMaskBeyond_eq_true gm s j hj.1 (by omega) hc] at h
    cases h
  have hsplit : List.range 8 = List.range' 0 s ++ List.range' s (8 - s) := by
    rw [List.range_eq_range', ← Nat.add_sub_of_le hs, ← List.range'_append_1, Nat.zero_add, Nat.add_sub_cancel_left]
  rw [markCount, hsplit, List.countP_append, hbeyond, Nat.add_zero]

/-- A group whose mask promises more literals than are left before `CLEN`. -/
theorem markedGroup_short {env : DecEnv} {c s t : Nat} (m : Bool) (hs : s ≤ 8) (ht : t < env.clen) (h0 : env.cm.read t ≠ 0x00#8)
    (hb : groupMaskBeyond (env.cm.read t) s = false) (hl : t + 1 + markCount (env.cm.read t) > env.clen) :
    markedGroup env c s m t = .error ⟨.corruptTruncated, c⟩ := by
  rw [markCount_eq_countP hs hb] at hl
  unfold markedGroup
  rw [cmRead_some _ _ _ ht]
  simp only [bind, Except.bind]
  rw [if_neg h0, hb, if_neg (by simp), decodeGroup_short _ _ _ _ _ _ _ hl (by omega)]

/-! ### The commands it stands in -/

/-- A block that raises, wherever in a decode command it stands. -/
theorem Reaches.block_raises {i : Instr} {s u : State} {n : Nat} {mask : Byte} {c : Cause} {a : Word} (h : Reaches i s (.dec2 n mask) u)
    (hf : s.fault = false) (hn : n ≤ 512) (hc : u.clen.toNat ≤ u.cmSize.toNat)
    (hd : dec2 u.decEnv n mask u.decWork = .error ⟨c, a.toNat⟩) : exec i s = .next (s.faultedWith c a) := by
  obtain ⟨hu, hl⟩ := h.raises hf
  exact hl _ _ (fault_of_raise (dec2_raise hu hn hc hd) rfl (by simp))

/-- A region that raises, wherever in a decode command it stands. -/
theorem Reaches.region_raises {i : Instr} {s u : State} {n : Nat} {mask : Byte} {c : Cause} {a : Word} (h : Reaches i s (.dec3 n mask) u)
    (hf : s.fault = false) (hn : n ≤ 4096) (hc : u.clen.toNat ≤ u.cmSize.toNat)
    (hd : dec3 u.decEnv n mask u.decWork = .error ⟨c, a.toNat⟩) : exec i s = .next (s.faultedWith c a) := by
  obtain ⟨hu, hl⟩ := h.raises hf
  exact hl _ _ (fault_of_raise (dec3_raise hu hn hc hd) rfl (by simp))

section
variable {i : Instr} {s u v : State} {n k : Nat} {mask : Byte} (hf : s.fault = false) (hl : v.clen.toNat ≤ v.ctail.toNat)
include hf hl

theorem Reaches.round_truncated (h : Reaches i s (.dec2 n mask) u) (hv : RoundStart n mask u k v) (hm : hasChild mask k = true) :
    exec i s = .next (s.faultedWith .corruptTruncated v.bcur) := by
  obtain ⟨-, hn, hc, -, -, -, htrunc, -, -⟩ := roundStart_raises hv
  exact h.block_raises hf hn hc (htrunc hm hl)

theorem Reaches.block_truncated (h : Reaches i s (.dec3 n mask) u) (hv : BlockStart n mask u k v) (hm : hasChild mask k = true) :
    exec i s = .next (s.faultedWith .corruptTruncated v.bcur) := by
  obtain ⟨-, hn, hc, -, -, -, htrunc, -, -⟩ := blockStart_raises hv
  exact h.region_raises hf hn hc (htrunc hm hl)

/-- `DECODE` that finds no `M3` byte for its region `q` (R95). -/
theorem exec_decode_truncated {q : Nat} (hv : RegionStart s q v) (hq : q < regionCount (nbytes s.bitlen.toNat)) :
    exec .decode s = .next (s.faultedWith .corruptTruncated v.bcur) := by
  obtain ⟨hb, hc, h0, -, -, henv, hrest⟩ := regionStart_rest hf hv hq
  refine fault_of_raise (decode_raise s ⟨.corruptTruncated, v.bcur.toNat⟩ hf hb hc h0 ?_) rfl (by simp)
  obtain ⟨left, hleft⟩ := Nat.exists_eq_add_of_lt hq
  rw [hrest, show regionCount (nbytes s.bitlen.toNat) - q = left + 1 by omega, ← henv]
  simp only [decRegions]
  rw [cmRead_truncated v.decEnv v.decWork.ctail v.decWork.bcur hl]
  rfl

end

end Sys2Proof.Machine
end

section
/-! The obligations of 44_decoder.md: the decode commands, the round trip, and a stream that ends too early. -/

open Sys2Proof Sys2Proof.Machine

/-- Settles O50: `ENCODE` leaves the stream of the normalised bitmap in `CM`, and `DECODE` reads it back whatever `BM` holds. -/
theorem roundTrip : Obligations.RoundTrip := by
  unfold Obligations.RoundTrip
  intro s hf _ hcm hb hw
  refine ⟨_, exec_encode_of_checks hf hcm hb hw, hf, fun bm' hbm' => ?_⟩
  have hclen := encodedBuffer_clen_toNat hf hcm hb hw
  have hstream : s.encodedBuffer.cm.readBytes 0 s.encodedBuffer.clen.toNat = bufferStream s.bitmap := by
    rw [hclen]; exact encodedBuffer_holds_stream hcm
  obtain ⟨bm'', hstored, hdec⟩ := exec_decode_buffer (s := { s.encodedBuffer with bm := bm' }) hf hbm' hb s.bitmap_length
    (hclen.trans_le (bufferStream_fits hw)) hclen hstream
  rw [s.bitmap_length] at hdec
  refine ⟨_, hdec, hf, rfl, fun a ha => ?_, fun a ha => hstored.read_of_le (s.bitmap_length ▸ ha), rfl, rfl, rfl, rfl⟩
  exact (hstored.read_of_lt (s.bitmap_length ▸ ha)).trans (encodedBuffer_bm_read s ha).symm

/-- Settles O43: `Dec1` inverts the code of a chunk in either form, and the command commits what its unit gives back. -/
theorem dec1Completes : Obligations.Dec1Completes := by
  unfold Obligations.Dec1Completes
  exact fun bs s hn hf hwf hc hb hs => exec_dec1_restores hn hf hc hwf (dec1_reads_code rfl hn hb hs.streamAt)

/-- Settles O45: `Dec2` inverts the code of a block, round by round. -/
theorem dec2Completes : Obligations.Dec2Completes := by
  unfold Obligations.Dec2Completes
  exact fun bs s hn hf hwf hc hb hs => ⟨_, stored_writeBytes _ _ bs hwf,
    (exec_dec2 _ _ s hf).trans (congrArg _ (decUnit_restored hn hc (dec2_reads_code rfl hn hb hs.streamAt)))⟩

/-- Settles O46: `Dec3` inverts the code of a region, block by block. -/
theorem dec3Completes : Obligations.Dec3Completes := by
  unfold Obligations.Dec3Completes
  exact fun bs s hn hf hwf hc hb hs => ⟨_, stored_writeBytes _ _ bs hwf,
    (exec_dec3 _ _ s hf).trans (congrArg _ (decUnit_restored hn hc (dec3_reads_code rfl hn hb hs.streamAt)))⟩

/-- Settles O47: a zero mask marks no child, down to the chunks, each of which is filled with the run state. -/
theorem decodeWithoutMask : Obligations.DecodeWithoutMask := by
  unfold Obligations.DecodeWithoutMask
  exact fun n s hf hwf hc hb => ⟨_, stored_writeBytes _ _ _ hwf,
    fun hn => (exec_dec1 n _ s hf).trans (congrArg _ (decUnit_filled hn hc (dec1_zero _ n _ hb))),
    fun hn => (exec_dec2 n _ s hf).trans (congrArg _ (decUnit_filled hn hc (dec2_zero _ n _ hb))),
    fun hn => (exec_dec3 n _ s hf).trans (congrArg _ (decUnit_filled hn hc (dec3_zero _ n _ hb)))⟩

/-- Settles O49: the region loop inverts the code of a buffer; without output there is no stream, or zero `M3` bytes alone. -/
theorem decodeCompletes : Obligations.DecodeCompletes := by
  unfold Obligations.DecodeCompletes
  refine ⟨fun bs s hf hwf hb hlen hc hclen hs => exec_decode_buffer hf hwf hb hlen hc hclen hs, fun s hf hwf hb hc h => ?_⟩
  exact exec_decode_restores hf hwf hb hc
    (decodeStream_zero s.bm (nbytes_le s hb) (h.imp_left fun h0 => by rw [State.decEnv_clen, h0]; rfl))

/-- Settles O57: each unit raises at its first read at or beyond `CLEN`, and the command raises what the unit it has come to raises. -/
theorem truncatedStreamFaults : Obligations.TruncatedStreamFaults := by
  unfold Obligations.TruncatedStreamFaults
  refine ⟨fun i s u n hf h hc h1 hn hb ht hm hl => h.chunk_raises hf hn hc (dec1_fallback_truncated h1 hn hb ht hm hl),
    fun i s u v n g nib hf h hg => ⟨fun hl => ?_, fun ht h0 hb hl => ?_⟩,
    fun i s u v n k mask hf hm hl => ⟨fun h hv => h.round_truncated hf hl hv hm, fun h hv => h.block_truncated hf hl hv hm⟩,
    fun s v q hf hv hq hl => exec_decode_truncated hf hl hv hq⟩
  · exact h.group_raises hf hg (markedGroup_truncated _ _ _ _ _ hl) (.inr fun ht => absurd ht (Nat.not_lt.mpr hl))
  · exact h.group_raises hf hg (markedGroup_short _ (Nat.min_le_left _ _) ht h0 hb hl) (.inr fun _ => h0)

end

section
/-! SUPPORT. A completion right after the acceptance (R21, R99), and the ways out of the fault state (R101). -/

namespace Sys2Proof.Machine

/-- A completion right after the acceptance gives an idle block back, but for `DONE` and `RESULT` (R21, R24). -/
theorem complete_accept_of_idle {s : State} (hs : s.command = none) (w : Word) (res : Byte) :
    complete res (s.accept w) = { s with done := true, result := res } := by
  simp only [complete, State.completed, State.accept, ← hs]

theorem State.SameRegs.fault_eq {s t : State} (h : s.SameRegs t) : t.fault = s.fault := by
  unfold State.SameRegs at h
  rw [h]

/-- The fault state is left by hardware reset and by `SRST`'s word in `CMD` alone (R101). -/
theorem hostMove_leaves_fault {m : HostMove} {s t : State} (hs : s.command = none) (hf : s.fault = true) (h : hostMove m s = .next t)
    (ht : t.fault = false) : m = .reset ∨ m = .writeReg .word 0x00#8 0x02000000#32 := by
  obtain hm | hm | hr := hostMove_faulted hs hf h
  · exact .inl hm
  · exact .inr hm
  · rw [hr.fault_eq, hf] at ht
    cases ht

end Sys2Proof.Machine
end

section
/-! The obligations of 45_control_commands.md: `NOP`, `INIT` and `SRST`. -/

open Sys2Proof Sys2Proof.Machine

/-- Settles O24: an accepted word of `NOP` runs at the block's turn and completes; in the fault state neither the write nor the command
does anything. -/
theorem nopCompletes : Obligations.NopCompletes := by
  unfold Obligations.NopCompletes
  have hdec : decode 0x00000000#32 = some .nop := (decode_encode_iff .nop).mpr rfl
  refine ⟨hdec, fun s hs hf => ⟨s.accept 0x00000000#32, (hostMove_writeCmd hs).trans (issue_ok _ hf), rfl, ?_⟩,
    exec_nop,
    fun s hf => ⟨exec_ignored .nop s hf (by decide), fun hs => (hostMove_writeCmd hs).trans (issue_ignored hf (by decide))⟩⟩
  calc blockTurn (s.accept 0x00000000#32)
      = exec .nop (s.accept 0x00000000#32) := blockTurn_command rfl hdec
    _ = .next (complete 0#8 (s.accept 0x00000000#32)) := exec_nop _ hf
    _ = .next { s with done := true, result := 0#8 } := congrArg _ (complete_accept_of_idle hs _ _)

/-- Settles O25: `INIT` completes with the fresh context, which leaves `BITLEN`, `CLEN` and the memories alone. -/
theorem initCompletes : Obligations.InitCompletes := by
  unfold Obligations.InitCompletes
  exact ⟨(decode_encode_iff .init).mpr rfl, exec_init⟩

/-- Settles O26: `SRST` resets whatever `FAULT` is, every other command is ignored in the fault state, and `hostMove_leaves_fault` says
which host moves leave it. -/
theorem srstCompletes : Obligations.SrstCompletes := by
  unfold Obligations.SrstCompletes
  refine ⟨(decode_encode_iff .srst).mpr rfl, exec_srst, fun s t h => ?_, exec_ignored, fun m s t => hostMove_leaves_fault⟩
  cases (exec_srst s).symm.trans h
  exact readReg_resetRegs .status s

end

section
/-! SUPPORT. The faults: the checks at the start of a command (R105 to R107, R110), the cause and the offset each command can record
(R103, R108, R109, R111), and the masks of a corrupt stream, wherever in a decode command they stand (R113 to R115). -/

namespace Sys2Proof.Machine

/-! ### An illegal word (R49, R104) -/

/-- A fault right after the acceptance leaves what a fault of the idle block would: the word is gone and `DONE` is clear (R118). -/
theorem faultEntry_accept (r : Raise) (s : State) (w : Word) : faultEntry r (s.accept w) = faultEntry r s := rfl

theorem illegalCommand_ok {s : State} (hf : s.fault = false) : illegalCommand s = .next (faultEntry ⟨.illegalCmd, 0⟩ s) :=
  unlessFaulted_ok s _ hf

/-! ### The checks at the start of a command (R105, R106, R107, R110) -/

section
variable {s : State} {n : Nat}

theorem enc1Command_badLen (h : n > 32) : enc1Command n s = s.faultedWith .badLen s.bcur :=
  (if_pos h).trans (faultEntry_reg _ _ s)

theorem enc2Command_badLen (h : n > 512) : enc2Command n s = s.faultedWith .badLen s.bcur :=
  (if_pos h).trans (faultEntry_reg _ _ s)

theorem enc3Command_badLen (h : n > 4096) : enc3Command n s = s.faultedWith .badLen s.bcur :=
  (if_pos h).trans (faultEntry_reg _ _ s)

variable {size : Nat} {unit : DecEnv → DecWork → Except Raise DecWork}

theorem decUnit_badLen (h : n > size) : decUnit size n unit s = s.faultedWith .badLen s.bcur :=
  (if_pos h).trans (faultEntry_reg _ _ s)

theorem decUnit_badClen (hn : n ≤ size) (hc : s.clen.toNat > s.cmSize.toNat) : decUnit size n unit s = s.faultedWith .badClen s.bcur :=
  ((if_neg (Nat.not_lt.mpr hn)).trans (if_pos hc)).trans (faultEntry_reg _ _ s)

theorem encodeCommand_badBitlen (h : s.bitlen.toNat > 8 * s.bmSize.toNat) : encodeCommand s = s.faultedWith .badBitlen 0#32 :=
  if_pos h

theorem encodeCommand_outTooSmall (hb : s.bitlen.toNat ≤ 8 * s.bmSize.toNat) (hw : wcsize (nbytes s.bitlen.toNat) > s.cmSize.toNat) :
    encodeCommand s = s.faultedWith .outTooSmall 0#32 :=
  (if_neg (Nat.not_lt.mpr hb)).trans (if_pos hw)

theorem decodeCommand_badBitlen (h : s.bitlen.toNat > 8 * s.bmSize.toNat) : decodeCommand s = s.faultedWith .badBitlen 0#32 :=
  if_pos h

theorem decodeCommand_badClen (hb : s.bitlen.toNat ≤ 8 * s.bmSize.toNat) (hc : s.clen.toNat > s.cmSize.toNat) :
    decodeCommand s = s.faultedWith .badClen 0#32 :=
  (if_neg (Nat.not_lt.mpr hb)).trans (if_pos hc)

end

/-! ### What a command that faults has recorded (R103, R108, R109, R111) -/

/-- The causes of an encode unit command. -/
def encCauses : List Cause := [.badLen, .outOverflow, .bmRange]

/-- The causes of a decode unit command. -/
def decCauses : List Cause := [.badLen, .badClen, .bmRange, .corruptTruncated, .corruptZeroMask, .corruptMaskRange]

/-- `CAUSE` is one of `causes` and `FADDR` lies among the `n` bytes from `BCUR` on. -/
def State.UnitFault (s : State) (causes : List Cause) (n : Nat) (c : Cause) (a : Word) : Prop :=
  c ∈ causes ∧ s.bcur.toNat ≤ a.toNat ∧ a.toNat ≤ s.bcur.toNat + n

section
variable {s : State} {causes : List Cause} {n : Nat} {c d : Cause} {a : Word}

theorem unitFault_of_check (h : s.faultedWith d s.bcur = s.faultedWith c a) (hd : d ∈ causes) : s.UnitFault causes n c a := by
  obtain ⟨rfl, rfl⟩ := faultedWith_inj h
  exact ⟨hd, Nat.le_refl _, Nat.le_add_right _ _⟩

/-- The offset a raise names stands at `BCUR` or inside `BM`, so that `FADDR` holds it whole (R9, R23). -/
theorem faddr_toNat {r : Raise} (h : InUnit s.bmSize.toNat s.bcur.toNat n r) : (BitVec.ofNat 32 r.addr).toNat = r.addr := by
  obtain ⟨-, -, hin⟩ := h
  have hbm := s.bmSize.isLt
  have hbcur := s.bcur.isLt
  exact (BitVec.toNat_ofNat _ _).trans (Nat.mod_eq_of_lt (by omega))

theorem unitFault_of_raise {r : Raise} (h : faultEntry r s = s.faultedWith c a) (hr : r.cause ∈ causes)
    (hin : InUnit s.bmSize.toNat s.bcur.toNat n r) : s.UnitFault causes n c a := by
  obtain ⟨rfl, rfl⟩ := faultedWith_inj h
  rw [State.UnitFault, faddr_toNat hin]
  exact ⟨hr, hin.1, hin.2.1⟩

theorem EncRaise.mem_encCauses {z b : Nat} {r : Raise} (h : EncRaise z b n r) : r.cause ∈ encCauses := by
  rcases h.1 with h | h <;> rw [h] <;> decide

theorem DecRaise.mem_decCauses {z b : Nat} {r : Raise} (h : DecRaise z b n r) : r.cause ∈ decCauses := by
  rcases h.1 with h | h | h | h <;> rw [h] <;> decide

theorem enc1_encRaise {env : EncEnv} {w : EncWork} {r : Raise} (h : enc1 env n w = .error r) : EncRaise env.bmSize w.bcur n r := by
  obtain ⟨hc, ha, -⟩ := enc1_raises _ _ _ _ h
  exact ⟨hc, by omega, by omega, .inl ha⟩

variable (hf : s.fault = false)
include hf

theorem exec_enc1_fault (h : exec (.enc1 n) s = .next (s.faultedWith c a)) : s.UnitFault encCauses n c a := by
  rw [exec_enc1 n s hf] at h
  have h := Host.Outcome.next.inj h
  rcases enc1Command_cases n s with ⟨-, he⟩ | ⟨-, he⟩ | ⟨-, -, ⟨r, hr, he⟩ | ⟨v, w, -, he⟩⟩ <;> rw [he] at h
  · exact unitFault_of_check h (by decide)
  · exact (complete_ne_faulted (by exact hf) h).elim
  · exact unitFault_of_raise h (enc1_encRaise hr).mem_encCauses (enc1_encRaise hr).2
  · exact (complete_ne_faulted (by exact hf) h).elim

theorem exec_enc2_fault (h : exec (.enc2 n) s = .next (s.faultedWith c a)) : s.UnitFault encCauses n c a := by
  rw [exec_enc2 n s hf] at h
  have h := Host.Outcome.next.inj h
  rcases enc2Command_cases n s with ⟨-, he⟩ | ⟨-, ⟨r, hr, he⟩ | ⟨v, w, -, he⟩⟩ <;> rw [he] at h
  · exact unitFault_of_check h (by decide)
  · exact unitFault_of_raise h (enc2_raises _ _ _ _ hr).mem_encCauses (enc2_raises _ _ _ _ hr).2
  · exact (complete_ne_faulted (by exact hf) h).elim

theorem exec_enc3_fault (h : exec (.enc3 n) s = .next (s.faultedWith c a)) : s.UnitFault encCauses n c a := by
  rw [exec_enc3 n s hf] at h
  have h := Host.Outcome.next.inj h
  rcases enc3Command_cases n s with ⟨-, he⟩ | ⟨-, ⟨r, hr, he⟩ | ⟨v, w, -, he⟩⟩ <;> rw [he] at h
  · exact unitFault_of_check h (by decide)
  · exact unitFault_of_raise h (enc3_raises _ _ _ _ hr).mem_encCauses (enc3_raises _ _ _ _ hr).2
  · exact (complete_ne_faulted (by exact hf) h).elim

/-- A decode unit command, for any unit that raises what decode units raise (R90, R93, R94). -/
theorem decUnit_fault {size : Nat} {unit : DecEnv → DecWork → Except Raise DecWork}
    (hu : ∀ r, unit s.decEnv s.decWork = .error r → DecRaise s.bmSize.toNat s.bcur.toNat n r)
    (h : decUnit size n unit s = s.faultedWith c a) : s.UnitFault decCauses n c a := by
  rcases decUnit_cases size n unit s with ⟨-, he⟩ | ⟨-, -, he⟩ | ⟨-, -, ⟨r, hr, he⟩ | ⟨w, -, he⟩⟩ <;> rw [he] at h
  · exact unitFault_of_check h (by decide)
  · exact unitFault_of_check h (by decide)
  · exact unitFault_of_raise h (hu r hr).mem_decCauses (hu r hr).2
  · exact (complete_ne_faulted (by exact hf) h).elim

theorem exec_dec1_fault {nib : Nibble} (h : exec (.dec1 n nib) s = .next (s.faultedWith c a)) : s.UnitFault decCauses n c a := by
  rw [exec_dec1 n nib s hf] at h
  exact decUnit_fault hf (fun r hr => (dec1_raises _ _ _ _ r hr).1) (Host.Outcome.next.inj h)

theorem exec_dec2_fault {mask : Byte} (h : exec (.dec2 n mask) s = .next (s.faultedWith c a)) : s.UnitFault decCauses n c a := by
  rw [exec_dec2 n mask s hf] at h
  exact decUnit_fault hf (fun r hr => dec2_raises _ _ _ _ r hr) (Host.Outcome.next.inj h)

theorem exec_dec3_fault {mask : Byte} (h : exec (.dec3 n mask) s = .next (s.faultedWith c a)) : s.UnitFault decCauses n c a := by
  rw [exec_dec3 n mask s hf] at h
  exact decUnit_fault hf (fun r hr => dec3_raises _ _ _ _ r hr) (Host.Outcome.next.inj h)

theorem exec_norm_fault (h : exec .norm s = .next (s.faultedWith c a)) : c = .badBitlen ∧ a = 0#32 := by
  rw [exec_norm s hf] at h
  have h := Host.Outcome.next.inj h
  rcases normCommand_cases s with ⟨-, he⟩ | ⟨-, he⟩ <;> rw [he] at h
  · exact (faultedWith_inj h).imp Eq.symm Eq.symm
  · exact (complete_ne_faulted (by exact hf) h).elim

/-- `ENCODE` faults by one of its two checks, or its region loop has raised. -/
theorem exec_encode_fault (h : exec .encode s = .next (s.faultedWith c a)) :
    (c ∈ [.badBitlen, .outTooSmall] ∧ a = 0#32) ∨
    (s.bitlen.toNat ≤ 8 * s.bmSize.toNat ∧ wcsize (nbytes s.bitlen.toNat) ≤ s.cmSize.toNat ∧ c ∈ [.bmRange, .outOverflow]) := by
  rw [exec_encode s hf] at h
  have h := Host.Outcome.next.inj h
  rcases encodeCommand_cases s with ⟨-, he⟩ | ⟨-, -, he⟩ | ⟨hb, hw, he⟩ <;> rw [he] at h
  · obtain ⟨rfl, rfl⟩ := faultedWith_inj h
    exact .inl ⟨by decide, rfl⟩
  · obtain ⟨rfl, rfl⟩ := faultedWith_inj h
    exact .inl ⟨by decide, rfl⟩
  · refine .inr ⟨hb, hw, ?_⟩
    cases hrun : s.encodeRun with
    | error r =>
      rw [hrun] at h
      rw [← cause_of_faultEntry h]
      simpa using encRegions_raises _ _ _ _ _ _ (covers_regions _) hrun
    | ok x =>
      rw [hrun] at h
      exact (complete_ne_faulted (by exact hf) h).elim

/-- An `ENCODE` that passes its checks has room for every byte it writes (R85, R108). -/
theorem exec_encode_fault_checks (hcm : s.cm.wf) (h : exec .encode s = .next (s.faultedWith c a)) :
    c ∈ [.badBitlen, .outTooSmall] ∧ a = 0#32 := by
  refine (exec_encode_fault hf h).resolve_right fun ⟨hb, hw, _⟩ => ?_
  rw [exec_encode_of_checks hf hcm hb hw] at h
  have hfault : s.fault = true := congrArg State.fault (Host.Outcome.next.inj h)
  rw [hf] at hfault
  cases hfault

theorem exec_decode_fault (h : exec .decode s = .next (s.faultedWith c a)) :
    c ∈ [.badBitlen, .badClen, .corruptTruncated, .corruptZeroMask, .corruptMaskRange, .corruptTrailing] ∧
      a.toNat ≤ nbytes s.bitlen.toNat := by
  rw [exec_decode s hf] at h
  have h := Host.Outcome.next.inj h
  rcases decodeCommand_cases s with ⟨-, he⟩ | ⟨-, -, he⟩ | ⟨hb, -, ⟨r, hr, he⟩ | ⟨w, -, he⟩⟩ <;> rw [he] at h
  · obtain ⟨rfl, rfl⟩ := faultedWith_inj h
    exact ⟨by decide, Nat.zero_le _⟩
  · obtain ⟨rfl, rfl⟩ := faultedWith_inj h
    exact ⟨by decide, Nat.zero_le _⟩
  · obtain ⟨rfl, rfl⟩ := faultedWith_inj h
    obtain ⟨hc, ha⟩ := decodeStream_error _ _ _ _ hr
    have hcorrupt := hc.resolve_right fun ⟨_, hgt⟩ => absurd (nbytes_le s hb) (Nat.not_le.mpr hgt)
    exact ⟨List.mem_cons_of_mem _ (List.mem_cons_of_mem _ hcorrupt), (BitVec.toNat_ofNat _ _).trans_le ((Nat.mod_le _ _).trans ha)⟩
  · exact (complete_ne_faulted (by exact hf) h).elim

/-- Every fault of a command names a cause (R22, R103). -/
theorem exec_fault_named {i : Instr} (h : exec i s = .next (s.faultedWith c a)) : c ≠ .none := by
  cases i with
  | nop => exact (complete_ne_faulted hf (Host.Outcome.next.inj ((exec_nop s hf).symm.trans h))).elim
  | init => exact (complete_ne_faulted (by exact hf) (Host.Outcome.next.inj ((exec_init s hf).symm.trans h))).elim
  | srst => exact (Bool.false_ne_true (congrArg State.fault (Host.Outcome.next.inj h))).elim
  | norm => rw [(exec_norm_fault hf h).1]; decide
  | enc1 len => exact ne_of_mem_of_not_mem (exec_enc1_fault hf h).1 (by decide)
  | enc2 len => exact ne_of_mem_of_not_mem (exec_enc2_fault hf h).1 (by decide)
  | enc3 len => exact ne_of_mem_of_not_mem (exec_enc3_fault hf h).1 (by decide)
  | encode =>
    obtain ⟨hc, -⟩ | ⟨-, -, hc⟩ := exec_encode_fault hf h
    · exact ne_of_mem_of_not_mem hc (by decide)
    · exact ne_of_mem_of_not_mem hc (by decide)
  | dec1 len nib => exact ne_of_mem_of_not_mem (exec_dec1_fault hf h).1 (by decide)
  | dec2 len mask => exact ne_of_mem_of_not_mem (exec_dec2_fault hf h).1 (by decide)
  | dec3 len mask => exact ne_of_mem_of_not_mem (exec_dec3_fault hf h).1 (by decide)
  | decode => exact ne_of_mem_of_not_mem (exec_decode_fault hf h).1 (by decide)

end

/-! ### A zero mask byte under a set bit (R113) -/

section
variable {i : Instr} {s u v : State} {n k : Nat} {mask : Byte} (hf : s.fault = false) (hm : hasChild mask k = true)
  (ht : v.ctail.toNat < v.clen.toNat) (hz : v.cm.read v.ctail.toNat = 0x00#8)
include hf hm ht hz

theorem Reaches.round_zeroMask (h : Reaches i s (.dec2 n mask) u) (hv : RoundStart n mask u k v) :
    exec i s = .next (s.faultedWith .corruptZeroMask v.bcur) := by
  obtain ⟨-, hn, hc, -, -, -, -, hzero, -⟩ := roundStart_raises hv
  exact h.block_raises hf hn hc (hzero hm ht hz)

theorem Reaches.block_zeroMask (h : Reaches i s (.dec3 n mask) u) (hv : BlockStart n mask u k v) :
    exec i s = .next (s.faultedWith .corruptZeroMask v.bcur) := by
  obtain ⟨-, hn, hc, -, -, -, -, hzero, -⟩ := blockStart_raises hv
  exact h.region_raises hf hn hc (hzero hm ht hz)

end

/-! ### A mask bit for a child that is not there (R114) -/

theorem ne_zero_of_hasChild {mask : Byte} {j : Nat} (h : hasChild mask j = true) : mask ≠ 0x00#8 := by
  rintro rfl
  rw [hasChild_zero] at h
  cases h

theorem dec1_maskRange {env : DecEnv} {n : Nat} {nib : Nibble} {w : DecWork} (h : nibBeyond nib n = true) :
    dec1 env n nib w = .error ⟨.corruptMaskRange, w.bcur⟩ := if_pos h

theorem dec2_maskRange {env : DecEnv} {n : Nat} {mask : Byte} {w : DecWork} (h : maskBeyond mask (roundCount n) = true) :
    dec2 env n mask w = .error ⟨.corruptMaskRange, w.bcur⟩ := if_pos h

theorem dec3_maskRange {env : DecEnv} {n : Nat} {mask : Byte} {w : DecWork} (h : maskBeyond mask (blockCount n) = true) :
    dec3 env n mask w = .error ⟨.corruptMaskRange, w.bcur⟩ := if_pos h

/-! ### Bytes left over (R115) -/

theorem exec_decode_trailing {s : State} {w : DecWork} (hf : s.fault = false) (hb : s.bitlen.toNat ≤ 8 * s.bmSize.toNat)
    (hc : s.clen.toNat ≤ s.cmSize.toNat) (h0 : s.clen.toNat ≠ 0)
    (h : decRegions s.decEnv (regionCount (nbytes s.bitlen.toNat)) (nbytes s.bitlen.toNat)
      { bm := s.bm, bcur := 0, ctail := 0, matchBit := false } = .ok w)
    (hleft : w.ctail ≠ s.clen.toNat) : exec .decode s = .next (s.faultedWith .corruptTrailing (BitVec.ofNat 32 w.bcur)) := by
  rw [exec_decode s hf, decodeCommand_error s _ hb hc (decodeStream_trailing _ _ _ w h0 h hleft)]
  rfl

/-- A stream that is not empty is the whole code of its buffer (R52, R83). -/
theorem bufferStream_of_ne_nil {bs : List Byte} (h : bufferStream bs ≠ []) : bufferStream bs = (bufferCode bs).bytes :=
  if_neg fun h0 => h (if_pos h0)

end Sys2Proof.Machine
end

section
/-! The obligations of 60_exceptions.md: how a command faults, what it records, and what the fault state allows. -/

open Sys2Proof Sys2Proof.Machine

/-- Settles O9: a word that selects no row decodes to no command, so the block's turn after its acceptance is the fault entry alone. -/
theorem illegalWordFaults : Obligations.IllegalWordFaults := by
  unfold Obligations.IllegalWordFaults
  intro s w hs hf hrows
  refine ⟨s.accept w, (hostMove_writeCmd hs).trans (issue_ok w hf), ?_⟩
  calc blockTurn (s.accept w)
      = runWord w (s.accept w) := blockTurn_busy rfl
    _ = illegalCommand (s.accept w) := runWord_illegal _ ((decode_eq_none_iff w).mpr hrows)
    _ = .next (faultEntry ⟨.illegalCmd, 0⟩ (s.accept w)) := illegalCommand_ok hf
    _ = .next (s.faultedWith .illegalCmd 0#32) := congrArg _ (faultEntry_accept _ s w)

/-- Settles O21: commands and data register writes look at `FAULT` first; both resets give the reset column. -/
theorem faultStateExits : Obligations.FaultStateExits := by
  unfold Obligations.FaultStateExits
  refine ⟨exec_ignored, fun s r w hs hf hr => ?_, fun s _ =>
    ⟨resetRegs s, hardwareReset s, exec_srst s, rfl, fun r => ⟨readReg_resetRegs r s, readReg_hardwareReset r s⟩⟩⟩
  rw [hostMove_writeReg hs r hr, writeData_faulted r w hf]

/-- Settles O22: a command ends by completion or by fault entry (`exec_endsIn`), and a fault names a cause. -/
theorem commandCompletesOrFaults : Obligations.CommandCompletesOrFaults := by
  unfold Obligations.CommandCompletesOrFaults
  intro i s hi hf
  obtain ⟨t, ht⟩ := exec_next i s
  obtain ⟨r, rfl⟩ | hdone := exec_endsIn hi hf ht
  · exact .inr ⟨_, _, exec_fault_named hf ht, ht⟩
  · refine .inl ⟨t, ht, ?_⟩
    rw [hdone]
    exact ⟨rfl, rfl, hf, rfl, rfl⟩

/-- Settles O23: command by command, from what its checks and its unit can raise. -/
theorem causesOfEachCommand : Obligations.CausesOfEachCommand := by
  unfold Obligations.CausesOfEachCommand
  exact fun s c a hf hcm =>
    ⟨fun n h => h.elim (exec_enc1_fault hf) (Or.elim · (exec_enc2_fault hf) (exec_enc3_fault hf)),
      fun n nib mask h => h.elim (exec_dec1_fault hf) (Or.elim · (exec_dec2_fault hf) (exec_dec3_fault hf)),
      exec_norm_fault hf, exec_encode_fault_checks hf hcm, exec_decode_fault hf⟩

/-- Settles O51: the length is the first check of every unit command. -/
theorem badLenFaults : Obligations.BadLenFaults := by
  unfold Obligations.BadLenFaults
  exact fun n nib mask s hf =>
    ⟨fun h => ⟨(exec_enc1 n s hf).trans (congrArg _ (enc1Command_badLen h)), (exec_dec1 n nib s hf).trans (congrArg _ (decUnit_badLen h))⟩,
      fun h => ⟨(exec_enc2 n s hf).trans (congrArg _ (enc2Command_badLen h)), (exec_dec2 n mask s hf).trans (congrArg _ (decUnit_badLen h))⟩,
      fun h => ⟨(exec_enc3 n s hf).trans (congrArg _ (enc3Command_badLen h)), (exec_dec3 n mask s hf).trans (congrArg _ (decUnit_badLen h))⟩⟩

/-- Settles O52: `BITLEN` is the first check of the three commands that read it. -/
theorem badBitlenFaults : Obligations.BadBitlenFaults := by
  unfold Obligations.BadBitlenFaults
  exact fun s hf h => ⟨exec_norm_of_bitlen_gt hf h, (exec_encode s hf).trans (congrArg _ (encodeCommand_badBitlen h)),
    (exec_decode s hf).trans (congrArg _ (decodeCommand_badBitlen h))⟩

/-- Settles O53: the worst case is checked before the first write. -/
theorem outTooSmallFaults : Obligations.OutTooSmallFaults := by
  unfold Obligations.OutTooSmallFaults
  exact fun s hf hb hw => (exec_encode s hf).trans (congrArg _ (encodeCommand_outTooSmall hb hw))

/-- Settles O54: `CLEN` is the second check of every decode command. -/
theorem badClenFaults : Obligations.BadClenFaults := by
  unfold Obligations.BadClenFaults
  exact fun n nib mask s hf hc =>
    ⟨fun hn => (exec_dec1 n nib s hf).trans (congrArg _ (decUnit_badClen hn hc)),
      fun hn => (exec_dec2 n mask s hf).trans (congrArg _ (decUnit_badClen hn hc)),
      fun hn => (exec_dec3 n mask s hf).trans (congrArg _ (decUnit_badClen hn hc)),
      fun hb => (exec_decode s hf).trans (congrArg _ (decodeCommand_badClen hb hc))⟩

/-- Settles O58: the unit that reads the zero byte raises, and the command raises what the unit it has come to raises. -/
theorem zeroMaskFaults : Obligations.ZeroMaskFaults := by
  unfold Obligations.ZeroMaskFaults
  exact ⟨fun i s u v n g nib hf h hg hmarker ht hz => h.group_raises hf hg (markedGroup_zeroMask _ _ _ _ _ ht hz) (.inl hmarker),
    fun i s u v n k mask hf hm ht hz => ⟨(·.round_zeroMask hf hm ht hz), (·.block_zeroMask hf hm ht hz)⟩⟩

/-- Settles O59: each unit tests its mask before it reads anything, and the test finds every bit beyond the unit's children. -/
theorem maskRangeFaults : Obligations.MaskRangeFaults := by
  unfold Obligations.MaskRangeFaults
  refine ⟨fun i s u n nib hf h hn hc ⟨g, hg, h4, hset⟩ => ?_, fun i s u v n g nib hf h hg ht ⟨j, hj, h8, hset⟩ => ?_,
    fun i s u n mask hf hc => ⟨fun h hn ⟨k, hk, h8, hset⟩ => ?_, fun h hn ⟨k, hk, h8, hset⟩ => ?_⟩⟩
  · exact h.chunk_raises hf hn hc (dec1_maskRange (nibBeyond_eq_true nib n g hn hg h4 hset))
  · exact h.group_raises hf hg (markedGroup_maskRange _ _ _ j _ _ ht hj h8 hset) (.inr fun _ => ne_zero_of_hasChild hset)
  · exact h.block_raises hf hn hc (dec2_maskRange (maskBeyond_eq_true mask _ k hk h8 hset))
  · exact h.region_raises hf hn hc (dec3_maskRange (maskBeyond_eq_true mask _ k hk h8 hset))

/-- Settles O60: the region loop reads the code of the buffer and no byte more; a buffer of no bytes has no region. -/
theorem trailingBytesFault : Obligations.TrailingBytesFault := by
  unfold Obligations.TrailingBytesFault
  refine ⟨fun bs s hf hb hlen hc hlt hne hs => ?_, fun s hf hbit hc h0 => ?_⟩
  · rw [bufferStream_of_ne_nil hne] at hlt hs
    have hrun := decRegions_buffer s.decEnv bs s.bm (hlen ▸ nbytes_le s hb) ⟨by simpa using hlt.le, hs⟩
    rw [hlen] at hrun
    exact exec_decode_trailing hf hb hc (by omega) hrun hlt.ne
  · have hclen : s.clen.toNat ≠ 0 := fun h => h0 (BitVec.eq_of_toNat_eq h)
    have hlen : s.bitlen.toNat = 0 := congrArg BitVec.toNat hbit
    refine exec_decode_trailing (w := { bm := s.bm, bcur := 0, ctail := 0, matchBit := false }) hf (by omega) hc hclen ?_ hclen.symm
    rw [hlen]
    rfl

end

section
/-! SUPPORT. What the host's moves do while the block is busy: a write is ignored, `STATUS` can be read, any other read gives a free
value (R28, R126; log 8). -/

namespace Sys2Proof.Machine

section
variable {s : State} (hs : s.busy = true)
include hs

theorem hostWriteReg_busy (width : Width) (off : BitVec 8) (w : Word) : hostWriteReg width off w s = .next s := if_pos hs

theorem hostReadReg_busy_status {width : Width} {off : BitVec 8} (hr : regReached width off = some .status) :
    hostReadReg width off s = s.returned s.statusWord := (if_pos hs).trans (if_pos hr)

theorem hostReadReg_busy_free {width : Width} {off : BitVec 8} (hr : regReached width off ≠ some .status) :
    hostReadReg width off s = s.returnedFree := (if_pos hs).trans (if_neg hr)

theorem hostMove_writeBM_busy {a : Nat} (v : Byte) (h : a < s.bmSize.toNat) : hostMove (.writeBM a v) s = .next s := by
  simp [hostMove, hs, h]

theorem hostMove_writeCM_busy {a : Nat} (v : Byte) (h : a < s.cmSize.toNat) : hostMove (.writeCM a v) s = .next s := by
  simp [hostMove, hs, h]

/-- A write of a memory byte that has a next state lies inside the memory, and is ignored. -/
theorem memoryWrite_busy {size a : Nat} {u t : State}
    (h : (if size ≤ a then .fault .outsideWindow else .next (if s.busy then s else u) : Host.Outcome State Fault Refusal) = .next t) :
    t = s := (inside_next h).symm.trans (if_pos hs)

/-- No host move but a hardware reset disturbs the command in execution (R126). -/
theorem hostMove_busy_sameButRead {m : HostMove} {t : State} (hm : m ≠ .reset) (h : hostMove m s = .next t) : s.SameButRead t := by
  cases m with
  | writeBM a v => cases memoryWrite_busy hs h; rfl
  | writeCM a v => cases memoryWrite_busy hs h; rfl
  | readBM a => exact memoryRead_sameButRead h
  | readCM a => exact memoryRead_sameButRead h
  | writeReg width off w => cases (hostWriteReg_busy hs width off w).symm.trans h; rfl
  | readReg width off => cases h; exact hostReadReg_sameButRead width off s
  | reset => exact absurd rfl hm

end

end Sys2Proof.Machine
end

section
/-! The obligation of 70_reset_and_hazards.md: the host's moves while a command is in execution. -/

open Sys2Proof Sys2Proof.Machine

/-- Settles O10: a write leaves the state and a read `SameButRead`; the offset of a register other than `STATUS` does not reach
`STATUS`. -/
theorem busyProtocol : Obligations.BusyProtocol := by
  unfold Obligations.BusyProtocol
  refine ⟨fun s t m hs => hostMove_busy_sameButRead hs, fun s width off w hs => hostWriteReg_busy hs width off w,
    fun s a v hs => hostMove_writeBM_busy hs v, fun s a v hs => hostMove_writeCM_busy hs v,
    fun s hs => congrArg Host.Outcome.next (hostReadReg_busy_status hs (regReached_offset .status)), fun s r hs hr => ?_⟩
  have hne : regReached .word (regOffset r) ≠ some .status := by simpa [regReached_offset r] using hr
  exact congrArg Host.Outcome.next (hostReadReg_busy_free hs hne)

end
